-- ==== Sys2Proof/Word.lean ====
section
/-! DEFINITION. The word types of the TLK-2460 and the plainest names for its fields (R4, R22, R101, R185). -/

namespace Sys2Proof

/-- One byte of memory (R4). -/
abbrev Byte := BitVec 8
/-- An instruction word (R185). -/
abbrev Word := BitVec 32
/-- A 64-bit value: virtual addresses, control registers, `.D` operands (R22, R101). -/
abbrev Dword := BitVec 64
/-- The twelve bytes of a context register (R101). -/
abbrev XReg := BitVec 96

/-- An x register name (R206). -/
abbrev Reg := BitVec 3
/-- A predicate name (R97). -/
abbrev Pred := BitVec 3
/-- A descriptor name d0 to d15 (R37). -/
abbrev DescN := BitVec 4
/-- A token name k0 to k7 (R98). -/
abbrev Tok := BitVec 3
/-- A handle name h0 to h1023 (R282). -/
abbrev Handle := BitVec 10
/-- A scope code (R3). -/
abbrev ScopeCode := BitVec 3

end Sys2Proof
end

