-- ==== Sys2Proof/Syntax.lean ====
section
/-! DEFINITION. The instructions of Svetong and the part's other indivisible steps: one constructor for each row of the opcode table, those without operands last (R185 to R204, and the steps listed in 95_what_each_step_holds). -/

namespace Sys2Proof

/-- Stall count and guard of the first word (R185, R187). -/
structure Hdr where
  s  : BitVec 3
  gn : Bool
  gp : Pred
  deriving DecidableEq, Repr

/-- Shapes of a register (R192). -/
inductive Sh | d | w3 | h6 | b12
  deriving DecidableEq, Repr

/-- Shape and type of a floating-point form that R192 accepts. -/
inductive FSh | f64 | f32 | f16 | bf16
  deriving DecidableEq, Repr

/-- Integer conditions in the order of their codes (R195). -/
inductive Cond | eq | ne | lt | ge | ltu | geu | gt | le | gtu | leu
  deriving DecidableEq, Repr

/-- Floating-point conditions (R197). -/
inductive FCond | eq | ne | lt | le | gt | ge | un | ord
  deriving DecidableEq, Repr

/-- Size codes of memory forms (R198). -/
inductive MSize | b | h | w | d | w3 | h6 | b12
  deriving DecidableEq, Repr

/-- ATOM operations (R199). -/
inductive AtomOp | add | and | or | xor | min | max | minu | maxu | xchg
  deriving DecidableEq, Repr

/-- Format codes (R160). -/
inductive Fmt
  | fp64 | fp32 | bfx2 | fp16 | bf16 | e4m3 | e5m2 | vb8 | int32 | int16 | int8 | uint8 | int4 | uint4 | aff32
  deriving DecidableEq, Repr

/-- Fence kinds (R199). -/
inductive FenceKind | acq | rel | ar | full
  deriving DecidableEq, Repr

/-- Reductions of TRED (R202), and operations of REDB (R203: add, max, min). -/
inductive RedOp | sum | max | min
  deriving DecidableEq, Repr

/-- Control registers of R204. -/
inductive Creg
  | cl1lim | rsvslot | lease | chkstall | scopemissen | ctxpool | trapvec | reft | cyc | ncy | freq | partid | wdog
  deriving DecidableEq, Repr

/-- A handle operand: the field of the second word, or a register that holds it (R201). -/
inductive HOp
  | imm (h : Handle)
  | reg (x : Reg)
  deriving DecidableEq, Repr

/-- The second word of an engine command (R203). -/
structure EngTail where
  ddesc : DescN
  sdesc : DescN
  tok   : Tok
  scope : ScopeCode
  fe    : Bool
  freg  : Reg
  fdesc : DescN
  deriving DecidableEq, Repr

/-- Role maps of R16, bottom layer first. -/
inductive RoleMap | mccc | cccc | mmcc | mmmc | mmmm
  deriving DecidableEq, Repr

/-- The CREATE request (R390). `roles` gives the map of each tower of the mask by name; `none` is an unlisted map. -/
structure CreateReq where
  tag     : BitVec 16
  towers  : List Nat
  roles   : List (Nat × Option RoleMap)
  flcGib  : Nat
  windows : List (Nat × Bool)
  routes  : List (Option Nat)
  deriving DecidableEq, Repr

/-- A request of the management sideband comes from the host or from the baseboard controller (R390). -/
inductive Origin | host | bmc
  deriving DecidableEq, Repr

/-- A FREEZE request: who makes it, its tag, and the partition (R379, R390). -/
structure FreezeReq where
  origin : Origin
  tag    : BitVec 16
  part   : Nat
  deriving DecidableEq, Repr

/-- One constructor per row of spec/opcode_table.json, in the table's order but for the steps without operands, which stand last. -/
inductive Instr where
  -- integer register forms (R213)
  | add (h : Hdr) (sh : Sh) (ck : Bool) (d a b : Reg)
  | sub (h : Hdr) (sh : Sh) (ck : Bool) (d a b : Reg)
  | mul (h : Hdr) (sh : Sh) (ck : Bool) (d a b : Reg)
  | mulh (h : Hdr) (sh : Sh) (d a b : Reg)
  | mulhu (h : Hdr) (sh : Sh) (d a b : Reg)
  | div (h : Hdr) (sh : Sh) (d a b : Reg)
  | divu (h : Hdr) (sh : Sh) (d a b : Reg)
  | rem (h : Hdr) (sh : Sh) (d a b : Reg)
  | remu (h : Hdr) (sh : Sh) (d a b : Reg)
  | and (h : Hdr) (sh : Sh) (d a b : Reg)
  | or (h : Hdr) (sh : Sh) (d a b : Reg)
  | xor (h : Hdr) (sh : Sh) (d a b : Reg)
  | shl (h : Hdr) (sh : Sh) (d a b : Reg)
  | shr (h : Hdr) (sh : Sh) (d a b : Reg)
  | sar (h : Hdr) (sh : Sh) (d a b : Reg)
  | rol (h : Hdr) (sh : Sh) (d a b : Reg)
  | min (h : Hdr) (sh : Sh) (d a b : Reg)
  | max (h : Hdr) (sh : Sh) (d a b : Reg)
  | minu (h : Hdr) (sh : Sh) (d a b : Reg)
  | maxu (h : Hdr) (sh : Sh) (d a b : Reg)
  | abs (h : Hdr) (sh : Sh) (d a : Reg)
  | clz (h : Hdr) (sh : Sh) (d a : Reg)
  | popc (h : Hdr) (sh : Sh) (d a : Reg)
  | brev (h : Hdr) (sh : Sh) (d a : Reg)
  | mov (h : Hdr) (sh : Sh) (d a : Reg)
  | movXdGn (h : Hdr) (d : Reg) (g : BitVec 3)
  | movGnXa (h : Hdr) (g : BitVec 3) (a : Reg)
  -- immediate and constant forms (R218, R219)
  | addi (h : Hdr) (sh : Sh) (d a : Reg) (imm : BitVec 10)
  | andi (h : Hdr) (sh : Sh) (d a : Reg) (imm : BitVec 10)
  | ori (h : Hdr) (sh : Sh) (d a : Reg) (imm : BitVec 10)
  | xori (h : Hdr) (sh : Sh) (d a : Reg) (imm : BitVec 10)
  | shli (h : Hdr) (sh : Sh) (d a : Reg) (imm : BitVec 10)
  | shri (h : Hdr) (sh : Sh) (d a : Reg) (imm : BitVec 10)
  | sari (h : Hdr) (sh : Sh) (d a : Reg) (imm : BitVec 10)
  | movi (h : Hdr) (d : Reg) (imm : BitVec 16)
  | movh (h : Hdr) (d : Reg) (imm : BitVec 32)
  -- lanes, bit fields, selection, comparison (R220 to R224)
  | lget (h : Hdr) (sh : Sh) (d a : Reg) (k : BitVec 4)
  | lset (h : Hdr) (sh : Sh) (d a : Reg) (k : BitVec 4)
  | lshuf (h : Hdr) (sh : Sh) (d a b : Reg)
  | lsplat (h : Hdr) (sh : Sh) (d a : Reg)
  | bfx (h : Hdr) (sx : Bool) (d a : Reg) (pos lenm1 : BitVec 6)
  | bfi (h : Hdr) (d a : Reg) (pos lenm1 : BitVec 6)
  | sel (h : Hdr) (sh : Sh) (d a b : Reg) (gn : Bool) (p : Pred)
  | cmp (h : Hdr) (sh : Sh) (any : Bool) (cc : Cond) (pd : Pred) (a b : Reg)
  | cmpi (h : Hdr) (cc : Cond) (pd : Pred) (a : Reg) (imm : BitVec 10)
  -- branches (R225, R226)
  | br (h : Hdr) (off : BitVec 19)
  | call (h : Hdr) (d : Reg) (off : BitVec 16)
  | jmp (h : Hdr) (a : Reg)
  | callr (h : Hdr) (d a : Reg)
  | ret (h : Hdr) (a : Reg)
  -- predicates (R228)
  | pand (h : Hdr) (pd pa pb : Pred)
  | por (h : Hdr) (pd pa pb : Pred)
  | pxor (h : Hdr) (pd pa pb : Pred)
  | pnot (h : Hdr) (pd pa : Pred)
  | pmask (h : Hdr) (a : Reg)
  | repf (h : Hdr) (repsm1 : BitVec 6) (hstep rstep : BitVec 3) (lenm1 : BitVec 4)
  | nop (h : Hdr)
  | yield (h : Hdr)
  | endCtx (h : Hdr)
  -- short-vector floating point (R240 to R247)
  | fadd (h : Hdr) (f : FSh) (d a b : Reg)
  | fsub (h : Hdr) (f : FSh) (d a b : Reg)
  | fmul (h : Hdr) (f : FSh) (d a b : Reg)
  | fmin (h : Hdr) (f : FSh) (d a b : Reg)
  | fmax (h : Hdr) (f : FSh) (d a b : Reg)
  | fabs (h : Hdr) (f : FSh) (d a : Reg)
  | fneg (h : Hdr) (f : FSh) (d a : Reg)
  | fdiv (h : Hdr) (f : FSh) (d a b : Reg)
  | fsqrt (h : Hdr) (f : FSh) (d a : Reg)
  | frcp (h : Hdr) (f : FSh) (d a : Reg)
  | frsq (h : Hdr) (f : FSh) (d a : Reg)
  | fexp2 (h : Hdr) (f : FSh) (d a : Reg)
  | flog2 (h : Hdr) (f : FSh) (d a : Reg)
  | fclass (h : Hdr) (f : FSh) (d a : Reg)
  | fma (h : Hdr) (f : FSh) (d a b c : Reg)
  | fms (h : Hdr) (f : FSh) (d a b c : Reg)
  | fnma (h : Hdr) (f : FSh) (d a b c : Reg)
  | fcmp (h : Hdr) (f : FSh) (cc : FCond) (any sig : Bool) (pd : Pred) (a b : Reg)
  | fcvt (h : Hdr) (dst src : Fmt) (d a : Reg)
  | fcvti (h : Hdr) (dst src : Fmt) (d a : Reg)
  | icvtf (h : Hdr) (dst src : Fmt) (d a : Reg)
  | frnd (h : Hdr) (fmt : Fmt) (d a : Reg)
  -- memory (R252 to R262)
  | ld (h : Hdr) (sz : MSize) (n : DescN) (d a : Reg) (imm : BitVec 6)
  | ldp (h : Hdr) (sz : MSize) (n : DescN) (d a : Reg) (imm : BitVec 6)
  | st (h : Hdr) (sz : MSize) (n : DescN) (x a : Reg) (imm : BitVec 6)
  | stp (h : Hdr) (sz : MSize) (n : DescN) (x a : Reg) (imm : BitVec 6)
  | lda (h : Hdr) (sz : MSize) (n : DescN) (sc : ScopeCode) (d a : Reg) (imm : BitVec 3)
  | stl (h : Hdr) (sz : MSize) (n : DescN) (sc : ScopeCode) (x a : Reg) (imm : BitVec 3)
  | ldnt (h : Hdr) (sz : MSize) (n : DescN) (d a : Reg) (imm : BitVec 6)
  | stnt (h : Hdr) (sz : MSize) (n : DescN) (x a : Reg) (imm : BitVec 6)
  | atom (h : Hdr) (op : AtomOp) (dw ar : Bool) (n : DescN) (d a b : Reg)
  | cas (h : Hdr) (dw ar : Bool) (sc : ScopeCode) (n : DescN) (d a b : Reg)
  | atomfAdd (h : Hdr) (dw ar : Bool) (sc : ScopeCode) (n : DescN) (d a b : Reg)
  | fence (h : Hdr) (kind : FenceKind) (sc : ScopeCode)
  | pref (h : Hdr) (l2 : Bool) (n : DescN) (a : Reg) (imm : BitVec 6)
  -- messages and tasks (R263 to R281)
  | send (h : Hdr) (sc : ScopeCode) (pd pe : Pred) (a j b : Reg)
  | recv (h : Hdr) (sc : ScopeCode) (d : Reg) (mask : BitVec 8)
  | spawn (h : Hdr) (a b : Reg)
  | spawnj (h : Hdr) (n : DescN) (d a b : Reg)
  | futw (h : Hdr) (n : DescN) (sc : ScopeCode) (d a : Reg)
  | futr (h : Hdr) (n : DescN) (sc : ScopeCode) (a b : Reg)
  | futf (h : Hdr) (n : DescN) (sc : ScopeCode) (a b : Reg)
  | bar (h : Hdr) (n : BitVec 2)
  | bara (h : Hdr) (d : Reg) (n : BitVec 2)
  | barw (h : Hdr) (a : Reg) (n : BitVec 2)
  | park (h : Hdr) (a : Reg)
  | migr (h : Hdr) (n : DescN) (a : Reg)
  | self (h : Hdr) (d : Reg)
  -- tile engine (R294 to R314)
  | talloc (h : Hdr) (hd : HOp) (a : Reg)
  | tfree (h : Hdr) (hd : HOp)
  | tdesc (h : Hdr) (d : Reg) (ha : HOp)
  | tstat (h : Hdr) (d : Reg) (ha : HOp)
  | twait (h : Hdr) (ha : HOp)
  | tzero (h : Hdr) (hd : HOp)
  | tld (h : Hdr) (n : DescN) (hd : HOp) (a b : Reg)
  | tst (h : Hdr) (n : DescN) (hd : HOp) (a b : Reg)
  | tmma (h : Hdr) (bas : Bool) (hd ha hb : HOp)
  | tmmar (h : Hdr) (bas : Bool) (hd ha hb : HOp)
  | tadd (h : Hdr) (hd ha hb : HOp)
  | tsub (h : Hdr) (hd ha hb : HOp)
  | tmul (h : Hdr) (hd ha hb : HOp)
  | tfma (h : Hdr) (hd ha hb : HOp)
  | tmax (h : Hdr) (hd ha hb : HOp)
  | tmin (h : Hdr) (hd ha hb : HOp)
  | tabs (h : Hdr) (hd ha : HOp)
  | texp (h : Hdr) (hd ha : HOp)
  | trcp (h : Hdr) (hd ha : HOp)
  | tscale (h : Hdr) (hd ha : HOp) (b : Reg)
  | tcvt (h : Hdr) (hd ha : HOp)
  | ttrn (h : Hdr) (hd ha : HOp)
  | tred (h : Hdr) (op : RedOp) (col : Bool) (hd ha : HOp)
  | tscan (h : Hdr) (hd ha hb : HOp)
  | taff (h : Hdr) (hd ha hb : HOp)
  | tcomp (h : Hdr) (hd ha hb : HOp)
  -- engines (R316 to R333)
  | cpy (h : Hdr) (d a b : Reg) (t : EngTail)
  | cpys (h : Hdr) (d a b : Reg) (t : EngTail)
  | gath (h : Hdr) (d a b : Reg) (g : DescN) (le : BitVec 3) (t : EngTail)
  | redb (h : Hdr) (op : RedOp) (fmt : Fmt) (d a b : Reg) (t : EngTail)
  | convb (h : Hdr) (dst src : Fmt) (d a b : Reg) (t : EngTail)
  | rlcs (h : Hdr) (a : Reg) (t : EngTail)
  | estatX (h : Hdr) (d : Reg) (t : Tok)
  | estatP (h : Hdr) (pd : Pred) (t : Tok)
  | wtok (h : Hdr) (t : Tok)
  | rlcq (h : Hdr) (n : DescN) (sel : BitVec 4) (d a : Reg)
  | rlcx (h : Hdr) (n : DescN) (a b : Reg)
  -- system (R334 to R338)
  | rds (h : Hdr) (r : Creg) (d : Reg)
  | wrs (h : Hdr) (r : Creg) (a : Reg)
  | trap (h : Hdr) (code : BitVec 8)
  | tret (h : Hdr)
  | evict (h : Hdr) (a : Reg)
  | tlbiVa (h : Hdr) (d a b : Reg)
  | tlbiAs (h : Hdr) (d b : Reg)
  | tlbiAll (h : Hdr) (d : Reg)
  | tlbiU (h : Hdr) (d a b : Reg)
  | cflush (h : Hdr) (n : DescN) (d a : Reg)
  | pinl (h : Hdr) (n : DescN) (d a : Reg)
  | unpinl (h : Hdr) (n : DescN) (d a : Reg)
  -- register writes that act on the part (R73, R156, R335, R29)
  | cl1limWrite (part : Nat) (v : Dword)
  | rsvslotWrite (part : Nat) (v : Dword)
  | leaseWrite (part : Nat) (v : Dword)
  | freqWrite (part : Nat) (v : Dword)
  | wdogWrite (part : Nat) (v : Dword)
  | errcntWrite (stack : Nat) (v : Dword)
  -- management (R390, R18, R399, R400, R403)
  | create (o : Origin) (r : CreateReq)
  | destroy (o : Origin) (tag : BitVec 16) (part : Nat)
  | roles (o : Origin) (tag : BitVec 16) (part : Nat) (maps : List (Nat × Option RoleMap))
  | bbread (tag : BitVec 16) (die start count : Nat)
  | update (o : Origin) (tag : BitVec 16) (pa len : Nat)
  | patch (o : Origin) (tag : BitVec 16) (pa len : Nat)
  | query (tag : BitVec 16)
  -- Squall and Thaw (R378 to R385)
  | squall (r : FreezeReq) (cb : Nat)
  | thaw (r : FreezeReq) (cb : Nat)
  -- launches (R340 to R366)
  | launchParse (part win : Nat)
  | dependenceCheck (part launch : Nat)
  | dispatch (part launch : Nat)
  | place (part launch : Nat)
  | poolAllocate (part : Nat)
  | poolReturn (part id : Nat)
  | launchCompletion (part launch : Nat)
  | drain (part win : Nat)
  | abort (part win : Nat)
  | reopen (part win : Nat)
  -- residency (R108, R358, R359, R375, R112)
  | fill (cluster : Nat)
  | load (part : Nat)
  | rotation (cluster : Nat)
  | preemption (key : Nat)
  | migration (key : Nat)
  | arrival (key : Nat)
  -- deliveries and performance of accesses (R106, R92, R74, R36, R107, R263, R275, R277, R279, R370)
  | result (k : Nat)
  | poisonedResult (k : Nat)
  | storeAnswer (k : Nat)
  | storePerform (k : Nat)
  | contextLineStore (k : Nat)
  | message (k : Nat)
  | sendStatus (k : Nat)
  | futureWalk (k : Nat)
  | barrierWake (key : Nat) (link : Nat) (n : Nat)
  | timerWake (key : Nat)
  | trapEntry (key : Nat)
  -- translation (R58, R62)
  | translationWalk (k : Nat)
  | walkCompletion (k : Nat)
  -- coherence (R80 to R87)
  | gets (line die : Nat)
  | geto (line die : Nat)
  | upg (line die : Nat)
  | puto (line die : Nat)
  | wrnt (k : Nat)
  | adds (line die : Nat)
  | inv (line die : Nat)
  | rcls (line die : Nat)
  | rcli (line die : Nat)
  | invack (line die : Nat)
  | rcldata (line die : Nat)
  | datas (line die : Nat)
  | datao (line die : Nat)
  | hostMemRead (tag pa n : Nat)
  | hostMemWrite (pa : Nat) (bytes : List Byte)
  | backInvalidationResponse (line : Nat)
  -- errors (R91 to R94)
  | eccCorrected (pa : Nat)
  | uncorrectableError (pa : Nat)
  | memorySideDown (die : Nat)
  | rejoin (die : Nat)
  -- tile engine steps (R290, R291, R306)
  | tilePrepare (quad iu : Nat)
  | tileStart (quad : Nat)
  | tileCommit (quad : Nat)
  | rottime (quad : Nat)
  -- engine steps (R319, R327, R331, R333)
  | ceCompletion (cluster : Nat)
  | bdeCompletion (stack : Nat)
  | rlcClaim (cluster : Nat)
  | rlcCheckpoint (cluster : Nat)
  | rlcxStart (cluster : Nat)
  -- deques (R352 to R357)
  | dequePop (iu : Nat)
  | stealRound (iu : Nat)
  | stealRequest (victim thief : Nat)
  | stealAnswer (thief : Nat)
  -- power, links, firmware (R387 to R401)
  | powerSample (die : Nat)
  | relockEnd (die : Nat)
  | thermalShutdown (die : Nat)
  | hbmThrottle (stack temp : Nat)
  | watchdogExpiry (part : Nat)
  | linkTraining (port width : Nat)
  | portDown (port : Nat)
  | peerTimeout (k : Nat)
  | unassignedWordPattern (w0 w1 : Word) (detail : Nat)
  | consecutiveClockStep (die : Nat)
  | badCommand (part win : Nat)
  -- steps that name nothing: each acts on the lowest-numbered partition, or the patch, for which it is due
  | roleCheck
  | reEnumerate
  | patchSwitch
  | patchTimeout
  | settle
  | spillAll
  | flush
  | copy
  | release
  | scrubComplete
  | thawed
  | coldReset
  | warmReset
  deriving DecidableEq, Repr

end Sys2Proof
end

