-- ==== Sys2Proof/Machine/State.lean ====
section
/-! DEFINITION. The state of the module as plain data: memory and its coherence, context lines and where they are held, outstanding operations, tile engines, engines, partitions and launches, dies and clocks, firmware and links. INVENTORY.md lists every piece with its rule and reset value. -/

namespace Sys2Proof.Machine

/-- A sparse table by number: keys strictly rising (mapWf), an absent key reading as the table's default. -/
abbrev SMap (α : Type) := List (Nat × α)

/-- Memory: (physical address, byte) pairs in the one canonical form of `memWf`; an unlisted byte reads 0 (log 4). -/
abbrev Memory := List Host.Cell

/-! ### Contexts (R96 to R102) -/

/-- The primary line (R96). -/
structure Ctx where
  pc    : Dword
  pred  : Word
  wait  : Word
  stat  : Word
  owner : Word
  link  : Dword
  x     : Vector XReg 8
  deriving DecidableEq, Repr

/-- Position of an agent for scopes (R114), by partition-independent instance number (R136). -/
inductive Pos
  | iu (n : Nat) | quad (n : Nat) | cluster (n : Nat) | die (n : Nat) | tower (n : Nat) | off
  | /-- The one context that an engine command of CTX scope was issued by (R115). -/ own (key : Nat)
  deriving DecidableEq, Repr

/-- Writer named by a scope stamp (R123). A context is named by the physical address of its primary line. -/
inductive Writer
  | ctx (key : Nat) | te (quad : Nat) | ce (cluster : Nat) | rlc (cluster : Nat) | bde (stack : Nat) | dispatcher (die : Nat) | host
  deriving DecidableEq, Repr

/-- Scope stamp of a line (R123); origin `none` includes every agent. -/
structure Stamp where
  scope  : ScopeCode
  origin : Option (Writer × Pos)
  deriving DecidableEq, Repr

/-- Holder of a context line that is not in MEM (R103): a slot (IU x 16 + slot), a CL2 (cluster), or on its way from a CL2 to another or to MEM (R112). -/
inductive Place
  | slot (n : Nat) | cl2 (cluster : Nat) | moving (src : Nat) (dest : Option Nat)
  deriving DecidableEq, Repr

/-- A trap not yet entered (R368, R370, R372). -/
structure Trap where
  code   : Nat
  detail : Nat
  faddr  : Nat
  deriving DecidableEq, Repr

/-- A replay in progress (R230 to R234): the captured instructions with their addresses and word counts. -/
structure Replay where
  block : List (Instr × Nat)
  rep   : Nat
  idx   : Nat
  reps  : Nat
  hstep : Nat
  rstep : Nat
  endPc : Dword
  deriving DecidableEq, Repr

/-- A context line in a slot, in a CL2 or moving, with the issue unit's own state about it, which is no part of the line (R145, R150, R211, R232, R251). `old` lists, for each register, the values that fixed-latency writes replaced, each with the cycle at which its write becomes readable (R150). `way` is the CL2 line it occupies or is moving to: set x 8 + way (R103, R108). -/
structure Held where
  place    : Place
  id       : Nat
  ctx      : Ctx
  next     : Nat
  rdy      : Vector Nat 8
  old      : Vector (List (Nat × XReg)) 8
  flagsAt  : List (Nat × Word)
  replay   : Option Replay
  since    : Nat
  filled   : Nat
  evictReq : Bool
  way      : Nat
  deriving DecidableEq, Repr

/-- What fences need of a context (R126): stamps and VAs read by the loads since its last fence, by number; the number of that fence; the scope of the release fence in force; the number below which its accesses precede every later store; an acquire fence whose loads have not all returned, with the numbers it covers, its scope and its position; and the number below which stores precede every later load. -/
structure FenceSt where
  loads : SMap (Stamp × Nat)
  since : Nat
  rel   : Option ScopeCode
  after : Nat
  acq   : Option (Nat × Nat × ScopeCode × Pos)
  full  : Nat
  deriving DecidableEq, Repr

/-- The trap a TRAPPED context is about to enter, with its SPC, and the causes held behind it (R370, R372). -/
structure TrapQ where
  entering : Option (Trap × Dword)
  nested   : List Trap
  deriving DecidableEq, Repr

/-- What the scheduler keeps of a live context: the tower that bounds its moves after a migration, and the one a migration under way takes it to (R112, R139, R429); the registers that its stalled instruction needs (R106); until it has issued, the PC it starts at and the scope of the acquire that its first instruction is (R117, R133). -/
structure Live where
  id      : Nat
  part    : Nat
  launch  : Nat
  region  : Option Nat
  migr    : Option Nat
  readyAt : Nat
  needs   : BitVec 8
  first   : Option (Dword × ScopeCode)
  deriving DecidableEq, Repr

/-- A g register with the values that its writes replaced, each with the cycle of the write (R154). -/
structure GReg where
  val : Dword
  old : List (Nat × Dword)
  deriving DecidableEq, Repr

/-! ### Memory side (R71 to R90) -/

/-- An L1D or instruction-cache copy, the expiry of its lease and its last use (R71, R72). -/
structure L1Copy where
  iu     : Nat
  line   : Nat
  fetch  : Bool
  expiry : Nat
  used   : Nat
  deriving DecidableEq, Repr

/-- A line in a die's L2 (R75): owned or shared, dirty, LEXP, pin, last use, request outstanding, copy there at all (a pinned way may be empty, R76). The bytes of a dirty line stand in `mem`, which holds every line's latest value (log 10). -/
structure L2Line where
  present : Bool
  owned   : Bool
  dirty   : Bool
  lexp    : Nat
  pinned  : Bool
  used    : Nat
  asked   : Bool
  deriving DecidableEq, Repr

/-- Directory states (R79). -/
inductive DirSt | unc | shd | own | wait
  deriving DecidableEq, Repr

/-- Requests that a home serves (R80). -/
inductive Req
  | gets (die : Nat) | geto (die : Nat) | upg (die : Nat) | wrnt (k : Nat)
  deriving DecidableEq, Repr

/-- A directory entry (R79): state, 24 sharer bits, owner, HOST, acknowledgements still awaited, a snoop of the host under way, the transaction they serve, the queue, and the moment from which the line is listed (R84, R387). -/
structure DirEntry where
  st      : DirSt
  sharers : BitVec 24
  owner   : Nat
  host    : Bool
  await   : Nat
  snoop   : Bool
  serving : Option Req
  queue   : List Req
  born    : Nat
  deriving DecidableEq, Repr

/-- A far-line cache entry (R86, R87): the line held, and the dies it served whose AddS the home has not taken. -/
structure FlcEntry where
  line  : Nat
  valid : Bool
  vec   : BitVec 24
  deriving DecidableEq, Repr

/-- A copy-engine claim at a home with the number of its command: the destination lines at or above its progress mark (R90); or the lines a prepared TST holds (R290). -/
structure Claim where
  holder : Writer
  die    : Nat
  num    : Nat
  lines  : List Nat
  deriving DecidableEq, Repr

/-! ### Translation (R54, R60, R61) -/

/-- A leaf result: the entry's 64 bits, the page's base address and size. -/
structure Leaf where
  bits : Dword
  size : Nat
  deriving DecidableEq, Repr

/-- A translation-cache entry of a cluster (R60). -/
structure TcEntry where
  cluster : Nat
  part    : Nat
  asid    : Nat
  va      : Nat
  leaf    : Leaf
  deriving DecidableEq, Repr

/-- A non-leaf entry in a die's walk cache (R60): the table that the entry of `level` on the path of `va` names, level 5 for the address-space table, and whether it is a 64 KiB table. -/
structure WcEntry where
  die   : Nat
  part  : Nat
  asid  : Nat
  level : Nat
  va    : Nat
  table : Nat
  g64   : Bool
  deriving DecidableEq, Repr

/-- How a walk ended: the trap it raises, or the leaf it found (R58). -/
inductive WalkRes
  | fault (t : Trap) | ok (l : Leaf)
  deriving DecidableEq, Repr

/-- A context that waits for a walk: its line, its cluster, the VA it needs, the VA that a trap reports, whether it fetches, whether the VA is a context identifier, the instruction it waits at and the one that a fault belongs to, which for a block that REPF captures is the captured one (R34, R42, R61, R62, R231); or a prefetch that has issued, with its number. -/
structure Waiter where
  key   : Nat
  clu   : Nat
  va    : Nat
  fva   : Nat
  fetch : Bool
  ctxid : Bool
  pc    : Dword
  spc   : Dword
  op    : Option Nat
  deriving DecidableEq, Repr

/-- A walk of a die with the contexts that wait for it: whether a walker has it, and its outcome and the non-leaf entries it used once the tables have been read (R60 to R62). -/
structure Walk where
  die     : Nat
  part    : Nat
  asid    : Nat
  va      : Nat
  waiters : List Waiter
  active  : Bool
  result  : Option WalkRes
  path    : List (Nat × Nat × Bool)
  deriving DecidableEq, Repr

/-! ### Outstanding operations (R106, R147, R253) -/

/-- A translated access: its pieces, one for each line it touches (R43), the page of each, whether its form is non-temporal (R77), and whether it met a BUSY handle when it issued (R47, R134). -/
structure Access where
  part  : Nat
  asid  : Nat
  desc  : Nat
  va    : Nat
  segs  : List (Nat × Nat)
  pages : List Leaf
  nt    : Bool
  busy  : Bool
  deriving DecidableEq, Repr

/-- Read-modify-writes (R258 to R261, R270, R273, R274, R276). -/
inductive Rmw
  | op (o : AtomOp) | cas (cmp : Dword) | fadd (dw : Bool) (rm : Nat)
  deriving DecidableEq, Repr

/-- TLBI forms (R64). -/
inductive TlbiForm | va | as | all | u
  deriving DecidableEq, Repr

/-- What a variable-latency operation still has to do before it delivers (R106); `got` holds the pieces that a load has read, with their stamps (R118). -/
inductive OpKind
  | value (v : XReg) (bytes : BitVec 12) (flags : BitVec 6)
  | fut (v : XReg)
  | load (a : Access) (sz : MSize) (lm : BitVec 12) (acq : Option ScopeCode) (got : SMap (List Byte × List Stamp))
  | rmw (a : Access) (o : Rmw) (n : Nat) (b : Dword) (acq rel : Option ScopeCode) (after : Nat)
  | pref (a : Access) (l1 : Bool)
  | prefVa (part asid desc va mode : Nat) (l2 : Bool)
  | tile (quad handle : Nat) (stat : Bool)
  | tlbi (f : TlbiForm) (part asid va : Nat) (removed : Option Nat)
  | line (die : Nat) (a : Access) (op : Nat)
  deriving DecidableEq, Repr

/-- An outstanding result: the context and its launch, where it stood, its register, and what is owed. -/
structure Op where
  key    : Nat
  launch : Nat
  pos    : Pos
  reg    : Reg
  kind   : OpKind
  deriving DecidableEq, Repr

/-- A posted store (R253): bytes by physical address, release scope, the accesses it must follow (those numbered below `after`), non-temporal form, VA for its traps, position of the writer, for a store to a primary line that line, the PC of the store and the register its post-advance changed, which a refusal restores (R35), and whether it met a BUSY handle when it issued (R134). -/
structure PStore where
  key    : Nat
  part   : Nat
  launch : Nat
  pos    : Pos
  asid   : Nat
  desc   : Nat
  va     : Nat
  bytes  : List (Nat × Byte)
  rel    : Option ScopeCode
  after  : Nat
  nt     : Bool
  toCtx  : Option Nat
  pc     : Dword
  undo   : Option (Reg × Dword)
  busy   : Bool
  deriving DecidableEq, Repr

/-- Status of a message delivery (R107). -/
inductive SendSt | delivered | full | dead
  deriving DecidableEq, Repr

/-- A SEND whose status has not returned, with the VA of its target (R64, R263). -/
structure SendOp where
  key    : Nat
  part   : Nat
  asid   : Nat
  va     : Nat
  pos    : Pos
  scope  : ScopeCode
  pd     : Pred
  pe     : Pred
  target : Nat
  j      : Reg
  data   : XReg
  status : Option SendSt
  deriving DecidableEq, Repr

/-- A walk over the waiters of a resolved future (R275). -/
structure FutWalk where
  part : Nat
  asid : Nat
  va   : Nat
  word : Dword
  link : Dword
  deriving DecidableEq, Repr

/-! ### Tile engine (R284, R290, R306) -/

/-- A handle's descriptor, with the owning team for the quota (R284, R288). FREE is `alloc = false`. -/
structure TileHandle where
  alloc  : Bool
  scales : Vector Byte 4
  launch : BitVec 16
  level  : BitVec 3
  fcode  : Byte
  mark   : Bool
  esc    : BitVec 4
  flags  : BitVec 6
  baseq  : BitVec 12
  fmt    : Fmt
  blk    : Bool
  shp    : Bool
  team   : Nat
  charged : Bool
  deriving DecidableEq, Repr

/-- Tile operations that run on the engine. -/
inductive TOp
  | zero | ld | st | mma (bas rot : Bool) | elt (fn : Nat) | cvt | trn | red (op : RedOp) (col : Bool) | scan | aff | comp
  deriving DecidableEq, Repr

/-- A tile operation in a subqueue or in its run (R290). -/
structure TileOp where
  op     : TOp
  reads  : List Nat
  hd     : Nat
  ha     : Nat
  hb     : Nat
  key    : Nat
  part   : Nat
  asid   : Nat
  launch : Nat
  rm     : Nat
  scalar : Dword
  mode   : Nat
  va     : Nat
  stride : Nat
  len    : Nat
  seq    : Nat
  prep   : Bool
  fault  : Nat
  segs   : List (Nat × Nat)
  data   : List Byte
  since  : Nat
  deriving DecidableEq, Repr

/-- What a running operation will commit (R291): elements, scales, escapes and flags of a handle, or bytes of memory. -/
structure TileOut where
  handle : Nat
  bytes  : List (Nat × Byte)
  scales : Vector Byte 4
  esc    : BitVec 4
  flags  : BitVec 6
  deriving DecidableEq, Repr

/-- A started operation with its results, or its fault code (R291, R292). -/
structure TileRun where
  op    : TileOp
  fault : Nat
  outs  : List TileOut
  mem   : List (Nat × Byte)
  deriving DecidableEq, Repr

/-- The engine of a quad (R290, R306). -/
structure Te where
  subq    : Vector (List TileOp) 4
  ptr     : Nat
  run     : List TileRun
  rotstep : Word
  deriving DecidableEq, Repr

/-! ### Engines (R316 to R333) -/

/-- A descriptor as software wrote it (R37). -/
structure Desc where
  base  : Dword
  limit : Dword
  attr  : BitVec 128
  deriving DecidableEq, Repr

/-- An engine command with every operand read at issue: destination and source VAs, xb and the register after it, the descriptor whose range it checks as it runs (GATH's data, RLCS's block) or the handler window in its place, the future's VA, and its number, which its claims bear (R90, R318). -/
structure Cmd where
  num    : Nat
  ins    : Instr
  key    : Nat
  id     : Nat
  part   : Nat
  launch : Nat
  asid   : Nat
  rm     : Nat
  pos    : Pos
  mode   : Nat
  tail   : EngTail
  dst    : Nat
  src    : Nat
  b      : XReg
  b1     : XReg
  desc   : Desc
  win    : Bool
  futVa  : Nat
  deriving DecidableEq, Repr

/-- A piece of a command's work: the bytes of one destination line that a row of a copy fills, or one element or group of a base-die engine's command; its destination and source VAs and length, or its index, and the line it was found to lie in when the command started (R90, R324, R325). -/
structure Piece where
  dst  : Nat
  src  : Nat
  len  : Nat
  line : Option Nat
  deriving DecidableEq, Repr

/-- A command under way on a CE or a BDE: what is left to do, the source lines read already with the poison each had (R324), the flags so far, and the fault that ends it (R320, R321). -/
structure EngRun where
  todo : List Piece
  snap : SMap (List Byte × Bool)
  fl   : BitVec 6
  bad  : Option (Nat × Nat)
  deriving DecidableEq, Repr

/-- A cluster's RLC: the commands that wait, the one that runs with its block as the RLC has it, the flags and history records of the run so far, and whether it must stop (R318, R326, R330, R331). -/
structure Rlc where
  queue : List Cmd
  run   : Option Cmd
  blk   : List Byte
  flags : BitVec 6
  hist  : Nat
  stop  : Bool
  deriving DecidableEq, Repr

/-- Registers and queue of a base-die engine (R29, R30, R318). -/
structure Bde where
  queue    : List Cmd
  cmdcnt   : Dword
  errcnt   : Dword
  poisaddr : Dword
  throt    : Bool
  live     : Bool
  temp     : Nat
  deriving DecidableEq, Repr

/-! ### Partitions, launches, tasks (R339 to R367, R390) -/

/-- A level declaration (R137). -/
structure LevelDecl where
  entoff : Word
  tquota : BitVec 16
  ctx    : BitVec 16
  teams  : BitVec 16
  scope  : ScopeCode
  dom    : BitVec 3
  deriving DecidableEq, Repr

/-- A team of a dispatched launch (R138, R141, R355): level, index, instance, the position of its parent among the launch's teams, the VA of its record, how many identifiers its roster holds, how many members have been placed, and the VAs of its roster blocks in order. -/
structure Team where
  level  : Nat
  index  : Nat
  domid  : Nat
  parent : Nat
  record : Nat
  roster : Nat
  placed : Nat
  blocks : List Nat
  deriving DecidableEq, Repr

/-- Progress of a launch (R343 to R366). -/
inductive LaunchSt | waiting | ready | placing | draining | aborting
  deriving DecidableEq, Repr

/-- A live launch with the fields of its record (R341), and whether it is urgent work of a freeze (R381). -/
structure Launch where
  win    : Nat
  slot   : Nat
  st     : LaunchSt
  entry  : Dword
  asid   : Nat
  prio   : BitVec 2
  urgent : Bool
  deppol : Bool
  cstat  : Word
  dtab   : Dword
  args   : Dword
  compl  : Dword
  deps   : List Dword
  levels : List LevelDecl
  teams  : List Team
  nfault : Nat
  ffirst : Nat
  tstart : Nat
  order  : Nat
  deriving DecidableEq, Repr

/-- A task with its tag (R268). -/
structure Task where
  entry  : Dword
  arg0   : XReg
  arg1   : XReg
  link   : Dword
  launch : Nat
  level  : Nat
  dom    : Nat
  sst    : Byte
  domid  : Nat
  deriving DecidableEq, Repr

/-- A line awaited from the context pool (R351): for the next member of a team, or for a task that an IU has popped or stolen, with the slot it holds for it; the identifier once it is granted; whether NWAIT has counted it. -/
structure PoolReq where
  launch  : Nat
  team    : Nat
  task    : Option Task
  iu      : Nat
  stolen  : Bool
  slot    : Option Nat
  id      : Option Nat
  counted : Bool
  deriving DecidableEq, Repr

/-- A pair on its way back to a pool, with the ring entry claimed for it (R351). -/
structure PoolRet where
  id     : Nat
  asid   : Nat
  urgent : Bool
  entry  : Option Nat
  deriving DecidableEq, Repr

/-- An issue unit: last slot (R146), earliest cycle of its next issue, the tasks its deque holds on chip from the own end, how many more lie in its overflow area (R353), what a Squall has put aside of both (R349), owner pops, steal round in progress and REFT before which it does not ask again (R352 to R356), the slots held for tasks, and the one of a steal request under way (R354). -/
structure Iu where
  last   : Nat
  free   : Nat
  deque  : List Task
  spilled : Nat
  aside  : List Task
  asideN : Nat
  pops   : Nat
  asked  : List Nat
  answer : Option (Option Task)
  askAt  : Nat
  heldSlots : List Nat
  askSlot : Option Nat
  deriving DecidableEq, Repr

/-- A launch window: PA of its 64 KiB and SUP-permit bit (R32). -/
structure Window where
  pa  : Nat
  sup : Bool
  deriving DecidableEq, Repr

/-- A role change in progress (R18): tag, affected towers with their new maps, step reached. -/
structure RoleChange where
  tag  : BitVec 16
  maps : List (Nat × RoleMap)
  step : Nat
  deriving DecidableEq, Repr

/-- A Squall or Thaw in progress or a frozen partition (R378 to R384). -/
structure Freeze where
  thaw    : Bool
  cb      : Nat
  num     : Nat
  base    : Nat
  step    : Nat
  frozen  : Bool
  urgent  : Bool
  scrub   : Bool
  uwin    : Nat
  upool   : Dword
  keep    : List (Nat × Nat)
  treq    : Nat
  tfreeze : Nat
  deriving DecidableEq, Repr

/-- A partition (R390) with its control registers (R73, R125, R152, R155, R335); `slots` lists the slots it owns on each link (R404). -/
structure Part where
  towers  : List Nat
  roles   : List (Nat × RoleMap)
  flcGib  : Nat
  windows : List Window
  routes  : List (Option Nat)
  slots   : List (Nat × List Nat)
  cl1lim  : Dword
  rsvslot : Dword
  lease   : Dword
  chkstall : Dword
  scopemissen : Dword
  ctxpool : Dword
  trapvec : Dword
  freqReq : Nat
  wdog    : Dword
  wdogAt  : Nat
  created : Nat
  launches : SMap Launch
  poolWait : List PoolReq
  returns : List PoolRet
  roleChange : Option RoleChange
  freeze  : Option Freeze
  deriving DecidableEq, Repr

/-- The image of a frozen partition (R380): the bytes written to the host's buffer, and what they stand for. -/
structure Image where
  bytes   : List Byte
  digest  : BitVec 512
  tfreeze : Nat
  towers  : List Nat
  roles   : List (Nat × RoleMap)
  mem     : Memory
  poison  : SMap Unit
  timers  : SMap Nat
  handles : SMap TileHandle
  tes     : SMap Te
  gregs   : SMap GReg
  cycs    : SMap Nat
  traps   : SMap TrapQ
  fences  : SMap FenceSt
  toks    : SMap ScopeCode
  iuDeq   : SMap Iu
  part    : Part
  live    : SMap Live
  rlcs    : SMap Rlc
  deriving DecidableEq, Repr

/-! ### Dies, firmware, links (R386 to R403) -/

/-- A die: clock setting and the point from which CYC is counted, the setting a relock leads to, the setting to reach and the moment of the next step, the last sample taken, whether it cools (1) or returns toward REQ (2), temperature, incarnation, liveness (R93, R94, R391 to R393, R395). -/
structure Die where
  cur      : Nat
  cycBase  : Nat
  timeBase : Nat
  relock   : Option Nat
  target   : Nat
  stepAt   : Nat
  sampled  : Nat
  heat     : Nat
  temp     : Nat
  incarn   : BitVec 16
  down     : Bool
  corrected : Nat
  deriving DecidableEq, Repr

/-- A die's firewall registers (R397). -/
structure Firewall where
  lock  : Bool
  hwin  : Vector (BitVec 128) 8
  plim  : Dword
  fwmem : Dword
  deriving DecidableEq, Repr

/-- Firmware: base version and the patches appended to it, the image accepted for the next warm reset, the replaced entries of the call table that its pointer names, and the patch that waits: its tag, its bytes and the functions that nothing enters meanwhile (R399, R400). -/
structure Firmware where
  version : Nat
  patches : List Nat
  pending : Option (List Byte)
  table   : SMap Nat
  patch   : Option (BitVec 16 × List Byte)
  stopped : List Nat
  patchAt : Nat
  deriving DecidableEq, Repr

/-- A partition's entries of the window table as Relnos keeps them (R32, R402): the sequence word stored before the block, the shadow copy, the block, and the request that updates it. -/
structure SeqBlock where
  seq    : Word
  shadow : List Window
  block  : List Window
  tag    : BitVec 16
  deriving DecidableEq, Repr

/-- A CXL port: whether it is up and carries CXL.mem, and the width it trained to (R386, R387). -/
structure Port where
  up    : Bool
  width : Nat
  deriving DecidableEq, Repr

/-- A black-box record (R403). -/
structure BbRec where
  time : Nat
  code : Nat
  die  : Nat
  part : Nat
  seqn : Word
  data : BitVec 128
  deriving DecidableEq, Repr

/-- A black-box ring: next sequence number and records, oldest first. -/
structure BbRing where
  seq  : Word
  recs : List BbRec
  deriving DecidableEq, Repr

/-- A management response (R390): tag, status and words. -/
structure Resp where
  tag    : BitVec 16
  status : Nat
  data   : List Nat
  deriving DecidableEq, Repr

/-- Acknowledgement of a pre-emption request (R376). -/
inductive Ack | evicted | notslot | void
  deriving DecidableEq, Repr

/-- Who asks for a pre-emption (R375): EVICT of a context, a WRS in a partition, rotation in a cluster, a role change or a Squall of a partition, an ABORT of a launch. -/
inductive Requester
  | evict (key : Nat) | wrs (part : Nat) | rotation (clu : Nat) | roles (part : Nat) | squall (part : Nat) | abort (part launch : Nat)
  deriving DecidableEq, Repr

/-- The machine. `timers` lists the deadline each PARK read (R279); `sram` lists the bytes that a near-memory line holds in its SRAM while an owner's copy is ahead of it (R14, R88). `toks` lists the scope at which each token was last settled (R128, R129). `peer` lists the bytes of the peer-module lines in a die's L2, which nothing keeps coherent, with the stamp each was filled with (R123, R128); `hovs` the tower that HOV names for a die's off-module line (R56, R86). `asks` lists who waits for the eviction of a line, `acks` the acknowledgements given (R376). `sent` lists the moment at which each access to a peer that does not answer was sent (R389). `hostErrs` lists the addresses of host writes that were answered with an error (R93, R383). `late` lists the deliveries held for each moving line, `soon` those that its arrival has released, which come before anything else (R106). `tick`, `agenda`, `cur` and `nextId` are the model's own fields (log 1, log 5). -/
structure State where
  tick    : Nat
  agenda  : List Instr
  soon    : List Instr
  late    : SMap (List Instr)
  cur     : Nat
  nextId  : Nat
  now     : Nat
  mem     : Memory
  poison  : SMap Unit
  stamps  : SMap Stamp
  held    : SMap Held
  live    : SMap Live
  tags    : SMap Stamp
  toks    : SMap ScopeCode
  traps   : SMap TrapQ
  fences  : SMap FenceSt
  timers  : SMap Nat
  gregs   : SMap GReg
  l1      : List L1Copy
  l2      : SMap L2Line
  peer    : SMap (List Byte × Stamp)
  hovs    : SMap Nat
  dir     : SMap DirEntry
  sram    : SMap (List Byte)
  flc     : SMap FlcEntry
  claims  : List Claim
  tcache  : List TcEntry
  wcache  : List WcEntry
  walks   : SMap Walk
  ops     : SMap Op
  stores  : SMap PStore
  sends   : SMap SendOp
  futs    : SMap FutWalk
  handles : SMap TileHandle
  tes     : SMap Te
  ces     : SMap (List Cmd)
  runs    : SMap EngRun
  bdes    : SMap Bde
  rlcs    : SMap Rlc
  ius     : SMap Iu
  parts   : SMap Part
  images  : SMap Image
  dies    : SMap Die
  fws     : SMap Firewall
  fware   : Firmware
  wtab    : SMap SeqBlock
  ports   : SMap Port
  bbox    : SMap BbRing
  resps   : List Resp
  asks    : SMap (List Requester)
  acks    : List (Requester × Nat × Ack)
  hostReads : List (Nat × List Byte)
  hostErrs : List Nat
  sent    : SMap Nat
  freeIds : List Nat
  deriving DecidableEq, Repr

/-- Why the machine stops with a fault. No instruction and no step of the part ends in one: traps are next states (R370). -/
inductive Fault
  /-- Raised by nothing: every meaning ends in a next state, and a trap is one. The type has this name only so that it is not empty. Safe. -/
  | neverRaised
  deriving DecidableEq, Repr

/-- Why the machine has no meaning for an instruction. -/
inductive Refusal
  /-- An arm of exec that has no meaning yet, by its mnemonic. Raised by exec alone. Safe: the machine stops where the part goes on. -/
  | notModelled (mnemonic : String)
  deriving DecidableEq, Repr

/-! ### Reset -/

/-- The module right after a cold reset: no partition, no context, memory with nothing listed, every clock at its default (R335, R397, log 3, 4, 6, 7, 8). A table entry that is not listed reads as its default. -/
def State.reset : State where
  tick := 0
  agenda := []
  soon := []
  late := []
  cur := 0
  nextId := 0
  now := 0
  mem := []
  poison := []
  stamps := []
  held := []
  live := []
  tags := []
  toks := []
  traps := []
  fences := []
  timers := []
  gregs := []
  l1 := []
  l2 := []
  peer := []
  hovs := []
  dir := []
  sram := []
  flc := []
  claims := []
  tcache := []
  wcache := []
  walks := []
  ops := []
  stores := []
  sends := []
  futs := []
  handles := []
  tes := []
  ces := []
  runs := []
  bdes := []
  rlcs := []
  ius := []
  parts := []
  images := []
  dies := []
  fws := []
  fware := { version := 0, patches := [], pending := none, table := [], patch := none, stopped := [], patchAt := 0 }
  wtab := []
  ports := []
  bbox := []
  resps := []
  asks := []
  acks := []
  hostReads := []
  hostErrs := []
  sent := []
  freeIds := []

end Sys2Proof.Machine
end

