-- ==== Sys2Proof/Machine/Map.lean ====
section
/-! DEFINITION. Sparse tables and memory in their one canonical form: the operations that read and write them. -/

namespace Sys2Proof.Machine

/-- What the table lists at a key. -/
def mapFind {α : Type} : SMap α → Nat → Option α
  | [], _ => none
  | (j, v) :: r, k => if j = k then some v else mapFind r k

/-- The value at a key, the default where nothing is listed. -/
def mapGet {α : Type} (m : SMap α) (k : Nat) (d : α) : α := (mapFind m k).getD d

/-- Lists a value at a key, keys rising. -/
def mapPut {α : Type} : SMap α → Nat → α → SMap α
  | [], k, v => [(k, v)]
  | (j, w) :: r, k, v =>
    if k < j then (k, v) :: (j, w) :: r else if k = j then (k, v) :: r else (j, w) :: mapPut r k v

/-- Unlists a key. -/
def mapErase {α : Type} : SMap α → Nat → SMap α
  | [], _ => []
  | (j, w) :: r, k => if j = k then r else (j, w) :: mapErase r k

/-- Changes the value at a key. -/
def mapUpd {α : Type} (m : SMap α) (k : Nat) (d : α) (f : α → α) : SMap α := mapPut m k (f (mapGet m k d))

/-- Changes every value. -/
def mapMap {α : Type} (m : SMap α) (f : Nat → α → α) : SMap α := m.map fun e => (e.1, f e.1 e.2)

/-- Every key is below each later one. -/
def mapWf {α : Type} : SMap α → Bool
  | [] => true
  | (k, _) :: r => r.all (fun e => decide (k < e.1)) && mapWf r

/-- A byte of memory; an unlisted one reads 0 (log 4). -/
def memRead (m : Memory) (a : Nat) : Byte := mapGet m a 0

/-- Writes a byte; a zero is unlisted, so that equal memories are equal lists. -/
def memWrite (m : Memory) (a : Nat) (b : Byte) : Memory := if b = 0 then mapErase m a else mapPut m a b

/-- The canonical form of memory: addresses rising, no zero listed. -/
def memWf (m : Memory) : Bool := mapWf m && m.all (fun c => c.2 != 0)

/-- Writes bytes at rising addresses. -/
def memWriteList : Memory → Nat → List Byte → Memory
  | m, _, [] => m
  | m, a, b :: r => memWriteList (memWrite m a b) (a + 1) r

/-- Writes (address, byte) pairs in order. -/
def memWriteAll : Memory → List (Nat × Byte) → Memory
  | m, [] => m
  | m, (a, b) :: r => memWriteAll (memWrite m a b) r

/-- The bytes from an address on. -/
def memReadList (m : Memory) (a : Nat) : Nat → List Byte
  | 0 => []
  | n + 1 => memRead m a :: memReadList m (a + 1) n

/-- A number from bytes, least significant first (R4). -/
def leToNat : List Byte → Nat
  | [] => 0
  | b :: r => b.toNat + 256 * leToNat r

/-- The `n` bytes of a number, least significant first (R4). -/
def leBytes : Nat → Nat → List Byte
  | 0, _ => []
  | n + 1, v => BitVec.ofNat 8 v :: leBytes n (v / 256)

/-- Numbers the elements of a list from `a`. -/
def numberFrom {α : Type} (a : Nat) : List α → List (Nat × α)
  | [] => []
  | x :: r => (a, x) :: numberFrom (a + 1) r

/-- Bits `lo` to `lo + len - 1` of a value. -/
def getF {n : Nat} (w : BitVec n) (lo len : Nat) : Nat := (w.toNat >>> lo) % 2 ^ len

/-- A value with bits `lo` to `lo + len - 1` replaced. -/
def setF {n : Nat} (w : BitVec n) (lo len v : Nat) : BitVec n :=
  (w &&& ~~~(BitVec.ofNat n ((2 ^ len - 1) <<< lo))) ||| BitVec.ofNat n ((v % 2 ^ len) <<< lo)

/-- A two's complement reading of the low `w` bits of a number. -/
def signedNat (w v : Nat) : Int := if 2 * (v % 2 ^ w) < 2 ^ w then (v % 2 ^ w : Nat) else ((v % 2 ^ w : Nat) : Int) - 2 ^ w

/-- The low `w` bits of an integer. -/
def wrapInt (w : Nat) (v : Int) : Nat := (v % (2 ^ w : Nat)).toNat

/-- The numbers from `a` to `a + n - 1`. -/
def rangeFrom (a n : Nat) : List Nat := (List.range n).map (a + ·)

end Sys2Proof.Machine
end

