-- ==== Sys2Proof/Machine/SoftFloat.lean ====
section
/-! DEFINITION. Exact floating-point arithmetic and its one rounding, for every scalar format (R161, R162, R172 to R174, R182, R241). -/

namespace Sys2Proof.Machine

/-- Sticky flags in the order of PRED[25:20]: FINX, FUNF, FOVF, FDIVZ, FINV, IOVF from bit 0 (R97). -/
abbrev Fl := BitVec 6
def flNx : Fl := 1
def flUf : Fl := 2
def flOf : Fl := 4
def flDz : Fl := 8
def flNv : Fl := 16
def flIo : Fl := 32

/-- Fields of a scalar format (R161). `ieee` formats have infinities and signalling NaNs. -/
structure FFmt where
  ebits : Nat
  mbits : Nat
  bias  : Nat
  inf   : Bool
  snan  : Bool
  deriving DecidableEq, Repr

def ffp64 : FFmt := ⟨11, 52, 1023, true, true⟩
def ffp32 : FFmt := ⟨8, 23, 127, true, true⟩
def ffp16 : FFmt := ⟨5, 10, 15, true, true⟩
def fbf16 : FFmt := ⟨8, 7, 127, true, true⟩
def fe4m3 : FFmt := ⟨4, 3, 7, false, false⟩
def fe5m2 : FFmt := ⟨5, 2, 15, true, false⟩

/-- Width of a format in bits. -/
def FFmt.width (f : FFmt) : Nat := f.ebits + f.mbits + 1
/-- Exponent of the last place of the subnormals. -/
def FFmt.qmin (f : FFmt) : Int := 1 - (f.bias : Int) - f.mbits
/-- Code of the infinity or, in E4M3, of the NaN: one past the largest finite magnitude. -/
def FFmt.top (f : FFmt) : Nat := if f.inf then (2 ^ f.ebits - 1) * 2 ^ f.mbits else 2 ^ (f.ebits + f.mbits) - 1
/-- The canonical NaN (R162). -/
def FFmt.nan (f : FFmt) : Nat := if f.inf then f.top + 2 ^ (f.mbits - 1) else f.top

/-- The value of a floating-point datum; a finite one is `m * 2 ^ e` with `m` nonzero. -/
inductive FVal
  | nan (sig : Bool) | inf (neg : Bool) | zero (neg : Bool) | fin (neg : Bool) (m : Nat) (e : Int)
  deriving DecidableEq, Repr

/-- Reads a datum (R161, R162). -/
def fDecode (f : FFmt) (bits : Nat) : FVal :=
  let neg := bits.testBit (f.ebits + f.mbits)
  let mag := bits % 2 ^ (f.ebits + f.mbits)
  let man := mag % 2 ^ f.mbits
  let ex := mag / 2 ^ f.mbits
  if mag = 0 then .zero neg
  else if f.inf && mag = f.top then .inf neg
  else if mag > f.top || (!f.inf && mag = f.top) then .nan (f.snan && !(man.testBit (f.mbits - 1)))
  else if ex = 0 then .fin neg man f.qmin
  else .fin neg (man + 2 ^ f.mbits) (f.qmin + ex - 1)

/-- Whether the magnitude `k + rem / 2 ^ sh` is taken up to `k + 1` (R172). Modes: 0 RNE, 1 RTZ, 2 RUP, 3 RDN, 4 RNA. -/
def roundUp (rm : Nat) (neg : Bool) (k rem sh : Nat) : Bool :=
  match rm with
  | 0 => decide (2 * rem > 2 ^ sh) || (decide (2 * rem = 2 ^ sh) && k % 2 = 1)
  | 1 => false
  | 2 => !neg && rem != 0
  | 3 => neg && rem != 0
  | _ => decide (2 * rem ≥ 2 ^ sh) && rem != 0

/-- `m * 2 ^ e` in units of `2 ^ q`, rounded, and whether that changed it. -/
def roundAt (rm : Nat) (neg : Bool) (m : Nat) (e q : Int) : Nat × Bool :=
  if q ≤ e then (m * 2 ^ (e - q).toNat, false)
  else
    let sh := (q - e).toNat
    let k := m / 2 ^ sh
    let rem := m % 2 ^ sh
    (if roundUp rm neg k rem sh then k + 1 else k, rem != 0)

/-- Floor of the binary logarithm of `m * 2 ^ e`. -/
def expOf (m : Nat) (e : Int) : Int := e + m.log2

/-- Rounds the finite value `(m + d) * 2 ^ e` to a format, `d` in (0, 1) when `sticky` and 0 otherwise; with `sticky`, `m` has at least two bits more than the format (R172, R174). -/
def fRound (f : FFmt) (rm : Nat) (neg : Bool) (m : Nat) (e : Int) (sticky : Bool) : Nat × Fl :=
  let m' := 4 * m + (if sticky then 1 else 0)
  let e' := e - 2
  let sgn := if neg then 2 ^ (f.ebits + f.mbits) else 0
  let E := expOf m' e'
  let qu := E - f.mbits
  let q := max qu f.qmin
  let (k, nx) := roundAt rm neg m' e' q
  let (ku, _) := roundAt rm neg m' e' qu
  let Eu := expOf ku qu
  let tiny := decide (Eu < f.qmin + f.mbits)
  let mag := (q - f.qmin).toNat * 2 ^ f.mbits + k
  if mag ≥ f.top then
    let big := if f.inf && (rm = 0 || rm = 4 || (rm = 2 && !neg) || (rm = 3 && neg)) then f.top else f.top - 1
    (sgn + big, flOf ||| flNx)
  else (sgn + mag, if nx then (if tiny then flUf ||| flNx else flNx) else 0)

/-- A value in a format: rounded, NaNs canonical, an infinity without a code becoming the NaN with FINV (R162, R175). -/
def fEncode (f : FFmt) (rm : Nat) (v : FVal) (sticky : Bool := false) : Nat × Fl :=
  match v with
  | .nan sig => (f.nan, if sig then flNv else 0)
  | .inf neg => if f.inf then ((if neg then 2 ^ (f.ebits + f.mbits) else 0) + f.top, 0) else (f.nan, flNv)
  | .zero neg => (if neg then 2 ^ (f.ebits + f.mbits) else 0, 0)
  | .fin neg m e => fRound f rm neg m e sticky

/-- The value with its sign inverted. -/
def FVal.negate : FVal → FVal
  | .nan s => .nan s
  | .inf n => .inf (!n)
  | .zero n => .zero (!n)
  | .fin n m e => .fin (!n) m e

/-- The value without its sign. -/
def FVal.magnitude : FVal → FVal
  | .nan s => .nan s
  | .inf _ => .inf false
  | .zero _ => .zero false
  | .fin _ m e => .fin false m e

def FVal.isNan : FVal → Bool | .nan _ => true | _ => false
def FVal.isSig : FVal → Bool | .nan s => s | _ => false
def FVal.isInf : FVal → Bool | .inf _ => true | _ => false
def FVal.isZero : FVal → Bool | .zero _ => true | _ => false
def FVal.neg : FVal → Bool | .nan _ => false | .inf n => n | .zero n => n | .fin n _ _ => n

/-- The integer `v * 2 ^ -q` of a finite value that is a multiple of `2 ^ q`. -/
def FVal.scaled (v : FVal) (q : Int) : Int :=
  match v with
  | .fin n m e => let k : Int := (m * 2 ^ (e - q).toNat : Nat); if n then -k else k
  | _ => 0

/-- The value `k * 2 ^ q`, a zero taking the given sign. -/
def ofScaled (k q : Int) (zneg : Bool) : FVal :=
  if k = 0 then .zero zneg else .fin (decide (k < 0)) k.natAbs q

def FVal.lastPlace : FVal → Int | .fin _ _ e => e | _ => 0

/-- FINV for a signalling NaN among the inputs (R162). -/
def sigFlags (vs : List FVal) : Fl := if vs.any FVal.isSig then flNv else 0

/-- Exact product; 0 x infinity is a NaN with FINV (R241). -/
def fvMul (a b : FVal) : FVal × Fl :=
  if a.isNan || b.isNan then (.nan false, sigFlags [a, b])
  else
    let n := a.neg != b.neg
    match a, b with
    | .inf _, .zero _ => (.nan false, flNv)
    | .zero _, .inf _ => (.nan false, flNv)
    | .inf _, _ => (.inf n, 0)
    | _, .inf _ => (.inf n, 0)
    | .fin _ m e, .fin _ m' e' => (.fin n (m * m') (e + e'), 0)
    | _, _ => (.zero n, 0)

/-- Exact sum; an exact zero is +0, or -0 under RDN, and like-signed zeros keep their sign (R241). -/
def fvAdd (rm : Nat) (a b : FVal) : FVal × Fl :=
  if a.isNan || b.isNan then (.nan false, sigFlags [a, b])
  else
    match a, b with
    | .inf n, .inf n' => if n = n' then (.inf n, 0) else (.nan false, flNv)
    | .inf n, _ => (.inf n, 0)
    | _, .inf n => (.inf n, 0)
    | .zero n, .zero n' => (.zero (if n = n' then n else decide (rm = 3)), 0)
    | .zero _, v => (v, 0)
    | v, .zero _ => (v, 0)
    | x, y =>
      let q := min x.lastPlace y.lastPlace
      (ofScaled (x.scaled q + y.scaled q) q (decide (rm = 3)), 0)

/-- `a * b + c` before its rounding (R244). -/
def fvFma (rm : Nat) (a b c : FVal) : FVal × Fl :=
  let (p, f1) := fvMul a b
  let (r, f2) := fvAdd rm p c
  (r, f1 ||| f2)

/-- Comparison of two values that are no NaN: -1, 0 or 1, zeros equal (R246). -/
def fvCmp (a b : FVal) : Int :=
  match a, b with
  | .inf n, .inf n' => if n = n' then 0 else if n then -1 else 1
  | .inf n, _ => if n then -1 else 1
  | _, .inf n => if n then 1 else -1
  | x, y =>
    let q := min x.lastPlace y.lastPlace
    let d := x.scaled q - y.scaled q
    if d < 0 then -1 else if d = 0 then 0 else 1

/-- Newton's iteration from above for the integer square root. -/
def isqrtLoop (m : Nat) : Nat → Nat → Nat
  | 0, x => x
  | fuel + 1, x => let y := (x + m / x) / 2; if y < x then isqrtLoop m fuel y else x

/-- Floor of the square root. -/
def isqrt (m : Nat) : Nat := if m = 0 then 0 else isqrtLoop m (m.log2 + 8) (2 ^ (m.log2 / 2 + 1))

/-- A quotient or root to more than the format's places: value, and whether something was cut off. -/
abbrev Approx := FVal × Bool × Fl

/-- `a / b` (R241). -/
def fvDiv (a b : FVal) : Approx :=
  if a.isNan || b.isNan then (.nan false, false, sigFlags [a, b])
  else
    let n := a.neg != b.neg
    match a, b with
    | .inf _, .inf _ => (.nan false, false, flNv)
    | .zero _, .zero _ => (.nan false, false, flNv)
    | .inf _, _ => (.inf n, false, 0)
    | _, .inf _ => (.zero n, false, 0)
    | .zero _, _ => (.zero n, false, 0)
    | _, .zero _ => (.inf n, false, flDz)
    | .fin _ m e, .fin _ m' e' =>
      let sh := 64 + m'.log2
      (.fin n (m * 2 ^ sh / m') (e - e' - sh), m * 2 ^ sh % m' != 0, 0)
    | _, _ => (.nan false, false, 0)

/-- The square root (R241). -/
def fvSqrt (a : FVal) : Approx :=
  match a with
  | .nan s => (.nan false, false, if s then flNv else 0)
  | .zero n => (.zero n, false, 0)
  | .inf n => if n then (.nan false, false, flNv) else (.inf false, false, 0)
  | .fin true _ _ => (.nan false, false, flNv)
  | .fin false m e =>
    let odd := (e % 2).toNat
    let M := m * 2 ^ (odd + 128)
    let r := isqrt M
    (.fin false r ((e - odd - 128) / 2), r * r != M, 0)

/-- The reciprocal of the square root (R241). -/
def fvRsqrt (a : FVal) : Approx :=
  match a with
  | .nan s => (.nan false, false, if s then flNv else 0)
  | .zero n => (.inf n, false, flDz)
  | .inf n => if n then (.nan false, false, flNv) else (.zero false, false, 0)
  | .fin true _ _ => (.nan false, false, flNv)
  | .fin false m e =>
    let odd := (e % 2).toNat
    let M := m * 2 ^ odd
    let sh := 64 + M.log2
    let r := isqrt (2 ^ (2 * sh) / M)
    (.fin false r (-(e - odd) / 2 - sh), r * r * M != 2 ^ (2 * sh), 0)

/-- Bounds of `2 ^ (F / 2 ^ t)` in units of `2 ^ -W`: bit `i` of the fraction contributes the `i`-th repeated root of 2. -/
def exp2Loop (W F t : Nat) : Nat → Nat → Nat → Nat → Nat → Nat → Nat × Nat
  | 0, _, _, _, lo, hi => (lo, hi + 2)
  | n + 1, i, cl, cu, lo, hi =>
    let cl' := isqrt (cl * 2 ^ W)
    let cu' := isqrt (cu * 2 ^ W) + 1
    if t ≥ i && F.testBit (t - i) then exp2Loop W F t n (i + 1) cl' cu' (lo * cl' / 2 ^ W) (hi * cu' / 2 ^ W + 1)
    else exp2Loop W F t n (i + 1) cl' cu' lo hi

/-- Floor of `2 ^ (F / 2 ^ t + 64)` for a fraction that is no integer, at the first precision that settles it. -/
def exp2Bits (F t : Nat) : Nat → Nat → Nat
  | 0, _ => 2 ^ 64
  | fuel + 1, W =>
    let (lo, hi) := exp2Loop W F t (W + 4) 1 (2 * 2 ^ W) (2 * 2 ^ W) (2 ^ W) (2 ^ W)
    if lo / 2 ^ (W - 64) = hi / 2 ^ (W - 64) then lo / 2 ^ (W - 64) else exp2Bits F t fuel (2 * W)

/-- Two to the power of a value (R241): exact exactly for integers. -/
def fvExp2 (a : FVal) : Approx :=
  match a with
  | .nan s => (.nan false, false, if s then flNv else 0)
  | .zero _ => (.fin false 1 0, false, 0)
  | .inf n => if n then (.zero false, false, 0) else (.inf false, false, 0)
  | .fin n m e =>
    if expOf m e ≥ 13 then (.fin false (2 ^ 64) (if n then -16384 else 16384), true, 0)
    else if expOf m e < -62 then (.fin false (if n then 2 ^ 64 - 1 else 2 ^ 64) (-64), true, 0)
    else if e ≥ 0 then
      let k : Int := (m * 2 ^ e.toNat : Nat)
      (.fin false 1 (if n then -k else k), false, 0)
    else
      let t := (-e).toNat
      let k : Int := if n then -(m : Int) else m
      let I := k / (2 ^ t : Nat)
      let F := (k % (2 ^ t : Nat)).toNat
      if F = 0 then (.fin false 1 I, false, 0) else (.fin false (exp2Bits F t 8 128) (I - 64), true, 0)

/-- Bits of the logarithm of a number in [1, 2) held as bounds in units of `2 ^ -W`: the bits settled and their count. -/
def log2Loop (W : Nat) : Nat → Nat → Nat → Nat → Nat → Nat × Nat
  | 0, _, _, acc, j => (acc, j)
  | n + 1, lo, hi, acc, j =>
    let l2 := lo * lo / 2 ^ W
    let h2 := hi * hi / 2 ^ W + 1
    if l2 ≥ 2 * 2 ^ W then log2Loop W n (l2 / 2) (h2 / 2 + 1) (2 * acc + 1) (j + 1)
    else if h2 < 2 * 2 ^ W then log2Loop W n l2 h2 (2 * acc) (j + 1)
    else (acc, j)

/-- The logarithm of `m * 2 ^ e`, no power of two, as `(V, j)`: it lies strictly between `V * 2 ^ -j` and `(V + 1) * 2 ^ -j`, with at least 60 bits in `V`. -/
def log2Bits (m : Nat) (e : Int) : Nat → Nat → Int × Nat
  | 0, W => (e + m.log2, W)
  | fuel + 1, W =>
    let k := m.log2
    let lo := m * 2 ^ W / 2 ^ k
    let (acc, j) := log2Loop W W lo (if m * 2 ^ W % 2 ^ k = 0 then lo else lo + 1) 0 0
    let V := (e + k) * (2 ^ j : Nat) + acc
    if (if V ≥ 0 then V.natAbs else V.natAbs - 1) ≥ 2 ^ 60 then (V, j) else log2Bits m e fuel (2 * W)

/-- The binary logarithm (R241): exact exactly for powers of two. -/
def fvLog2 (a : FVal) : Approx :=
  match a with
  | .nan s => (.nan false, false, if s then flNv else 0)
  | .zero _ => (.inf true, false, flDz)
  | .inf n => if n then (.nan false, false, flNv) else (.inf false, false, 0)
  | .fin true _ _ => (.nan false, false, flNv)
  | .fin false m e =>
    if m = 2 ^ m.log2 then (ofScaled (e + m.log2) 0 false, false, 0)
    else
      let (V, j) := log2Bits m e 8 128
      if V ≥ 0 then (.fin false V.natAbs (-j), true, 0) else (.fin true (V.natAbs - 1) (-j), true, 0)

/-- An approximation rounded to a format, with the flags of both. -/
def fFinish (f : FFmt) (rm : Nat) (r : Approx) : Nat × Fl :=
  let (b, fl) := fEncode f rm r.1 r.2.1
  (b, fl ||| r.2.2)

/-- An exact result rounded to a format, with the flags of both. -/
def fExact (f : FFmt) (rm : Nat) (r : FVal × Fl) : Nat × Fl := fFinish f rm (r.1, false, r.2)

/-- A value rounded to an integer (R175): the integer, and whether that changed it. -/
def fvToInt (rm : Nat) : FVal → Int × Bool
  | .fin n m e => let (k, nx) := roundAt rm n m e 0; (if n then -(k : Int) else k, nx)
  | _ => (0, false)

/-- The value of an integer; zero is +0. -/
def fvOfInt (k : Int) : FVal := ofScaled k 0 false

end Sys2Proof.Machine
end

