-- ==== Sys2Proof/Machine/Flags.lean ====
section
/-! DEFINITION. Sticky flags and comparison results: integer overflow (R215), conditions (R195, R223, R246), and classes (R243). -/

namespace Sys2Proof.Machine

/-- IOVF of a checking form: the exact signed result lies outside the lane (R215). -/
def overflows (w : Nat) (r : Int) : Bool := decide (r < -(2 ^ (w - 1) : Nat)) || decide (r > (2 ^ (w - 1) : Nat) - 1)

/-- An integer condition on two lanes of `w` bits (R195, R223). -/
def condHolds (cc : Cond) (w a b : Nat) : Bool :=
  match cc with
  | .eq => a == b
  | .ne => a != b
  | .lt => decide (signedNat w a < signedNat w b)
  | .ge => decide (signedNat w a ≥ signedNat w b)
  | .ltu => decide (a < b)
  | .geu => decide (a ≥ b)
  | .gt => decide (signedNat w a > signedNat w b)
  | .le => decide (signedNat w a ≤ signedNat w b)
  | .gtu => decide (a > b)
  | .leu => decide (a ≤ b)

/-- A floating-point condition (R246). -/
def fcondHolds (cc : FCond) (a b : FVal) : Bool :=
  let un := a.isNan || b.isNan
  match cc with
  | .eq => !un && fvCmp a b = 0
  | .ne => un || fvCmp a b != 0
  | .lt => !un && fvCmp a b = -1
  | .le => !un && fvCmp a b != 1
  | .gt => !un && fvCmp a b = 1
  | .ge => !un && fvCmp a b != -1
  | .un => un
  | .ord => !un

/-- FINV of a comparison: any NaN for a signalling one, else a signalling NaN (R246). -/
def fcmpFlags (sig : Bool) (a b : FVal) : Fl :=
  if (sig && (a.isNan || b.isNan)) || a.isSig || b.isSig then flNv else 0

/-- The class mask of a datum (R243). -/
def fclassOf (f : FFmt) (bits : Nat) : Nat :=
  match fDecode f bits with
  | .nan sig => if sig then 2 ^ 8 else 2 ^ 9
  | .inf n => if n then 1 else 2 ^ 7
  | .zero n => if n then 2 ^ 3 else 2 ^ 4
  | .fin n _ _ =>
    let sub := bits % 2 ^ (f.ebits + f.mbits) < 2 ^ f.mbits
    if n then (if sub then 2 ^ 2 else 2 ^ 1) else (if sub then 2 ^ 5 else 2 ^ 6)

/-- Whether lanes' results make the predicate: all, or any, of the active ones (R223). -/
def aggregate (any : Bool) (rs : List Bool) : Bool := if any then rs.any id else rs.all id

end Sys2Proof.Machine
end

