-- ==== Sys2Proof/WellFormed.lean ====
section
/-! DEFINITION. The checks of the encoding chapter that the field widths alone do not enforce (R187, R194 to R204). A step that is no instruction has no encoding and is not well formed as one. -/

namespace Sys2Proof

/-- R187: GN:GP = 0b1000 names no guard. -/
def hdrWf (h : Hdr) : Bool := !(h.gn && h.gp == 0)

/-- Lane count of a shape (R209). -/
def shLanes : Sh → Nat
  | .d => 1 | .w3 => 3 | .h6 => 6 | .b12 => 12

/-- Lane width of a shape in bits (R209). -/
def shWidth : Sh → Nat
  | .d => 64 | .w3 => 32 | .h6 => 16 | .b12 => 8

/-- Format code (R160). -/
def fmtCode : Fmt → Nat
  | .fp64 => 0 | .fp32 => 1 | .bfx2 => 2 | .fp16 => 3 | .bf16 => 4 | .e4m3 => 5 | .e5m2 => 6 | .vb8 => 7
  | .int32 => 8 | .int16 => 9 | .int8 => 10 | .uint8 => 11 | .int4 => 12 | .uint4 => 13 | .aff32 => 14

/-- SFMT and DFMT of FCVTI, ICVTF and FRND on the floating side: codes 0, 1, 3, 4 (R197). -/
def fmtIsIeee : Fmt → Bool
  | .fp64 | .fp32 | .fp16 | .bf16 => true
  | _ => false

/-- Integer formats, codes 8 to 13 (R160). -/
def fmtIsInt : Fmt → Bool
  | .int32 | .int16 | .int8 | .uint8 | .int4 | .uint4 => true
  | _ => false

/-- Shift immediates name an amount from 0 to w - 1 (R194). -/
def shiftImmOk (sh : Sh) (imm : BitVec 10) : Bool := imm.toNat < shWidth sh

/-- FE = 0 leaves FREG and FDESC zero (R203). -/
def tailWf (t : EngTail) : Bool := t.fe || (t.freg == 0 && t.fdesc == 0)

/-- CMPI takes condition codes 0 to 7 (R195). -/
def cmpiCcOk : Cond → Bool
  | .gtu | .leu => false
  | _ => true

/-- REDB formats 0, 1, 4, 8 (R203). -/
def redbFmtOk : Fmt → Bool
  | .fp64 | .fp32 | .bf16 | .int32 => true
  | _ => false

/-- The operand constraints of an instruction beside its guard. -/
def operandsWf : Instr → Bool
  | .shli _ sh _ _ imm | .shri _ sh _ _ imm | .sari _ sh _ _ imm => shiftImmOk sh imm
  | .lget _ sh _ _ k | .lset _ sh _ _ k => sh != .d && k.toNat < shLanes sh
  | .lshuf _ sh .. | .lsplat _ sh .. => sh != .d
  | .bfx _ _ _ _ pos len | .bfi _ _ _ pos len => pos.toNat + len.toNat + 1 ≤ 64
  | .sel _ _ _ _ _ gn p => !(gn && p == 0)
  | .cmpi _ cc .. => cmpiCcOk cc
  | .fcvt _ dst src .. => fmtCode dst ≤ 6 && fmtCode src ≤ 6 && dst != src
  | .fcvti _ dst src .. => fmtIsInt dst && fmtIsIeee src
  | .icvtf _ dst src .. => fmtIsIeee dst && fmtIsInt src
  | .frnd _ f .. => fmtIsIeee f
  | .ldp _ _ _ d a _ => d != a
  | .send _ _ pd pe .. => !(pd == pe && pd != 0)
  | .recv _ _ d mask => mask != 0 && !mask.getLsbD d.toNat
  | .redb _ _ fmt _ _ _ t => redbFmtOk fmt && tailWf t
  | .convb _ dst src _ _ _ t => fmtCode dst ≤ 13 && fmtCode src ≤ 13 && dst != src && tailWf t
  | .cpy _ _ _ _ t | .cpys _ _ _ _ t | .gath _ _ _ _ _ _ t => tailWf t
  | .rlcs _ _ t => tailWf t && t.ddesc == 0
  | .rlcq _ _ sel .. => sel.toNat ≤ 10
  | _ => true

/-- The guard field of an instruction; a step that is no instruction has none. -/
def instrHdr : Instr → Option Hdr
  | .add h .. | .sub h .. | .mul h .. | .mulh h .. | .mulhu h .. | .div h .. | .divu h .. | .rem h .. | .remu h ..
  | .and h .. | .or h .. | .xor h .. | .shl h .. | .shr h .. | .sar h .. | .rol h .. | .min h .. | .max h ..
  | .minu h .. | .maxu h .. | .abs h .. | .clz h .. | .popc h .. | .brev h .. | .mov h .. | .movXdGn h .. | .movGnXa h ..
  | .addi h .. | .andi h .. | .ori h .. | .xori h .. | .shli h .. | .shri h .. | .sari h .. | .movi h .. | .movh h ..
  | .lget h .. | .lset h .. | .lshuf h .. | .lsplat h .. | .bfx h .. | .bfi h .. | .sel h .. | .cmp h .. | .cmpi h ..
  | .br h .. | .call h .. | .jmp h .. | .callr h .. | .ret h .. | .pand h .. | .por h .. | .pxor h .. | .pnot h .. | .pmask h ..
  | .repf h .. | .nop h | .yield h | .endCtx h
  | .fadd h .. | .fsub h .. | .fmul h .. | .fmin h .. | .fmax h .. | .fabs h .. | .fneg h .. | .fdiv h .. | .fsqrt h ..
  | .frcp h .. | .frsq h .. | .fexp2 h .. | .flog2 h .. | .fclass h .. | .fma h .. | .fms h .. | .fnma h .. | .fcmp h ..
  | .fcvt h .. | .fcvti h .. | .icvtf h .. | .frnd h ..
  | .ld h .. | .ldp h .. | .st h .. | .stp h .. | .lda h .. | .stl h .. | .ldnt h .. | .stnt h .. | .atom h .. | .cas h ..
  | .atomfAdd h .. | .fence h .. | .pref h .. | .send h .. | .recv h .. | .spawn h .. | .spawnj h .. | .futw h .. | .futr h ..
  | .futf h .. | .bar h .. | .bara h .. | .barw h .. | .park h .. | .migr h .. | .self h ..
  | .talloc h .. | .tfree h .. | .tdesc h .. | .tstat h .. | .twait h .. | .tzero h .. | .tld h .. | .tst h .. | .tmma h ..
  | .tmmar h .. | .tadd h .. | .tsub h .. | .tmul h .. | .tfma h .. | .tmax h .. | .tmin h .. | .tabs h .. | .texp h ..
  | .trcp h .. | .tscale h .. | .tcvt h .. | .ttrn h .. | .tred h .. | .tscan h .. | .taff h .. | .tcomp h ..
  | .cpy h .. | .cpys h .. | .gath h .. | .redb h .. | .convb h .. | .rlcs h .. | .estatX h .. | .estatP h .. | .wtok h ..
  | .rlcq h .. | .rlcx h .. | .rds h .. | .wrs h .. | .trap h .. | .tret h | .evict h .. | .tlbiVa h .. | .tlbiAs h ..
  | .tlbiAll h .. | .tlbiU h .. | .cflush h .. | .pinl h .. | .unpinl h .. => some h
  | _ => none

/-- The whole check: an instruction, its guard and its operands. -/
def wellFormed (i : Instr) : Bool :=
  match instrHdr i with
  | some h => hdrWf h && operandsWf i
  | none => false

end Sys2Proof
end

