-- ==== Sys2Proof/Decode.lean ====
section
/-! DEFINITION. The decoder, total on any bytes, and after it the encoder, both from the field tables of 09 (R185 to R204) and the tables the instruction chapters repeat. -/

namespace Sys2Proof

/-- Bits [lo+len-1:lo] of a word read as a number. -/
def fld (w lo len : Nat) : Nat := w / 2 ^ lo % 2 ^ len

/-- One bit of a word. -/
def fbit (w i : Nat) : Bool := fld w i 1 == 1

/-- Why bytes give no instruction: too few of them, or a pattern of R189 with the detail of its first failing check. -/
inductive DecodeError
  | truncated
  | illegal (detail : Nat)
  deriving DecidableEq, Repr

/-- The smallest detail among the failing checks (R189 orders the checks by detail). -/
def firstFailing : List (Nat × Bool) → Option Nat
  | [] => none
  | (d, bad) :: rest =>
    match firstFailing rest with
    | none => if bad then some d else none
    | some e => if bad && d ≤ e then some d else some e

/-- Stall count and guard (R185). -/
def decHdr (w : Nat) : Hdr := { s := BitVec.ofNat 3 (fld w 29 3), gn := fbit w 28, gp := BitVec.ofNat 3 (fld w 25 3) }

/-- Check 5 of R189. -/
def guardBad (w : Nat) : Bool := fld w 25 4 == 8

/-- An instruction unless a check fails (R189). -/
def decFinish (w : Nat) (cs : List (Nat × Bool)) (i : Instr) : Except DecodeError Instr :=
  match firstFailing ((5, guardBad w) :: cs) with
  | none => .ok i
  | some n => .error (.illegal n)

/-- Field D, A or B as a register name. -/
def rD (w : Nat) : BitVec 3 := BitVec.ofNat 3 (fld w 16 3)
def rA (w : Nat) : BitVec 3 := BitVec.ofNat 3 (fld w 13 3)
def rB (w : Nat) : BitVec 3 := BitVec.ofNat 3 (fld w 10 3)

/-- Shape code (R192). -/
def decSh : Nat → Sh
  | 0 => .d | 1 => .w3 | 2 => .h6 | _ => .b12

/-- SH and FT together (R192): the lane format, or nothing. -/
def decFSh (sh ft : Nat) : Option FSh :=
  match sh, ft with
  | 0, 0 => some .f64 | 1, 0 => some .f32 | 2, 0 => some .f16 | 2, 1 => some .bf16
  | _, _ => none

/-- Condition code of CMP (R195). -/
def decCond : Nat → Cond
  | 0 => .eq | 1 => .ne | 2 => .lt | 3 => .ge | 4 => .ltu | 5 => .geu | 6 => .gt | 7 => .le | 8 => .gtu | _ => .leu

/-- Condition code of FCMP (R197). -/
def decFCond : Nat → FCond
  | 0 => .eq | 1 => .ne | 2 => .lt | 3 => .le | 4 => .gt | 5 => .ge | 6 => .un | _ => .ord

/-- Size code (R198). -/
def decSize : Nat → MSize
  | 0 => .b | 1 => .h | 2 => .w | 3 => .d | 4 => .w3 | 5 => .h6 | _ => .b12

/-- ATOM operation (R199). -/
def decAtomOp : Nat → AtomOp
  | 0 => .add | 1 => .and | 2 => .or | 3 => .xor | 4 => .min | 5 => .max | 6 => .minu | 7 => .maxu | _ => .xchg

/-- Format code (R160); code 15 is reserved. -/
def decFmt : Nat → Fmt
  | 0 => .fp64 | 1 => .fp32 | 2 => .bfx2 | 3 => .fp16 | 4 => .bf16 | 5 => .e4m3 | 6 => .e5m2 | 7 => .vb8
  | 8 => .int32 | 9 => .int16 | 10 => .int8 | 11 => .uint8 | 12 => .int4 | 13 => .uint4 | _ => .aff32

/-- FENCE kind (R199). -/
def decKind : Nat → FenceKind
  | 0 => .acq | 1 => .rel | 2 => .ar | _ => .full

/-- Reduction code of TRED and REDB (R202, R203). -/
def decRedOp : Nat → RedOp
  | 0 => .sum | 1 => .max | _ => .min

/-- Control register numbers (R204). -/
def decCreg : Nat → Option Creg
  | 0x01 => some .cl1lim | 0x02 => some .rsvslot | 0x03 => some .lease | 0x04 => some .chkstall
  | 0x05 => some .scopemissen | 0x06 => some .ctxpool | 0x07 => some .trapvec | 0x08 => some .reft
  | 0x09 => some .cyc | 0x0A => some .ncy | 0x0B => some .freq | 0x0C => some .partid | 0x0D => some .wdog
  | _ => none

/-- Major 0x00 (R193, R213). -/
def dec00 (w : Nat) : Except DecodeError Instr :=
  let h := decHdr w
  let sh := decSh (fld w 8 2)
  let d := rD w; let a := rA w; let b := rB w
  let res : Nat × Bool := (3, fbit w 7)
  let ckRes : Nat × Bool := (3, fbit w 6)
  let unary : Nat × Bool := (3, fld w 10 3 != 0)
  let two := fun i : Instr => decFinish w [res, ckRes] i
  let one := fun i : Instr => decFinish w [res, ckRes, unary] i
  match fld w 0 6 with
  | 0x00 => decFinish w [res] (.add h sh (fbit w 6) d a b)
  | 0x01 => decFinish w [res] (.sub h sh (fbit w 6) d a b)
  | 0x02 => decFinish w [res] (.mul h sh (fbit w 6) d a b)
  | 0x03 => two (.mulh h sh d a b)
  | 0x04 => two (.mulhu h sh d a b)
  | 0x05 => two (.div h sh d a b)
  | 0x06 => two (.divu h sh d a b)
  | 0x07 => two (.rem h sh d a b)
  | 0x08 => two (.remu h sh d a b)
  | 0x09 => two (.and h sh d a b)
  | 0x0A => two (.or h sh d a b)
  | 0x0B => two (.xor h sh d a b)
  | 0x0C => two (.shl h sh d a b)
  | 0x0D => two (.shr h sh d a b)
  | 0x0E => two (.sar h sh d a b)
  | 0x0F => two (.rol h sh d a b)
  | 0x10 => two (.min h sh d a b)
  | 0x11 => two (.max h sh d a b)
  | 0x12 => two (.minu h sh d a b)
  | 0x13 => two (.maxu h sh d a b)
  | 0x14 => one (.abs h sh d a)
  | 0x15 => one (.clz h sh d a)
  | 0x16 => one (.popc h sh d a)
  | 0x17 => one (.brev h sh d a)
  | 0x20 => one (.mov h sh d a)
  | 0x21 => decFinish w [res, ckRes, (3, fld w 13 3 != 0), (4, fld w 8 2 != 0)] (.movXdGn h d b)
  | 0x22 => decFinish w [res, ckRes, unary, (4, fld w 8 2 != 0)] (.movGnXa h d a)
  | _ => .error (.illegal 2)

/-- Majors 0x01 to 0x07 (R194, R218). -/
def decRI (w : Nat) : Except DecodeError Instr :=
  let h := decHdr w
  let sh := decSh (fld w 11 2)
  let d := rD w; let a := rA w
  let imm := BitVec.ofNat 10 (fld w 0 10)
  let res : Nat × Bool := (3, fbit w 10)
  let amount : Nat × Bool := (6, !shiftImmOk sh imm)
  match fld w 19 6 with
  | 0x01 => decFinish w [res] (.addi h sh d a imm)
  | 0x02 => decFinish w [res] (.andi h sh d a imm)
  | 0x03 => decFinish w [res] (.ori h sh d a imm)
  | 0x04 => decFinish w [res] (.xori h sh d a imm)
  | 0x05 => decFinish w [res, amount] (.shli h sh d a imm)
  | 0x06 => decFinish w [res, amount] (.shri h sh d a imm)
  | _ => decFinish w [res, amount] (.sari h sh d a imm)

/-- Major 0x0A (R195, R220). -/
def dec0A (w : Nat) : Except DecodeError Instr :=
  let h := decHdr w
  let sh := decSh (fld w 8 2)
  let d := rD w; let a := rA w; let b := rB w
  let k := BitVec.ofNat 4 (fld w 4 4)
  let noD : Nat × Bool := (4, fld w 8 2 == 0)
  let noB : Nat × Bool := (3, fld w 10 3 != 0)
  let kOk : Nat × Bool := (6, !(fld w 4 4 < shLanes sh))
  let noK : Nat × Bool := (3, fld w 4 4 != 0)
  match fld w 0 4 with
  | 0 => decFinish w [noD, noB, kOk] (.lget h sh d a k)
  | 1 => decFinish w [noD, noB, kOk] (.lset h sh d a k)
  | 2 => decFinish w [noD, noK] (.lshuf h sh d a b)
  | 3 => decFinish w [noD, noB, noK] (.lsplat h sh d a)
  | _ => .error (.illegal 2)

/-- POS and LEN - 1 of the BF format (R191, R221). -/
def bfLen (w : Nat) : BitVec 6 := BitVec.ofNat 6 (fld w 11 2 * 16 + fld w 0 4)
def bfPos (w : Nat) : BitVec 6 := BitVec.ofNat 6 (fld w 4 6)

/-- Majors 0x0B to 0x0F (R195, R221 to R224). -/
def decBfSel (w : Nat) : Except DecodeError Instr :=
  let h := decHdr w
  let sh := decSh (fld w 8 2)
  let d := rD w; let a := rA w; let b := rB w
  let range : Nat × Bool := (6, !((bfPos w).toNat + (bfLen w).toNat + 1 ≤ 64))
  match fld w 19 6 with
  | 0x0B => decFinish w [range] (.bfx h (fbit w 10) d a (bfPos w) (bfLen w))
  | 0x0C => decFinish w [(3, fbit w 10), range] (.bfi h d a (bfPos w) (bfLen w))
  | 0x0D => decFinish w [(3, fld w 4 4 != 0), (6, fld w 0 4 == 8)] (.sel h sh d a b (fbit w 3) (BitVec.ofNat 3 (fld w 0 3)))
  | 0x0E => decFinish w [(3, fbit w 7), (3, fld w 0 2 != 0), (4, 10 ≤ fld w 2 4)]
      (.cmp h sh (fbit w 6) (decCond (fld w 2 4)) d a b)
  | _ => decFinish w [] (.cmpi h (decCond (fld w 10 3)) d a (BitVec.ofNat 10 (fld w 0 10)))

/-- Majors 0x10 to 0x15 (R196, R225 to R235). -/
def decCtl (w : Nat) : Except DecodeError Instr :=
  let h := decHdr w
  let d := rD w; let a := rA w; let b := rB w
  let noD : Nat × Bool := (3, fld w 16 3 != 0)
  let noA : Nat × Bool := (3, fld w 13 3 != 0)
  let noB : Nat × Bool := (3, fld w 10 3 != 0)
  let noSh : Nat × Bool := (4, fld w 8 2 != 0)
  let res : Nat × Bool := (3, fld w 6 2 != 0)
  match fld w 19 6 with
  | 0x10 => decFinish w [] (.br h (BitVec.ofNat 19 (fld w 0 19)))
  | 0x11 =>
    match fld w 0 6 with
    | 0 => decFinish w [noD, noB, noSh, res] (.jmp h a)
    | 1 => decFinish w [noB, noSh, res] (.callr h d a)
    | 2 => decFinish w [noD, noB, noSh, res] (.ret h a)
    | _ => .error (.illegal 2)
  | 0x12 => decFinish w [] (.call h d (BitVec.ofNat 16 (fld w 0 16)))
  | 0x13 =>
    match fld w 0 6 with
    | 0 => decFinish w [noSh, res] (.pand h d a b)
    | 1 => decFinish w [noSh, res] (.por h d a b)
    | 2 => decFinish w [noSh, res] (.pxor h d a b)
    | 3 => decFinish w [noB, noSh, res] (.pnot h d a)
    | 4 => decFinish w [noD, noB, noSh, res] (.pmask h a)
    | _ => .error (.illegal 2)
  | 0x14 => decFinish w [noB] (.repf h (BitVec.ofNat 6 (fld w 13 6)) (BitVec.ofNat 3 (fld w 7 3)) (BitVec.ofNat 3 (fld w 4 3))
      (BitVec.ofNat 4 (fld w 0 4)))
  | _ =>
    match fld w 0 10 with
    | 0 => decFinish w [noD, noA, noB] (.nop h)
    | 1 => decFinish w [noD, noA, noB] (.yield h)
    | 2 => decFinish w [noD, noA, noB] (.endCtx h)
    | _ => .error (.illegal 2)

/-- Major 0x18 (R197, R240). -/
def dec18 (w : Nat) : Except DecodeError Instr :=
  let h := decHdr w
  let fs := decFSh (fld w 8 2) (fld w 6 2)
  let f := fs.getD .f64
  let d := rD w; let a := rA w; let b := rB w
  let pair : Nat × Bool := (4, fs.isNone)
  let noB : Nat × Bool := (3, fld w 10 3 != 0)
  let two := fun i : Instr => decFinish w [pair] i
  let one := fun i : Instr => decFinish w [pair, noB] i
  match fld w 0 6 with
  | 0 => two (.fadd h f d a b)
  | 1 => two (.fsub h f d a b)
  | 2 => two (.fmul h f d a b)
  | 3 => two (.fmin h f d a b)
  | 4 => two (.fmax h f d a b)
  | 5 => one (.fabs h f d a)
  | 6 => one (.fneg h f d a)
  | 7 => two (.fdiv h f d a b)
  | 8 => one (.fsqrt h f d a)
  | 9 => one (.frcp h f d a)
  | 10 => one (.frsq h f d a)
  | 11 => one (.fexp2 h f d a)
  | 12 => one (.flog2 h f d a)
  | 13 => one (.fclass h f d a)
  | _ => .error (.illegal 2)

/-- Majors 0x19 to 0x1B (R197, R244 to R247). -/
def decFp (w : Nat) : Except DecodeError Instr :=
  let h := decHdr w
  let fs := decFSh (fld w 8 2) (fld w 6 2)
  let f := fs.getD .f64
  let d := rD w; let a := rA w; let b := rB w
  let pair : Nat × Bool := (4, fs.isNone)
  match fld w 19 6 with
  | 0x19 =>
    let c := BitVec.ofNat 3 (fld w 0 3)
    let res : Nat × Bool := (3, fbit w 3)
    match fld w 4 2 with
    | 0 => decFinish w [pair, res] (.fma h f d a b c)
    | 1 => decFinish w [pair, res] (.fms h f d a b c)
    | 2 => decFinish w [pair, res] (.fnma h f d a b c)
    | _ => .error (.illegal 2)
  | 0x1A => decFinish w [pair, (4, 8 ≤ fld w 2 4)] (.fcmp h f (decFCond (fld w 2 4)) (fbit w 1) (fbit w 0) d a b)
  | _ =>
    let dc := fld w 6 4; let sc := fld w 2 4
    let dst := decFmt dc; let src := decFmt sc
    let res : Nat × Bool := (3, fld w 0 2 != 0)
    match fld w 10 3 with
    | 0 => decFinish w [res, (4, !(dc ≤ 6 && sc ≤ 6 && dc != sc))] (.fcvt h dst src d a)
    | 1 => decFinish w [res, (4, !(dc ≤ 13 && sc ≤ 13 && fmtIsInt dst && fmtIsIeee src))] (.fcvti h dst src d a)
    | 2 => decFinish w [res, (4, !(dc ≤ 13 && sc ≤ 13 && fmtIsIeee dst && fmtIsInt src))] (.icvtf h dst src d a)
    | 3 => decFinish w [res, (4, !(dc == sc && fmtIsIeee dst))] (.frnd h dst d a)
    | _ => .error (.illegal 2)

/-- imm6 of the M format (R191). -/
def mImm (w : Nat) : BitVec 6 := BitVec.ofNat 6 (fld w 10 3 * 8 + fld w 0 3)

/-- Majors 0x20 to 0x27 (R198, R252, R256). -/
def decMem (w : Nat) : Except DecodeError Instr :=
  let h := decHdr w
  let d := rD w; let a := rA w
  let n := BitVec.ofNat 4 (fld w 6 4)
  let sz := decSize (fld w 3 3)
  let szOk : Nat × Bool := (4, fld w 3 3 == 7)
  let sc := BitVec.ofNat 3 (fld w 0 3)
  let imm3 := BitVec.ofNat 3 (fld w 10 3)
  match fld w 19 6 with
  | 0x20 => decFinish w [szOk] (.ld h sz n d a (mImm w))
  | 0x21 => decFinish w [szOk, (6, fld w 16 3 == fld w 13 3)] (.ldp h sz n d a (mImm w))
  | 0x22 => decFinish w [szOk] (.st h sz n d a (mImm w))
  | 0x23 => decFinish w [szOk] (.stp h sz n d a (mImm w))
  | 0x24 => decFinish w [szOk] (.lda h sz n sc d a imm3)
  | 0x25 => decFinish w [szOk] (.stl h sz n sc d a imm3)
  | 0x26 => decFinish w [szOk] (.ldnt h sz n d a (mImm w))
  | _ => decFinish w [szOk] (.stnt h sz n d a (mImm w))

/-- Majors 0x28 to 0x2D (R199, R200, R257, R258, R263, R265). -/
def decAtom (w : Nat) : Except DecodeError Instr :=
  let h := decHdr w
  let d := rD w; let a := rA w; let b := rB w
  let n := BitVec.ofNat 4 (fld w 6 4)
  let sc := BitVec.ofNat 3 (fld w 3 3)
  let noA : Nat × Bool := (3, fld w 13 3 != 0)
  let noB : Nat × Bool := (3, fld w 10 3 != 0)
  match fld w 19 6 with
  | 0x28 => decFinish w [(4, 9 ≤ fld w 2 4)] (.atom h (decAtomOp (fld w 2 4)) (fbit w 1) (fbit w 0) n d a b)
  | 0x29 => decFinish w [(3, fbit w 2)] (.cas h (fbit w 1) (fbit w 0) sc n d a b)
  | 0x2A => decFinish w [(4, 2 ≤ fld w 1 2)] (.atomfAdd h (fbit w 1) (fbit w 0) sc n d a b)
  | 0x2B =>
    match fld w 16 3 with
    | 0 => decFinish w [noA, noB, (3, fld w 5 5 != 0)] (.fence h (decKind (fld w 3 2)) (BitVec.ofNat 3 (fld w 0 3)))
    | 1 => decFinish w [(4, 2 ≤ fld w 3 3)] (.pref h (fbit w 3) n a (mImm w))
    | _ => .error (.illegal 2)
  | 0x2C => decFinish w [(3, fbit w 6), (6, fld w 16 3 == fld w 7 3 && fld w 16 3 != 0)]
      (.send h sc d (BitVec.ofNat 3 (fld w 7 3)) a (BitVec.ofNat 3 (fld w 0 3)) b)
  | _ => decFinish w [noB, (3, fld w 8 2 != 0), (6, fld w 0 8 == 0 || fld w (fld w 16 3) 1 == 1)]
      (.recv h a d (BitVec.ofNat 8 (fld w 0 8)))

/-- Majors 0x2E and 0x2F (R200, R267 to R281). -/
def decTask (w : Nat) : Except DecodeError Instr :=
  let h := decHdr w
  let d := rD w; let a := rA w; let b := rB w
  let n := BitVec.ofNat 4 (fld w 3 4)
  let sc := BitVec.ofNat 3 (fld w 0 3)
  let noD : Nat × Bool := (3, fld w 16 3 != 0)
  let noA : Nat × Bool := (3, fld w 13 3 != 0)
  let noB : Nat × Bool := (3, fld w 10 3 != 0)
  let noBar : Nat × Bool := (3, fld w 2 5 != 0)
  let noLow : Nat × Bool := (3, fld w 0 3 != 0)
  let noF : Nat × Bool := (3, fld w 0 7 != 0)
  let bn := BitVec.ofNat 2 (fld w 0 2)
  match fld w 19 6 with
  | 0x2E =>
    match fld w 7 3 with
    | 0 => decFinish w [noD, noF] (.spawn h a b)
    | 1 => decFinish w [noLow] (.spawnj h n d a b)
    | 2 => decFinish w [noB] (.futw h n sc d a)
    | 3 => decFinish w [noD] (.futr h n sc a b)
    | 4 => decFinish w [noD] (.futf h n sc a b)
    | _ => .error (.illegal 2)
  | _ =>
    match fld w 7 3 with
    | 0 => decFinish w [noD, noA, noB, noBar] (.bar h bn)
    | 1 => decFinish w [noA, noB, noBar] (.bara h d bn)
    | 2 => decFinish w [noD, noB, noBar] (.barw h a bn)
    | 3 => decFinish w [noD, noB, noF] (.park h a)
    | 4 => decFinish w [noD, noB, noLow] (.migr h n a)
    | 5 => decFinish w [noA, noB, noF] (.self h d)
    | _ => .error (.illegal 2)

/-- A handle operand: the HR bit, the register field, and the field of the second word (R201). -/
def decHOp (hr : Bool) (r : BitVec 3) (f : Nat) : HOp := if hr then .reg r else .imm (BitVec.ofNat 10 f)

/-- Majors 0x30, 0x32 to 0x35 (R201, R202, R294). Second-word checks have detail 7. -/
def decTile (w v : Nat) : Except DecodeError Instr :=
  let h := decHdr w
  let hd := decHOp (fbit w 5) (rD w) (fld v 22 10)
  let ha := decHOp (fbit w 4) (rA w) (fld v 12 10)
  let hb := decHOp (fbit w 3) (rB w) (fld v 2 10)
  -- a used handle: its register field is zero without HR, its handle field is zero with HR
  let useD : List (Nat × Bool) := [(3, !fbit w 5 && fld w 16 3 != 0), (7, fbit w 5 && fld v 22 10 != 0)]
  let useA : List (Nat × Bool) := [(3, !fbit w 4 && fld w 13 3 != 0), (7, fbit w 4 && fld v 12 10 != 0)]
  let useB : List (Nat × Bool) := [(3, !fbit w 3 && fld w 10 3 != 0), (7, fbit w 3 && fld v 2 10 != 0)]
  -- an unused handle with its register field unused, or used as a scalar
  let noD : List (Nat × Bool) := [(3, fbit w 5), (3, fld w 16 3 != 0), (7, fld v 22 10 != 0)]
  let noA : List (Nat × Bool) := [(3, fbit w 4), (3, fld w 13 3 != 0), (7, fld v 12 10 != 0)]
  let noB : List (Nat × Bool) := [(3, fbit w 3), (3, fld w 10 3 != 0), (7, fld v 2 10 != 0)]
  let scalD : List (Nat × Bool) := [(3, fbit w 5), (7, fld v 22 10 != 0)]
  let scalA : List (Nat × Bool) := [(3, fbit w 4), (7, fld v 12 10 != 0)]
  let scalB : List (Nat × Bool) := [(3, fbit w 3), (7, fld v 2 10 != 0)]
  let noV : Nat × Bool := (3, fld w 0 3 != 0)
  let res : Nat × Bool := (7, fbit v 0)
  let noBas : Nat × Bool := (7, fbit v 1)
  let three := fun i : Instr => decFinish w (noV :: res :: noBas :: (useD ++ useA ++ useB)) i
  let two := fun i : Instr => decFinish w (noV :: res :: noBas :: (useD ++ useA ++ noB)) i
  match fld w 19 6, fld w 6 4 with
  | 0x30, 0 => decFinish w (noV :: res :: noBas :: (useD ++ scalA ++ noB)) (.talloc h hd (rA w))
  | 0x30, 1 => decFinish w (noV :: res :: noBas :: (useD ++ noA ++ noB)) (.tfree h hd)
  | 0x30, 2 => decFinish w (noV :: res :: noBas :: (scalD ++ useA ++ noB)) (.tdesc h (rD w) ha)
  | 0x30, 3 => decFinish w (noV :: res :: noBas :: (scalD ++ useA ++ noB)) (.tstat h (rD w) ha)
  | 0x30, 4 => decFinish w (noV :: res :: noBas :: (noD ++ useA ++ noB)) (.twait h ha)
  | 0x30, 5 => decFinish w (noV :: res :: noBas :: (useD ++ noA ++ noB)) (.tzero h hd)
  | 0x32, 0 => decFinish w (noV :: res :: (useD ++ useA ++ useB)) (.tmma h (fbit v 1) hd ha hb)
  | 0x32, 1 => decFinish w (noV :: res :: (useD ++ useA ++ useB)) (.tmmar h (fbit v 1) hd ha hb)
  | 0x33, 0 => three (.tadd h hd ha hb)
  | 0x33, 1 => three (.tsub h hd ha hb)
  | 0x33, 2 => three (.tmul h hd ha hb)
  | 0x33, 3 => three (.tfma h hd ha hb)
  | 0x33, 4 => three (.tmax h hd ha hb)
  | 0x33, 5 => three (.tmin h hd ha hb)
  | 0x33, 6 => two (.tabs h hd ha)
  | 0x33, 7 => two (.texp h hd ha)
  | 0x33, 8 => two (.trcp h hd ha)
  | 0x33, 9 => decFinish w (noV :: res :: noBas :: (useD ++ useA ++ scalB)) (.tscale h hd ha (rB w))
  | 0x34, 0 => two (.tcvt h hd ha)
  | 0x34, 1 => two (.ttrn h hd ha)
  | 0x34, 2 => decFinish w ((4, fld w 1 2 == 3) :: res :: noBas :: (useD ++ useA ++ noB)) (.tred h (decRedOp (fld w 1 2)) (fbit w 0) hd ha)
  | 0x35, 0 => three (.tscan h hd ha hb)
  | 0x35, 1 => three (.taff h hd ha hb)
  | 0x35, 2 => three (.tcomp h hd ha hb)
  | _, _ => .error (.illegal 2)

/-- Major 0x31 (R201, R300). -/
def decTldTst (w v : Nat) : Except DecodeError Instr :=
  let h := decHdr w
  let hd := decHOp (fbit w 5) (rD w) (fld v 22 10)
  let n := BitVec.ofNat 4 (fld w 0 4)
  let cs : List (Nat × Bool) := [(3, !fbit w 5 && fld w 16 3 != 0), (7, fbit w 5 && fld v 22 10 != 0), (3, fbit w 4),
    (7, fld v 0 22 != 0)]
  match fld w 6 4 with
  | 0 => decFinish w cs (.tld h n hd (rA w) (rB w))
  | 1 => decFinish w cs (.tst h n hd (rA w) (rB w))
  | _ => .error (.illegal 2)

/-- The second word of an engine command (R203). -/
def decTail (v : Nat) : EngTail :=
  { ddesc := BitVec.ofNat 4 (fld v 28 4), sdesc := BitVec.ofNat 4 (fld v 24 4), tok := BitVec.ofNat 3 (fld v 21 3),
    scope := BitVec.ofNat 3 (fld v 18 3), fe := fbit v 17, freg := BitVec.ofNat 3 (fld v 14 3), fdesc := BitVec.ofNat 4 (fld v 10 4) }

/-- Majors 0x38, 0x39 and FN 0 of 0x3B (R203, R316). -/
def decEng (w v : Nat) : Except DecodeError Instr :=
  let h := decHdr w
  let d := rD w; let a := rA w; let b := rB w
  let t := decTail v
  let cs : List (Nat × Bool) := [(7, fld v 0 10 != 0), (7, !fbit v 17 && fld v 10 7 != 0)]
  let noF : Nat × Bool := (3, fld w 0 8 != 0)
  let hi := fld w 4 4; let lo := fld w 0 4
  match fld w 19 6, fld w 8 2 with
  | 0x38, 0 => decFinish w (noF :: cs) (.cpy h d a b t)
  | 0x38, 1 => decFinish w (noF :: cs) (.cpys h d a b t)
  | 0x39, 0 => decFinish w ((3, fbit w 3) :: cs) (.gath h d a b (BitVec.ofNat 4 hi) (BitVec.ofNat 3 (fld w 0 3)) t)
  | 0x39, 1 => decFinish w ((4, 3 ≤ hi) :: (4, !(lo ≤ 8 && redbFmtOk (decFmt lo))) :: cs) (.redb h (decRedOp hi) (decFmt lo) d a b t)
  | 0x39, 2 => decFinish w ((4, !(hi ≤ 13 && lo ≤ 13 && hi != lo)) :: cs) (.convb h (decFmt hi) (decFmt lo) d a b t)
  | 0x3B, 0 => decFinish w (noF :: (3, fld w 16 3 != 0) :: (3, fld w 10 3 != 0) :: (7, fld v 28 4 != 0) :: cs) (.rlcs h a t)
  | _, _ => .error (.illegal 2)

/-- Majors 0x3A, 0x3B (FN 1, 2) and 0x3C to 0x3E (R203, R204, R322, R333 to R338). -/
def decSys (w : Nat) : Except DecodeError Instr :=
  let h := decHdr w
  let d := rD w; let a := rA w; let b := rB w
  let noD : Nat × Bool := (3, fld w 16 3 != 0)
  let noA : Nat × Bool := (3, fld w 13 3 != 0)
  let noB : Nat × Bool := (3, fld w 10 3 != 0)
  let tok := BitVec.ofNat 3 (fld w 0 3)
  let n36 := BitVec.ofNat 4 (fld w 3 4)
  let n47 := BitVec.ofNat 4 (fld w 4 4)
  let noCode : Nat × Bool := (3, fld w 0 8 != 0)
  let noLow7 : Nat × Bool := (3, fld w 0 7 != 0)
  let noLow3 : Nat × Bool := (3, fld w 0 3 != 0)
  match fld w 19 6 with
  | 0x3A =>
    match fld w 8 2 with
    | 0 => if fbit w 3 then decFinish w [noA, noB, (3, fld w 4 4 != 0)] (.estatP h d tok)
           else decFinish w [noA, noB, (3, fld w 4 4 != 0)] (.estatX h d tok)
    | 1 => decFinish w [noD, noA, noB, (3, fld w 3 5 != 0)] (.wtok h tok)
    | _ => .error (.illegal 2)
  | 0x3B =>
    match fld w 8 2 with
    | 1 => decFinish w [noB, (6, 11 ≤ fld w 0 4)] (.rlcq h n47 (BitVec.ofNat 4 (fld w 0 4)) d a)
    | 2 => decFinish w [noD, (3, fld w 0 4 != 0)] (.rlcx h n47 a b)
    | _ => .error (.illegal 2)
  | 0x3C =>
    let r := decCreg (fld w 0 8)
    let known : Nat × Bool := (4, r.isNone)
    let res : Nat × Bool := (3, fbit w 8)
    if fbit w 9 then decFinish w [noD, noB, res, known] (.wrs h (r.getD .cl1lim) a)
    else decFinish w [noA, noB, res, known] (.rds h (r.getD .cl1lim) d)
  | 0x3D =>
    match fld w 8 2 with
    | 0 => decFinish w [noD, noA, noB] (.trap h (BitVec.ofNat 8 (fld w 0 8)))
    | 1 => decFinish w [noD, noA, noB, noCode] (.tret h)
    | 2 => decFinish w [noD, noB, noCode] (.evict h a)
    | _ => .error (.illegal 2)
  | _ =>
    match fld w 7 3 with
    | 0 => decFinish w [noLow7] (.tlbiVa h d a b)
    | 1 => decFinish w [noA, noLow7] (.tlbiAs h d b)
    | 2 => decFinish w [noA, noB, noLow7] (.tlbiAll h d)
    | 3 => decFinish w [noLow7] (.tlbiU h d a b)
    | 4 => decFinish w [noB, noLow3] (.cflush h n36 d a)
    | 5 => decFinish w [noB, noLow3] (.pinl h n36 d a)
    | 6 => decFinish w [noB, noLow3] (.unpinl h n36 d a)
    | _ => .error (.illegal 2)

/-- Number of words, fixed by MAJOR, and by F[9:8] for major 0x3B (R186, R190). -/
def wordCount (w : Nat) : Nat :=
  match fld w 19 6 with
  | 0x09 | 0x30 | 0x31 | 0x32 | 0x33 | 0x34 | 0x35 | 0x38 | 0x39 => 2
  | 0x3B => if fld w 8 2 == 0 then 2 else 1
  | _ => 1

/-- The instruction that a first word and, for two-word forms, a second word give (R190). -/
def decodeWords (w v : Nat) : Except DecodeError Instr :=
  match fld w 19 6 with
  | 0x00 => dec00 w
  | 0x01 | 0x02 | 0x03 | 0x04 | 0x05 | 0x06 | 0x07 => decRI w
  | 0x08 => decFinish w [] (.movi (decHdr w) (rD w) (BitVec.ofNat 16 (fld w 0 16)))
  | 0x09 => decFinish w [(3, fld w 0 16 != 0)] (.movh (decHdr w) (rD w) (BitVec.ofNat 32 v))
  | 0x0A => dec0A w
  | 0x0B | 0x0C | 0x0D | 0x0E | 0x0F => decBfSel w
  | 0x10 | 0x11 | 0x12 | 0x13 | 0x14 | 0x15 => decCtl w
  | 0x18 => dec18 w
  | 0x19 | 0x1A | 0x1B => decFp w
  | 0x20 | 0x21 | 0x22 | 0x23 | 0x24 | 0x25 | 0x26 | 0x27 => decMem w
  | 0x28 | 0x29 | 0x2A | 0x2B | 0x2C | 0x2D => decAtom w
  | 0x2E | 0x2F => decTask w
  | 0x30 | 0x32 | 0x33 | 0x34 | 0x35 => decTile w v
  | 0x31 => decTldTst w v
  | 0x38 | 0x39 => decEng w v
  | 0x3B => if fld w 8 2 == 0 then decEng w v else decSys w
  | 0x3A | 0x3C | 0x3D | 0x3E => decSys w
  | _ => .error (.illegal 1)

/-- Little-endian number of a byte list (R4). -/
def leNat : List Byte → Nat
  | [] => 0
  | b :: bs => b.toNat + 256 * leNat bs

/-- The `n` little-endian bytes of a number (R4). -/
def natLe : Nat → Nat → List Byte
  | 0, _ => []
  | n + 1, v => BitVec.ofNat 8 v :: natLe n (v / 256)

/-- The instruction at the head of a byte list and the bytes after it (R185, R186). -/
def decode (bs : List Byte) : Except DecodeError (Instr × List Byte) :=
  if bs.length < 4 then .error .truncated
  else
    let w := leNat (bs.take 4)
    let rest := bs.drop 4
    if wordCount w = 2 then
      if rest.length < 4 then .error .truncated
      else (decodeWords w (leNat (rest.take 4))).map fun i => (i, rest.drop 4)
    else (decodeWords w 0).map fun i => (i, rest)

/-- The host's question: the instruction of a word whose bits above `nbits` are zero. -/
def decodeTableWord (nbits w : Nat) : Option Instr :=
  match decode (natLe 8 (w % 2 ^ (min nbits 64))) with
  | .ok (i, _) => some i
  | .error _ => none

/-! ### The encoder -/

/-- S, GN and GP of the first word (R185). -/
def encHdr (h : Hdr) : Nat := h.s.toNat * 2 ^ 29 + h.gn.toNat * 2 ^ 28 + h.gp.toNat * 2 ^ 25

/-- A first word from guard, MAJOR, D, A, B and F (R185). -/
def encWord (h : Hdr) (major d a b f : Nat) : Nat := encHdr h + major * 2 ^ 19 + d * 2 ^ 16 + a * 2 ^ 13 + b * 2 ^ 10 + f

def shCode : Sh → Nat
  | .d => 0 | .w3 => 1 | .h6 => 2 | .b12 => 3

def fshCode : FSh → Nat × Nat
  | .f64 => (0, 0) | .f32 => (1, 0) | .f16 => (2, 0) | .bf16 => (2, 1)

def condCode : Cond → Nat
  | .eq => 0 | .ne => 1 | .lt => 2 | .ge => 3 | .ltu => 4 | .geu => 5 | .gt => 6 | .le => 7 | .gtu => 8 | .leu => 9

def fcondCode : FCond → Nat
  | .eq => 0 | .ne => 1 | .lt => 2 | .le => 3 | .gt => 4 | .ge => 5 | .un => 6 | .ord => 7

def sizeCode : MSize → Nat
  | .b => 0 | .h => 1 | .w => 2 | .d => 3 | .w3 => 4 | .h6 => 5 | .b12 => 6

def atomOpCode : AtomOp → Nat
  | .add => 0 | .and => 1 | .or => 2 | .xor => 3 | .min => 4 | .max => 5 | .minu => 6 | .maxu => 7 | .xchg => 8

def kindCode : FenceKind → Nat
  | .acq => 0 | .rel => 1 | .ar => 2 | .full => 3

def redOpCode : RedOp → Nat
  | .sum => 0 | .max => 1 | .min => 2

def cregCode : Creg → Nat
  | .cl1lim => 0x01 | .rsvslot => 0x02 | .lease => 0x03 | .chkstall => 0x04 | .scopemissen => 0x05 | .ctxpool => 0x06
  | .trapvec => 0x07 | .reft => 0x08 | .cyc => 0x09 | .ncy => 0x0A | .freq => 0x0B | .partid => 0x0C | .wdog => 0x0D

/-- HR bit, register field and handle field of a handle operand (R201). -/
def hopHr : HOp → Nat
  | .imm _ => 0 | .reg _ => 1
def hopReg : HOp → Nat
  | .imm _ => 0 | .reg x => x.toNat
def hopFld : HOp → Nat
  | .imm h => h.toNat | .reg _ => 0

/-- Major 0x00 (R213). -/
def enc00 (h : Hdr) (sh : Sh) (ck : Bool) (fn : Nat) (d a b : Reg) : Nat :=
  encWord h 0 d.toNat a.toNat b.toNat (shCode sh * 2 ^ 8 + ck.toNat * 2 ^ 6 + fn)
/-- RI format (R218). -/
def encRI (h : Hdr) (major : Nat) (sh : Sh) (d a : Reg) (imm : BitVec 10) : Nat :=
  encWord h major d.toNat a.toNat (shCode sh * 2) imm.toNat
/-- LN format (R220). -/
def encLN (h : Hdr) (fn : Nat) (sh : Sh) (d a : Reg) (b k : Nat) : Nat :=
  encWord h 0x0A d.toNat a.toNat b (shCode sh * 2 ^ 8 + k * 2 ^ 4 + fn)
/-- FR format (R240). -/
def encFR (h : Hdr) (f : FSh) (fn : Nat) (d a : Reg) (b : Nat) : Nat :=
  encWord h 0x18 d.toNat a.toNat b ((fshCode f).1 * 2 ^ 8 + (fshCode f).2 * 2 ^ 6 + fn)
/-- F3 format (R244). -/
def encF3 (h : Hdr) (f : FSh) (op : Nat) (d a b c : Reg) : Nat :=
  encWord h 0x19 d.toNat a.toNat b.toNat ((fshCode f).1 * 2 ^ 8 + (fshCode f).2 * 2 ^ 6 + op * 2 ^ 4 + c.toNat)
/-- CV format (R247). -/
def encCV (h : Hdr) (sub : Nat) (dst src : Fmt) (d a : Reg) : Nat :=
  encWord h 0x1B d.toNat a.toNat sub (fmtCode dst * 2 ^ 6 + fmtCode src * 2 ^ 2)
/-- M format (R252). -/
def encM (h : Hdr) (major : Nat) (sz : MSize) (n : DescN) (d a : Reg) (imm : BitVec 6) : Nat :=
  encWord h major d.toNat a.toNat (imm.toNat / 8) (n.toNat * 2 ^ 6 + sizeCode sz * 2 ^ 3 + imm.toNat % 8)
/-- MS format (R256). -/
def encMS (h : Hdr) (major : Nat) (sz : MSize) (n : DescN) (sc : ScopeCode) (d a : Reg) (imm : BitVec 3) : Nat :=
  encWord h major d.toNat a.toNat imm.toNat (n.toNat * 2 ^ 6 + sizeCode sz * 2 ^ 3 + sc.toNat)
/-- First and second word of a tile instruction (R294). -/
def encTile (h : Hdr) (major fn : Nat) (hr d a b v : Nat) (hd ha hb bas : Nat) : Nat × Option Nat :=
  (encWord h major d a b (fn * 2 ^ 6 + hr * 2 ^ 3 + v), some (hd * 2 ^ 22 + ha * 2 ^ 12 + hb * 2 ^ 2 + bas * 2))
/-- A tile instruction on three handles. -/
def encT3 (h : Hdr) (major fn : Nat) (bas : Bool) (hd ha hb : HOp) : Nat × Option Nat :=
  encTile h major fn (hopHr hd * 4 + hopHr ha * 2 + hopHr hb) (hopReg hd) (hopReg ha) (hopReg hb) 0 (hopFld hd) (hopFld ha) (hopFld hb)
    bas.toNat
/-- A tile instruction on two handles. -/
def encT2 (h : Hdr) (major fn v : Nat) (hd ha : HOp) : Nat × Option Nat :=
  encTile h major fn (hopHr hd * 4 + hopHr ha * 2) (hopReg hd) (hopReg ha) 0 v (hopFld hd) (hopFld ha) 0 0
/-- The second word of an engine command (R203). -/
def encTail (t : EngTail) : Nat :=
  t.ddesc.toNat * 2 ^ 28 + t.sdesc.toNat * 2 ^ 24 + t.tok.toNat * 2 ^ 21 + t.scope.toNat * 2 ^ 18 + t.fe.toNat * 2 ^ 17
    + t.freg.toNat * 2 ^ 14 + t.fdesc.toNat * 2 ^ 10
/-- First and second word of an engine command (R203). -/
def encE (h : Hdr) (major fn d a b f : Nat) (t : EngTail) : Nat × Option Nat :=
  (encWord h major d a b (fn * 2 ^ 8 + f), some (encTail t))

/-- The words of an instruction; a step that is no instruction has none. -/
def encode : Instr → Option (Nat × Option Nat)
  | .add h sh ck d a b => some (enc00 h sh ck 0x00 d a b, none)
  | .sub h sh ck d a b => some (enc00 h sh ck 0x01 d a b, none)
  | .mul h sh ck d a b => some (enc00 h sh ck 0x02 d a b, none)
  | .mulh h sh d a b => some (enc00 h sh false 0x03 d a b, none)
  | .mulhu h sh d a b => some (enc00 h sh false 0x04 d a b, none)
  | .div h sh d a b => some (enc00 h sh false 0x05 d a b, none)
  | .divu h sh d a b => some (enc00 h sh false 0x06 d a b, none)
  | .rem h sh d a b => some (enc00 h sh false 0x07 d a b, none)
  | .remu h sh d a b => some (enc00 h sh false 0x08 d a b, none)
  | .and h sh d a b => some (enc00 h sh false 0x09 d a b, none)
  | .or h sh d a b => some (enc00 h sh false 0x0A d a b, none)
  | .xor h sh d a b => some (enc00 h sh false 0x0B d a b, none)
  | .shl h sh d a b => some (enc00 h sh false 0x0C d a b, none)
  | .shr h sh d a b => some (enc00 h sh false 0x0D d a b, none)
  | .sar h sh d a b => some (enc00 h sh false 0x0E d a b, none)
  | .rol h sh d a b => some (enc00 h sh false 0x0F d a b, none)
  | .min h sh d a b => some (enc00 h sh false 0x10 d a b, none)
  | .max h sh d a b => some (enc00 h sh false 0x11 d a b, none)
  | .minu h sh d a b => some (enc00 h sh false 0x12 d a b, none)
  | .maxu h sh d a b => some (enc00 h sh false 0x13 d a b, none)
  | .abs h sh d a => some (enc00 h sh false 0x14 d a 0, none)
  | .clz h sh d a => some (enc00 h sh false 0x15 d a 0, none)
  | .popc h sh d a => some (enc00 h sh false 0x16 d a 0, none)
  | .brev h sh d a => some (enc00 h sh false 0x17 d a 0, none)
  | .mov h sh d a => some (enc00 h sh false 0x20 d a 0, none)
  | .movXdGn h d g => some (enc00 h .d false 0x21 d 0 g, none)
  | .movGnXa h g a => some (enc00 h .d false 0x22 g a 0, none)
  | .addi h sh d a imm => some (encRI h 0x01 sh d a imm, none)
  | .andi h sh d a imm => some (encRI h 0x02 sh d a imm, none)
  | .ori h sh d a imm => some (encRI h 0x03 sh d a imm, none)
  | .xori h sh d a imm => some (encRI h 0x04 sh d a imm, none)
  | .shli h sh d a imm => some (encRI h 0x05 sh d a imm, none)
  | .shri h sh d a imm => some (encRI h 0x06 sh d a imm, none)
  | .sari h sh d a imm => some (encRI h 0x07 sh d a imm, none)
  | .movi h d imm => some (encHdr h + 0x08 * 2 ^ 19 + d.toNat * 2 ^ 16 + imm.toNat, none)
  | .movh h d imm => some (encHdr h + 0x09 * 2 ^ 19 + d.toNat * 2 ^ 16, some imm.toNat)
  | .lget h sh d a k => some (encLN h 0 sh d a 0 k.toNat, none)
  | .lset h sh d a k => some (encLN h 1 sh d a 0 k.toNat, none)
  | .lshuf h sh d a b => some (encLN h 2 sh d a b.toNat 0, none)
  | .lsplat h sh d a => some (encLN h 3 sh d a 0 0, none)
  | .bfx h sx d a pos len =>
      some (encWord h 0x0B d.toNat a.toNat (len.toNat / 16 * 2 + sx.toNat) (pos.toNat * 2 ^ 4 + len.toNat % 16), none)
  | .bfi h d a pos len => some (encWord h 0x0C d.toNat a.toNat (len.toNat / 16 * 2) (pos.toNat * 2 ^ 4 + len.toNat % 16), none)
  | .sel h sh d a b gn p => some (encWord h 0x0D d.toNat a.toNat b.toNat (shCode sh * 2 ^ 8 + gn.toNat * 2 ^ 3 + p.toNat), none)
  | .cmp h sh any cc pd a b =>
      some (encWord h 0x0E pd.toNat a.toNat b.toNat (shCode sh * 2 ^ 8 + any.toNat * 2 ^ 6 + condCode cc * 2 ^ 2), none)
  | .cmpi h cc pd a imm => some (encWord h 0x0F pd.toNat a.toNat (condCode cc) imm.toNat, none)
  | .br h off => some (encHdr h + 0x10 * 2 ^ 19 + off.toNat, none)
  | .call h d off => some (encHdr h + 0x12 * 2 ^ 19 + d.toNat * 2 ^ 16 + off.toNat, none)
  | .jmp h a => some (encWord h 0x11 0 a.toNat 0 0, none)
  | .callr h d a => some (encWord h 0x11 d.toNat a.toNat 0 1, none)
  | .ret h a => some (encWord h 0x11 0 a.toNat 0 2, none)
  | .pand h pd pa pb => some (encWord h 0x13 pd.toNat pa.toNat pb.toNat 0, none)
  | .por h pd pa pb => some (encWord h 0x13 pd.toNat pa.toNat pb.toNat 1, none)
  | .pxor h pd pa pb => some (encWord h 0x13 pd.toNat pa.toNat pb.toNat 2, none)
  | .pnot h pd pa => some (encWord h 0x13 pd.toNat pa.toNat 0 3, none)
  | .pmask h a => some (encWord h 0x13 0 a.toNat 0 4, none)
  | .repf h reps hs rs len =>
      some (encWord h 0x14 (reps.toNat / 8) (reps.toNat % 8) 0 (hs.toNat * 2 ^ 7 + rs.toNat * 2 ^ 4 + len.toNat), none)
  | .nop h => some (encWord h 0x15 0 0 0 0, none)
  | .yield h => some (encWord h 0x15 0 0 0 1, none)
  | .endCtx h => some (encWord h 0x15 0 0 0 2, none)
  | .fadd h f d a b => some (encFR h f 0 d a b.toNat, none)
  | .fsub h f d a b => some (encFR h f 1 d a b.toNat, none)
  | .fmul h f d a b => some (encFR h f 2 d a b.toNat, none)
  | .fmin h f d a b => some (encFR h f 3 d a b.toNat, none)
  | .fmax h f d a b => some (encFR h f 4 d a b.toNat, none)
  | .fabs h f d a => some (encFR h f 5 d a 0, none)
  | .fneg h f d a => some (encFR h f 6 d a 0, none)
  | .fdiv h f d a b => some (encFR h f 7 d a b.toNat, none)
  | .fsqrt h f d a => some (encFR h f 8 d a 0, none)
  | .frcp h f d a => some (encFR h f 9 d a 0, none)
  | .frsq h f d a => some (encFR h f 10 d a 0, none)
  | .fexp2 h f d a => some (encFR h f 11 d a 0, none)
  | .flog2 h f d a => some (encFR h f 12 d a 0, none)
  | .fclass h f d a => some (encFR h f 13 d a 0, none)
  | .fma h f d a b c => some (encF3 h f 0 d a b c, none)
  | .fms h f d a b c => some (encF3 h f 1 d a b c, none)
  | .fnma h f d a b c => some (encF3 h f 2 d a b c, none)
  | .fcmp h f cc any sig pd a b =>
      some (encWord h 0x1A pd.toNat a.toNat b.toNat ((fshCode f).1 * 2 ^ 8 + (fshCode f).2 * 2 ^ 6 + fcondCode cc * 2 ^ 2
        + any.toNat * 2 + sig.toNat), none)
  | .fcvt h dst src d a => some (encCV h 0 dst src d a, none)
  | .fcvti h dst src d a => some (encCV h 1 dst src d a, none)
  | .icvtf h dst src d a => some (encCV h 2 dst src d a, none)
  | .frnd h f d a => some (encCV h 3 f f d a, none)
  | .ld h sz n d a imm => some (encM h 0x20 sz n d a imm, none)
  | .ldp h sz n d a imm => some (encM h 0x21 sz n d a imm, none)
  | .st h sz n x a imm => some (encM h 0x22 sz n x a imm, none)
  | .stp h sz n x a imm => some (encM h 0x23 sz n x a imm, none)
  | .lda h sz n sc d a imm => some (encMS h 0x24 sz n sc d a imm, none)
  | .stl h sz n sc x a imm => some (encMS h 0x25 sz n sc x a imm, none)
  | .ldnt h sz n d a imm => some (encM h 0x26 sz n d a imm, none)
  | .stnt h sz n x a imm => some (encM h 0x27 sz n x a imm, none)
  | .atom h op dw ar n d a b =>
      some (encWord h 0x28 d.toNat a.toNat b.toNat (n.toNat * 2 ^ 6 + atomOpCode op * 2 ^ 2 + dw.toNat * 2 + ar.toNat), none)
  | .cas h dw ar sc n d a b =>
      some (encWord h 0x29 d.toNat a.toNat b.toNat (n.toNat * 2 ^ 6 + sc.toNat * 2 ^ 3 + dw.toNat * 2 + ar.toNat), none)
  | .atomfAdd h dw ar sc n d a b =>
      some (encWord h 0x2A d.toNat a.toNat b.toNat (n.toNat * 2 ^ 6 + sc.toNat * 2 ^ 3 + dw.toNat * 2 + ar.toNat), none)
  | .fence h kind sc => some (encWord h 0x2B 0 0 0 (kindCode kind * 2 ^ 3 + sc.toNat), none)
  | .pref h l2 n a imm =>
      some (encWord h 0x2B 1 a.toNat (imm.toNat / 8) (n.toNat * 2 ^ 6 + l2.toNat * 2 ^ 3 + imm.toNat % 8), none)
  | .send h sc pd pe a j b =>
      some (encWord h 0x2C pd.toNat a.toNat b.toNat (pe.toNat * 2 ^ 7 + sc.toNat * 2 ^ 3 + j.toNat), none)
  | .recv h sc d mask => some (encWord h 0x2D d.toNat sc.toNat 0 mask.toNat, none)
  | .spawn h a b => some (encWord h 0x2E 0 a.toNat b.toNat 0, none)
  | .spawnj h n d a b => some (encWord h 0x2E d.toNat a.toNat b.toNat (2 ^ 7 + n.toNat * 2 ^ 3), none)
  | .futw h n sc d a => some (encWord h 0x2E d.toNat a.toNat 0 (2 * 2 ^ 7 + n.toNat * 2 ^ 3 + sc.toNat), none)
  | .futr h n sc a b => some (encWord h 0x2E 0 a.toNat b.toNat (3 * 2 ^ 7 + n.toNat * 2 ^ 3 + sc.toNat), none)
  | .futf h n sc a b => some (encWord h 0x2E 0 a.toNat b.toNat (4 * 2 ^ 7 + n.toNat * 2 ^ 3 + sc.toNat), none)
  | .bar h n => some (encWord h 0x2F 0 0 0 n.toNat, none)
  | .bara h d n => some (encWord h 0x2F d.toNat 0 0 (2 ^ 7 + n.toNat), none)
  | .barw h a n => some (encWord h 0x2F 0 a.toNat 0 (2 * 2 ^ 7 + n.toNat), none)
  | .park h a => some (encWord h 0x2F 0 a.toNat 0 (3 * 2 ^ 7), none)
  | .migr h n a => some (encWord h 0x2F 0 a.toNat 0 (4 * 2 ^ 7 + n.toNat * 2 ^ 3), none)
  | .self h d => some (encWord h 0x2F d.toNat 0 0 (5 * 2 ^ 7), none)
  | .talloc h hd a => some (encTile h 0x30 0 (hopHr hd * 4) (hopReg hd) a.toNat 0 0 (hopFld hd) 0 0 0)
  | .tfree h hd => some (encTile h 0x30 1 (hopHr hd * 4) (hopReg hd) 0 0 0 (hopFld hd) 0 0 0)
  | .tdesc h d ha => some (encTile h 0x30 2 (hopHr ha * 2) d.toNat (hopReg ha) 0 0 0 (hopFld ha) 0 0)
  | .tstat h d ha => some (encTile h 0x30 3 (hopHr ha * 2) d.toNat (hopReg ha) 0 0 0 (hopFld ha) 0 0)
  | .twait h ha => some (encTile h 0x30 4 (hopHr ha * 2) 0 (hopReg ha) 0 0 0 (hopFld ha) 0 0)
  | .tzero h hd => some (encTile h 0x30 5 (hopHr hd * 4) (hopReg hd) 0 0 0 (hopFld hd) 0 0 0)
  | .tld h n hd a b =>
      some (encWord h 0x31 (hopReg hd) a.toNat b.toNat (hopHr hd * 2 ^ 5 + n.toNat), some (hopFld hd * 2 ^ 22))
  | .tst h n hd a b =>
      some (encWord h 0x31 (hopReg hd) a.toNat b.toNat (2 ^ 6 + hopHr hd * 2 ^ 5 + n.toNat), some (hopFld hd * 2 ^ 22))
  | .tmma h bas hd ha hb => some (encT3 h 0x32 0 bas hd ha hb)
  | .tmmar h bas hd ha hb => some (encT3 h 0x32 1 bas hd ha hb)
  | .tadd h hd ha hb => some (encT3 h 0x33 0 false hd ha hb)
  | .tsub h hd ha hb => some (encT3 h 0x33 1 false hd ha hb)
  | .tmul h hd ha hb => some (encT3 h 0x33 2 false hd ha hb)
  | .tfma h hd ha hb => some (encT3 h 0x33 3 false hd ha hb)
  | .tmax h hd ha hb => some (encT3 h 0x33 4 false hd ha hb)
  | .tmin h hd ha hb => some (encT3 h 0x33 5 false hd ha hb)
  | .tabs h hd ha => some (encT2 h 0x33 6 0 hd ha)
  | .texp h hd ha => some (encT2 h 0x33 7 0 hd ha)
  | .trcp h hd ha => some (encT2 h 0x33 8 0 hd ha)
  | .tscale h hd ha b =>
      some (encTile h 0x33 9 (hopHr hd * 4 + hopHr ha * 2) (hopReg hd) (hopReg ha) b.toNat 0 (hopFld hd) (hopFld ha) 0 0)
  | .tcvt h hd ha => some (encT2 h 0x34 0 0 hd ha)
  | .ttrn h hd ha => some (encT2 h 0x34 1 0 hd ha)
  | .tred h op col hd ha => some (encT2 h 0x34 2 (redOpCode op * 2 + col.toNat) hd ha)
  | .tscan h hd ha hb => some (encT3 h 0x35 0 false hd ha hb)
  | .taff h hd ha hb => some (encT3 h 0x35 1 false hd ha hb)
  | .tcomp h hd ha hb => some (encT3 h 0x35 2 false hd ha hb)
  | .cpy h d a b t => some (encE h 0x38 0 d.toNat a.toNat b.toNat 0 t)
  | .cpys h d a b t => some (encE h 0x38 1 d.toNat a.toNat b.toNat 0 t)
  | .gath h d a b g le t => some (encE h 0x39 0 d.toNat a.toNat b.toNat (g.toNat * 2 ^ 4 + le.toNat) t)
  | .redb h op fmt d a b t => some (encE h 0x39 1 d.toNat a.toNat b.toNat (redOpCode op * 2 ^ 4 + fmtCode fmt) t)
  | .convb h dst src d a b t => some (encE h 0x39 2 d.toNat a.toNat b.toNat (fmtCode dst * 2 ^ 4 + fmtCode src) t)
  | .rlcs h a t => some (encE h 0x3B 0 0 a.toNat 0 0 t)
  | .estatX h d t => some (encWord h 0x3A d.toNat 0 0 t.toNat, none)
  | .estatP h pd t => some (encWord h 0x3A pd.toNat 0 0 (2 ^ 3 + t.toNat), none)
  | .wtok h t => some (encWord h 0x3A 0 0 0 (2 ^ 8 + t.toNat), none)
  | .rlcq h n sel d a => some (encWord h 0x3B d.toNat a.toNat 0 (2 ^ 8 + n.toNat * 2 ^ 4 + sel.toNat), none)
  | .rlcx h n a b => some (encWord h 0x3B 0 a.toNat b.toNat (2 * 2 ^ 8 + n.toNat * 2 ^ 4), none)
  | .rds h r d => some (encWord h 0x3C d.toNat 0 0 (cregCode r), none)
  | .wrs h r a => some (encWord h 0x3C 0 a.toNat 0 (2 ^ 9 + cregCode r), none)
  | .trap h code => some (encWord h 0x3D 0 0 0 code.toNat, none)
  | .tret h => some (encWord h 0x3D 0 0 0 (2 ^ 8), none)
  | .evict h a => some (encWord h 0x3D 0 a.toNat 0 (2 * 2 ^ 8), none)
  | .tlbiVa h d a b => some (encWord h 0x3E d.toNat a.toNat b.toNat 0, none)
  | .tlbiAs h d b => some (encWord h 0x3E d.toNat 0 b.toNat (2 ^ 7), none)
  | .tlbiAll h d => some (encWord h 0x3E d.toNat 0 0 (2 * 2 ^ 7), none)
  | .tlbiU h d a b => some (encWord h 0x3E d.toNat a.toNat b.toNat (3 * 2 ^ 7), none)
  | .cflush h n d a => some (encWord h 0x3E d.toNat a.toNat 0 (4 * 2 ^ 7 + n.toNat * 2 ^ 3), none)
  | .pinl h n d a => some (encWord h 0x3E d.toNat a.toNat 0 (5 * 2 ^ 7 + n.toNat * 2 ^ 3), none)
  | .unpinl h n d a => some (encWord h 0x3E d.toNat a.toNat 0 (6 * 2 ^ 7 + n.toNat * 2 ^ 3), none)
  | _ => none

/-- The bytes of an instruction as memory holds them (R185, R186). -/
def encodeBytes (i : Instr) : Option (List Byte) :=
  match encode i with
  | some (w, none) => some (natLe 4 w)
  | some (w, some v) => some (natLe 4 w ++ natLe 4 v)
  | none => none

end Sys2Proof
end

