-- ==== Sys2Proof/Config.lean ====
section
/-! DEFINITION. What an implementation fixes, and the free values: constants with no body, about which nothing can be proved (assumption log). -/

namespace Sys2Proof

/-- R150: which of the values that an undersized read with CHK = 0 may return, the new one or one that a write in flight replaced. FREE (log 5). -/
opaque Config.staleRead : Nat → Nat
/-- R154: which of the values that a g-register read within 7 cycles of a write may return. FREE (log 5). -/
opaque Config.staleG : Nat → Nat
/-- Which of the happenings under way, or the issue of an instruction, comes next. FREE (log 1). -/
opaque Config.pick : Nat → Nat
/-- REFT ticks that pass before a happening while others are under way. FREE (log 2). -/
opaque Config.elapse : Nat → Nat
/-- R356: the IU that a steal round draws. FREE (log 5). -/
opaque Config.stealDraw : Nat → Nat
/-- R380: byte `i` of the Squall image written at acceptance number `n`; the layout beyond the header is the device's own. FREE (log 20). -/
opaque Config.imageByte : Nat → Nat → Byte
/-- R380: size in bytes of image number `n`. FREE (log 20). -/
opaque Config.imageSize : Nat → Nat
/-- R378: a byte of a Squall control block in a field whose value at this STATUS the text does not state, by draw and offset. FREE (log 20). -/
opaque Config.cbByte : Nat → Nat → Byte
/-- R399: whether both signatures of an object of these bytes verify and its security version is at least the fused minimum. FREE (log 21). -/
opaque Config.signatureOk : List Byte → Bool
/-- R390, R393: power of a die in watts at a sample; the spec gives no way to compute it. FREE (log 22). -/
opaque Config.diePower : Nat → Nat → Nat
/-- R393, R395: junction temperature of a die in degrees Celsius at a sample. FREE (log 22). -/
opaque Config.dieTemp : Nat → Nat → Nat
/-- R394: watts that the gated issue units of a die leave unused at a sample. FREE (log 22). -/
opaque Config.unusedPower : Nat → Nat → Nat
/-- R399: version number of a firmware image of these bytes. FREE (log 21). -/
opaque Config.fwVersion : List Byte → Nat
/-- R400: number of a patch of these bytes. FREE (log 21). -/
opaque Config.patchNumber : List Byte → Nat
/-- R400: indices that a patch names as functions that must be inactive. FREE (log 21). -/
opaque Config.patchStops : List Byte → List Nat
/-- R397: what the boot ROM writes to FWHWINi, FWPLIM and FWMEM of a die. FREE (log 21). -/
opaque Config.bootHwin : Nat → Nat → BitVec 128
opaque Config.bootPlim : Nat → Dword
opaque Config.bootMem : Nat → Dword
/-- R403: the 16 bytes of event data for an event code and the values the spec says they hold; their layout is not given. FREE (log 23). -/
opaque Config.bbData : Nat → List Nat → BitVec 128
/-- R14, R134: whether a racing read of a 2-byte unit returns its new bytes, by draw and unit. FREE (log 5). -/
opaque Config.raceNew : Nat → Nat → Bool
/-- Which of several operands at fault a trap names, and which of several faults a prepare reports. FREE (log 31). -/
opaque Config.pickOperand : Nat → Nat
/-- R306: whether a participant that faults in its run still sends its tiles. FREE (log 33). -/
opaque Config.rotSends : Nat → Bool
/-- R404: which of a link's free slots come first, and the rounding of a partition's share, by draw and link; the text gives the proportion alone. FREE (log 24). -/
opaque Config.linkSlots : Nat → Nat → Nat
/-- R400: base version that a patch of these bytes applies to. FREE (log 21). -/
opaque Config.patchBase : List Byte → Nat
/-- R400: (index, new function VA) pairs of a patch. FREE (log 21). -/
opaque Config.patchPairs : List Byte → List (Nat × Nat)
/-- R389: whether a routed peer leaves an access unanswered, by its number. FREE (log 22). -/
opaque Config.peerSilent : Nat → Bool
/-- R403: the class of a link error. FREE (log 23). -/
opaque Config.errClass : Nat → Nat

/-- R328, R333: what a run of RLCX rounds with where the captured RM is one of 5 to 7, which no rule gives it. FREE (log 25). -/
opaque Config.rlcRm : Nat → Nat
/-- R60: whether a walk uses what its die's walk cache holds at a level, by draw and level; replacement is not given. FREE (log 5). -/
opaque Config.walkUses : Nat → Nat → Bool

/-- REFT ticks in a nanosecond: every clock setting of R16 then has a whole number of ticks per cycle. -/
def Config.ticksPerNs : Nat := 3675672
/-- Ticks of one arithmetic cycle at setting `k` (units of 0.05 GHz, R335). -/
def Config.ticksPerCycle (k : Nat) : Nat := 20 * Config.ticksPerNs / k
/-- R396: what the signed configuration table says of the firmware column's width. FREE (log 8). -/
opaque Config.columnCode : Nat
/-- R396: width of the firmware column, 1 to 4 IUs. -/
def Config.columnWidth : Nat := 1 + Config.columnCode % 4
/-- R396: FWVEC, the firmware trap vector of the configuration table, whose contents the text does not give. FREE (log 8). -/
opaque Config.fwvec : Dword

end Sys2Proof
end

