-- ==== Sys2Proof/Machine/Formats.lean ====
section
/-! DEFINITION. Element formats, conversions, block scales, VB8 and affine pairs (R160 to R179). -/

namespace Sys2Proof.Machine

/-- Bits of an element (R160); VB8 counts 8 on average. -/
def fmtBits : Fmt → Nat
  | .fp64 => 64 | .fp32 => 32 | .bfx2 => 32 | .fp16 => 16 | .bf16 => 16 | .e4m3 => 8 | .e5m2 => 8 | .vb8 => 8
  | .int32 => 32 | .int16 => 16 | .int8 => 8 | .uint8 => 8 | .int4 => 4 | .uint4 => 4 | .aff32 => 64

/-- Scalar floating-point formats (R161). -/
def fmtF : Fmt → Option FFmt
  | .fp64 => some ffp64 | .fp32 => some ffp32 | .fp16 => some ffp16 | .bf16 => some fbf16 | .e4m3 => some fe4m3 | .e5m2 => some fe5m2
  | _ => none

/-- Integer formats: whether signed, and bits (R165). -/
def fmtI : Fmt → Option (Bool × Nat)
  | .int32 => some (true, 32) | .int16 => some (true, 16) | .int8 => some (true, 8) | .uint8 => some (false, 8)
  | .int4 => some (true, 4) | .uint4 => some (false, 4)
  | _ => none

/-- Format of a short-vector lane (R192). -/
def fshF : FSh → FFmt
  | .f64 => ffp64 | .f32 => ffp32 | .f16 => ffp16 | .bf16 => fbf16

/-- Value of a BFX2 pair (R163). The model's choice: a pair with a finite hi and a signalling-NaN lo has the value of a quiet NaN and raises no FINV where it is read (R163, R249, log 39). -/
def bfx2Value (b : Nat) : FVal :=
  match fDecode fbf16 (b / 2 ^ 16 % 2 ^ 16) with
  | .nan s => .nan s
  | .inf n => .inf n
  | hi =>
    match (fvAdd 0 hi (fDecode fbf16 (b % 2 ^ 16))).1 with
    | .zero _ => .zero hi.neg
    | v => v

/-- Exponent of the last place of a BF16 datum that is finite. -/
def bf16Ulp (b : Nat) : Int := fbf16.qmin + ((b % 2 ^ 15 / 2 ^ 7 : Nat) - 1 : Nat)

/-- Whether a finite value's magnitude is above `2 ^ q`. -/
def FVal.above (v : FVal) (q : Int) : Bool := fvCmp v.magnitude (.fin false 1 q) = 1

/-- A value as a BFX2 pair (R164). -/
def toBfx2 (rm : Nat) (v : FVal) : Nat × Fl :=
  match v with
  | .fin n m e =>
    let (hb, hf) := fRound fbf16 rm n m e false
    if hf &&& flOf != 0 then (hb * 2 ^ 16, flOf ||| flNx)
    else
      let hi := fDecode fbf16 hb
      let lb := (fEncode fbf16 rm (fvAdd 0 v hi.negate).1).1
      let lo := fDecode fbf16 lb
      let pair : Nat × Nat :=
        if lo.above (bf16Ulp hb - 1) then
          let s := (fvAdd 0 hi lo).1
          let (hb', hf') := fEncode fbf16 0 s
          if hf' &&& flOf != 0 then (hb, lb) else
          (hb', (fEncode fbf16 0 (fvAdd 0 s (fDecode fbf16 hb').negate).1).1)
        else (hb, lb)
      let pv := (fvAdd 0 (fDecode fbf16 pair.1) (fDecode fbf16 pair.2)).1
      let nx := fvCmp pv v != 0
      let qu := expOf m e - 7
      let tiny := decide (expOf (roundAt rm n m e qu).1 qu < -126)
      (pair.1 * 2 ^ 16 + pair.2, if nx then (if tiny then flUf ||| flNx else flNx) else 0)
  | v => let (hb, f) := fEncode fbf16 rm v; (hb * 2 ^ 16, f)

/-- The value of an element; integers as they count, an affine pair by its offset (R161, R163, R165, R175). -/
def elemValue (f : Fmt) (b : Nat) : FVal :=
  match fmtF f, fmtI f with
  | some ff, _ => fDecode ff b
  | _, some (sg, w) => fvOfInt (if sg then signedNat w b else ((b % 2 ^ w : Nat) : Int))
  | _, _ => match f with | .bfx2 => bfx2Value b | _ => fDecode ffp32 (b % 2 ^ 32)

/-- Bounds of an integer format. -/
def intLo (sg : Bool) (w : Nat) : Int := if sg then -(2 ^ (w - 1) : Nat) else 0
def intHi (sg : Bool) (w : Nat) : Int := if sg then (2 ^ (w - 1) : Nat) - 1 else (2 ^ w : Nat) - 1

/-- An integer brought into a format's range, and whether that changed it. -/
def saturate (sg : Bool) (w : Nat) (k : Int) : Int × Bool :=
  if k < intLo sg w then (intLo sg w, true) else if k > intHi sg w then (intHi sg w, true) else (k, false)

/-- Float to integer (R175, R249). -/
def toInt (sg : Bool) (w rm : Nat) (v : FVal) : Nat × Fl :=
  match v with
  | .nan _ => (0, flNv)
  | .inf n => (wrapInt w (if n then intLo sg w else intHi sg w), flNv)
  | v =>
    let (k, nx) := fvToInt rm v
    let (k', sat) := saturate sg w k
    (wrapInt w k', if sat then flNv else if nx then flNx else 0)

/-- An element of one format converted to another that carries no block scale, rounded once (R175). -/
def convElem (dst src : Fmt) (rm : Nat) (b : Nat) : Nat × Fl :=
  let v := elemValue src b
  match fmtF dst, fmtI dst, fmtI src with
  | some f, _, _ => fEncode f rm v
  | _, some (sg, w), some (sg', w') =>
    let (k, sat) := saturate sg w (if sg' then signedNat w' b else ((b % 2 ^ w' : Nat) : Int))
    (wrapInt w k, if sat then flIo else 0)
  | _, some (sg, w), none => toInt sg w rm v
  | _, _, _ =>
    match dst with
    | .bfx2 => toBfx2 rm v
    | _ => let (o, f) := fEncode ffp32 rm v; (o + 0x3F80_0000 * 2 ^ 32, f)

/-! ### Block scales and VB8 (R166 to R171) -/

/-- A value times `2 ^ k`. -/
def FVal.shift (v : FVal) (k : Int) : FVal :=
  match v with
  | .fin n m e => .fin n m (e + k)
  | v => v

/-- Exponent of a scale byte other than 0xFF (R166). -/
def scaleExp (sc : Byte) : Int := (sc.toNat : Int) - 127

/-- The block formats (R167). -/
def isBlockFmt : Fmt → Bool
  | .e4m3 => true | .e5m2 => true | .vb8 => true | _ => false

/-- The greater magnitude of two finite values. -/
def maxMag (a b : FVal) : FVal := if fvCmp a.magnitude b.magnitude = -1 then b.magnitude else a.magnitude

/-- The scale of a block from its values (R167), with the flags the choice raises. -/
def blockScale (f : Fmt) (rm : Nat) (vs : List FVal) : Byte × Fl :=
  if vs.any (fun v => v.isNan || v.isInf) then (0xFF, flNv)
  else
    match vs.foldl maxMag (.zero false) with
    | .fin _ m e =>
      let p : Nat := match f with | .e5m2 => 3 | _ => 4
      let q := expOf m e - (p - 1 : Nat)
      let k := (roundAt rm false m e q).1
      let E := expOf k q
      let t : Int := match f with | .e5m2 => 15 | .vb8 => 0 | _ => if k = 15 then 7 else 8
      let se := E - t
      if se > 127 then (0xFE, flOf) else (BitVec.ofNat 8 (max se (-127) + 127).toNat, 0)
    | _ => (0x7F, 0)

/-- A VB8 code: zero, or the offset, sign and mantissa (R168). -/
inductive VCode
  | zero | code (k : Nat) (neg : Bool) (m : Nat)
  deriving DecidableEq, Repr

/-- Bits of a code in the order they are written (R168). -/
def VCode.bits : VCode → List Bool
  | .zero => [true, true, true, true, true, true, false]
  | .code k neg m => List.replicate k true ++ [false, neg, m.testBit 2, m.testBit 1, m.testBit 0]

/-- The value of a code in units of the scale. -/
def VCode.value : VCode → FVal
  | .zero => .zero false
  | .code k neg m => .fin neg (8 + m) (-(k : Int) - 3)

/-- Whether a finite value in units of the scale, rounded in `rm` to 1 + 3 bits with an unbounded exponent, lies below 2^-5: tiny for VB8 (R174). -/
def vbTiny (rm : Nat) (neg : Bool) (m : Nat) (e : Int) : Bool :=
  let q := expOf m e - 3
  decide (expOf (roundAt rm neg m e q).1 q < -5)

/-- The code of a value in units of the scale: its magnitude is rounded in `rm`, whatever its sign (R170, steps 1 to 4), and a tiny inexact result sets FUNF (R174). A value past the block's top, which only a scale held at 127 leaves, saturates (R167). -/
def vbCode (rm : Nat) (v : FVal) : VCode × Fl :=
  match v with
  | .fin n m e =>
    let E := expOf m e
    if E > 0 then (.code 0 n 7, flOf ||| flNx)
    else if E ≥ -5 then
      let (k, nx) := roundAt rm false m e (E - 3)
      let fl := if nx then flNx else 0
      if k = 16 then (if E = 0 then (.code 0 n 7, flOf ||| flNx) else (.code (-E - 1).toNat n 0, fl))
      else (.code (-E).toNat n (k - 8), fl)
    else
      let k := (roundAt rm false m e (-5)).1
      if k = 0 then (.zero, flUf ||| flNx) else (.code 5 n 0, if vbTiny rm false m e then flUf ||| flNx else flNx)
  | _ => (.zero, 0)

/-- Bytes from bits, bit 0 of each byte first; a short tail is filled with zeros (R169). -/
def packBits : Nat → List Bool → List Byte
  | 0, _ => []
  | n + 1, bs =>
    let b (i : Nat) : Nat := if (bs.getD i false) then 2 ^ i else 0
    BitVec.ofNat 8 (b 0 + b 1 + b 2 + b 3 + b 4 + b 5 + b 6 + b 7) :: packBits n (bs.drop 8)

/-- Bits of bytes, bit 0 of each byte first. -/
def byteBits (b : Byte) : List Bool := (List.range 8).map (fun i => b.getLsbD i)

/-- Reads `n` codes; none when a prefix of seven ones appears or the bits run out (R171). -/
def vbRead : Nat → List Bool → Option (List VCode)
  | 0, _ => some []
  | n + 1, bs =>
    let k := (bs.take 7).takeWhile id |>.length
    match (if k < 7 then bs.drop k else []) with
    | false :: r =>
      if k = 6 then (vbRead n r).map (VCode.zero :: ·)
      else
        match r with
        | s :: m2 :: m1 :: m0 :: r' => (vbRead n r').map (VCode.code k s (4 * m2.toNat + 2 * m1.toNat + m0.toNat) :: ·)
        | _ => none
    | _ => none

/-- A block of values coded: bytes, scale, escape flag and flags (R167, R170, R175). The model's choice: each quotient is rounded as a signed value, so that under RDN or RUP an element of the sign toward which the mode rounds may pass the top of the block and then overflows as R174 says (R167, R175, log 39). -/
def encodeBlock (f : Fmt) (rm : Nat) (vs : List FVal) : List Byte × Byte × Bool × Fl :=
  let (sc, f0) := blockScale f rm vs
  let us := if sc = 0xFF then vs.map (fun _ => FVal.zero false) else vs.map (FVal.shift · (-(scaleExp sc)))
  let plain (g : FFmt) : List Byte × Byte × Bool × Fl :=
    let rs := us.map (fEncode g rm ·)
    (rs.map (fun r => BitVec.ofNat 8 r.1), sc, false, rs.foldl (fun a r => a ||| r.2) f0)
  match f with
  | .vb8 =>
    let cs := us.map (vbCode rm)
    let bits := cs.flatMap (fun c => c.1.bits)
    if bits.length ≤ 8 * vs.length then (packBits vs.length bits, sc, false, cs.foldl (fun a c => a ||| c.2) f0)
    else
      let rs := us.map fun u => (u, fEncode fe4m3 rm u)
      let fl := rs.foldl (fun a r =>
        let w := fDecode fe4m3 r.2.1
        let nx := fvCmp w r.1 != 0
        let tiny := match r.1 with | .fin n m e => w.isZero || vbTiny rm n m e | _ => false
        a ||| (r.2.2 &&& flOf) ||| (if nx then flNx else 0) ||| (if nx && tiny then flUf else 0)) f0
      (rs.map (fun r => if r.2.1 = 0x80 then 0 else BitVec.ofNat 8 r.2.1), sc, true, fl)
  | .e5m2 => plain fe5m2
  | _ => plain fe4m3

/-- The values of a block, and FINV where the block is malformed (R166, R171). Reading a block whose scale is 0xFF raises nothing by itself: that FINV of R174 is raised where such a block is made, R171 names FINV for a malformed block only, and R310 moves a NaN block without a flag (log 39, the model's choice). -/
def decodeBlock (f : Fmt) (bytes : List Byte) (sc : Byte) (esc : Bool) : List FVal × Fl :=
  if sc = 0xFF then (bytes.map fun _ => .nan false, 0)
  else
    let plain (g : FFmt) := bytes.map fun b => (fDecode g b.toNat).shift (scaleExp sc)
    match f with
    | .vb8 =>
      if esc then (plain fe4m3, 0)
      else
        match vbRead bytes.length (bytes.flatMap byteBits) with
        | some cs => (cs.map fun c => c.value.shift (scaleExp sc), 0)
        | none => (bytes.map fun _ => .nan false, flNv)
    | .e5m2 => (plain fe5m2, 0)
    | _ => (plain fe4m3, 0)

/-! ### Affine pairs (R176 to R179) -/

/-- FP32 product and sum with one rounding (R177). -/
def f32Fma (rm a b c : Nat) : Nat × Fl := fExact ffp32 rm (fvFma rm (fDecode ffp32 a) (fDecode ffp32 b) (fDecode ffp32 c))

/-- FP32 +0 and 1.0. -/
def f32One : Nat := 0x3F80_0000

/-- The map (g, o) applied to x (R177). -/
def affApply (rm g o x : Nat) : Nat × Fl := if g = 0 then (o, 0) else f32Fma rm g x o

/-- A composed gain with its flush (R177, R179). -/
def affGain (rm a2 a1 : Nat) : Nat × Fl :=
  if a2 = 0 then (0, 0)
  else if a1 = 0 && !((fDecode ffp32 a2).isNan || (fDecode ffp32 a2).isInf) then (0, 0)
  else
    let p := fvMul (fDecode ffp32 a2) (fDecode ffp32 a1)
    let (g, f) := fExact ffp32 rm p
    if g % 2 ^ 31 < 2 ^ 23 then (0, match p.1 with | .fin _ _ _ => f ||| flUf | _ => f) else (g, f)

/-- (a2, b2) after (a1, b1): gain, offset and flags (R177). -/
def affCompose (rm : Nat) (p2 p1 : Nat × Nat) : (Nat × Nat) × Fl :=
  let (g, f1) := affGain rm p2.1 p1.1
  let (o, f2) := if p2.1 = 0 then (p2.2, 0) else f32Fma rm p2.1 p1.2 p2.2
  ((g, o), f1 ||| f2)

end Sys2Proof.Machine
end

