-- ==== Sys2Proof/Machine/Line.lean ====
section
/-! DEFINITION. The primary line to the bit (R96 to R101), registers, and where agents stand for scopes (R3, R114, R115, R136). -/

namespace Sys2Proof.Machine

/-! ### STAT, WAIT, PRED, OWNER -/

/-- STATE codes (R99). -/
abbrev stReady : Nat := 0
abbrev stWaiting : Nat := 1
abbrev stParked : Nat := 2
abbrev stTrapped : Nat := 3
abbrev stDone : Nat := 4
abbrev stFaulted : Nat := 5

/-- WHY codes (R98). -/
abbrev whyReg : Nat := 1
abbrev whyRecv : Nat := 2
abbrev whyTok : Nat := 3
abbrev whyFut : Nat := 4
abbrev whyBar : Nat := 5
abbrev whyTimer : Nat := 6
abbrev whyMigr : Nat := 7
abbrev whyPark : Nat := 8

def Ctx.mode (c : Ctx) : Nat := getF c.stat 0 2
def Ctx.state (c : Ctx) : Nat := getF c.stat 2 3
def Ctx.rm (c : Ctx) : Nat := getF c.stat 5 3
def Ctx.chk (c : Ctx) : Bool := c.stat.getLsbD 8
def Ctx.inTrap (c : Ctx) : Bool := c.stat.getLsbD 9
def Ctx.prio (c : Ctx) : Nat := getF c.stat 10 2
def Ctx.urgent (c : Ctx) : Bool := c.stat.getLsbD 12
def Ctx.nest (c : Ctx) : Nat := getF c.stat 13 3
def Ctx.why (c : Ctx) : Nat := getF c.wait 24 4
def Ctx.launch (c : Ctx) : Nat := getF c.owner 0 16
def Ctx.level (c : Ctx) : Nat := getF c.owner 16 3
/-- PEND, FULL and TOK (R98), TFLT (R100). -/
def Ctx.pend (c : Ctx) (i : Nat) : Bool := c.wait.getLsbD i
def Ctx.full (c : Ctx) (i : Nat) : Bool := c.wait.getLsbD (8 + i)
def Ctx.tok (c : Ctx) (k : Nat) : Bool := c.wait.getLsbD (16 + k)
def Ctx.tflt (c : Ctx) (k : Nat) : Bool := c.owner.getLsbD (24 + k)
def Ctx.pendAll (c : Ctx) : Nat := getF c.wait 0 8

/-- One bit of a word set or cleared. -/
def setBit (w : Word) (i : Nat) (b : Bool) : Word := setF w i 1 b.toNat

def Ctx.setPend (c : Ctx) (i : Nat) (b : Bool) : Ctx := { c with wait := setBit c.wait i b }
def Ctx.setFull (c : Ctx) (i : Nat) (b : Bool) : Ctx := { c with wait := setBit c.wait (8 + i) b }
/-- STATE and WHY together (R98, R106). -/
def Ctx.setState (c : Ctx) (st why : Nat) : Ctx :=
  { c with stat := setF c.stat 2 3 st, wait := setF c.wait 24 4 why }

/-- A predicate; p0 reads 1 (R97). -/
def Ctx.p (c : Ctx) (i : Pred) : Bool := i == 0 || c.pred.getLsbD i.toNat
/-- A write to p0 is ignored (R97). -/
def Ctx.setP (c : Ctx) (i : Pred) (b : Bool) : Ctx := if i = 0 then c else { c with pred := setBit c.pred i.toNat b }
/-- The lane mask (R97). -/
def Ctx.lm (c : Ctx) : BitVec 12 := c.pred.extractLsb' 8 12
/-- ORs sticky flags into PRED[25:20] (R97). -/
def Ctx.orFlags (c : Ctx) (f : BitVec 6) : Ctx := { c with pred := c.pred ||| BitVec.ofNat 32 (f.toNat * 2 ^ 20) }

/-- Sets SMISS (R97). -/
def Ctx.orSmiss (c : Ctx) : Ctx := { c with pred := c.pred ||| 0x0400_0000#32 }

/-- PRED at dispatch and at trap entry (R96, R370). -/
def predReset : Word := 0x000F_FF01

/-! ### Registers (R101) -/

def xget (v : Vector XReg 8) (r : Reg) : XReg := v[r.toNat]'r.isLt
def xset (v : Vector XReg 8) (r : Reg) (x : XReg) : Vector XReg 8 := v.set r.toNat x r.isLt

/-- Bytes 0 to 7 of a register. -/
def xD (x : XReg) : Dword := x.extractLsb' 0 64
/-- A `.D` result leaves bytes 8 to 11 unchanged (R209). -/
def xSetD (x : XReg) (v : Dword) : XReg := x.extractLsb' 64 32 ++ v
/-- A `.D` value with bytes 8 to 11 zero. -/
def xOfD (v : Dword) : XReg := (0 : BitVec 32) ++ v

/-- Bytes of the primary line (R96). -/
def ctxBytes (c : Ctx) : List Byte :=
  leBytes 8 c.pc.toNat ++ leBytes 4 c.pred.toNat ++ leBytes 4 c.wait.toNat ++ leBytes 4 c.stat.toNat ++
  leBytes 4 c.owner.toNat ++ leBytes 8 c.link.toNat ++ c.x.toList.flatMap (fun x => leBytes 12 x.toNat)

/-- The primary line from its 128 bytes (R96). -/
def ctxOfBytes (bs : List Byte) : Ctx :=
  let at' (o n : Nat) : Nat := leToNat ((bs.drop o).take n)
  let xr (i : Nat) : XReg := BitVec.ofNat 96 (at' (0x20 + 12 * i) 12)
  { pc := BitVec.ofNat 64 (at' 0 8), pred := BitVec.ofNat 32 (at' 8 4), wait := BitVec.ofNat 32 (at' 12 4),
    stat := BitVec.ofNat 32 (at' 16 4), owner := BitVec.ofNat 32 (at' 20 4), link := BitVec.ofNat 64 (at' 24 8),
    x := #v[xr 0, xr 1, xr 2, xr 3, xr 4, xr 5, xr 6, xr 7] }

/-- The issue unit's record of a line that has just arrived at cycle `t` and REFT `now` (R145, R150). -/
def Held.fresh (place : Place) (id : Nat) (c : Ctx) (t now : Nat) : Held :=
  { place, id, ctx := c, next := t, rdy := Vector.replicate 8 0, old := Vector.replicate 8 [], flagsAt := [], replay := none,
    since := now, filled := now, evictReq := false, way := 0 }

/-! ### Domains and scopes -/

/-- IU, quad, cluster, die and tower numbers (R136): a slot number is IU x 16 + slot. -/
def dieOfIu (iu : Nat) : Nat := iu / 128
def towerOfDie (d : Nat) : Nat := d / 4

/-- The lowest scope whose instance a position lies in (R114). -/
def Pos.level : Pos → Nat
  | .iu _ => 1 | .quad _ => 2 | .cluster _ => 3 | .die _ => 4 | .tower _ => 5 | .off => 7 | .own _ => 0

/-- The instance of a domain in which a position lies (R136); the one instance of PKG is numbered 0, which the text does not say (log 59). -/
def Pos.inst (p : Pos) (s : Nat) : Option Nat :=
  match p with
  | .iu n => match s with | 1 => some n | 2 => some (n / 4) | 3 => some (n / 8) | 4 => some (n / 128) | 5 => some (n / 512) | _ => some 0
  | .quad q => match s with | 0 => none | 1 => none | 2 => some q | 3 => some (q / 2) | 4 => some (q / 32) | 5 => some (q / 128) | _ => some 0
  | .cluster c => match s with | 3 => some c | 4 => some (c / 16) | 5 => some (c / 64) | 6 => some 0 | 7 => some 0 | _ => none
  | .die d => match s with | 4 => some d | 5 => some (d / 4) | 6 => some 0 | 7 => some 0 | _ => none
  | .tower t => match s with | 5 => some t | 6 => some 0 | 7 => some 0 | _ => none
  | .off => if s = 7 then some 0 else none
  | .own _ => none

/-- The IU and the die from which an access was issued. -/
def Pos.iu? : Pos → Nat | .iu n => n | _ => 0
def Pos.die? (p : Pos) : Nat := (p.inst 4).getD 0

/-- Whether an operation at scope `s` from one position reaches an agent at another (R115); a scope below the position's own level is widened to it. -/
def reaches (s : ScopeCode) (p q : Pos) : Bool :=
  let s' := max s.toNat p.level
  match p.inst s', q.inst s' with
  | some i, some j => i == j
  | _, _ => false

/-- Whether context `key` at position `q`, acquiring at scope `t`, synchronises with what a stamp names (R124); a release of an engine at CTX scope reaches the issuing context alone (R115). The check goes by the stamp's origin, also where the value is the context's own relaxed RMW over a foreign stamp (log 58). -/
def stampOk (st : Stamp) (t : ScopeCode) (key : Nat) (q : Pos) : Bool :=
  match st.origin with
  | none => true
  | some (w, p) =>
    w == .ctx key || p == .own key ||
    ((match w with | .ctx _ => st.scope != 0 | _ => true) && t != 0 && reaches st.scope p q && reaches t q p)

/-- The stamp of memory that no write has stamped (R123). -/
def stampNone : Stamp := ⟨7, none⟩

/-- The stamp after a write (R123): a release takes its scope, a plain write by the origin agent keeps the stamp, any other narrows it to (CTX, writer). -/
def stampAfter (old : Stamp) (w : Writer) (p : Pos) (rel : Option ScopeCode) : Stamp :=
  match rel with
  | some sc => ⟨sc, some (w, p)⟩
  | none =>
    match old.origin with
    | some (w', _) => if w' = w then old else ⟨0, some (w, p)⟩
    | none => ⟨0, some (w, p)⟩

end Sys2Proof.Machine
end

