-- ==== Sys2Proof/Machine/Mem.lean ====
section
/-! DEFINITION. Time, the physical map, partitions and roles, the directory and the dies' caches, writes with their stamps, and tile scratch (R5, R16, R24 to R31, R44 to R49, R71 to R95, R123, R284, R287). -/

namespace Sys2Proof.Machine

/-! ### Time (R5, R335, R392) -/

/-- A die that nothing has touched since reset (log 7, log 8). -/
def dieReset : Die :=
  { cur := 36, cycBase := 0, timeBase := 0, relock := none, target := 36, stepAt := 0, sampled := 0, heat := 0, temp := 0, incarn := 0, down := false, corrected := 0 }

def State.die (s : State) (d : Nat) : Die := mapGet s.dies d dieReset
/-- REFT in nanoseconds (R335). -/
def State.reft (s : State) : Nat := s.now / Config.ticksPerNs
/-- Arithmetic cycles a die has completed; none pass in a relock (R335, R392). -/
def State.cyc (s : State) (d : Nat) : Nat := if (s.die d).relock.isSome then (s.die d).cycBase else (s.die d).cycBase + (s.now - (s.die d).timeBase) / Config.ticksPerCycle (s.die d).cur
/-- The moment at which a die reaches a cycle, no earlier than now. -/
def State.cycleAt (s : State) (d c : Nat) : Nat :=
  if c ≤ s.cyc d then s.now else (s.die d).timeBase + (c - (s.die d).cycBase) * Config.ticksPerCycle (s.die d).cur
/-- REFT passes to a moment, never backward (R385). -/
def State.at (s : State) (t : Nat) : State := { s with now := max s.now t }

/-- A happening under way or an input: it comes about in a later step (log 1). -/
def State.emit (s : State) (i : Instr) : State := { s with agenda := s.agenda ++ [i] }
/-- The same, where it is not already to come. -/
def State.emitOnce (s : State) (i : Instr) : State := if s.agenda.contains i then s else s.emit i
def State.emits (s : State) (is : List Instr) : State := { s with agenda := s.agenda ++ is }
/-- A request that waits keeps its place before those that came after it (R390). -/
def State.emitFirst (s : State) (i : Instr) : State := { s with agenda := i :: s.agenda }

/-! ### Partitions and roles (R16, R390) -/

def State.part (s : State) (k : Nat) : Option Part := mapFind s.parts k
/-- The partition that owns a tower. -/
def State.partOfTower (s : State) (t : Nat) : Option Nat := (s.parts.find? fun e => e.2.towers.contains t).map (·.1)
/-- Changes a partition. -/
def State.modPart (s : State) (k : Nat) (f : Part → Part) : State :=
  match s.part k with
  | some p => { s with parts := mapPut s.parts k (f p) }
  | none => s

/-- Layers in M role of a map (R16). -/
def mLayers : RoleMap → Nat
  | .mccc => 1 | .cccc => 0 | .mmcc => 2 | .mmmc => 3 | .mmmm => 4

/-- The role map of a tower, none outside every partition. -/
def State.roleOf (s : State) (t : Nat) : Option RoleMap :=
  match s.partOfTower t with
  | some k => ((s.part k).bind fun p => p.roles.find? (·.1 = t)).map (·.2)
  | none => none

/-- Whether a die is in C role, or in M role, in a partition (R16). -/
def State.isC (s : State) (d : Nat) : Bool := match s.roleOf (towerOfDie d) with | some r => decide (d % 4 ≥ mLayers r) | none => false
def State.isM (s : State) (d : Nat) : Bool := match s.roleOf (towerOfDie d) with | some r => decide (d % 4 < mLayers r) | none => false

/-! ### The physical map (R24 to R31, R44) -/

/-- Rows of the map of R24. -/
def mapRow (pa : Nat) : Nat :=
  if pa < 0xC0_0000_0000 then 0
  else if 0x100_0000_0000 ≤ pa ∧ pa < 0x101_8000_0000 then 1
  else if 0x200_0000_0000 ≤ pa ∧ pa < 0x200_000C_0000 then 2
  else if 0x300_0000_0000 ≤ pa ∧ pa < 0x306_0000_0000 then 3
  else if pa < 0x8_0000_0000_0000 then 6
  else if pa < 0xC_0000_0000_0000 then 4 else 5

/-- The tower of an address by the map alone, populated or not. -/
def mapTower (pa : Nat) : Option Nat :=
  match mapRow pa with
  | 0 => some (pa / 2 ^ 37)
  | 1 => some ((pa - 0x100_0000_0000) / 2 ^ 30)
  | 2 => some (pa % 2 ^ 40 / 2 ^ 17)
  | 3 => some ((pa - 0x300_0000_0000) / 2 ^ 32)
  | _ => none

/-- Where a physical address lies (R24). -/
inductive Region
  | hbm (tower : Nat) | nm (tower : Nat) | bde (stack : Nat) | alias_ (die quad off : Nat) | host | peer (n : Nat) | none_
  deriving DecidableEq, Repr

/-- Populated bytes of a stack (R26). -/
def stackBytes : Nat := 0xB_2D05_E000

/-- The region of an address under the current role maps (R24, R26, R28, R44). -/
def State.region (s : State) (pa : Nat) : Region :=
  if pa < 0xC0_0000_0000 then (if pa % 2 ^ 36 < stackBytes then .hbm (pa / 2 ^ 37) else .none_)
  else if 0x100_0000_0000 ≤ pa ∧ pa < 0x101_8000_0000 then
    let t := (pa - 0x100_0000_0000) / 2 ^ 30
    let l := pa % 2 ^ 30 / 0xB00_0000
    if l < 4 && s.isM (4 * t + l) then .nm t else .none_
  else if 0x200_0000_0000 ≤ pa ∧ pa < 0x200_000C_0000 then .bde (pa % 2 ^ 40 / 2 ^ 16)
  else if 0x300_0000_0000 ≤ pa ∧ pa < 0x306_0000_0000 then
    let d := (pa - 0x300_0000_0000) / 2 ^ 30
    let off := pa % 2 ^ 25
    if s.isC d && (off < 0x20_0000 || off ≥ 0x80_0000) then .alias_ d (pa % 2 ^ 30 / 2 ^ 25) off else .none_
  else if 0x8_0000_0000_0000 ≤ pa ∧ pa < 0xC_0000_0000_0000 then .host
  else if 0xC_0000_0000_0000 ≤ pa ∧ pa < 0x10_0000_0000_0000 then .peer ((pa - 0xC_0000_0000_0000) / 2 ^ 46)
  else .none_

/-- The home tower of an address (R25). -/
def State.homeTower (s : State) (pa : Nat) : Option Nat :=
  match s.region pa with
  | .hbm t => some t
  | .nm t => some t
  | .bde n => some (n / 2)
  | _ => none

/-- Ports HL0, HL1, FP0 to FP3 as numbers 0 to 5 (R386); a port nothing is listed for is up at x16 (log 8). -/
def State.port (s : State) (n : Nat) : Port := mapGet s.ports n { up := true, width := 16 }

/-- Whether a partition may address a PA (R24, R25, R389). -/
def State.paOk (s : State) (k pa : Nat) : Bool :=
  match s.region pa with
  | .hbm t => s.partOfTower t == some k
  | .nm t => s.partOfTower t == some k
  | .bde n => s.partOfTower (n / 2) == some k
  | .alias_ d _ _ => s.partOfTower (towerOfDie d) == some k
  | .host => true
  | .peer n => match (s.part k).bind (fun p => (p.routes.getD n none)) with | some q => (s.port q).up | none => false
  | .none_ => false

/-- First byte past the software's share of a tower's HBM: its far-line cache (R27). -/
def flcBase (t gib : Nat) : Nat := t * 2 ^ 37 + 2 ^ 36 + stackBytes - gib * 2 ^ 30
/-- Whether an address lies in a far-line cache of the partition (R27). -/
def Part.inFlc (p : Part) (pa : Nat) : Bool :=
  p.towers.any fun t => decide (flcBase t p.flcGib ≤ pa ∧ pa < t * 2 ^ 37 + 2 ^ 36 + stackBytes)
/-- The address-space table (R50). -/
def Part.asTable (p : Part) : Nat := flcBase (p.towers.headD 0) p.flcGib - 0x8000

/-- Whether the memory side that serves an address is down, or both host links (R93, R388). -/
def State.offline (s : State) (pa : Nat) : Bool :=
  match s.region pa with
  | .hbm t => (s.die (4 * t)).down
  | .bde n => (s.die (4 * (n / 2))).down
  | .nm t => (s.die (4 * t + pa % 2 ^ 30 / 0xB00_0000)).down
  | .host => !(s.port 0).up && !(s.port 1).up
  | _ => false

/-- Whether an address is coherent memory (R114's locations). -/
def State.coherent (s : State) (pa : Nat) : Bool :=
  match s.region pa with
  | .hbm _ => true | .nm _ => true | .host => true | .peer _ => true | _ => false

def lineOf (pa : Nat) : Nat := pa / 128

/-! ### Black box (R403) -/

def bbEmpty : BbRing := { seq := 0, recs := [] }
/-- Appends to one ring of `cap` records, the oldest overwritten first. -/
def bbPush (b : BbRing) (cap : Nat) (r : BbRec) : BbRing :=
  let rs := b.recs ++ [{ r with seqn := b.seq }]
  { seq := b.seq + 1, recs := if rs.length > cap then rs.drop 1 else rs }
/-- Records an event on its die and, for codes 2 to 8, in the package summary. -/
def State.bb (s : State) (die code part : Nat) (vals : List Nat) : State :=
  let r : BbRec := { time := s.reft, code, die, part, seqn := 0, data := Config.bbData code vals }
  let m := mapUpd s.bbox die bbEmpty fun b => bbPush b 2048 r
  { s with bbox := if 2 ≤ code ∧ code ≤ 8 then mapUpd m 24 bbEmpty (fun b => bbPush b 256 r) else m }

/-- The die whose memory side serves an address: layer 0 of the home tower, the M die for near memory, the die itself for scratch (R93). -/
def State.serveDie (s : State) (pa : Nat) : Nat :=
  match s.region pa with
  | .hbm t => 4 * t
  | .nm t => 4 * t + pa % 2 ^ 30 / 0xB00_0000
  | .bde n => 4 * (n / 2)
  | .alias_ d _ _ => d
  | _ => 0

/-- The partition an event at an address is recorded for, 255 where there is none (R403). -/
def State.bbPart (s : State) (pa : Nat) : Nat := ((mapTower pa).bind s.partOfTower).getD 255

/-- A line is poisoned, and the black box says so (R91, R403). -/
def State.poisonLine (s : State) (line : Nat) : State :=
  ({ s with poison := mapPut s.poison line () } : State).bb (s.serveDie (line * 128)) 2 (s.bbPart (line * 128)) [line * 128, mapRow (line * 128)]

def State.isPoison (s : State) (line : Nat) : Bool := (mapFind s.poison line).isSome
def State.stamp (s : State) (line : Nat) : Stamp := mapGet s.stamps line stampNone

/-! ### L2, leases and the directory (R71 to R87) -/

/-- Key of a line's copy in a die's L2. -/
def l2Key (line die : Nat) : Nat := line * 32 + die
def State.l2Line (s : State) (line die : Nat) : Option L2Line := mapFind s.l2 (l2Key line die)
def l2None : L2Line := { present := false, owned := false, dirty := false, lexp := 0, pinned := false, used := 0, asked := false }
def State.modL2 (s : State) (line die : Nat) (f : L2Line → L2Line) : State :=
  { s with l2 := mapUpd s.l2 (l2Key line die) l2None f }

/-- Whether a die may serve a read, or a write, of the line from its slice (R75, R78). -/
def State.l2Reads (s : State) (line die : Nat) : Bool := match s.l2Line line die with | some l => l.present | none => false
def State.l2Owns (s : State) (line die : Nat) : Bool := match s.l2Line line die with | some l => l.present && l.owned | none => false

/-- Dies whose bit is set. -/
def sharerList (v : BitVec 24) : List Nat := (List.range 24).filter fun d => v.getLsbD d
def dieBit (d : Nat) : BitVec 24 := BitVec.ofNat 24 (2 ^ d)

def dirUnc : DirEntry := { st := .unc, sharers := 0, owner := 0, host := false, await := 0, snoop := false, serving := none, queue := [], born := 0 }
def State.dirE (s : State) (line : Nat) : DirEntry := mapGet s.dir line dirUnc
/-- Sets a directory entry; one that says nothing is unlisted (R84). Unless the same owner keeps the line or a recall is under way, its home memory is current again (R88). -/
def State.setDir (s : State) (line : Nat) (e : DirEntry) : State :=
  let o := s.dirE line
  { s with dir := if { e with born := 0 } = dirUnc then mapErase s.dir line else mapPut s.dir line { e with born := if (mapFind s.dir line).isSome then o.born else s.now },
           sram := if e.st = .wait || (e.st = .own && o.st = .own && e.owner = o.owner) then s.sram else mapErase s.sram line }

/-- The home hold: a role change is flushing or changing the home tower (R19). -/
def State.homeHeld (s : State) (pa : Nat) : Bool :=
  match s.homeTower pa with
  | some t => s.parts.any fun e => e.2.roleChange.any fun rc => decide (rc.step ≥ 4) && rc.maps.any (·.1 = t)
  | none => false

/-- Whether a copy engine or a prepared TST holds the line, or its home is held (R19, R90, R290). -/
def State.claimed (s : State) (line : Nat) : Bool := (s.claims.any fun c => c.lines.contains line) || s.homeHeld (line * 128)

/-- Whether a line lies in a peer module: no directory keeps it coherent (R128). -/
def State.isPeer (s : State) (line : Nat) : Bool := match s.region (line * 128) with | .peer _ => true | _ => false
/-- Whether a line lies outside the module: the L1D does not take it, and L2 only where its page is not non-temporal (R31, R56). -/
def State.offModule (s : State) (line : Nat) : Bool := match s.region (line * 128) with | .peer _ => true | .host => true | _ => false

/-- Latest expiry of a lease on the line anywhere (R72). -/
def State.lexpAll (s : State) (line : Nat) : Nat := (s.l2.filter (fun e => e.1 / 32 = line)).foldl (fun m e => max m e.2.lexp) 0

/-- A die gives up its copy: a pinned way stays reserved for it (R76), so does a request outstanding; L1D copies of the die end with it (R82). -/
def State.dropCopy (s : State) (line die : Nat) : State :=
  let s := { s with l1 := s.l1.filter (fun c => !(c.line = line && dieOfIu c.iu = die)), peer := mapErase s.peer (l2Key line die) }
  match s.l2Line line die with
  | some l =>
    if l.pinned || l.asked then s.modL2 line die fun l => { l with present := false, owned := false, dirty := false }
    else { s with l2 := mapErase s.l2 (l2Key line die) }
  | none => s

/-- No far-line cache holds the line (R87). -/
def State.dropFlc (s : State) (line : Nat) : State := { s with flc := s.flc.filter fun e => e.2.line != line }

/-- Every copy but one die's is given up, once every lease on the line has ended (R72, R82). -/
def State.dropOthers (s : State) (line : Nat) (keep : Option Nat) : State :=
  let s := s.at (s.lexpAll line)
  let s := (s.l2.filter (fun e => e.1 / 32 = line && some (e.1 % 32) != keep)).foldl (fun s e => s.dropCopy line (e.1 % 32)) s
  s.dropFlc line

/-- The line, the die and the direction (true for home to die) of a coherence message (R80). -/
def msgLine : Instr → Option (Nat × Nat × Bool)
  | .gets l d => some (l, d, false) | .geto l d => some (l, d, false) | .upg l d => some (l, d, false) | .puto l d => some (l, d, false)
  | .adds l d => some (l, d, false) | .invack l d => some (l, d, false) | .rcldata l d => some (l, d, false)
  | .inv l d => some (l, d, true) | .rcls l d => some (l, d, true) | .rcli l d => some (l, d, true)
  | .datas l d => some (l, d, true) | .datao l d => some (l, d, true)
  | .backInvalidationResponse l => some (l, 24, false)
  | _ => none

/-- The path between two towers; the text orders nothing else within one (R7). -/
def towerPath (a b : Nat) : Option (Nat × Nat) := if a = b then none else some (200 + a, 200 + b)
/-- The die that holds a context line, and the tower it stands on: the home's, where no die holds it (R25, R103). -/
def State.holderDie (s : State) (key : Nat) : Option Nat :=
  match mapFind s.held key with
  | some h => (match h.place with | .slot n => some (n / 2048) | .cl2 c => some (c / 16) | .moving c _ => some (c / 16))
  | none => none
def State.holderTower (s : State) (key : Nat) : Nat := match s.holderDie key with | some d => towerOfDie d | none => (s.homeTower key).getD 6
/-- The path between a die and the home of a line: one for each die of the home's own tower, one between any two towers; what leaves the module takes the path of its kind (R7, R8, R80). -/
def State.pathOf (s : State) (line die : Nat) (down : Bool) : Nat × Nat :=
  let h := (s.homeTower (line * 128)).getD 6
  let t := towerOfDie die
  let (a, b) := if h = t then (100 + h, die) else (200 + h, 200 + t)
  if down then (a, b) else (b, a)

/-- What a happening must keep its order with: messages of the coherence protocol, non-temporal writes, stores to context lines, answers, messages to contexts with their statuses, and steals on one path (R7, R80), management requests for one partition, which are served one at a time in the order they arrived (R390). -/
def State.msgPath (s : State) : Instr → Option (Nat × Nat)
  | .destroy _ _ k => some (300, k)
  | .roles _ _ k _ => some (300, k)
  | .squall r _ => some (300, r.part)
  | .thaw r _ => some (300, r.part)
  | .backInvalidationResponse _ => none
  | .wrnt k => (mapFind s.stores k).bind fun p => (p.bytes.head?).map fun c => s.pathOf (c.1 / 128) ((p.pos.inst 4).getD 0) false
  | .message k => (mapFind s.sends k).map fun o => s.pathOf (o.target / 128) ((o.pos.inst 4).getD 0) false
  | .sendStatus k => (mapFind s.sends k).bind fun o => towerPath (s.holderTower o.target) (s.holderTower o.key)
  | .contextLineStore k => (mapFind s.stores k).bind fun p => p.toCtx.bind fun key => towerPath (towerOfDie ((p.pos.inst 4).getD 0)) (s.holderTower key)
  | .storeAnswer k => (mapFind s.stores k).bind fun p => (p.bytes.head?).bind fun c => towerPath ((s.homeTower c.1).getD 6) (s.holderTower p.key)
  | .stealRequest v t => towerPath (t / 512) (v / 512)
  | .stealAnswer t => ((mapFind s.ius t).bind (·.asked.getLast?)).bind fun v => towerPath (v / 512) (t / 512)
  | i => (msgLine i).map fun m => s.pathOf m.1 m.2.1 m.2.2

/-- Whether a transaction on one of the lines, or a message about one, is under way (R81). -/
def State.lineBusy (s : State) (lines : List Nat) : Bool :=
  (lines.any fun l => (s.dirE l).st = .wait) || (s.agenda.any fun i => match msgLine i with | some (l, _, _) => lines.contains l | none => false)

/-- Whether the entry names an owner: OWN, or WAIT for its recall, whose vector is empty (R79, R81). -/
def DirEntry.owned (e : DirEntry) : Bool := e.st = .own || (e.st = .wait && e.sharers = 0 && !e.snoop)
/-- The owner of a line is down and no write-back of it is on its way: a recall finds no data (R93). -/
def State.lost (s : State) (line : Nat) : Bool :=
  (s.dirE line).owned && (s.die (s.dirE line).owner).down && !s.agenda.contains (.puto line (s.dirE line).owner)

/-- A transaction under way on a line gives way to a write or a recall by the hardware or an engine, as if it had come after: its messages are dropped, who asked asks again, non-temporal writes that waited are sent again. What a die that is down owned is lost (R93). -/
def State.cancelLine (s : State) (line : Nat) : State :=
  let e := s.dirE line
  let again := (e.serving.toList ++ e.queue).filterMap fun r => match r with | .wrnt k => some (Instr.wrnt k) | _ => none
  let l2 := (s.l2.map fun x => if x.1 / 32 = line then (x.1, { x.2 with asked := false }) else x).filter fun x => !(x.1 / 32 = line && !x.2.present && !x.2.pinned)
  let s := if s.lost line then s.poisonLine line else s
  { s with l2, agenda := (s.agenda.filter fun i => match msgLine i with | some (l, _, _) => l != line | none => true) ++ again,
           dir := if e = dirUnc then s.dir else mapPut s.dir line { e with await := 0, snoop := false, serving := none, queue := [] } }

/-- The home takes a line back for a write at the home (R89); a peer's lines have no home here. -/
def State.takeHome (s : State) (line : Nat) : State :=
  if s.isPeer line then s
  else
    let s := (s.cancelLine line).dropOthers line none
    s.setDir line { s.dirE line with st := .unc, owner := 0, sharers := 0, host := false, serving := none, await := 0 }

/-- Lines that the host holds are asked back from it, each once (R85). -/
def State.snoopHost (s : State) (lines : List Nat) : State :=
  lines.foldl (fun s l =>
    let e := s.dirE l
    if e.host && !e.snoop then (s.setDir l { e with snoop := true }).emit (.backInvalidationResponse l) else s) s
/-- Whether the host holds one of the lines (R85). -/
def State.hostHas (s : State) (lines : List Nat) : Bool := lines.any fun l => (s.dirE l).host

/-! ### Room in the L2 (R75, R76) -/

/-- Slice and set of a line in a die's L2 (R75). -/
def wayOf (line : Nat) : Nat × Nat := (line % 512 ^^^ line / 512 % 512, line / 2 ^ 18 % 64 ^^^ line / 512 % 64)
/-- Ways of a set. -/
def l2Ways : Nat := 20
/-- Ways of a set that may be pinned (R76). -/
def pinWays : Nat := 16
/-- The lines of a die's L2 in the set of a line. -/
def State.setOf (s : State) (line die : Nat) : List (Nat × L2Line) := s.l2.filter fun e => e.1 % 32 = die && wayOf (e.1 / 32) = wayOf line

/-- Room for a line in its set: a free way, or the victim used longest ago, written back where dirty; none while every way is ineligible (R75). -/
def State.makeRoom (s : State) (line die : Nat) : Option State :=
  if (s.l2Line line die).isSome || (s.setOf line die).length < l2Ways then some s
  else
    match (s.setOf line die).foldl (fun m e =>
      if e.2.pinned || e.2.asked || s.now < e.2.lexp then m
      else match m with | none => some e | some b => if e.2.used < b.2.used then some e else some b) none with
    | none => none
    | some (k, l) =>
      let s' := s.dropCopy (k / 32) die
      some (if l.dirty && !s.isPeer (k / 32) then s'.emit (.puto (k / 32) die) else s')

/-! ### Room in the directories (R84, R387) -/

/-- The directory that lists a line: a tower's home agent, or the snoop filter of the host link that R388 sends it to, the other one while one link is down. -/
def State.dirOf (s : State) (line : Nat) : Option Nat :=
  match s.region (line * 128) with
  | .hbm t => some t
  | .nm t => some t
  | .host => some (if !(s.port 0).up then 9 else if !(s.port 1).up then 8 else 8 + line / 32 % 2)
  | _ => none
/-- Entries of a directory (R84, R387). -/
def State.dirCap (s : State) (a : Nat) : Nat :=
  if a < 8 then 0x10_0000 + 0x28_0000 * ((s.roleOf a).map mLayers).getD 0 else 0x8_0000
/-- The lines a directory lists (R84). -/
def State.dirLines (s : State) (a : Nat) : SMap DirEntry := s.dir.filter fun e => e.2.st != .unc && s.dirOf e.1 = some a
/-- A line that its directory has no entry for and no room to list. -/
def State.dirFull (s : State) (line : Nat) : Bool :=
  (s.dirE line).st = .unc && (s.dirOf line).any fun a => decide ((s.dirLines a).length ≥ s.dirCap a)
/-- The entry a full directory frees: the one listed longest, as R387 has it for host lines (log 14 for a tower's); a context line stays owned by its holder's die (R103). -/
def State.dirVictim (s : State) (line : Nat) : Option (Nat × DirEntry) :=
  match s.dirOf line with
  | some a => ((s.dirLines a).filter fun e => e.2.st != .wait && (mapFind s.held (e.1 * 128)).isNone).foldl (fun m e => match m with | none => some e | some b => if e.2.born < b.2.born then some e else some b) none
  | none => none
/-- Room for a line that an engine takes: the victim is recalled within the step (R84, R89). -/
def State.dirRoom (s : State) (line : Nat) : State :=
  if s.dirFull line then (match s.dirVictim line with | some v => s.takeHome v.1 | none => s) else s

/-- A die takes ownership of a line for a write of an engine: the transaction of R81 as one step, with room made in its L2 (R75, R89). A write to a peer's line is performed at the peer; one by a die in M role, or where the set has no room, at the home (R10, R75). -/
def State.takeOwn (s : State) (line die : Nat) : State :=
  if s.isPeer line then s
  else if s.isM die || (s.makeRoom line die).isNone then s.takeHome line
  else
    let s := ((s.dirRoom line).cancelLine line).dropOthers line (some die)
    let s := (s.makeRoom line die).getD s
    let s := s.modL2 line die fun l => { l with present := true, owned := true, dirty := true, used := s.now }
    s.setDir line { s.dirE line with st := .own, owner := die, sharers := 0, host := false, serving := none, await := 0 }

/-- The home recalls an owner before a line is read there (R89). -/
def State.recall (s : State) (line : Nat) : State :=
  if s.isPeer line then s
  else
    let s := s.cancelLine line
    let e := s.dirE line
    if e.st = .own || e.st = .wait then
      let s := if e.owned && (s.l2Line line e.owner).isSome then s.modL2 line e.owner fun l => { l with owned := false, dirty := false } else s
      let old := if e.owned then dieBit e.owner else e.sharers
      s.setDir line { e with st := if old = 0 then .unc else .shd, owner := 0, sharers := old, serving := none, await := 0 }
    else s

/-- A die asks for a shared copy, once (R80). A die in M role keeps no copies: its slices serve the directory and the far-line cache (R10). -/
def State.askShared (s : State) (line die : Nat) : State :=
  if ((s.l2Line line die).getD l2None).asked || s.isM die then s
  else match s.makeRoom line die with
    | none => s
    | some s => (s.modL2 line die fun l => { l with asked := true }).emit (.gets line die)

/-- A die asks for ownership, once: Upg where it holds the line shared (R80). -/
def State.askOwn (s : State) (line die : Nat) : State :=
  if ((s.l2Line line die).getD l2None).asked || s.isM die then s
  else match s.makeRoom line die with
    | none => s
    | some s =>
      let m := if s.l2Reads line die then Instr.upg line die else Instr.geto line die
      (s.modL2 line die fun l => { l with asked := true }).emit m

/-! ### Leases (R71, R72) -/

/-- LEASE of a partition in ticks of REFT (R73). -/
def State.leaseTicks (s : State) (k : Nat) : Nat := (((s.part k).map (·.lease.toNat)).getD 512) * Config.ticksPerNs
/-- An L1D or instruction-cache copy whose lease has not expired. -/
def State.l1Hit (s : State) (iu line : Nat) (fetch : Bool) : Bool := s.l1.any fun c => c.iu = iu && c.line = line && c.fetch = fetch && decide (s.now < c.expiry)
/-- Ways of an L1D set, and lines of the instruction cache (R71). -/
def l1Ways : Nat := 12
def icLines : Nat := 256
/-- Whether two copies compete for a place: the same set of one L1D, or one instruction cache, whose sets the text does not give (R71, log 14). -/
def L1Copy.rival (a b : L1Copy) : Bool := a.iu = b.iu && a.fetch == b.fetch && (a.fetch || a.line % 512 == b.line % 512)
/-- A fill of an L1D or instruction-cache line grants a lease, recorded in LEXP; expired copies go, then the one with the oldest use (R71, R72). -/
def State.grant (s : State) (iu line k : Nat) (fetch : Bool) : State :=
  let x := s.now + s.leaseTicks k
  let c : L1Copy := ⟨iu, line, fetch, x, s.now⟩
  let l1 := s.l1.filter fun d => !(d.rival c && (d.line = line || d.expiry ≤ s.now))
  let set := l1.filter (·.rival c)
  let l1 := if set.length < (if fetch then icLines else l1Ways) then l1
    else match set.foldl (fun m d => match m with | none => some d | some b => if d.used < b.used then some d else some b) none with
      | some v => l1.erase v
      | none => l1
  { s.modL2 line (dieOfIu iu) (fun l => { l with lexp := max l.lexp x }) with l1 := l1 ++ [c] }
/-- A hit is a use of the copy (R71). -/
def State.useL1 (s : State) (iu line : Nat) (fetch : Bool) : State :=
  { s with l1 := s.l1.map fun c => if c.iu = iu && c.line = line && c.fetch = fetch then { c with used := s.now } else c }

/-- The home lists a die that takes a lease on a line and keeps no copy in its L2 (R10, R72). -/
def State.leaseHome (s : State) (line die : Nat) : State :=
  if s.isPeer line then s
  else
    let s := (s.dirRoom line).recall line
    let e := s.dirE line
    s.setDir line { e with st := .shd, sharers := e.sharers ||| dieBit die }

/-! ### The far-line cache (R86, R87) -/

/-- The tower whose far-line agent stands between a die and a line's home: the die's own for a line homed on another tower of the partition, the one that HOV names for an off-module line (R56, R86, R87). -/
def State.flcTower (s : State) (line die : Nat) : Option Nat :=
  match s.homeTower (line * 128) with
  | some h => if h != towerOfDie die then some (towerOfDie die) else none
  | none => mapFind s.hovs (l2Key line die)
/-- Key of a line's place in a far-line cache: its tower and the offset (R86). -/
def State.flcKey (s : State) (line die : Nat) : Option Nat :=
  match s.flcTower line die with
  | some t =>
    match (s.partOfTower t).bind s.part with
    | some p => if p.flcGib != 0 then some (t * 2 ^ 32 + line % (p.flcGib * 2 ^ 23)) else none
    | none => none
  | none => none
def State.flcAt (s : State) (line die : Nat) : Option (Nat × FlcEntry) :=
  match s.flcKey line die with
  | some k => match mapFind s.flc k with | some e => if e.valid && e.line = line then some (k, e) else none | none => none
  | none => none
/-- DataS for a die passes its far-line agent, which takes the line unless the entry there still records a die (R87). -/
def State.flcFill (s : State) (line die : Nat) : State :=
  match s.flcKey line die with
  | some k => if (mapFind s.flc k).any (·.vec != 0) then s else { s with flc := mapPut s.flc k { line, valid := true, vec := 0 } }
  | none => s

/-! ### Writes (R91, R119, R123) -/

/-- The lines a list of addressed bytes touches, each once. -/
def linesOf (bs : List (Nat × Byte)) : List Nat :=
  bs.foldl (fun ls c => if ls.contains (lineOf c.1) then ls else ls ++ [lineOf c.1]) []

/-- Whether a line lies in near memory (R28). -/
def State.isNm (s : State) (line : Nat) : Bool := match s.region (line * 128) with | .nm _ => true | _ => false

/-- A release at TWR scope or wider by an agent of a die: the near-memory lines that its die owns are written to their SRAM (R14, R88, R120). -/
def State.flushSram (s : State) (p : Option Pos) (rel : Option ScopeCode) : State :=
  match p.bind (·.inst 4), rel with
  | some d, some sc => if sc.toNat < 5 then s else { s with sram := s.sram.filter fun e => !((s.dirE e.1).owned && (s.dirE e.1).owner = d) }
  | _, _ => s

/-- The stamps after a write to a line (R123): `w` is none for a relaxed read-modify-write, which leaves the stamp. -/
def stampsAfter (m : SMap Stamp) (l : Nat) (w : Option (Writer × Pos)) (rel : Option ScopeCode) : SMap Stamp :=
  match w with
  | some (wr, p) =>
    let st := if wr = .host then stampNone else stampAfter (mapGet m l stampNone) wr p rel
    if st = stampNone then mapErase m l else mapPut m l st
  | none => m

/-! ### Windows (R32, R339) -/

def State.window (s : State) (k w : Nat) : Option Window := (s.part k).bind fun p => p.windows[w]?
/-- A byte of a window. -/
def State.winByte (s : State) (win : Window) (off : Nat) : Nat := (memRead s.mem (win.pa + off)).toNat

/-- States of a window (R339). -/
abbrev winOpen : Nat := 0
abbrev winDraining : Nat := 1
abbrev winAborting : Nat := 2
abbrev winClosed : Nat := 3

/-- The command that a window's CMD byte asks for in its STATE (R362 to R364). -/
def State.cmdEvent (s : State) (k w : Nat) : Option Instr :=
  (s.window k w).bind fun win =>
    let st := s.winByte win 1
    match s.winByte win 0 with
    | 0 => none
    | 1 => some (if st = winOpen then .drain k w else .badCommand k w)
    | 2 => some (if st = winOpen || st = winDraining then .abort k w else .badCommand k w)
    | 3 => some (if st = winClosed then .reopen k w else .badCommand k w)
    | _ => some (.badCommand k w)

/-- What the line monitors of windows see of written bytes, whoever wrote them: a seal, or the header's CMD (R33, R340, R345, R362, log 52). -/
def State.monitors (s : State) (pas : List Nat) : State :=
  s.parts.foldl (fun s p => (numberFrom 0 p.2.windows).foldl (fun s w =>
    let offs := (pas.filter fun a => decide (w.2.pa ≤ a ∧ a < w.2.pa + 0x1_0000)).map (· - w.2.pa)
    let s := if offs.contains 0 then (match s.cmdEvent p.1 w.1 with | some i => s.emitOnce i | none => s) else s
    if offs.any (fun o => o % 256 = 255 && decide (o > 255)) then s.emitOnce (.launchParse p.1 w.1) else s) s) s

/-- A write becomes the latest value of its bytes. A full line clears poison (R91); the stamps follow R123. -/
def State.written (s : State) (bs : List (Nat × Byte)) (w : Option (Writer × Pos)) (rel : Option ScopeCode) : State :=
  let ls := linesOf bs
  let full := ls.filter fun l => decide ((bs.filter fun c => lineOf c.1 = l).length ≥ 128)
  let stamps := ls.foldl (fun m l => stampsAfter m l w rel) s.stamps
  let s := s.flushSram (w.map (·.2)) rel
  let sram := ls.foldl (fun m l =>
    if (s.dirE l).st = .own && s.isNm l && (mapFind m l).isNone then mapPut m l (memReadList s.mem (l * 128) 128) else m) s.sram
  { s with mem := memWriteAll s.mem bs, poison := full.foldl mapErase s.poison, stamps, sram }

/-- The same, as the monitors of launch windows see it (R33). -/
def State.perform (s : State) (bs : List (Nat × Byte)) (w : Option (Writer × Pos)) (rel : Option ScopeCode) : State := (s.written bs w rel).monitors (bs.map (·.1))

/-- A die's copy of a peer's line: the peer's bytes with the stamp they have now (R123, R128). -/
def State.fillPeer (s : State) (line die : Nat) : State := { s with peer := mapPut s.peer (l2Key line die) (memReadList s.mem (line * 128) 128, s.stamp line) }

/-- An engine of a die reads a line: an owner elsewhere is recalled and both share it; the far-line cache on the way takes it (R81, R87, R89). A die in M role, and a set with no room, keep no copy (R10, R75). -/
def State.takeShared (s : State) (line die : Nat) : State :=
  if s.l2Reads line die then s
  else if s.isM die || (s.makeRoom line die).isNone then s.recall line
  else
    let s := (s.dirRoom line).cancelLine line
    let e := s.dirE line
    let s := if e.owned && (s.l2Line line e.owner).isSome then s.modL2 line e.owner fun l => { l with owned := false, dirty := false } else s
    let old := if e.owned then BitVec.ofNat 24 (2 ^ e.owner) else e.sharers
    let s := (s.makeRoom line die).getD s
    let s := s.modL2 line die fun l => { l with present := true, owned := false, dirty := false, used := s.now }
    if s.isPeer line then s.fillPeer line die
    else (s.setDir line { e with st := .shd, owner := 0, sharers := old ||| BitVec.ofNat 24 (2 ^ die), serving := none, await := 0 }).flcFill line die

/-- A write by an agent of a die: ownership, then the bytes (R89). -/
def State.writeAsDie (s : State) (die : Nat) (bs : List (Nat × Byte)) (w : Writer × Pos) (rel : Option ScopeCode) : State :=
  ((linesOf bs).foldl (fun s l => s.takeOwn l die) s).perform bs (some w) rel

/-- A write at the home (R89). -/
def State.writeAtHome (s : State) (bs : List (Nat × Byte)) (w : Writer × Pos) (rel : Option ScopeCode) : State :=
  ((linesOf bs).foldl (fun s l => s.takeHome l) s).perform bs (some w) rel

/-- The bytes of a number at an address. -/
def bytesAt (pa n v : Nat) : List (Nat × Byte) := numberFrom pa (leBytes n v)

/-- Whether every line an engine of a die is to own can be had now: room in its L2, and no copy at the host, which is asked back (R75, R85). -/
def State.canOwn (s : State) (lines : List Nat) (die : Nat) : Bool := !s.hostHas lines && lines.all fun l => s.isPeer l || s.isM die || (s.makeRoom l die).isSome
/-- Whether a die can take a shared copy of a line now (R75). -/
def State.canShare (s : State) (line die : Nat) : Bool := s.l2Reads line die || s.isM die || (s.makeRoom line die).isSome

/-- A line kept out of L2: one off the module in a non-temporal page (R31, R56). -/
def State.bypasses (s : State) (nt : Bool) (line : Nat) : Bool := nt && s.offModule line
/-- An agent of a die reads, or comes to own, a line through its L2; a line kept out of L2 is read and written where it lies (R31, R56, R89). -/
def State.agentRead (s : State) (nt : Bool) (line die : Nat) : State := if s.bypasses nt line then s.recall line else s.takeShared line die
def State.agentOwn (s : State) (nt : Bool) (line die : Nat) : State := if s.bypasses nt line then s.takeHome line else s.takeOwn line die

/-- A number from memory. -/
def State.readN (s : State) (pa n : Nat) : Nat := leToNat (memReadList s.mem pa n)

/-- A peer's line as a die's L2 has it, else as the peer does (R128). -/
def State.peerView (s : State) (die line : Nat) : List Byte × Stamp := (mapFind s.peer (l2Key line die)).getD (memReadList s.mem (line * 128) 128, s.stamp line)
/-- The stamp that belongs to what a die reads of a line: a copy of a peer's line has its own (R123). -/
def State.viewStamp (s : State) (die : Nat) (nt : Bool) (line : Nat) : Stamp := if s.isPeer line && !nt then (s.peerView die line).2 else s.stamp line
/-- Bytes as an agent of a die reads them through its L2, or past it (R31, R56, R89, R128). -/
def State.dieBytes (s : State) (nt : Bool) (die pa n : Nat) : List Byte :=
  (rangeFrom pa n).map fun a => if s.isPeer (lineOf a) && !nt then (s.peerView die (lineOf a)).1.getD (a % 128) 0 else memRead s.mem a
/-- A write to peer memory: the copy in the writer's die has it too, with the stamp of the write, other dies' copies stay as they are (R120, R123, R128). -/
def State.peerWrite (s : State) (die : Nat) (bs : List (Nat × Byte)) : State :=
  { s with peer := (linesOf bs).foldl (fun m l =>
      match mapFind m (l2Key l die) with
      | some (o, _) => if s.isPeer l then mapPut m (l2Key l die) (bs.foldl (fun o c => if lineOf c.1 = l then o.set (c.1 % 128) c.2 else o) o, s.stamp l) else m
      | none => m) s.peer }

/-! ### Tile scratch and handles (R44 to R48, R283, R284, R287) -/

/-- Key of a handle in a quad's table. -/
def hKey (quad h : Nat) : Nat := quad * 1024 + h
def handleFree : TileHandle :=
  { alloc := false, scales := Vector.replicate 4 0, launch := 0, level := 0, fcode := 0, mark := false, esc := 0, flags := 0,
    baseq := 0, fmt := .fp64, blk := false, shp := false, team := 0, charged := false }
def State.handle (s : State) (quad h : Nat) : TileHandle := mapGet s.handles (hKey quad h) handleFree
def teReset : Te := { subq := Vector.replicate 4 [], ptr := 0, run := [], rotstep := 0 }
def State.te (s : State) (quad : Nat) : Te := mapGet s.tes quad teReset

/-- Handles an operation names (R287). -/
def TileOp.names (o : TileOp) : List Nat := o.hd :: o.reads
/-- Every operation queued or running in a TE. -/
def Te.ops (t : Te) : List TileOp := t.subq.toList.flatten ++ t.run.map (·.op)

/-- Visible states (R284). -/
abbrev hsFree : Nat := 0
abbrev hsIdle : Nat := 1
abbrev hsBusy : Nat := 2
abbrev hsFault : Nat := 3

/-- A handle's visible STATE (R287). -/
def State.handleState (s : State) (quad h : Nat) : Nat :=
  let d := s.handle quad h
  if !d.alloc then hsFree
  else if (s.te quad).ops.any (fun o => o.names.contains h) then hsBusy
  else if d.mark then hsFault else hsIdle

/-- Elements of a tile (R183). -/
def TileHandle.count (d : TileHandle) : Nat := if d.shp then 1024 else 256
/-- Rows and columns. -/
def TileHandle.width (d : TileHandle) : Nat := if d.shp then 32 else 16
/-- Bytes of element storage (R183). -/
def TileHandle.bytes (d : TileHandle) : Nat := d.count * fmtBits d.fmt / 8
/-- Bytes of a tile's memory image: its element storage, for a block format with an 8-byte trailer (R301). -/
def TileHandle.imageLen (d : TileHandle) : Nat := if isBlockFmt d.fmt then d.bytes + 8 else d.bytes
/-- Quarters a tile takes (R283). -/
def TileHandle.quarters (d : TileHandle) : Nat := max 1 ((d.bytes + 511) / 512)
/-- First RAW address of a quad's scratch (R44). -/
def rawBase (quad : Nat) : Nat := 0x300_0000_0000 + quad / 32 * 2 ^ 30 + quad % 32 * 2 ^ 25
/-- First RAW address of a tile. -/
def TileHandle.addr (d : TileHandle) (quad : Nat) : Nat := rawBase quad + 512 * d.baseq.toNat

/-- Scale block and position within it of an element (R166, R169). -/
def TileHandle.block (d : TileHandle) (e : Nat) : Nat × Nat :=
  if d.shp && !d.blk then
    let r := e / 32
    let c := e % 32
    (2 * (r / 16) + c / 16, r % 16 * 16 + c % 16)
  else (0, e)
/-- Elements in a scale block. -/
def TileHandle.blockLen (d : TileHandle) : Nat := if d.shp && !d.blk then 256 else d.count
def TileHandle.blocks (d : TileHandle) : Nat := d.count / d.blockLen

/-- The stored code of an element that has a place of its own (every format but VB8). -/
def elemCode (f : Fmt) (bs : List Byte) (e : Nat) : Nat :=
  match fmtBits f with
  | 4 => ((bs.getD (e / 2) 0).toNat >>> (4 * (e % 2))) % 16
  | w => leToNat ((bs.drop (e * (w / 8))).take (w / 8))

/-- The values of a tile's elements from its stored bytes, and FINV for a malformed block (R46, R166, R171). -/
def tileValues (d : TileHandle) (bs : List Byte) : List FVal × Fl :=
  match d.fmt with
  | .vb8 =>
    let bl := (List.range d.blocks).map fun b =>
      decodeBlock .vb8 ((bs.drop (b * d.blockLen)).take d.blockLen) (d.scales.toList.getD b 0) (d.esc.getLsbD b)
    ((List.range d.count).map (fun e => let (b, i) := d.block e; (bl.getD b ([], 0)).1.getD i (.zero false)), bl.foldl (fun a x => a ||| x.2) 0)
  | f =>
    ((List.range d.count).map (fun e =>
      let v := elemValue f (elemCode f bs e)
      if isBlockFmt f then
        let sc := d.scales.toList.getD (d.block e).1 0
        if sc = 0xFF then .nan false else v.shift (scaleExp sc)
      else v), 0)

/-- Bytes of scratch as a reader sees them: a 2-byte unit that another context's posted store is about to change may be read old or new (R134). -/
def State.racedBytes (s : State) (key a n : Nat) : List Byte :=
  let ws := (s.stores.filter fun p => p.2.key != key).flatMap fun p => p.2.bytes.filter fun c => decide (a ≤ c.1 ∧ c.1 < a + n)
  if ws.isEmpty then memReadList s.mem a n
  else (rangeFrom a n).map fun x => if Config.raceNew s.tick (x / 2) then ((ws.find? (·.1 = x)).map (·.2)).getD (memRead s.mem x) else memRead s.mem x

/-- The stored bytes of a tile. -/
def State.tileBytes (s : State) (quad : Nat) (d : TileHandle) : List Byte := memReadList s.mem (d.addr quad) d.bytes

/-- A handle that a decode-window address names, its element and the window's format (R44, R46). -/
def decWindow (off : Nat) : Option (Nat × Nat × Fmt) :=
  if off < 0x80_0000 then none
  else if off < 0x100_0000 then some ((off - 0x80_0000) / 0x2000, off % 0x2000 / 4, .fp32)
  else if off < 0x180_0000 then some ((off - 0x100_0000) / 0x2000, off % 0x2000 / 2, .bf16)
  else some ((off - 0x180_0000) / 0x2000, off % 0x2000 / 8, .fp64)

/-- What a decode-window read of one element returns, from the tile's stored bytes (R46). -/
def TileHandle.decElem (d : TileHandle) (bs : List Byte) (e : Nat) (f : Fmt) : Nat :=
  let v := (tileValues d bs).1.getD e (.zero false)
  match fmtF f with
  | some ff => (fEncode ff 0 v).1
  | none => 0
/-- `n` bytes of a tile's elements from `e` on as its decode window gives them (R46, R47). -/
def TileHandle.decBytes (d : TileHandle) (bs : List Byte) (e n : Nat) (f : Fmt) : List Byte :=
  let w := fmtBits f / 8
  ((List.range ((n + w - 1) / w)).flatMap fun i => leBytes w (d.decElem bs (e + i) f)).take n

/-- The handles of a quad with a slot that the bytes `off` to `off + n - 1` of its scratch touch (R44, R48). -/
def State.handlesAt (s : State) (quad off n : Nat) : List Nat :=
  (s.handles.filter fun e =>
    e.1 / 1024 = quad && e.2.alloc &&
    decide (e.2.baseq.toNat / 4 ≤ (off + n - 1) / 0x800 ∧ off / 0x800 ≤ (e.2.baseq.toNat + e.2.quarters - 1) / 4)).map (·.1 % 1024)

/-! ### Base-die engine registers (R29, R30) -/

def bdeReset : Bde := { queue := [], cmdcnt := 0, errcnt := 0, poisaddr := 0, throt := false, live := true, temp := 0 }
def State.bde (s : State) (n : Nat) : Bde := mapGet s.bdes n bdeReset

/-- A read of a BDE page (R29, R30). -/
def State.bdeRead (s : State) (n off : Nat) : Nat :=
  let b := s.bde n
  match off with
  | 0x0 => 2 ^ 32 + n
  | 0x8 => b.queue.length * 2 ^ 8 + b.throt.toNat * 4 + (if b.errcnt = 0 then 0 else 2) + b.live.toNat
  | 0x10 => b.cmdcnt.toNat
  | 0x18 => b.errcnt.toNat
  | 0x20 => b.poisaddr.toNat
  | _ => 0

/-- Writing 1s to ERRCNT clears those bits (R29). -/
def State.bdeClearErr (s : State) (n : Nat) (v : Dword) : State :=
  { s with bdes := mapUpd s.bdes n bdeReset fun b => { b with errcnt := b.errcnt &&& ~~~v } }

/-- A write of a BDE page (R29). -/
def State.bdeWrite (s : State) (n off : Nat) (v : Dword) : State := if off = 0x18 then s.bdeClearErr n v else s

/-- Flags that have landed by a cycle are in PRED (R211). -/
def Held.landed (h : Held) (t : Nat) : Held :=
  { h with ctx := (h.flagsAt.filter (fun f => f.1 ≤ t)).foldl (fun c f => { c with pred := c.pred ||| f.2 }) h.ctx,
           flagsAt := h.flagsAt.filter fun f => !(f.1 ≤ t) }

/-- A held line as it stands now: in a slot, with the flags that have landed by its die's cycle (R211). -/
def State.asNow (s : State) (h : Held) : Held := match h.place with | .slot n => h.landed (s.cyc (n / 2048)) | _ => h

/-- Bytes of a line: a primary line with a holder reads as its holder has it (R111). -/
def State.readCoh (s : State) (pa n : Nat) : Nat :=
  match mapFind s.held (pa / 128 * 128) with
  | some h => leToNat (((ctxBytes (s.asNow h).ctx).drop (pa % 128)).take n)
  | none => s.readN pa n

/-- Bytes of memory as its holders have them: a primary line reads as its holder has it (R111). -/
def State.cohBytes (s : State) (pa n : Nat) : List Byte := (rangeFrom pa n).map fun a => BitVec.ofNat 8 (s.readCoh a 1)

/-- What is read at an address: a BDE register, a decoded element or stored bytes (R29, R46, R111). -/
def State.readPa (s : State) (pa n : Nat) : Nat :=
  match s.region pa with
  | .bde k => s.bdeRead k (pa % 2 ^ 16)
  | .alias_ d q off =>
    match decWindow off with
    | some (h, e, f) =>
      let t := s.handle (d * 32 + q) h
      leToNat (t.decBytes (s.tileBytes (d * 32 + q) t) e n f)
    | none => s.readN pa n
  | _ => s.readCoh pa n

end Sys2Proof.Machine
end

