-- ==== Sys2Proof/Machine/Translate.lean ====
section
/-! DEFINITION. Translation: page-table walks, the caches of their results, and identifiers of contexts (R22, R34, R50 to R61). -/

namespace Sys2Proof.Machine

/-- Cause codes (R368). -/
abbrev tcIllegal : Nat := 1
abbrev tcStall : Nat := 2
abbrev tcDesc : Nat := 3
abbrev tcPerm : Nat := 4
abbrev tcBounds : Nat := 5
abbrev tcAlign : Nat := 6
abbrev tcPhys : Nat := 7
abbrev tcNomap : Nat := 8
abbrev tcPtfmt : Nat := 9
abbrev tcWindow : Nat := 10
abbrev tcPoison : Nat := 11
abbrev tcCtxid : Nat := 12
abbrev tcScopemiss : Nat := 13
abbrev tcSwtrap : Nat := 14
abbrev tcStatfmt : Nat := 15
abbrev tcHstate : Nat := 16
abbrev tcHowner : Nat := 17
abbrev tcTopnd : Nat := 18
abbrev tcAs : Nat := 19
abbrev tcQuota : Nat := 20
abbrev tcScrfull : Nat := 21
abbrev tcTfault : Nat := 22
abbrev tcEcmd : Nat := 23
abbrev tcDeqfull : Nat := 24
abbrev tcFutbusy : Nat := 25
abbrev tcFutfmt : Nat := 26
abbrev tcDouble : Nat := 27
abbrev tcFrozen : Nat := 28

/-- Bits [63:57] equal bit 56 (R22). -/
def canonical (va : Nat) : Bool := decide (va % 2 ^ 64 / 2 ^ 56 = 0) || decide (va % 2 ^ 64 / 2 ^ 56 = 255)
/-- The half of an address: true for the supervisor half (R22). -/
def supHalf (va : Nat) : Bool := va.testBit 56

/-! ### Leaf fields (R54) -/
def Leaf.sal (l : Leaf) : Bool := l.bits.getLsbD 63
def Leaf.nt (l : Leaf) : Bool := l.bits.getLsbD 62
def Leaf.ctx (l : Leaf) : Bool := l.bits.getLsbD 61
def Leaf.pin (l : Leaf) : Bool := l.bits.getLsbD 60
def Leaf.mig (l : Leaf) : Bool := l.bits.getLsbD 59
def Leaf.hov (l : Leaf) : Nat := getF l.bits 56 3
def Leaf.base (l : Leaf) : Nat := getF l.bits 12 40 * 4096
def Leaf.u (l : Leaf) : Bool := l.bits.getLsbD 5
def Leaf.x (l : Leaf) : Bool := l.bits.getLsbD 4
def Leaf.w (l : Leaf) : Bool := l.bits.getLsbD 3
def Leaf.r (l : Leaf) : Bool := l.bits.getLsbD 2
/-- The physical address of a VA in the page. -/
def Leaf.pa (l : Leaf) (va : Nat) : Nat := l.base + va % l.size

/-- A valid leaf entry that R55 calls malformed. -/
def leafBad (l : Leaf) : Bool :=
  let row := mapRow l.base
  let off := decide (row = 4) || decide (row = 5)
  getF l.bits 52 4 != 0 || getF l.bits 6 6 != 0 || l.hov = 7 || l.base % l.size != 0
  || mapRow (l.base + l.size - 1) != row || (l.hov != 0 && !off) || (l.mig && l.hov = 0 && off)
  || (l.ctx && (l.size = 2 ^ 30 || row > 1 || l.x || l.mig || l.sal))
  || (l.sal && (row != 3 || l.mig)) || (!l.sal && row = 3)

/-- A valid non-leaf entry that R55 calls malformed, at a level. -/
def nodeBad (e : Dword) (level : Nat) : Bool :=
  getF e 52 12 != 0 || getF e 8 4 != 0 || getF e 2 5 != 0 || (e.getLsbD 7 && level != 1)

/-- Whether a page may be mapped by the partition (R25, R27). A page that lies wholly in the unpopulated last row of a stack's 64 GiB is mapped, and an access to it raises PHYS (log 60). -/
def State.pageOk (s : State) (k : Nat) (l : Leaf) : Bool :=
  match mapRow l.base with
  | 4 => true
  | 5 => true
  | 6 => false
  | _ =>
    ((mapTower l.base).bind s.partOfTower == some k) && ((mapTower (l.base + l.size - 1)).bind s.partOfTower == some k) &&
    !((s.part k).any fun p => p.flcGib != 0 && p.towers.any fun t =>
      decide (l.base < t * 2 ^ 37 + 2 ^ 36 + stackBytes ∧ flcBase t p.flcGib < l.base + l.size))

/-- Whether a table may stand at an address (R55). -/
def State.tableOk (s : State) (k pa : Nat) : Bool :=
  match s.region pa with
  | .hbm t => s.partOfTower t == some k && !((s.part k).any fun p => p.inFlc pa)
  | .nm t => s.partOfTower t == some k
  | _ => false

/-- One table read: the entry, or the trap a poisoned line or an offline home gives (R58). -/
def State.readEntry (s : State) (pa level : Nat) : Except Trap Dword :=
  if s.offline pa then .error ⟨tcPoison, 0xFE + level * 2 ^ 8 + 2 ^ 15, pa⟩
  else if s.isPoison (lineOf pa) then .error ⟨tcPoison, 0xFE + level * 2 ^ 8, pa⟩
  else .ok (BitVec.ofNat 64 (s.readN pa 8))

/-- A walk as it went: the addresses of the entries it read in order, the non-leaf entries it passed (level, table, 64 KiB mark), and its end. -/
structure Trace where
  reads : List Nat
  path  : List (Nat × Nat × Bool)
  res   : WalkRes
  deriving DecidableEq, Repr

/-- Levels of a walk from `level` down (R58); `use` gives what a walk cache holds for a level. -/
def State.walkFrom (s : State) (use : Nat → Option (Nat × Bool)) (k va : Nat) : Nat → Nat → Bool → Trace
  | lv, table, g64 =>
    match (if lv = 0 then none else use lv), lv with
    | some (tb, g), n + 1 =>
      let r := walkFrom s use k va n tb g
      { r with path := (n + 1, tb, g) :: r.path }
    | _, lv =>
    if !s.tableOk k table then ⟨[], [], .fault ⟨tcPhys, 0x100 + lv, va⟩⟩
    else
      let idx := if lv = 0 && g64 then va / 2 ^ 16 % 32 else va / 2 ^ (12 + 9 * lv) % 512
      let ends (r : WalkRes) : Trace := ⟨[table + idx * 8], [], r⟩
      match s.readEntry (table + idx * 8) lv with
      | .error t => ends (.fault t)
      | .ok e =>
        if !e.getLsbD 0 then ends (.fault ⟨tcNomap, lv, va⟩)
        else if e.getLsbD 1 then
          let l : Leaf := ⟨e, match lv with | 2 => 2 ^ 30 | 1 => 2 ^ 21 | _ => if g64 then 2 ^ 16 else 2 ^ 12⟩
          if lv ≥ 3 || leafBad l then ends (.fault ⟨tcPtfmt, lv, va⟩)
          else if !s.pageOk k l then ends (.fault ⟨tcPhys, 0x100 + lv, va⟩)
          else ends (.ok l)
        else
          match lv with
          | 0 => ends (.fault ⟨tcPtfmt, 0, va⟩)
          | n + 1 =>
            if nodeBad e (n + 1) then ends (.fault ⟨tcPtfmt, n + 1, va⟩)
            else
              let node := (getF e 12 40 * 4096, n = 0 && e.getLsbD 7)
              let r := walkFrom s use k va n node.1 node.2
              ⟨(table + idx * 8) :: r.reads, (n + 1, node.1, node.2) :: r.path, r.res⟩

/-- A whole walk (R51, R58); level 5 of `use` is the address-space table. -/
def State.traceWith (s : State) (use : Nat → Option (Nat × Bool)) (k asid va : Nat) : Trace :=
  match s.part k with
  | none => ⟨[], [], .fault ⟨tcNomap, 4, va⟩⟩
  | some p =>
    let on (tb : Nat) (rs : List Nat) : Trace :=
      let r := s.walkFrom use k va 4 tb false
      ⟨rs ++ r.reads, (5, tb, false) :: r.path, r.res⟩
    match use 5 with
    | some (tb, _) => on tb []
    | none =>
      let pa := p.asTable + asid * 8
      match s.readEntry pa 7 with
      | .error t => ⟨[pa], [], .fault t⟩
      | .ok e =>
        if !e.getLsbD 0 then ⟨[pa], [], .fault ⟨tcNomap, 4, va⟩⟩
        else if getF e 52 12 != 0 || getF e 1 11 != 0 then ⟨[pa], [], .fault ⟨tcPtfmt, 4, va⟩⟩
        else on (getF e 12 40 * 4096) [pa]

/-- A walk that reads every level from memory. -/
def State.walk (s : State) (k asid va : Nat) : WalkRes := (s.traceWith (fun _ => none) k asid va).res

/-- Whether a walk-cache entry lies on the path of a VA. -/
def WcEntry.onPath (w : WcEntry) (va : Nat) : Bool := w.level = 5 || w.va / 2 ^ (12 + 9 * w.level) = va / 2 ^ (12 + 9 * w.level)

/-- What a die's walk cache gives a walk at a level, where the walk uses it (R60). -/
def State.wcUse (s : State) (die k asid va lv : Nat) : Option (Nat × Bool) :=
  if Config.walkUses s.tick lv then
    (s.wcache.find? fun w => w.die = die && w.part = k && w.asid = asid && w.level = lv && w.onPath va).map fun w => (w.table, w.g64)
  else none

/-- A walk by a die's walkers (R60). -/
def State.traceOn (s : State) (die k asid va : Nat) : Trace := s.traceWith (s.wcUse die k asid va) k asid va
def State.walkOn (s : State) (die k asid va : Nat) : WalkRes := (s.traceOn die k asid va).res

/-- Entries of a die's walk cache (R60). -/
def wcCapacity : Nat := 512

/-- A walk that found a leaf leaves the non-leaf entries it passed in the die's walk cache; a full one gives up its oldest entries (R59, R60, log 14). -/
def State.wcInstall (s : State) (die k asid va : Nat) (path : List (Nat × Nat × Bool)) : State :=
  let new := path.map fun x => (⟨die, k, asid, x.1, va, x.2.1, x.2.2⟩ : WcEntry)
  let old := s.wcache.filter fun w => !(w.die = die && w.part = k && w.asid = asid && w.onPath va)
  let all := old ++ new
  let extra := (all.filter fun w => w.die = die).length - wcCapacity
  { s with wcache := ((all.filter fun w => w.die = die).take extra).foldl (fun l w => l.erase w) all }

/-- Whether a leaf's page, placed at the VA it was found for, holds another VA. -/
def TcEntry.covers (t : TcEntry) (va : Nat) : Bool := t.va / t.leaf.size = va / t.leaf.size

/-- A hit in a cluster's translation cache (R60). -/
def State.tcHit (s : State) (clu k asid va : Nat) : Option Leaf :=
  (s.tcache.find? fun t => t.cluster = clu && t.part = k && t.asid = asid && t.covers va).map (·.leaf)

/-- Entries of a cluster's translation cache (R60). -/
def tcCapacity : Nat := 4096

/-- Installs a leaf in a cluster's translation cache; a full cache gives up its oldest entry (R59, R60, log 14). -/
def State.tcInstall (s : State) (clu k asid va : Nat) (l : Leaf) : State :=
  let mine := s.tcache.filter fun t => t.cluster = clu
  let old := if mine.length ≥ tcCapacity then s.tcache.erase (mine.headD ⟨clu, k, asid, va, l⟩) else s.tcache
  if (s.tcHit clu k asid va).isSome then s else { s with tcache := old ++ [⟨clu, k, asid, va, l⟩] }

/-- What a translation made by hardware for itself finds: the cluster's cache where it has one, else a walk (R39, R141, R370). -/
def State.lookup (s : State) (clu : Option Nat) (k asid va : Nat) : WalkRes :=
  match clu.bind fun c => s.tcHit c k asid va with
  | some l => .ok l
  | none => match clu with | some c => s.walkOn (c / 16) k asid va | none => s.walk k asid va

/-- Whether a read of a table entry through a die's L2 must wait: its home is held, or its set has no room (R19, R75). -/
def State.entryWaits (s : State) (die pa : Nat) : Bool := s.homeHeld pa || (s.coherent pa && !s.offline pa && !s.canShare (lineOf pa) die)
/-- Whether such a translation must wait to read an entry (R19, R75). -/
def State.lookupHeld (s : State) (clu k asid va : Nat) : Bool := (s.tcHit clu k asid va).isNone && (s.traceOn (clu / 16) k asid va).reads.any (s.entryWaits (clu / 16))

/-- HOV of an off-module line's page names the tower whose far-line agent carries the die's requests for it (R56, R86). -/
def State.noteHov (s : State) (line die : Nat) (l : Leaf) : State :=
  if s.offModule line then { s with hovs := if l.hov = 0 then mapErase s.hovs (l2Key line die) else mapPut s.hovs (l2Key line die) (l.hov - 1) } else s
/-- A die asks for a shared copy of a line of a page (R56, R80). -/
def State.askPage (s : State) (line die : Nat) (l : Leaf) : State := (s.noteHov line die l).askShared line die

/-- A walk reads its entries through the L2 of its die (R58). -/
def State.readThrough (s : State) (die : Nat) (reads : List Nat) : State :=
  reads.foldl (fun s pa => if s.coherent pa && !s.offline pa then s.takeShared (lineOf pa) die else s) s

/-- A translation that an engine of a cluster makes: the cluster's cache, else a walk that leaves its traces (R58 to R60). -/
def State.engineLookup (s : State) (clu k asid va : Nat) : State × WalkRes :=
  match s.tcHit clu k asid va with
  | some l => (s, .ok l)
  | none =>
    let t := s.traceOn (clu / 16) k asid va
    let s := s.readThrough (clu / 16) t.reads
    match t.res with
    | .fault f => (s, .fault f)
    | .ok l => ((s.wcInstall (clu / 16) k asid va t.path).tcInstall clu k asid va l, .ok l)

/-- The physical address hardware finds for a VA. -/
def State.vaToPa (s : State) (k asid va : Nat) : Option Nat :=
  match s.walk k asid va with
  | .ok l => some (l.pa va)
  | .fault _ => none

/-- The primary line a context identifier names, as a PA; none where R34 calls it no valid identifier. -/
def State.ctxLine (s : State) (clu : Option Nat) (k asid id : Nat) : Option Nat :=
  if !canonical id || id % 256 != 0 then none
  else
    match s.lookup clu k asid id with
    | .ok l => if l.ctx then some (l.pa id) else none
    | .fault _ => none

end Sys2Proof.Machine
end

