-- ==== Sys2Proof/Machine/Ops.lean ====
section
/-! DEFINITION. Operations every family shares: lines and their holders, descriptors and access checks, taking an exception and returning from one, deliveries, and the issue attempt (R37 to R57, R92, R96 to R113, R147 to R150, R187, R368 to R374, R429). -/

namespace Sys2Proof.Machine

/-! ### Lines and holders (R103, R106, R429) -/

/-- The context in a line, wherever it is held; a line without another holder is its bytes in memory. -/
def State.ctxAt (s : State) (key : Nat) : Ctx :=
  match mapFind s.held key with
  | some h => (s.asNow h).ctx
  | none => ctxOfBytes (memReadList s.mem key 128)

/-- A trap of a boundary that the context has not reached, because it waits or is parked (R125, R144). -/
def State.trapDue (s : State) (key : Nat) : Bool := (mapFind s.traps key).any fun q => q.entering.isNone && !q.nested.isEmpty

/-- A change of STATE is timed; one to READY makes a context eligible from the next cycle, also where it is filled in this one (R147). The schedulers look again at what it makes READY, or a victim (R108, R358). -/
def State.stateChanged (s : State) (key : Nat) (st : Nat) : State :=
  let s := if st = stReady && s.trapDue key then s.emitOnce (.trapEntry key) else s
  match mapFind s.held key with
  | some h =>
    let h' := { h with since := s.now }
    match h.place with
    | .slot n =>
      let h' := if st = stReady then { h' with next := max h.next (s.cyc (n / 2048) + 1) } else h'
      let s' := { s with held := mapPut s.held key h' }
      if st = stWaiting || st = stParked then s'.emitOnce (.fill (n / 128)) else s'
    | .cl2 clu =>
      let s' := { s with held := mapPut s.held key (if st = stReady then { h' with next := s.cyc (clu / 16) + 1 } else h') }
      if st = stReady then s'.emitOnce (.fill clu) else s'
    | .moving .. => { s with held := mapPut s.held key h' }
  | none =>
    match mapFind s.live key with
    | some l =>
      let s' := { s with live := mapPut s.live key { l with readyAt := s.now } }
      if st = stReady then s'.emitOnce (.load l.part) else s'
    | none => s

/-- Replaces the context in a line at its holder as one update (R106); flags that have landed are in what it replaces (R211). -/
def State.setCtx (s : State) (key : Nat) (c : Ctx) : State :=
  let s' := match mapFind s.held key with
    | some h => { s with held := mapPut s.held key { s.asNow h with ctx := c } }
    | none => { s with mem := memWriteList s.mem key (ctxBytes c) }
  if (s.ctxAt key).state = c.state then s' else s'.stateChanged key c.state

/-- Whether hardware treats the line as a live context (R429). -/
def State.isLive (s : State) (key : Nat) : Bool := (mapFind s.live key).isSome

/-- The partition of a line: the one its home belongs to (R34). -/
def State.partOf (s : State) (key : Nat) : Nat := ((s.homeTower key).bind s.partOfTower).getD 0
/-- The address space of a launch (R51). -/
def State.asidOf (s : State) (k launch : Nat) : Nat := (((s.part k).bind fun p => mapFind p.launches launch).map (·.asid)).getD 0
/-- A context's identifier: the VA of its primary line. -/
def State.idOf (s : State) (key : Nat) : Nat :=
  match mapFind s.held key with
  | some h => h.id
  | none => ((mapFind s.live key).map (·.id)).getD 0

/-- The slot a held line is in. -/
def Held.slot? (h : Held) : Option Nat := match h.place with | .slot n => some n | _ => none

/-- Where operations made on a context's behalf stand (R114). -/
def State.posOf (s : State) (key : Nat) : Pos :=
  match (mapFind s.held key).map Held.place with
  | some (.slot n) => .iu (n / 16)
  | some (.cl2 c) => .cluster c
  | some (.moving c _) => .cluster c
  | none => .tower ((s.homeTower key).getD 0)

/-- The cluster that holds a line. -/
def State.cluOf (s : State) (key : Nat) : Option Nat :=
  match (mapFind s.held key).map Held.place with
  | some (.slot n) => some (n / 128)
  | some (.cl2 c) => some c
  | _ => none

/-- Acknowledges a pre-emption request (R376). -/
def State.ack (s : State) (r : Requester) (key : Nat) (a : Ack) : State := { s with acks := s.acks ++ [(r, key, a)] }
/-- Acknowledges every request that waits for a line (R376). -/
def State.ackAll (s : State) (key : Nat) (a : Ack) : State :=
  (mapGet s.asks key []).foldl (fun s r => s.ack r key a) { s with asks := mapErase s.asks key }

/-- Numbers a new outstanding operation. -/
def State.bump (s : State) : State := { s with nextId := s.nextId + 1 }

/-! ### Descriptors (R37 to R41, R371) -/

def descZero : Desc := { base := 0, limit := 0, attr := 0 }
def Desc.r (d : Desc) : Bool := d.attr.getLsbD 0
def Desc.w (d : Desc) : Bool := d.attr.getLsbD 1
def Desc.x (d : Desc) : Bool := d.attr.getLsbD 2
def Desc.a (d : Desc) : Bool := d.attr.getLsbD 3
def Desc.scope (d : Desc) : ScopeCode := d.attr.extractLsb' 4 3
def Desc.v (d : Desc) : Bool := d.attr.getLsbD 7

/-- Usable (R38). -/
def Desc.usable (d : Desc) : Bool :=
  d.v && getF d.attr 8 120 = 0 && canonical d.base.toNat && decide (d.limit.toNat ≤ 2 ^ 56) &&
  (d.limit.toNat = 0 || (decide (d.base.toNat + d.limit.toNat - 1 < 2 ^ 64) && canonical (d.base.toNat + d.limit.toNat - 1) &&
    supHalf (d.base.toNat + d.limit.toNat - 1) == supHalf d.base.toNat))

/-- A descriptor from its 32 bytes (R37). -/
def descOfBytes (bs : List Byte) : Desc :=
  { base := BitVec.ofNat 64 (leToNat (bs.take 8)), limit := BitVec.ofNat 64 (leToNat ((bs.drop 8).take 8)), attr := BitVec.ofNat 128 (leToNat (bs.drop 16)) }

/-- What an instruction carries while it issues: the line and its record, the slot, the issue cycle, its words, the register values its first, second and third operands read, and where it translates. -/
structure Iss where
  key   : Nat
  h     : Held
  slot  : Nat
  t     : Nat
  words : Nat
  rd    : Vector XReg 8
  rd2   : Vector XReg 8
  rd3   : Vector XReg 8
  part  : Nat
  asid  : Nat
  ins   : Instr
  deriving DecidableEq, Repr

def Iss.clu (e : Iss) : Nat := e.slot / 128
def Iss.iu (e : Iss) : Nat := e.slot / 16
def Iss.quad (e : Iss) : Nat := e.slot / 64
def Iss.die (e : Iss) : Nat := e.slot / 2048
def Iss.pos (e : Iss) : Pos := .iu (e.slot / 16)
def Iss.app (e : Iss) : Bool := e.h.ctx.mode = 0
/-- The handler window is in force (R371). -/
def Ctx.window (c : Ctx) : Bool := c.inTrap && c.mode != 0

/-- The descriptor a context names, as one snapshot of its team record (R39). A record that is not mapped gives an unusable one (log 11). -/
def State.descOf (s : State) (clu : Option Nat) (k asid : Nat) (link : Dword) (n : Nat) : Desc :=
  let va := link.toNat + 0x100 + 32 * n
  match s.lookup clu k asid va with
  | .ok l => descOfBytes (memReadList s.mem (l.pa va) 32)
  | .fault _ => descZero

/-- A field of the team record a LINK names; 0 where it is not mapped. -/
def State.teamPa (s : State) (clu : Option Nat) (k asid : Nat) (link : Dword) : Option Nat :=
  match s.lookup clu k asid link.toNat with
  | .ok l => some (l.pa link.toNat)
  | .fault _ => none

def Iss.desc (e : Iss) (s : State) (n : Nat) : Desc := s.descOf (some e.clu) e.part e.asid e.h.ctx.link n

/-! ### Access checks (R29, R35, R40, R42, R47 to R49, R57, R112, R141, R380, R398) -/

/-- Kinds of access (R40, R250). -/
inductive AK
  | load | store | atomic | acq | rel
  deriving DecidableEq, Repr

def AK.reads (k : AK) : Bool := match k with | .load => true | .acq => true | _ => false
def AK.writes (k : AK) : Bool := match k with | .store => true | .rel => true | _ => false
def Desc.permits (d : Desc) (k : AK) : Bool := match k with | .atomic => d.a | k => if k.reads then d.r else d.w
def Leaf.permits (l : Leaf) (k : AK) : Bool := match k with | .atomic => l.r && l.w | k => if k.reads then l.r else l.w

/-- The least power of two not below a size (R42). -/
def pow2ceil (n : Nat) : Nat := if n ≤ 1 then 1 else if n ≤ 2 then 2 else if n ≤ 4 then 4 else if n ≤ 8 then 8 else 16

/-- Fields of a team record that only the device writes, or nobody (R141): byte offsets that no store may touch. -/
def teamFixed (off : Nat) : Bool := !(decide (off < 8) || off = 0x1C || off = 0x1D || decide (off ≥ 0x100))

/-- Whether a store to `n` bytes at a physical address touches such a field of a live team record of the partition, whatever page maps it (R141). -/
def State.hitsTeam (s : State) (k pa n : Nat) : Bool :=
  match s.part k with
  | none => false
  | some p => p.launches.any fun e => e.2.teams.any fun t =>
      match s.vaToPa k e.2.asid t.record with
      | none => false
      | some r => (List.range n).any fun i => decide (r ≤ pa + i ∧ pa + i < r + 1024) && teamFixed (pa + i - r)

/-- Whether a data access of a launch is one of urgent work to memory that the freeze copies; the registers of a base-die engine are none (R380). -/
def State.frozenAt (s : State) (k n pa : Nat) : Bool :=
  match (s.part k).bind (·.freeze) with
  | none => false
  | some f => (s.part k).any (fun p => (mapFind p.launches n).any (·.urgent)) && decide (mapRow pa ≤ 3 ∧ mapRow pa ≠ 2) && !(f.keep.any fun r => decide (r.1 ≤ pa ∧ pa < r.1 + r.2))

/-- Firewall registers of a die at reset (R397). -/
def fwReset : Firewall := { lock := false, hwin := Vector.replicate 8 0, plim := BitVec.ofNat 64 (1350 * 2 ^ 16 + 8400), fwmem := 0 }
def State.fw (s : State) (die : Nat) : Firewall := mapGet s.fws die fwReset

/-- Whether the firewall admits an FW-mode access (R398). -/
def State.fwAdmits (s : State) (die pa : Nat) : Bool :=
  let f := s.fw die
  match s.region pa with
  | .hbm t => f.fwmem.getLsbD t
  | .nm t => f.fwmem.getLsbD 6 && f.fwmem.getLsbD t
  | .host =>
    let a := (pa - 0x8_0000_0000_0000) / 4096
    f.hwin.toList.any fun w => decide (getF w 0 64 ≤ a ∧ a < getF w 64 64)
  | _ => true

/-- The page check of one piece (R35, R57), as a trap code with its detail; `d` is the descriptor number. -/
def pageBad (d mode : Nat) (kind : AK) (l : Leaf) : Option (Nat × Nat) :=
  let app := decide (mode = 0)
  if l.ctx && (app || kind = .atomic) then some (tcPerm, d)
  else if !l.ctx && (!l.permits kind || (app && !l.u)) then some (tcPerm, d) else none

/-- The region check of one piece, of `n` bytes, of an access of `whole` bytes, `rest` of them from this piece on (R25, R29, R45, R47, R49), with the address-space table, the firewall and a freeze (R50, R380, R398); `la` is the launch whose data access it is, none for a fetch. That an APP write of the table is PERM is a choice (log 26). -/
def State.regionBad (s : State) (die k d : Nat) (la : Option Nat) (mode : Nat) (kind : AK) (pa n rest whole : Nat) : Option (Nat × Nat) :=
  let app := decide (mode = 0)
  let plain := kind = .load || kind = .store
  if !s.paOk k pa then some (tcPhys, d)
  else if app && (kind.writes || kind = .atomic) && (s.part k).any (fun p => decide (p.asTable < pa + n ∧ pa < p.asTable + 0x8000)) then some (tcPerm, d)
  else
    let reg : Option (Nat × Nat) :=
      match s.region pa with
      | .bde _ =>
        if app || !plain then some (tcPerm, d)
        else if whole != 8 || n != whole || pa % 8 != 0 then some (tcAlign, d) else none
      | .alias_ dd q off =>
        match decWindow off with
        | none => if !plain then some (tcWindow, d) else if n != whole then some (tcAlign, d) else none
        | some (h, e, f) =>
          let w := fmtBits f / 8
          let hd := s.handle (dd * 32 + q) h
          let st := s.handleState (dd * 32 + q) h
          if kind != .load || pa % w != 0 || decide (e * w + rest > hd.count * w) || st = hsFree || st = hsFault then some (tcWindow, d)
          else none
      | _ => none
    match reg with
    | some x => some x
    | none =>
      if mode = 2 && !s.fwAdmits die pa then some (tcPerm, 17)
      else if la.any (fun x => s.frozenAt k x pa) then some (tcFrozen, d) else none

/-- The page and region checks of a piece that is a whole access. -/
def State.pieceBad (s : State) (die k d : Nat) (la : Option Nat) (mode : Nat) (kind : AK) (l : Leaf) (pa n : Nat) : Option (Nat × Nat) :=
  (pageBad d mode kind l).orElse fun _ => s.regionBad die k d la mode kind pa n n n

/-- The pieces of an access: split at a line boundary (R43). -/
def pieces (va n : Nat) : List (Nat × Nat) :=
  let a := 128 - va % 128
  if n ≤ a then [(va, n)] else [(va, a), (va + a, n - a)]

/-- The pieces of an access, each with the bytes from it to the end of the access. -/
def withRest : List (Nat × Nat × Leaf) → List ((Nat × Nat × Leaf) × Nat)
  | [] => []
  | p :: r => (p, (r.map (·.2.1)).foldl (· + ·) p.2.1) :: withRest r

/-- Whether bytes of tile scratch belong to a handle that is BUSY (R47, R134). -/
def State.meetsBusy (s : State) (pa n : Nat) : Bool :=
  match s.region pa with
  | .alias_ d q off =>
    let hs := match decWindow off with | some (h, _, _) => [h] | none => s.handlesAt (d * 32 + q) off n
    hs.any fun h => s.handleState (d * 32 + q) h = hsBusy
  | _ => false

/-- What the checks of an access come to: it may proceed, it raises a trap, its translation misses at a VA, or it migrates its context (R42, R62, R112). -/
inductive AccRes
  | ok (a : Access) (scope : ScopeCode) (leaf : Leaf)
  | trap (t : Trap)
  | miss (va fva : Nat)
  | migrate (tower : Nat)
  deriving DecidableEq, Repr

/-- The page of a piece of an access. -/
def Access.pageAt (a : Access) (pa : Nat) : Leaf := (((a.segs.zip a.pages).find? fun g => lineOf g.1.1 = lineOf pa).map (·.2)).getD ⟨0, 4096⟩
/-- Whether a page of the access is a context page (R34). -/
def Access.ctxp (a : Access) : Bool := a.pages.any (·.ctx)
/-- Whether a piece acts as non-temporal: by its form or its page (R56, R77). -/
def Access.ntAt (a : Access) (pa : Nat) : Bool := a.nt || (a.pageAt pa).nt

/-- The home tower that migration goes by (R56, R112). -/
def State.migTower (s : State) (l : Leaf) (pa : Nat) : Option Nat := if l.hov != 0 then some (l.hov - 1) else s.homeTower pa
/-- Whether a tower has a C die in a partition (R112). -/
def State.towerHasC (s : State) (k t : Nat) : Bool := (s.partOfTower t == some k) && (List.range 4).any fun l => s.isC (4 * t + l)

/-- Translation of an access's pieces with the page check of each: a trap or a miss, or the pieces as physical addresses with their pages (R42, R43, R57). `va`, that of the whole access, is what a trap reports (log 26). -/
def State.transPieces (s : State) (e : Iss) (d : Nat) (kind : AK) (va : Nat) : List (Nat × Nat) → Sum AccRes (List (Nat × Nat × Leaf))
  | [] => .inr []
  | (v, n) :: r =>
    match s.tcHit e.clu e.part e.asid v with
    | none => .inl (.miss v va)
    | some l =>
      match pageBad d e.h.ctx.mode kind l with
      | some (c, dt) => .inl (.trap ⟨c, dt, va⟩)
      | none =>
        match transPieces s e d kind va r with
        | .inl x => .inl x
        | .inr ps => .inr ((l.pa v, n, l) :: ps)

/-- The checks of R42 that come before translation: the VA, or the trap. `also` are further kinds that the range must permit (R317). -/
def State.preCheck (s : State) (e : Iss) (d : Nat) (off : Dword) (n : Nat) (kind : AK) (also : List AK := []) : Except Trap Nat :=
  let win := d = 15 && e.h.ctx.window
  let de := e.desc s d
  let o := off.toNat
  let va := if win then o else (de.base + off).toNat
  if !win && !de.usable then .error ⟨tcDesc, d, o⟩
  else if !win && !(kind :: also).all de.permits then .error ⟨tcPerm, d, o⟩
  else if win && !(canonical o && decide (o + n - 1 < 2 ^ 64) && canonical (o + n - 1) && supHalf (o + n - 1) == supHalf o) then .error ⟨tcBounds, d, o⟩
  else if !win && decide (o + n > de.limit.toNat) then .error ⟨tcBounds, d, o⟩
  else if !(kind = .load || kind = .store) && va % pow2ceil n != 0 then .error ⟨tcAlign, d, va⟩
  else if e.app && supHalf va then .error ⟨tcPerm, d, va⟩
  else .ok va

/-- A data access of `n` bytes at `off` through descriptor `d`: a trap after the VA exists reports that VA, whichever line fails (R42, R43, log 26). Of an access to two MIG pages the first decides whether its context migrates (R112, log 61). `mig` is false for accesses that ignore MIG. -/
def State.access (s : State) (e : Iss) (d : Nat) (off : Dword) (n : Nat) (kind : AK) (mig : Bool := true) : AccRes :=
  let sc : ScopeCode := if d = 15 && e.h.ctx.window then 6 else (e.desc s d).scope
  match s.preCheck e d off n kind with
  | .error t => .trap t
  | .ok va =>
    match s.transPieces e d kind va (pieces va n) with
    | .inl r => r
    | .inr ps =>
      match (withRest ps).findSome? fun p => s.regionBad e.die e.part d (some e.h.ctx.launch) e.h.ctx.mode kind p.1.1 p.1.2.1 p.2 n with
      | some (c, dt) => .trap ⟨c, dt, va⟩
      | none =>
        if (kind.writes || kind = .atomic) && ps.any fun p => s.hitsTeam e.part p.1 p.2.1 then .trap ⟨tcPerm, d, va⟩
        else
          let a : Access := { part := e.part, asid := e.asid, desc := d, va, segs := ps.map fun p => (p.1, p.2.1), pages := ps.map fun p => p.2.2, nt := false, busy := ps.any fun p => s.meetsBusy p.1 p.2.1 }
          let go : AccRes := .ok a sc (a.pages.headD ⟨0, 4096⟩)
          match (if mig && e.app then (ps.find? fun p => p.2.2.mig).bind fun p => s.migTower p.2.2 p.1 else none) with
          | some t => if t != towerOfDie e.die && s.towerHasC e.part t then .migrate t else go
          | none => go

/-! ### Retirement (R104, R141, R237, R351, R366, R373) -/

/-- One context fewer LIVE in its team record (R141): a write by the context, which narrows the line's stamp (log 62). -/
def State.decLive (s : State) (key : Nat) (c : Ctx) : State :=
  let k := s.partOf key
  match s.teamPa (s.cluOf key) k (s.asidOf k c.launch) c.link with
  | none => s
  | some pa => s.writeAtHome (bytesAt (pa + 0x14) 4 ((s.readN (pa + 0x14) 4 + 2 ^ 32 - 1) % 2 ^ 32)) (.ctx key, s.posOf key) none

/-- CTXPOOL.EN of an IU's partition (R354, R356). -/
def State.poolOn (s : State) (iu : Nat) : Bool := ((s.partOfTower (iu / 512)).bind s.part).any fun p => p.ctxpool.getLsbD 0

/-- A slot is free: replacement, the IU's own deque and its steal rounds look again (R108, R354, R356). -/
def State.slotFreed (s : State) (n : Nat) : State :=
  let s := s.emitOnce (.fill (n / 128))
  let s := if (mapFind s.ius (n / 16)).any fun u => !u.deque.isEmpty then s.emitOnce (.dequePop (n / 16)) else s
  if s.poolOn (n / 16) then s.emitOnce (.stealRound (n / 16)) else s

/-- Whether a launch is urgent work of a freeze (R381). -/
def State.isUrgent (s : State) (k n : Nat) : Bool := (s.part k).any fun p => (mapFind p.launches n).any (·.urgent)

/-- A pair goes back to its pool (R351). -/
def State.giveBack (s : State) (k n id : Nat) : State :=
  (s.modPart k fun p => { p with returns := p.returns ++ [⟨id, s.asidOf k n, s.isUrgent k n, none⟩] }).emit (.poolReturn k id)

/-- A context line is written to its home by its holder: a move never clears poison (R91, R104, R110, R114). -/
def State.lineHome (s : State) (key : Nat) (c : Ctx) : State :=
  let bad := s.isPoison (lineOf key)
  let s := s.writeAtHome (numberFrom key (ctxBytes c)) (.ctx key, s.posOf key) none
  if bad then { s with poison := mapPut s.poison (lineOf key) () } else s

/-- The line goes to its home memory and leaves its slot or CL2; the pool and the launch's completion are told (R104, R351, R366). -/
def State.retire (s : State) (key : Nat) (c : Ctx) : State :=
  let k := s.partOf key
  let id := s.idOf key
  let s := s.decLive key c
  let s := s.lineHome key c
  let slot := (mapFind s.held key).bind Held.slot?
  let s := { s with held := mapErase s.held key, live := mapErase s.live key, traps := mapErase s.traps key, fences := mapErase s.fences key, timers := mapErase s.timers key }
  let s := match slot with | some n => s.slotFreed n | none => s
  let s := if c.state = stDone && getF c.wait 16 8 = 0 then s.giveBack k c.launch id else s
  s.emit (.launchCompletion k c.launch)

/-- MoveToFaulted (R373): `wrote` is false when the trap line cannot be written. -/
def State.moveToFaulted (s : State) (key : Nat) (t : Trap) (line : Option Nat) : State :=
  let c := s.ctxAt key
  let k := s.partOf key
  let id := s.idOf key
  let s := match line with
    | some pa => s.writeAtHome (bytesAt (pa + 0x10) 4 (t.detail * 2 ^ 16 + t.code) ++ bytesAt (pa + 0x18) 8 t.faddr) (.ctx key, s.posOf key) none
    | none => s
  let c := { c.setState stFaulted 0 with stat := setF (setF c.stat 2 3 stFaulted) 9 1 0 }
  let s := s.modPart k fun p => { p with launches := mapMap p.launches fun n l =>
    if n = c.launch then { l with nfault := l.nfault + 1, ffirst := if l.nfault = 0 then id else l.ffirst } else l }
  let die := match s.posOf key with | .iu n => n / 128 | .cluster n => n / 16 | .tower n => 4 * n | _ => 0
  (s.bb die 3 k [id, t.code, t.detail]).retire key c

/-! ### Taking an exception (R370 to R373) -/

/-- HandlerEntry (R370): TRAPVEC.ENTRY, or the firmware vector. -/
def State.handlerEntry (s : State) (key : Nat) (c : Ctx) : Dword :=
  if c.mode = 2 then Config.fwvec else (((s.part (s.partOf key)).map (·.trapvec)).getD 0) &&& ~~~3#64

/-- Where the trap line of a context stands, none where its write would fail (R372). -/
def State.trapLine (s : State) (key : Nat) (c : Ctx) : Option Nat :=
  let k := s.partOf key
  let va := s.idOf key + 0x80
  match s.lookup (s.cluOf key) k (s.asidOf k c.launch) va with
  | .ok l => if l.ctx && !s.offline (l.pa va) then some (l.pa va) else none
  | .fault _ => none

/-- The trap line that entry writes: every field but HSAVE (R102, R370). -/
def trapLineBytes (c : Ctx) (t : Trap) (spc : Dword) : List Byte :=
  leBytes 8 spc.toNat ++ leBytes 4 c.pred.toNat ++ leBytes 4 (setF c.stat 2 3 0).toNat ++ leBytes 4 (t.detail * 2 ^ 16 + t.code) ++
  leBytes 4 0 ++ leBytes 8 t.faddr ++ leBytes 12 (xget c.x 0).toNat ++ leBytes 12 (xget c.x 1).toNat ++
  leBytes 12 (xget c.x 2).toNat ++ leBytes 12 (xget c.x 3).toNat

/-- The context as it enters its handler (R370). -/
def Ctx.inHandler (c : Ctx) (t : Trap) (spc entry : Dword) (lineVa : Nat) : Ctx :=
  let st := setF c.stat 0 2 (if c.mode = 2 then 2 else 1)
  let st := setF (setF st 9 1 1) 13 3 (c.nest + 1)
  let x := xset c.x 0 (xOfD (BitVec.ofNat 64 lineVa))
  let x := xset x 1 (xOfD (BitVec.ofNat 64 (t.detail * 2 ^ 16 + t.code)))
  let x := xset x 2 (xOfD (BitVec.ofNat 64 t.faddr))
  let x := xset x 3 (xOfD spc)
  { c with stat := setF st 2 3 stReady, wait := setF c.wait 24 4 0, pred := predReset, x, pc := entry }

/-- Every fixed-latency result and flag of a context has landed (R105, R211, R370). -/
def Held.settled (h : Held) : Held :=
  { h with ctx := h.flagsAt.foldl (fun c f => { c with pred := c.pred ||| f.2 }) h.ctx, flagsAt := [] }
/-- The cycle by which they have. -/
def Held.drainCycle (h : Held) : Nat := h.flagsAt.foldl (fun m f => max m f.1) (h.rdy.toList.foldl max 0)

/-- A line's in-flight work drains: REFT passes to the drain cycle and the flags land. -/
def State.drain (s : State) (key : Nat) : State :=
  match mapFind s.held key with
  | some h =>
    match h.place with
    | .slot n =>
      let s := s.at (s.cycleAt (n / 2048) h.drainCycle)
      { s with held := mapPut s.held key { h.settled with replay := none } }
    | _ => s
  | none => s

/-- Trap entry once PEND[3:0] is 0 (R370). A cause held meanwhile is entered next, nested (R372). -/
def State.enterTrap (s : State) (key : Nat) (t : Trap) (spc : Dword) : State :=
  let s := s.drain key
  let c := s.ctxAt key
  let entry := s.handlerEntry key c
  match s.trapLine key c with
  | none => s.moveToFaulted key t none
  | some pa =>
    if c.nest = 7 || entry = 0 then s.moveToFaulted key t (some pa)
    else
      let c' := c.inHandler t spc entry (s.idOf key + 0x80)
      let s := s.writeAtHome (numberFrom pa (trapLineBytes c t spc)) (.ctx key, s.posOf key) none
      match (mapGet s.traps key ⟨none, []⟩).nested with
      | [] => { s.setCtx key c' with traps := mapErase s.traps key }
      | n :: r =>
        { s.setCtx key (c'.setState stTrapped 0) with traps := mapPut s.traps key ⟨some (n, entry), r⟩ }.emit (.trapEntry key)

/-- The line is moving: deliveries to it are held (R106). -/
def State.isMoving (s : State) (key : Nat) : Bool := match (mapFind s.held key).map Held.place with | some (.moving ..) => true | _ => false

/-- Whether the retirement of a context must wait for a home that a role change holds: of its team record, or of its line (R19). -/
def State.retireHeld (s : State) (key : Nat) (c : Ctx) : Bool :=
  let k := s.partOf key
  s.claimed (lineOf key) || (s.teamPa (s.cluOf key) k (s.asidOf k c.launch) c.link).any fun pa => s.claimed (lineOf (pa + 0x14))
/-- Whether the host holds the record or the line that the retirement writes (R85). -/
def State.retireLines (s : State) (key : Nat) (c : Ctx) : List Nat :=
  let k := s.partOf key
  lineOf key :: ((s.teamPa (s.cluOf key) k (s.asidOf k c.launch) c.link).map fun pa => lineOf (pa + 0x14)).toList

/-- The lines that an entry writes: the trap line, or those of the retirement that it ends in (R370, R372, R373). -/
def State.entryLines (s : State) (key : Nat) : List Nat :=
  let c := s.ctxAt key
  let l := (s.trapLine key c).map lineOf
  if c.nest = 7 || s.handlerEntry key c = 0 || l.isNone then l.toList ++ s.retireLines key c else l.toList

/-- Whether trap entry has nothing left to wait for: results for x0 to x3, a message status or a refusal still owed to the instruction last issued, the line's move, a transaction on the trap line, a home hold, the host's copy (R19, R85, R106, R263, R370). -/
def State.entryReady (s : State) (key : Nat) : Bool :=
  let c := s.ctxAt key
  let ls := s.entryLines key
  getF c.wait 0 4 = 0 && !s.isMoving key && !(s.sends.any fun o => o.2.key = key) && !(s.stores.any fun o => o.2.key = key && o.2.toCtx.isSome) &&
  !s.lineBusy ls && !ls.any s.claimed && !s.hostHas ls

/-- Trap entry where nothing is left to wait for, else the context stays TRAPPED until TRAP_ENTRY finds that; the host is asked for a line it holds. -/
def State.tryEnter (s : State) (key : Nat) : State :=
  match mapFind s.traps key with
  | some ⟨some (t, spc), _⟩ => if s.entryReady key then s.enterTrap key t spc else (s.snoopHost (s.entryLines key)).emit (.trapEntry key)
  | _ => s

/-- Order of causes at one boundary: a precise trap, POISON or a refused window read, SCOPEMISS, TFAULT, SWTRAP (R374). -/
def trapRank (code : Nat) : Nat :=
  if code = tcPoison || code = tcWindow then 1 else if code = tcScopemiss then 2 else if code = tcTfault then 3 else if code = tcSwtrap then 4 else 0

/-- Adds a cause to those held, in the order of R374. -/
def insertTrap (t : Trap) : List Trap → List Trap
  | [] => [t]
  | u :: r => if trapRank t.code < trapRank u.code then t :: u :: r else u :: insertTrap t r

/-- A cause finds the context TRAPPED: it is held and taken nested; one that comes first in R374 goes before a boundary trap not yet entered, a precise one always, another where the two met at the boundary (R372, R374, log 34). -/
def State.holdTrap (s : State) (key : Nat) (t : Trap) (spc : Dword) : State :=
  let q := mapGet s.traps key ⟨none, []⟩
  let held : TrapQ := { q with nested := insertTrap t q.nested }
  let q' : TrapQ :=
    match q.entering with
    | some (t0, spc0) =>
      if trapRank t.code < trapRank t0.code && (trapRank t.code = 0 || Config.pickOperand s.tick % 2 = 0) then
        ⟨some (t, if trapRank t.code = 0 then spc else spc0), insertTrap t0 q.nested⟩
      else held
    | none => held
  { s with tick := s.tick + 1, traps := mapPut s.traps key q' }

/-- A trap is detected: the context is TRAPPED and entry begins; a cause that finds it TRAPPED is held (R370, R372). A replay ends (R234). -/
def State.raiseTrap (s : State) (key : Nat) (t : Trap) (spc : Dword) : State :=
  let c := s.ctxAt key
  if c.state = stTrapped then s.holdTrap key t spc
  else
    let q := mapGet s.traps key ⟨none, []⟩
    let s := match mapFind s.held key with
      | some h => { s with held := mapPut s.held key { h with replay := none } }
      | none => s
    ({ s.setCtx key (c.setState stTrapped 0) with traps := mapPut s.traps key { q with entering := some (t, spc) } }).tryEnter key

/-- A trap at the boundary a context has reached: SPC is the next instruction not yet issued (R368). -/
def State.boundaryTrap (s : State) (key : Nat) (t : Trap) : State := s.raiseTrap key t (s.ctxAt key).pc
/-- The same for a cause that takes no waiting or parked context out of its wait: such a context traps once it is READY, before it issues (R125, R144). -/
def State.boundaryTrapLater (s : State) (key : Nat) (t : Trap) : State :=
  let c := s.ctxAt key
  if c.state = stWaiting || c.state = stParked then
    { s with traps := mapUpd s.traps key ⟨none, []⟩ fun q => { q with nested := insertTrap t q.nested } }
  else s.boundaryTrap key t
/-- A trap that was due is taken at the boundary the context has reached. -/
def State.takeDue (s : State) (key : Nat) : State :=
  match mapFind s.traps key with
  | some ⟨none, t :: r⟩ => ({ s with traps := mapPut s.traps key ⟨none, r⟩ } : State).boundaryTrap key t
  | _ => s

/-- A refusal by the firewall is recorded on the die (R398, R403). -/
def State.fwRecord (s : State) (die k key : Nat) (t : Trap) : State := if t.code = tcPerm && t.detail = 17 then s.bb die 4 k [t.faddr, s.idOf key] else s
/-- A precise trap of the instruction being issued (R368). -/
def State.trapAt (s : State) (e : Iss) (code detail faddr : Nat) : State :=
  let s := s.fwRecord e.die e.part e.key ⟨code, detail, faddr⟩
  { s with held := mapPut s.held e.key e.h }.raiseTrap e.key ⟨code, detail, faddr⟩ e.h.ctx.pc
/-- The words of an instruction as FADDR of ILLEGAL holds them (R189). -/
def faultWords (i : Instr) : Nat := match encode i with | some (a, b) => a + b.getD 0 * 2 ^ 32 | none => 0
/-- ILLEGAL with a detail; FADDR holds the words fetched, unstaggered in a replay (R189, R232). -/
def State.illegal (s : State) (e : Iss) (detail : Nat) : State :=
  let i := match e.h.replay with | some r => ((r.block[r.idx]?).map (·.1)).getD e.ins | none => e.ins
  s.trapAt e tcIllegal detail (faultWords i)

/-! ### Wakes and deliveries (R92, R106, R107) -/

/-- A wake: READY and WHY 0 where the context waits for that reason (R106). -/
def Ctx.wake (c : Ctx) (why : Nat) : Ctx :=
  if (c.state = stWaiting || c.state = stParked) && c.why = why then c.setState stReady 0 else c

/-- The registers that the instruction a context waits at needs (R106). -/
def State.needsOf (s : State) (key : Nat) : BitVec 8 := ((mapFind s.live key).map (·.needs)).getD 0
/-- The wake of a register wait, once PEND names no register the stalled instruction needs (R106). -/
def State.wakeReg (s : State) (key : Nat) (c : Ctx) : Ctx := if (s.needsOf key).toNat &&& c.pendAll = 0 then c.wake whyReg else c

/-- A delivery that finds its line moving is held at the line's home, in arrival order (R106). -/
def State.holdLate (s : State) (key : Nat) (i : Instr) : State := { s with late := mapUpd s.late key [] (· ++ [i]) }
/-- The move has ended: the deliveries held for the line come next, in order (R106). -/
def State.releaseLate (s : State) (key : Nat) : State := { s with soon := s.soon ++ mapGet s.late key [], late := mapErase s.late key }

/-- A variable-latency result: xi, PEND[i], flags, and the wake of a register wait (R106). -/
def State.deliver (s : State) (key : Nat) (i : Reg) (f : XReg → XReg) (flags : Fl) : State :=
  let c := s.ctxAt key
  if c.state = stFaulted || c.state = stDone then s
  else
    let c := ({ c with x := xset c.x i (f (xget c.x i)) }.setPend i.toNat false).orFlags flags
    s.setCtx key (s.wakeReg key c)

/-- A poisoned or refused result: xi keeps its value, PEND[i] is cleared and the context traps at its boundary (R92, R106). -/
def State.deliverTrap (s : State) (key : Nat) (i : Reg) (t : Trap) : State :=
  let c := s.ctxAt key
  if c.state = stFaulted || c.state = stDone then s
  else (s.setCtx key (c.setPend i.toNat false)).boundaryTrap key t

/-- A token settles: both bits in one update, and the wake of a token wait; a FAULTED or DONE line takes it too; its scope is noted for who observes it (R100, R106, R129). -/
def State.settle (s : State) (key id : Nat) (k : Tok) (fault : Bool) (sc : ScopeCode) : State :=
  let s := { s with toks := mapPut s.toks (key * 8 + k.toNat) sc }
  let c := s.ctxAt key
  let c := { c with wait := setBit c.wait (16 + k.toNat) false, owner := setBit c.owner (24 + k.toNat) fault }
  let s' := s.setCtx key (c.wake whyTok)
  if c.state = stDone && getF c.wait 16 8 = 0 then s'.giveBack (s.partOf key) c.launch id else s'

/-- A message delivery (R107, R429). -/
def State.message (s : State) (key : Nat) (j : Reg) (data : XReg) (tag : Stamp) : State × SendSt :=
  let c := s.ctxAt key
  if c.state = stDone || c.state = stFaulted then (s, .dead)
  else if c.full j.toNat || c.pend j.toNat then (s, .full)
  else
    let c := ({ c with x := xset c.x j data }).setFull j.toNat true
    let c := if c.state = stParked && c.why = whyRecv then c.setState stReady 0 else c
    ({ s.setCtx key c with tags := mapPut s.tags (key * 8 + j.toNat) tag }, .delivered)

/-! ### The issue attempt (R147, R150, R187, R369) -/

/-- Whether the guard holds (R187). -/
def guardHolds (hd : Hdr) (c : Ctx) : Bool := (hd.gn = false && hd.gp = 0) || (c.p hd.gp != hd.gn)

/-- PC past an instruction: the next one, or the next of a replay (R232). -/
def Held.advance (h : Held) (words : Nat) : Held :=
  let nxt := h.ctx.pc + BitVec.ofNat 64 (4 * words)
  match h.replay with
  | none => { h with ctx := { h.ctx with pc := nxt } }
  | some r =>
    if r.idx + 1 < r.block.length then { h with ctx := { h.ctx with pc := nxt }, replay := some { r with idx := r.idx + 1 } }
    else if r.rep + 1 < r.reps then
      { h with ctx := { h.ctx with pc := r.endPc - BitVec.ofNat 64 (4 * (r.block.foldl (fun a b => a + b.2) 0)) },
               replay := some { r with idx := 0, rep := r.rep + 1 } }
    else { h with ctx := { h.ctx with pc := r.endPc }, replay := none }

/-- NEXT after an issue (R145). -/
def Held.issued (h : Held) (t : Nat) (S : BitVec 3) : Held := { h with next := t + 8 + 4 * S.toNat }

/-- The instruction has issued: PC past it, NEXT set, and its effect on the record (R145). -/
def State.finish (s : State) (e : Iss) (S : BitVec 3) (h : Held) : State :=
  { s with held := mapPut s.held e.key ((h.advance e.words).issued e.t S) }

/-- The values of a register that writes still in flight at a cycle have replaced (R150). -/
def Held.olds (h : Held) (t : Nat) (r : Reg) : List (Nat × XReg) := (h.old[r.toNat]'r.isLt).filter fun e => decide (t < e.1)
/-- A fixed-latency write to a register at the issue cycle (R149, R150). -/
def Held.write (h : Held) (t : Nat) (L : Nat) (r : Reg) (x : XReg) : Held :=
  let ready := max (t + L) (h.rdy[r.toNat]'r.isLt)
  { h with old := h.old.set r.toNat (h.olds t r ++ [(ready, xget h.ctx.x r)]) r.isLt, rdy := h.rdy.set r.toNat ready r.isLt,
           ctx := { h.ctx with x := xset h.ctx.x r x } }

/-- Sticky flags that land at a cycle (R211). -/
def Held.flagAt (h : Held) (t : Nat) (f : Fl) : Held :=
  if f = 0 then h else { h with flagsAt := h.flagsAt ++ [(t, BitVec.ofNat 32 (f.toNat * 2 ^ 20))] }

/-- Registers an attempt finds undersized (R150). -/
def undersized (h : Held) (t : Nat) (reads : List Reg) : List Reg := reads.filter fun r => decide (t < h.rdy[r.toNat]'r.isLt)

/-- The values that an undersized read may return: the new one, or one that a write still in flight has replaced (R150). -/
def Held.readable (h : Held) (t : Nat) (r : Reg) : List XReg := xget h.ctx.x r :: (h.olds t r).map (·.2)
/-- Values read: for each undersized register an old value or the new one, one free draw a read (R150, log 5). -/
def readRegs (h : Held) (t tick : Nat) : List Reg → Vector XReg 8
  | [] => h.ctx.x
  | r :: rs =>
    let vs := h.readable t r
    xset (readRegs h t tick rs) r (vs.getD (Config.staleRead (tick + rs.length) % vs.length) (xget h.ctx.x r))

/-- What an attempt needs to know of an instruction: its guard and stall count, its words, the registers it reads and writes, whether it rounds, whether APP mode may not issue it. -/
structure Shape where
  hd     : Hdr
  words  : Nat
  reads  : List Reg
  writes : List Reg
  rounds : Bool
  sup    : Bool
  deriving DecidableEq, Repr

/-- The outcome of an attempt: the instruction issues, or the attempt ends in a state of its own. -/
inductive Attempt
  | issue (e : Iss) (s : State)
  | ended (s : State)
  deriving DecidableEq, Repr

/-- The context waits, its PC at the instruction (R144, R147). -/
def State.waitAt (s : State) (e : Iss) (st why : Nat) : State :=
  ({ s with held := mapPut s.held e.key e.h }).setCtx e.key (e.h.ctx.setState st why)
/-- A wait for registers: those that the instruction needs are noted for the wake (R106, R147). -/
def State.waitRegs (s : State) (e : Iss) (needs : BitVec 8) : State :=
  ({ s with live := match mapFind s.live e.key with | some l => mapPut s.live e.key { l with needs } | none => s.live } : State).waitAt e stWaiting whyReg
/-- Register numbers as a set. -/
def regSet (rs : List Reg) : BitVec 8 := rs.foldl (fun m r => m ||| BitVec.ofNat 8 (2 ^ r.toNat)) 0

/-- Walkers of a die (R60). -/
def walkersMax : Nat := 64
/-- The walks of a die that have a walker. -/
def State.walking (s : State) (die : Nat) : Nat := (s.walks.filter fun w => w.2.die = die && w.2.active).length
/-- Whether a miss falls in the page of a walk: the leaf's once it is read, before that 4 KiB (R61). -/
def Walk.covers (w : Walk) (va : Nat) : Bool :=
  w.va / 4096 = va / 4096 || (match w.result with | some (.ok l) => w.va / l.size == va / l.size | _ => false)
/-- A miss in translation joins a walk for the page, or starts one; a walk that finds every walker busy queues (R60, R61). -/
def State.joinWalk (s : State) (k asid : Nat) (x : Waiter) : State :=
  let va := x.va
  let clu := x.clu
  match s.walks.find? fun w => w.2.die = clu / 16 && w.2.part = k && w.2.asid = asid && w.2.covers va with
  | some (n, w) => { s with walks := mapPut s.walks n { w with waiters := w.waiters ++ [x] } }
  | none =>
    let go := decide (s.walking (clu / 16) < walkersMax)
    let s' : State := { s with walks := mapPut s.walks s.nextId { die := clu / 16, part := k, asid, va, waiters := [x], active := go, result := none, path := [] } }
    (if go then s'.emit (.translationWalk s.nextId) else s').bump
/-- A miss in translation: the context waits for a walk, and no longer for any other (R62). `fva` is the VA that a trap of the walk reports (R42), `spc` the instruction it belongs to. -/
def State.missAt (s : State) (key clu k asid va fva : Nat) (fetch : Bool) (spc : Dword) (ctxid : Bool := false) : State :=
  let walks := mapMap s.walks fun _ w => { w with waiters := w.waiters.filter fun x => x.key != key || x.op.isSome }
  ({ s with walks } : State).joinWalk k asid ⟨key, clu, va, fva, fetch, ctxid, (s.ctxAt key).pc, spc, none⟩
/-- A walker that is free takes the walk that has queued longest (R61). -/
def State.walkersGo (s : State) (die : Nat) : State :=
  (List.range (walkersMax - s.walking die)).foldl (fun s _ =>
    match s.walks.find? fun w => w.2.die = die && !w.2.active with
    | some (n, w) => ({ s with walks := mapPut s.walks n { w with active := true } } : State).emit (.translationWalk n)
    | none => s) s

/-- Whether every checked context of the partition checks stall counts (R152). -/
def State.force (s : State) (k : Nat) : Bool := ((s.part k).map fun p => p.chkstall.getLsbD 0).getD false

/-- The issue attempt of the context in the slot that `cur` names (R147, R187, R369): guard, rounding mode, variable-latency interlock, stall counts, privilege. -/
def State.attempt (s : State) (i : Instr) (sh : Shape) : Attempt :=
  match mapFind s.held s.cur with
  | none => .ended s
  | some h0 =>
    match h0.place with
    | .slot n =>
      if h0.ctx.state != stReady then .ended s
      else
        let t := s.cyc (n / 2048)
        let h := h0.landed t
        let k := s.partOf s.cur
        let e : Iss := { key := s.cur, h, slot := n, t, words := sh.words, rd := h.ctx.x, rd2 := h.ctx.x, rd3 := h.ctx.x, part := k,
                         asid := s.asidOf k h.ctx.launch, ins := i }
        if !guardHolds sh.hd h.ctx then .ended (s.finish e sh.hd.s h)
        else if sh.rounds && h.ctx.rm ≥ 5 then .ended (s.illegal e 4)
        else if (sh.reads ++ sh.writes).any (fun r => h.ctx.pend r.toNat) then .ended (s.waitRegs e (regSet (sh.reads ++ sh.writes)))
        else
          match undersized h t sh.reads with
          | [] =>
            if sh.sup && h.ctx.mode = 0 then .ended (s.trapAt e tcPerm 16 0) else .issue e s
          | r :: rs =>
            if h.ctx.chk || s.force k then .ended (s.trapAt e tcStall (((r :: rs).map (·.toNat)).foldl min 7) 0)
            else if sh.sup && h.ctx.mode = 0 then .ended (s.trapAt e tcPerm 16 0)
            else
              let n := s.tick + 8
              .issue { e with rd := readRegs h t s.tick (r :: rs), rd2 := readRegs h t n (r :: rs), rd3 := readRegs h t (n + 8) (r :: rs) }
                { s with tick := n + 16 }
    | _ => .ended s

/-- An instruction's meaning: its attempt and, where it issues, its effect. -/
def State.run (s : State) (i : Instr) (sh : Shape) (act : Iss → State → State) : Host.Outcome State Fault Refusal :=
  match s.attempt i sh with
  | .issue e s' => .next (act e s')
  | .ended s' => .next s'

end Sys2Proof.Machine
end

