-- ==== Sys2Proof/Machine/Operands.lean ====
section
/-! DEFINITION. Operand forms: lanes and their masks (R101, R192, R209), register results of fixed and variable latency (R149, R210, R239), and memory operands (R250 to R256). -/

namespace Sys2Proof.Machine

/-! ### Lanes -/

/-- Bits of a lane. -/
def shW : Sh → Nat | .d => 64 | .w3 => 32 | .h6 => 16 | .b12 => 8
/-- Lanes of a shape. -/
def shN : Sh → Nat | .d => 1 | .w3 => 3 | .h6 => 6 | .b12 => 12
/-- Bits and lanes of a floating-point shape. -/
def fshW : FSh → Nat | .f64 => 64 | .f32 => 32 | .f16 => 16 | .bf16 => 16
def fshN : FSh → Nat | .f64 => 1 | .f32 => 3 | .f16 => 6 | .bf16 => 6

/-- Lane `k` of `w` bits (R101). -/
def lane (w : Nat) (x : XReg) (k : Nat) : Nat := getF x (w * k) w

/-- A register from the lanes given for it, the rest zero. -/
def packLanes (w : Nat) (ls : List Nat) : XReg :=
  BitVec.ofNat 96 (ls.foldr (fun v a => v % 2 ^ w + a * 2 ^ w) 0)

/-- The bytes that lanes 0 to n - 1 of `w` bits with their mask bit set occupy; a 64-bit lane ignores the mask (R192, R209). -/
def laneBytes (w n : Nat) (lm : BitVec 12) : BitVec 12 :=
  if w = 64 then 0x0FF
  else BitVec.ofNat 12 ((List.range n).foldl (fun a k => if lm.getLsbD k then a ||| ((2 ^ (w / 8) - 1) <<< (k * (w / 8))) else a) 0)

/-- A byte mask as a mask of bits. -/
def expandBytes (m : BitVec 12) : XReg :=
  BitVec.ofNat 96 ((List.range 12).foldl (fun a k => if m.getLsbD k then a ||| (255 <<< (8 * k)) else a) 0)

/-- The bytes of `new` that the mask names, the rest of `old`. -/
def mergeBytes (m : BitVec 12) (new old : XReg) : XReg := (new &&& expandBytes m) ||| (old &&& ~~~(expandBytes m))

/-- Lanes a result writes (R209). -/
def activeLanes (w n : Nat) (lm : BitVec 12) : List Nat := (List.range n).filter fun k => w = 64 || lm.getLsbD k

/-! ### Results -/

/-- A fixed-latency register result and its flags (R149, R211). -/
def State.result (s : State) (e : Iss) (S : BitVec 3) (L : Nat) (d : Reg) (m : BitVec 12) (v : XReg) (fl : Fl := 0) : State :=
  s.finish e S ((e.h.write e.t L d (mergeBytes m v (xget e.h.ctx.x d))).flagAt (e.t + L) fl)

/-- A `.D` fixed-latency result (R209). -/
def State.resultD (s : State) (e : Iss) (S : BitVec 3) (L : Nat) (d : Reg) (v : Dword) : State :=
  s.result e S L d 0x0FF (xOfD v)

/-- A lane-wise fixed-latency result: `f` gives each lane and its flags (R209). -/
def State.lanes (s : State) (e : Iss) (S : BitVec 3) (L w n : Nat) (d : Reg) (f : Nat → Nat × Fl) : State :=
  s.result e S L d (laneBytes w n e.h.ctx.lm) (packLanes w ((List.range n).map fun k => (f k).1))
    ((activeLanes w n e.h.ctx.lm).foldl (fun a k => a ||| (f k).2) 0)

/-- An instruction that changes only PC, NEXT and what `g` changes of the context. -/
def State.plain (s : State) (e : Iss) (S : BitVec 3) (g : Ctx → Ctx) : State := s.finish e S { e.h with ctx := g e.h.ctx }

/-- Starts a variable-latency operation: PEND on xd, the operation outstanding, its delivery to come (R147, R210). -/
def State.startFrom (s : State) (e : Iss) (S : BitVec 3) (d : Reg) (kind : OpKind) (h : Held) : State :=
  let s' := s.finish e S { h with ctx := h.ctx.setPend d.toNat true }
  ({ s' with ops := mapPut s'.ops s'.nextId { key := e.key, launch := e.h.ctx.launch, pos := e.pos, reg := d, kind } }.emit (.result s'.nextId)).bump
def State.start (s : State) (e : Iss) (S : BitVec 3) (d : Reg) (kind : OpKind) : State := s.startFrom e S d kind e.h

/-- A variable-latency lane-wise result whose value is known at issue (R210, R239). -/
def State.startLanes (s : State) (e : Iss) (S : BitVec 3) (w n : Nat) (d : Reg) (f : Nat → Nat × Fl) : State :=
  s.start e S d (.value (packLanes w ((List.range n).map fun k => (f k).1)) (laneBytes w n e.h.ctx.lm)
    ((activeLanes w n e.h.ctx.lm).foldl (fun a k => a ||| (f k).2) 0))

/-- A register as the attempt reads it, for the first, the second and the third operand (R150, R209). -/
def Iss.x (e : Iss) (r : Reg) : XReg := xget e.rd r
def Iss.y (e : Iss) (r : Reg) : XReg := xget e.rd2 r
def Iss.z (e : Iss) (r : Reg) : XReg := xget e.rd3 r
def Iss.xd (e : Iss) (r : Reg) : Dword := xD (e.x r)
def Iss.yd (e : Iss) (r : Reg) : Dword := xD (e.y r)
def Iss.zd (e : Iss) (r : Reg) : Dword := xD (e.z r)

/-! ### Memory operands -/

/-- Bytes of a size code (R198). -/
def sizeBytes : MSize → Nat | .b => 1 | .h => 2 | .w => 4 | .d => 8 | .w3 => 12 | .h6 => 12 | .b12 => 12
/-- Lane width of a 12-byte size. -/
def sizeLaneW : MSize → Nat | .w3 => 32 | .h6 => 16 | _ => 8

/-- Bytes of a register that a load result writes (R253). -/
def loadMask (sz : MSize) (lm : BitVec 12) : BitVec 12 :=
  if sizeBytes sz = 12 then laneBytes (sizeLaneW sz) (96 / sizeLaneW sz) lm else 0x0FF
/-- Bytes of memory that a store writes (R253). -/
def storeMask (sz : MSize) (lm : BitVec 12) : BitVec 12 :=
  if sizeBytes sz = 12 then laneBytes (sizeLaneW sz) (96 / sizeLaneW sz) lm else BitVec.ofNat 12 (2 ^ sizeBytes sz - 1)

/-- The byte offset 4 x imm added to a base register (R252, R256). -/
def memOff (x : Dword) (bits imm : Nat) : Dword := x + BitVec.ofInt 64 (4 * signedNat bits imm)

/-- The bytes a store writes, with their addresses: those of `v` that the mask names, over the pieces of the access (R43, R253). -/
def storeBytes (segs : List (Nat × Nat)) (v : XReg) (m : BitVec 12) : List (Nat × Byte) :=
  let at' := segs.flatMap fun g => rangeFrom g.1 g.2
  ((numberFrom 0 at').filter fun p => m.getLsbD p.1).map fun p => (p.2, BitVec.ofNat 8 (getF v (8 * p.1) 8))

/-- The shape of a one-word instruction by its header and the registers it reads and writes. -/
def shape (hd : Hdr) (reads writes : List Reg) : Shape := { hd, words := 1, reads, writes, rounds := false, sup := false }

/-- Registers by number from a base, modulo 8. -/
def regAdd (r : Reg) (n : Nat) : Reg := r + BitVec.ofNat 3 n

end Sys2Proof.Machine
end

