-- ==== Sys2Proof/Machine/Fetch.lean ====
section
/-! DEFINITION. Fetching and decoding the next instruction of a context (R41, R57, R92, R185, R186, R189, R231). -/

namespace Sys2Proof.Machine

/-- What a fetch comes to: the word, a trap, a miss in translation, a line that the instruction cache still lacks, with its page, or a wait for a claim or a home hold. -/
inductive FetchRes
  | word (w : Nat) | trap (t : Trap) | miss (va : Nat) | fill (line : Nat) (page : Leaf) | wait
  deriving DecidableEq, Repr

/-- The fetch of one word at a VA, from the instruction cache where the memory is cached (R19, R41, R57, R71, R90, R92, R371). -/
def State.fetchWord (s : State) (key : Nat) (h : Held) (slot va : Nat) : FetchRes :=
  let k := s.partOf key
  let asid := s.asidOf k h.ctx.launch
  let clu := slot / 128
  let win := h.ctx.window
  let de := if win then descZero else s.descOf (some clu) k asid h.ctx.link 15
  let off := if win then va else (BitVec.ofNat 64 va - de.base).toNat
  if !win && !de.usable then .trap ⟨tcDesc, 15, off⟩
  else if !win && !de.x then .trap ⟨tcPerm, 15, off⟩
  else if win && !canonical va then .trap ⟨tcBounds, 15, off⟩
  else if !win && decide (off + 4 > de.limit.toNat) then .trap ⟨tcBounds, 15, off⟩
  else if h.ctx.mode = 0 && supHalf va then .trap ⟨tcPerm, 15, va⟩
  else
    match s.tcHit clu k asid va with
    | none => .miss va
    | some l =>
      let pa := l.pa va
      if !l.x || (h.ctx.mode = 0 && !l.u) then .trap ⟨tcPerm, 15, va⟩
      else
        match s.regionBad (slot / 2048) k 15 none h.ctx.mode .load pa 4 4 4 with
        | some (c, dt) => .trap ⟨c, dt, va⟩
        | none =>
          if !s.coherent pa then .word (s.readPa pa 4)
          else if s.offline pa then .trap ⟨tcPoison, 0xFF + 2 ^ 15, lineOf pa * 128⟩
          else if s.isPoison (lineOf pa) then .trap ⟨tcPoison, 0xFF, lineOf pa * 128⟩
          else if s.l1Hit (slot / 16) (lineOf pa) true then .word (s.readPa pa 4)
          else if s.claimed (lineOf pa) then .wait
          else .fill (lineOf pa) l

/-- The instruction two words give: what the decoder reads, else the pattern with its first failing check (R189). -/
def instrOf (w0 w1 : Nat) : Instr :=
  match decodeWords w0 w1 with
  | .ok i => i
  | .error (.illegal d) => .unassignedWordPattern (BitVec.ofNat 32 w0) (BitVec.ofNat 32 w1) d
  | .error .truncated => .unassignedWordPattern (BitVec.ofNat 32 w0) (BitVec.ofNat 32 w1) 1

/-- The instruction at a VA with its words, or what its fetch comes to: a trap or a miss with the address of the instruction (R186, R231). -/
inductive NextInstr
  | instr (i : Instr) (words : Nat) | trap (t : Trap) (spc : Nat) | miss (va spc : Nat) | fill (line : Nat) (page : Leaf) | wait
  deriving DecidableEq, Repr

def State.fetchAt (s : State) (key : Nat) (h : Held) (slot va : Nat) : NextInstr :=
  match s.fetchWord key h slot va with
  | .trap t => .trap t va
  | .miss v => .miss v va
  | .fill l nt => .fill l nt
  | .wait => .wait
  | .word w0 =>
    if wordCount w0 = 2 then
      match s.fetchWord key h slot (va + 4) with
      | .trap t => .trap t va
      | .miss v => .miss v va
      | .fill l nt => .fill l nt
      | .wait => .wait
      | .word w1 => .instr (instrOf w0 w1) 2
    else .instr (instrOf w0 0) 1

/-- A register field staggered in a replay (R232). -/
def stagReg (n : Nat) (r : Reg) : Reg := r + BitVec.ofNat 3 n
def stagH (rn hn : Nat) : HOp → HOp
  | .imm h => .imm (h + BitVec.ofNat 10 hn)
  | .reg x => .reg (stagReg rn x)

/-- An instruction of a replay with its x-register and handle fields staggered (R232, R233). -/
def stagger (r h : Nat) (i : Instr) : Instr :=
  let x := stagReg r
  let t := stagH r h
  match i with
  | .add g sh ck d a b => .add g sh ck (x d) (x a) (x b)
  | .sub g sh ck d a b => .sub g sh ck (x d) (x a) (x b)
  | .mul g sh ck d a b => .mul g sh ck (x d) (x a) (x b)
  | .mulh g sh d a b => .mulh g sh (x d) (x a) (x b)
  | .mulhu g sh d a b => .mulhu g sh (x d) (x a) (x b)
  | .div g sh d a b => .div g sh (x d) (x a) (x b)
  | .divu g sh d a b => .divu g sh (x d) (x a) (x b)
  | .rem g sh d a b => .rem g sh (x d) (x a) (x b)
  | .remu g sh d a b => .remu g sh (x d) (x a) (x b)
  | .and g sh d a b => .and g sh (x d) (x a) (x b)
  | .or g sh d a b => .or g sh (x d) (x a) (x b)
  | .xor g sh d a b => .xor g sh (x d) (x a) (x b)
  | .shl g sh d a b => .shl g sh (x d) (x a) (x b)
  | .shr g sh d a b => .shr g sh (x d) (x a) (x b)
  | .sar g sh d a b => .sar g sh (x d) (x a) (x b)
  | .rol g sh d a b => .rol g sh (x d) (x a) (x b)
  | .min g sh d a b => .min g sh (x d) (x a) (x b)
  | .max g sh d a b => .max g sh (x d) (x a) (x b)
  | .minu g sh d a b => .minu g sh (x d) (x a) (x b)
  | .maxu g sh d a b => .maxu g sh (x d) (x a) (x b)
  | .abs g sh d a => .abs g sh (x d) (x a)
  | .clz g sh d a => .clz g sh (x d) (x a)
  | .popc g sh d a => .popc g sh (x d) (x a)
  | .brev g sh d a => .brev g sh (x d) (x a)
  | .mov g sh d a => .mov g sh (x d) (x a)
  | .movXdGn g d n => .movXdGn g (x d) n
  | .movGnXa g n a => .movGnXa g n (x a)
  | .addi g sh d a m => .addi g sh (x d) (x a) m
  | .andi g sh d a m => .andi g sh (x d) (x a) m
  | .ori g sh d a m => .ori g sh (x d) (x a) m
  | .xori g sh d a m => .xori g sh (x d) (x a) m
  | .shli g sh d a m => .shli g sh (x d) (x a) m
  | .shri g sh d a m => .shri g sh (x d) (x a) m
  | .sari g sh d a m => .sari g sh (x d) (x a) m
  | .movi g d m => .movi g (x d) m
  | .movh g d m => .movh g (x d) m
  | .lget g sh d a k => .lget g sh (x d) (x a) k
  | .lset g sh d a k => .lset g sh (x d) (x a) k
  | .lshuf g sh d a b => .lshuf g sh (x d) (x a) (x b)
  | .lsplat g sh d a => .lsplat g sh (x d) (x a)
  | .bfx g sx d a p l => .bfx g sx (x d) (x a) p l
  | .bfi g d a p l => .bfi g (x d) (x a) p l
  | .sel g sh d a b n p => .sel g sh (x d) (x a) (x b) n p
  | .cmp g sh any cc pd a b => .cmp g sh any cc pd (x a) (x b)
  | .cmpi g cc pd a m => .cmpi g cc pd (x a) m
  | .fadd g f d a b => .fadd g f (x d) (x a) (x b)
  | .fsub g f d a b => .fsub g f (x d) (x a) (x b)
  | .fmul g f d a b => .fmul g f (x d) (x a) (x b)
  | .fmin g f d a b => .fmin g f (x d) (x a) (x b)
  | .fmax g f d a b => .fmax g f (x d) (x a) (x b)
  | .fabs g f d a => .fabs g f (x d) (x a)
  | .fneg g f d a => .fneg g f (x d) (x a)
  | .fdiv g f d a b => .fdiv g f (x d) (x a) (x b)
  | .fsqrt g f d a => .fsqrt g f (x d) (x a)
  | .frcp g f d a => .frcp g f (x d) (x a)
  | .frsq g f d a => .frsq g f (x d) (x a)
  | .fexp2 g f d a => .fexp2 g f (x d) (x a)
  | .flog2 g f d a => .flog2 g f (x d) (x a)
  | .fclass g f d a => .fclass g f (x d) (x a)
  | .fma g f d a b c => .fma g f (x d) (x a) (x b) (x c)
  | .fms g f d a b c => .fms g f (x d) (x a) (x b) (x c)
  | .fnma g f d a b c => .fnma g f (x d) (x a) (x b) (x c)
  | .fcmp g f cc any sig pd a b => .fcmp g f cc any sig pd (x a) (x b)
  | .fcvt g dst src d a => .fcvt g dst src (x d) (x a)
  | .fcvti g dst src d a => .fcvti g dst src (x d) (x a)
  | .icvtf g dst src d a => .icvtf g dst src (x d) (x a)
  | .frnd g f d a => .frnd g f (x d) (x a)
  | .talloc g hd a => .talloc g (t hd) (x a)
  | .tfree g hd => .tfree g (t hd)
  | .tdesc g d ha => .tdesc g (x d) (t ha)
  | .tstat g d ha => .tstat g (x d) (t ha)
  | .twait g ha => .twait g (t ha)
  | .tzero g hd => .tzero g (t hd)
  | .tld g n hd a b => .tld g n (t hd) (x a) (x b)
  | .tst g n hd a b => .tst g n (t hd) (x a) (x b)
  | .tmma g bas hd ha hb => .tmma g bas (t hd) (t ha) (t hb)
  | .tmmar g bas hd ha hb => .tmmar g bas (t hd) (t ha) (t hb)
  | .tadd g hd ha hb => .tadd g (t hd) (t ha) (t hb)
  | .tsub g hd ha hb => .tsub g (t hd) (t ha) (t hb)
  | .tmul g hd ha hb => .tmul g (t hd) (t ha) (t hb)
  | .tfma g hd ha hb => .tfma g (t hd) (t ha) (t hb)
  | .tmax g hd ha hb => .tmax g (t hd) (t ha) (t hb)
  | .tmin g hd ha hb => .tmin g (t hd) (t ha) (t hb)
  | .tabs g hd ha => .tabs g (t hd) (t ha)
  | .texp g hd ha => .texp g (t hd) (t ha)
  | .trcp g hd ha => .trcp g (t hd) (t ha)
  | .tscale g hd ha b => .tscale g (t hd) (t ha) (x b)
  | .tcvt g hd ha => .tcvt g (t hd) (t ha)
  | .ttrn g hd ha => .ttrn g (t hd) (t ha)
  | .tred g op col hd ha => .tred g op col (t hd) (t ha)
  | .tscan g hd ha hb => .tscan g (t hd) (t ha) (t hb)
  | .taff g hd ha hb => .taff g (t hd) (t ha) (t hb)
  | .tcomp g hd ha hb => .tcomp g (t hd) (t ha) (t hb)
  | i => i

/-- Whether a captured block may hold the instruction: majors 0x00 to 0x0F, 0x18 to 0x1B and 0x30 to 0x35, by the major of its first word (R196). -/
def replayable (i : Instr) : Bool :=
  match encode i with
  | some (w, _) => let m := fld w 19 6; m ≤ 0x0F || (0x18 ≤ m && m ≤ 0x1B) || (0x30 ≤ m && m ≤ 0x35)
  | none => false
/-- What a captured instruction may not be: a pattern with no meaning, or one of another major (R196, R231). An engine command whose second word fails a check of its own is found at that check, before its major (log 63). -/
def captureBad (i : Instr) : Option Trap :=
  match i with
  | .unassignedWordPattern w0 w1 d => some ⟨tcIllegal, d, w0.toNat + w1.toNat * 2 ^ 32⟩
  | i => if replayable i then none else some ⟨tcIllegal, 6, faultWords i⟩

/-- What the fetch of a block that REPF captures still lacks: the first word that misses, must be filled or must wait; nothing behind an instruction that traps (R19, R231). -/
def State.captureLack (s : State) (key : Nat) (h : Held) (slot : Nat) : Nat → Nat → Option NextInstr
  | 0, _ => none
  | n + 1, va =>
    match s.fetchAt key h slot va with
    | .instr i w => if (captureBad i).isSome then none else captureLack s key h slot n (va + 4 * w)
    | .trap _ _ => none
    | x => some x

/-- The next instruction of a context in a slot: from its replay, else from memory; a REPF whose guard holds is at hand with its block (R231). -/
def State.nextInstr (s : State) (key : Nat) (h : Held) (slot : Nat) : NextInstr :=
  match (h.replay.bind fun r => (r.block[r.idx]?).map fun x => (r, x)) with
  | some (r, i, n) => .instr (stagger (r.rep * r.rstep) (r.rep * r.hstep) i) n
  | none =>
    match s.fetchAt key h slot h.ctx.pc.toNat with
    | .instr (.repf g a b c len) w =>
      if guardHolds g h.ctx then (s.captureLack key h slot (len.toNat + 1) (h.ctx.pc.toNat + 4)).getD (.instr (.repf g a b c len) w) else .instr (.repf g a b c len) w
    | x => x

/-- What brings a line nearer to an instruction cache: its fill with a lease where the die has the line, else the die's request (R71, R72, R75). None where that is under way or has no room. A non-temporal page off the module is not cached in L2 (R31, R56), and a die in M role keeps no copy there, only the lease (R10, R396, log 64). -/
def State.icFill (s : State) (slot k line : Nat) (page : Leaf) : Option State :=
  let die := slot / 2048
  if s.l2Reads line die || s.bypasses page.nt line then some (s.grant (slot / 16) line k true)
  else if s.isM die then some ((s.leaseHome line die).grant (slot / 16) line k true)
  else if ((s.l2Line line die).getD l2None).asked || (s.makeRoom line die).isNone then none
  else some (s.askPage line die page)

end Sys2Proof.Machine
end

