-- ==== Sys2Proof/Machine/Command.lean ====
section
/-! DEFINITION. Engine commands at issue: the operands of each form, their limits and ranges, in the order of the checks (R42, R317, R318, R323, R325 to R327, R333). -/

namespace Sys2Proof.Machine

/-- A range that a command names: descriptor, offset, length, kinds of access it must permit, and the alignment of its offset or of its VA. -/
structure ERange where
  d     : DescN
  off   : Dword
  len   : Nat
  kind  : AK
  also  : List AK
  offAl : Nat
  vaAl  : Nat
  deriving DecidableEq, Repr

/-- Whether a descriptor number names the handler window (R371). -/
def Iss.win (e : Iss) (d : DescN) : Bool := d = 15 && e.h.ctx.window
/-- The VA of an offset (R42, R371). -/
def Iss.vaOf (e : Iss) (s : State) (d : DescN) (off : Dword) : Nat := if e.win d then off.toNat else ((e.desc s d.toNat).base + off).toNat

/-- The check of one range; one of length 0 needs a usable descriptor and the permissions only (R317). -/
def State.rangeBad (s : State) (e : Iss) (r : ERange) : Option Trap :=
  if r.len = 0 then
    if e.win r.d then none
    else if !(e.desc s r.d.toNat).usable then some ⟨tcDesc, r.d.toNat, r.off.toNat⟩
    else if (r.kind :: r.also).any fun k => !(e.desc s r.d.toNat).permits k then some ⟨tcPerm, r.d.toNat, r.off.toNat⟩ else none
  else
    match s.preCheck e r.d.toNat r.off r.len r.kind r.also with
    | .error t => some t
    | .ok va => if r.off.toNat % r.offAl != 0 || va % r.vaAl != 0 then some ⟨tcAlign, r.d.toNat, va⟩ else none

/-- What a command gives beside its registers: its tail, the operand register that breaks a limit, its ranges, the descriptor whose range it checks as it runs, destination and source VAs, and the last operands. -/
structure CmdForm where
  tail   : EngTail
  limit  : Option Reg
  ranges : List ERange
  desc   : DescN
  dst    : Nat
  src    : Nat
  b      : XReg
  b1     : XReg
  deriving DecidableEq, Repr

/-- Row bytes, rows, source and destination stride of CPYS (R323). -/
def cpysFields (b b1 : XReg) : Nat × Nat × Nat × Nat := (lane 32 b 0, lane 32 b 1, lane 32 b 2, lane 32 b1 0)
/-- Length of a range of CPYS for its check: (NR - 1) x stride + RB (R323). -/
def cpysLen (rb nr st : Nat) : Nat := if nr = 0 then 0 else (nr - 1) * st + rb
/-- The 32×32 tile whose images a block-format side of CONVB holds (R325). -/
def convTile (f : Fmt) : TileHandle := { handleFree with fmt := f, shp := true, blk := isBlockFmt f }
/-- Bytes of `n` elements on one side of CONVB: images where that side has a block format (R325). -/
def convLen (f : Fmt) (n : Nat) : Nat := if isBlockFmt f then n / 1024 * (convTile f).imageLen else n * fmtBits f / 8
/-- A value of xb that RLCX refuses (R333). -/
def rlcxBad (v : Nat) : Bool := decide (v ≥ 2 ^ 15) || [0, 2, 4].any (fun i => decide (v / 2 ^ i % 4 > 1))
/-- The tail of RLCX: its token and scope come from xb, it has no future (R333). -/
def rlcxTail (n : DescN) (v : Nat) : EngTail :=
  { ddesc := 0, sdesc := n, tok := BitVec.ofNat 3 (v / 2 ^ 9), scope := BitVec.ofNat 3 (v / 2 ^ 12), fe := false, freg := 0, fdesc := 0 }

/-- A range that is read, and one that is written. -/
def readRange (d : DescN) (off : Dword) (len : Nat) : ERange := ⟨d, off, len, .load, [], 1, 1⟩
def writeRange (d : DescN) (off : Dword) (len : Nat) : ERange := ⟨d, off, len, .store, [], 1, 1⟩

/-- The operands of an engine command as its attempt reads them (R316, R323, R325 to R327, R333); none for another instruction. -/
def State.cmdForm (s : State) (e : Iss) : Instr → Option CmdForm
  | .cpy _ d a b t =>
    let n := (e.zd b).toNat
    some { tail := t, limit := if n > 2 ^ 36 then some b else none, ranges := [writeRange t.ddesc (e.xd d) n, readRange t.sdesc (e.yd a) n],
           desc := t.sdesc, dst := e.vaOf s t.ddesc (e.xd d), src := e.vaOf s t.sdesc (e.yd a), b := e.z b, b1 := 0 }
  | .cpys _ d a b t =>
    let (rb, nr, ss, ds) := cpysFields (e.z b) (e.z (regAdd b 1))
    some { tail := t, limit := if rb > 2 ^ 24 || nr > 2 ^ 24 then some b else if nr > 1 && ds < rb then some (regAdd b 1) else none,
           ranges := [writeRange t.ddesc (e.xd d) (cpysLen rb nr ds), readRange t.sdesc (e.yd a) (cpysLen rb nr ss)],
           desc := t.sdesc, dst := e.vaOf s t.ddesc (e.xd d), src := e.vaOf s t.sdesc (e.yd a), b := e.z b, b1 := e.z (regAdd b 1) }
  | .gath _ d a b g le t =>
    let n := (e.zd b).toNat
    some { tail := t, limit := if n > 2 ^ 32 then some b else none,
           ranges := [writeRange t.ddesc (e.xd d) (n * 2 ^ le.toNat), readRange t.sdesc (e.yd a) (8 * n), readRange g 0 0],
           desc := g, dst := e.vaOf s t.ddesc (e.xd d), src := e.vaOf s t.sdesc (e.yd a), b := e.z b, b1 := 0 }
  | .redb _ _ fmt d a b t =>
    let n := (e.zd b).toNat
    let w := fmtBits fmt / 8
    some { tail := t, limit := if n > 2 ^ 32 then some b else none,
           ranges := [⟨t.ddesc, e.xd d, n * w, .load, [.store], w, 1⟩, ⟨t.sdesc, e.yd a, n * w, .load, [], w, 1⟩],
           desc := t.sdesc, dst := e.vaOf s t.ddesc (e.xd d), src := e.vaOf s t.sdesc (e.yd a), b := e.z b, b1 := 0 }
  | .convb _ dst src d a b t =>
    let n := (e.zd b).toNat
    let blk := isBlockFmt dst || isBlockFmt src
    let four := fmtBits dst = 4 || fmtBits src = 4
    some { tail := t, limit := if n > 2 ^ 32 || (blk && n % 1024 != 0) || (four && n % 2 != 0) then some b else none,
           ranges := [writeRange t.ddesc (e.xd d) (convLen dst n), readRange t.sdesc (e.yd a) (convLen src n)],
           desc := t.sdesc, dst := e.vaOf s t.ddesc (e.xd d), src := e.vaOf s t.sdesc (e.yd a), b := e.z b, b1 := 0 }
  | .rlcs _ a t =>
    some { tail := t, limit := none, ranges := [⟨t.sdesc, e.xd a, 256, .load, [.store], 1, 256⟩],
           desc := t.sdesc, dst := 0, src := e.vaOf s t.sdesc (e.xd a), b := 0, b1 := 0 }
  | .rlcx _ n a b =>
    let v := (e.yd b).toNat
    some { tail := rlcxTail n v, limit := if rlcxBad v then some b else none, ranges := [⟨n, e.xd a, 256, .load, [.store], 1, 256⟩],
           desc := n, dst := 0, src := e.vaOf s n (e.xd a), b := e.y b, b1 := 0 }
  | _ => none

/-- The shape of an engine command (R203). -/
def eshape (h : Hdr) (rs : List Reg) (t : EngTail) (rounds : Bool) : Shape := { hd := h, words := 2, reads := rs ++ (if t.fe then [t.freg] else []), writes := [], rounds, sup := false }
/-- The shape of each (R316, R317, R333); RLCX rounds as its run does (log 25). -/
def cmdShape : Instr → Option Shape
  | .cpy h d a b t => some (eshape h [d, a, b] t false)
  | .cpys h d a b t => some (eshape h [d, a, b, regAdd b 1] t false)
  | .gath h d a b _ _ t => some (eshape h [d, a, b] t false)
  | .redb h _ fmt d a b t => some (eshape h [d, a, b] t (fmtF fmt).isSome)
  | .convb h _ _ d a b t => some (eshape h [d, a, b] t true)
  | .rlcs h a t => some (eshape h [a] t true)
  | .rlcx h _ a b => some (shape h [a, b] [])
  | _ => none

/-- Checks 4 and 5 of R317: the trap of the first that fails. -/
def State.cmdBad (s : State) (e : Iss) (f : CmdForm) : Option Trap :=
  match f.limit with
  | some r => some ⟨tcEcmd, r.toNat, 0⟩
  | none => (f.ranges ++ if f.tail.fe then [(⟨f.tail.fdesc, e.zd f.tail.freg, 8, .atomic, [], 1, 1⟩ : ERange)] else []).findSome? (s.rangeBad e)

/-- The command as it enters its engine's queue (R318, step 4). -/
def State.cmdOf (s : State) (e : Iss) (f : CmdForm) : Cmd :=
  { num := s.nextId, ins := e.ins, key := e.key, id := s.idOf e.key, part := e.part, launch := e.h.ctx.launch, asid := e.asid, rm := e.h.ctx.rm, pos := e.pos, mode := e.h.ctx.mode,
    tail := f.tail, dst := f.dst, src := f.src, b := f.b, b1 := f.b1, desc := e.desc s f.desc.toNat, win := e.win f.desc,
    futVa := if f.tail.fe then e.vaOf s f.tail.fdesc (e.zd f.tail.freg) else 0 }

/-- The stack that serves a command's destination: that of its first byte; near memory of tower t by stack 2t; where no stack holds it, stack 2t of the issuer's tower (R325, log 36). -/
def State.bdeOf (s : State) (c : Cmd) : Nat :=
  let own := 2 * (c.pos.inst 5).getD 0
  match s.lookup (c.pos.inst 3) c.part c.asid c.dst with
  | .ok l => match s.region (l.pa c.dst) with | .hbm t => 2 * t + l.pa c.dst % 2 ^ 37 / 2 ^ 36 | .nm t => 2 * t | _ => own
  | .fault _ => own

/-- Where the releases of a command are judged from: the issuer's position at issue; one of CTX scope reaches the issuing context alone (R115). -/
def Cmd.relPos (c : Cmd) : Pos := if c.tail.scope = 0 then .own c.key else c.pos

def ceQueueMax : Nat := 32
def bdeQueueMax : Nat := 64
def rlcQueueMax : Nat := 4
/-- A cluster's RLC holds all the commands it can, the running one counted (R318). -/
def State.rlcFull (s : State) (clu : Nat) : Bool := match mapFind s.rlcs clu with | some r => decide (r.queue.length + (if r.run.isSome then 1 else 0) ≥ rlcQueueMax) | none => false

/-- Whether the queue that a command enters is full (R318, step 2). -/
def State.cmdFull (s : State) (c : Cmd) : Bool :=
  match c.ins with
  | .cpy .. => decide ((mapGet s.ces ((c.pos.inst 3).getD 0) []).length ≥ ceQueueMax)
  | .cpys .. => decide ((mapGet s.ces ((c.pos.inst 3).getD 0) []).length ≥ ceQueueMax)
  | .rlcs .. => s.rlcFull ((c.pos.inst 3).getD 0)
  | .rlcx .. => s.rlcFull ((c.pos.inst 3).getD 0)
  | _ => decide ((s.bde (s.bdeOf c)).queue.length ≥ bdeQueueMax)

end Sys2Proof.Machine
end

