-- ==== Sys2Proof/Machine/Accept.lean ====
section
/-! DEFINITION. When an issue unit passes over a context: the holds of R251, full queues and busy handles (R146, R251, R290, R296, R298, R318, R334). -/

namespace Sys2Proof.Machine

/-- The handle an operand names (R282). -/
def hopVal (x : Vector XReg 8) : HOp → Nat
  | .imm h => h.toNat
  | .reg r => getF (xget x r) 0 10

/-- Whether a scratch access numbered `k` still waits: an operation that entered before it, or one that runs, names a handle it touches (R47, R48, R134). -/
def State.scratchWaits (s : State) (quad off n k : Nat) : Bool :=
  let hs := match decWindow off with | some (h, _, _) => [h] | none => s.handlesAt quad off n
  let t := s.te quad
  (t.subq.toList.flatten.any fun o => decide (o.seq < k) && hs.any o.names.contains) || (t.run.any fun r => hs.any r.op.names.contains)

/-- Whether an outstanding result acts as an acquire: of an acquire load or read-modify-write, FUTW, TSTAT, or a window access that met a BUSY handle, until its value has returned (R120, R134, R251). -/
def OpKind.isAcq : OpKind → Bool
  | .load a _ _ acq _ => acq.isSome || a.busy
  | .rmw _ _ _ _ acq _ _ => acq.isSome
  | .fut _ => true
  | .tile _ _ st => st
  | _ => false

/-- An acquire of a context is outstanding: a result, or a store to scratch that waits on BUSY (R134). -/
def State.acqOut (s : State) (key : Nat) : Bool := (s.ops.any fun o => o.2.key = key && o.2.kind.isAcq) || s.stores.any fun o => o.2.key = key && o.2.busy
/-- A load, or a read-modify-write (R120). -/
def OpKind.isLoad : OpKind → Bool
  | .load .. => true | .rmw .. => true | _ => false
/-- A read-modify-write. -/
def OpKind.isRmw : OpKind → Bool
  | .rmw .. => true | _ => false
def State.loadsOut (s : State) (key : Nat) : Bool := s.ops.any fun o => o.2.key = key && o.2.kind.isLoad
/-- Accesses of a context not yet performed (R120). -/
def State.accessesOut (s : State) (key : Nat) : Bool := (s.stores.any fun o => o.2.key = key) || s.loadsOut key
def fenceNone : FenceSt := { loads := [], since := 0, rel := none, after := 0, acq := none, full := 0 }
def State.fenceOf (s : State) (key : Nat) : FenceSt := mapGet s.fences key fenceNone
/-- Accesses of a context numbered before a number that are not yet performed. -/
def State.accessBefore (s : State) (key seq : Nat) : Bool :=
  (s.stores.any fun p => p.2.key = key && decide (p.1 < seq)) || s.ops.any fun p => p.2.key = key && decide (p.1 < seq) && p.2.kind.isLoad
/-- Writes of a context numbered before a number that are not yet performed. -/
def State.writeBefore (s : State) (key seq : Nat) : Bool :=
  (s.stores.any fun p => p.2.key = key && decide (p.1 < seq)) || s.ops.any fun p => p.2.key = key && decide (p.1 < seq) && p.2.kind.isRmw
/-- Instructions that write memory as the context's own accesses (R117). -/
def writesMem : Instr → Bool
  | .st .. => true | .stp .. => true | .stl .. => true | .stnt .. => true | .atom .. => true | .cas .. => true | .atomfAdd .. => true
  | _ => false
/-- Whether an earlier FENCE still orders the next access: loads that an acquire fence covers, writes before a full one, and for a write every access before a release fence (R126, R251). -/
def State.fenceHolds (s : State) (key : Nat) (i : Instr) : Bool :=
  let f := s.fenceOf key
  f.acq.isSome || s.writeBefore key f.full || (writesMem i && s.accessBefore key f.after)
/-- A message status, or a store to a primary line, still owed (R251). -/
def State.heldOut (s : State) (key : Nat) : Bool :=
  (s.sends.any fun o => o.2.key = key) || (s.stores.any fun o => o.2.key = key && o.2.toCtx.isSome)

/-- Tile instructions that enter their IU's subqueue (R289, R290). -/
def entersSubq : Instr → Bool
  | .tzero .. => true | .tld .. => true | .tst .. => true | .tmma .. => true | .tmmar .. => true | .tadd .. => true
  | .tsub .. => true | .tmul .. => true | .tfma .. => true | .tmax .. => true | .tmin .. => true | .tabs .. => true
  | .texp .. => true | .trcp .. => true | .tscale .. => true | .tcvt .. => true | .ttrn .. => true | .tred .. => true
  | .tscan .. => true | .taff .. => true | .tcomp .. => true
  | _ => false

/-- Instructions that touch memory, or tile scratch (R120, R134, R251). -/
def touchesMem : Instr → Bool
  | .ld .. => true | .ldp .. => true | .st .. => true | .stp .. => true | .lda .. => true | .stl .. => true
  | .ldnt .. => true | .stnt .. => true | .atom .. => true | .cas .. => true | .atomfAdd .. => true | .pref .. => true
  | .send .. => true | .spawn .. => true | .spawnj .. => true | .futw .. => true | .futr .. => true | .futf .. => true
  | .bar .. => true | .bara .. => true | .barw .. => true | .migr .. => true | .fence .. => true
  | .tstat .. => true | .cpy .. => true | .cpys .. => true | .gath .. => true | .redb .. => true
  | .convb .. => true | .rlcs .. => true | .rlcq .. => true | .rlcx .. => true
  | .cflush .. => true | .pinl .. => true | .unpinl .. => true
  | i => entersSubq i

/-- Instructions whose release waits come before their issue (R120, R251). -/
def waitsRelease : Instr → Bool
  | .send .. => true | .spawn .. => true | .spawnj .. => true | .futr .. => true | .futf .. => true | .bar .. => true
  | .bara .. => true | .migr .. => true
  | _ => false

def subqMax : Nat := 8

/-- The guard of an instruction, by its header. -/
def guardOf (i : Instr) (c : Ctx) : Bool := match instrHdr i with | some h => guardHolds h c | none => true

/-- An engine command whose checks pass and whose token is free is passed over while its queue is full or its release waits are not met; one that would trap or wait for its token makes its attempt (R146, R318). -/
def State.cmdHeld (s : State) (key : Nat) (i : Instr) : Bool :=
  match cmdShape i with
  | none => false
  | some sh =>
    match ({ s with cur := key } : State).attempt i sh with
    | .ended _ => false
    | .issue e s =>
      match s.cmdForm e i with
      | none => false
      | some f => (s.cmdBad e f).isNone && !e.h.ctx.tok f.tail.tok.toNat && (s.cmdFull (s.cmdOf e f) || s.accessesOut key)

/-- Whether a role change holds the home of a context's team record, whose descriptors its memory instructions read (R19, R39). -/
def State.recordHeld (s : State) (key slot : Nat) (h : Held) : Bool :=
  let k := s.partOf key
  (s.teamPa (some (slot / 128)) k (s.asidOf k h.ctx.launch) h.ctx.link).any s.homeHeld

/-- Whether the context in a slot is passed over for its next instruction (R19, R146, R251). -/
def State.blocked (s : State) (key slot : Nat) (h : Held) (i : Instr) : Bool :=
  let quad := slot / 64
  s.heldOut key ||
  (guardOf i h.ctx &&
  ((touchesMem i && (s.acqOut key || s.fenceHolds key i || s.recordHeld key slot h)) ||
   (waitsRelease i && s.accessesOut key) ||
   (entersSubq i && decide (((s.te quad).subq.toList.getD (slot / 16 % 4) []).length ≥ subqMax)) ||
   s.cmdHeld key i ||
   (match i with
    | .twait _ ha => s.handleState quad (hopVal h.ctx.x ha) = hsBusy
    | .tfree _ hd => s.handleState quad (hopVal h.ctx.x hd) = hsBusy
    | _ => false)))

end Sys2Proof.Machine
end

