-- ==== Sys2Proof/Machine/Issue.lean ====
section
/-! DEFINITION. Issue units, and the placing of a program for one instruction (R145, R146, R352, log 3). -/

namespace Sys2Proof.Machine

def iuReset : Iu :=
  { last := 15, free := 0, deque := [], spilled := 0, aside := [], asideN := 0, pops := 0, asked := [], answer := none, askAt := 0, heldSlots := [], askSlot := none }
def State.iu (s : State) (n : Nat) : Iu := mapGet s.ius n iuReset
def State.modIu (s : State) (n : Nat) (f : Iu → Iu) : State := { s with ius := mapUpd s.ius n iuReset f }

/-- The earliest cycle in which a context in a slot may issue (R145, R146). -/
def State.issueCycle (s : State) (h : Held) (n : Nat) : Nat := max (max h.next (s.iu (n / 16)).free) (s.cyc (n / 2048))
/-- Whether a context in a slot is about to issue an END in this cycle, which comes before its eviction (R237, R374). -/
def State.endDue (s : State) (key : Nat) (h : Held) (n : Nat) : Bool :=
  h.ctx.state = stReady && h.replay.isNone && decide (s.issueCycle h n ≤ s.cyc (n / 2048)) &&
  (match s.nextInstr key h n with | .instr (.endCtx g) _ => guardHolds g h.ctx && h.ctx.pendAll = 0 | _ => false)

/-! ### A program for one instruction (log 3) -/

/-- The partition that `withFetchWord` stands on: every tower, the default role map, all control registers at their reset (R16, R155, R335). -/
def partReset : Part :=
  { towers := [0, 1, 2, 3, 4, 5], roles := [(0, .mccc), (1, .mccc), (2, .mccc), (3, .mccc), (4, .mccc), (5, .mccc)], flcGib := 4,
    windows := [], routes := List.replicate 16 none, slots := [], cl1lim := 16, rsvslot := 0, lease := 512, chkstall := 0,
    scopemissen := 0, ctxpool := 0, trapvec := 0, freqReq := 36, wdog := 0, wdogAt := 0, created := 0, launches := [], poolWait := [], returns := [],
    roleChange := none, freeze := none }

/-- Address of the placed context's line, and of its code. -/
def placedLine : Nat := 0x10_0000
def placedCode : Nat := 0x20_0000
/-- VA of the placed code: the first byte of a 2 MiB page of the supervisor half. -/
def placedVa : Nat := 0xFF00_0000_0020_0000
/-- Slot 0 of IU 0 of die 1. -/
def placedSlot : Nat := 2048

/-- A READY SUP context in its handler window, so that it may fetch at any mapped VA (R371). -/
def placedCtx : Ctx :=
  { pc := BitVec.ofNat 64 placedVa, pred := predReset, wait := 0, stat := 0x201, owner := 0, link := 0, x := Vector.replicate 8 0 }

/-- The machine with one context ready to issue the bytes `bs` as its next instruction, which its IU's instruction cache holds. -/
def State.withCode (s : State) (bs : List Byte) : State :=
  { s with
    agenda := [], soon := [], late := [], traps := [], cur := placedLine, walks := [], ops := [], stores := [], sends := [],
    parts := [(0, partReset)],
    held := [(placedLine, Held.fresh (.slot placedSlot) 0xFF00_0000_0000_0000 placedCtx 0 0)],
    live := [(placedLine, { id := 0xFF00_0000_0000_0000, part := 0, launch := 0, region := none, migr := none, readyAt := 0, needs := 0, first := none })],
    tcache := [⟨16, 0, 0, placedVa, ⟨BitVec.ofNat 64 (placedCode + 0x1F), 2 ^ 21⟩⟩],
    l1 := [⟨placedSlot / 16, lineOf placedCode, true, s.now + 512 * Config.ticksPerNs, s.now⟩], poison := [], claims := [], dies := [], fences := [],
    mem := memWriteList s.mem placedCode bs }

end Sys2Proof.Machine
end

