-- ==== Sys2Proof/Machine/MemAccess.lean ====
section
/-! DEFINITION. Loads, stores, atomics, fences, prefetch, messages: what they do when they issue (R112, R126, R250 to R266). -/

namespace Sys2Proof.Machine

/-! ### Shared operations -/

/-- A migrating access parks its context and does not issue (R112, step 1). -/
def State.startMigration (s : State) (e : Iss) (tower : Nat) : State :=
  ({ s with held := mapPut s.held e.key e.h,
            live := match mapFind s.live e.key with | some l => mapPut s.live e.key { l with migr := some tower } | none => s.live }.setCtx e.key (e.h.ctx.setState stParked whyMigr)).emit (.migration e.key)

/-- What the checks of an access lead to (R42, R62, R112, R250). -/
def State.withAccess (s : State) (e : Iss) (r : AccRes) (f : Access → ScopeCode → State) : State :=
  match r with
  | .ok a sc _ => f a sc
  | .trap t => s.trapAt e t.code t.detail t.faddr
  | .miss va fva => (s.waitRegs e 0).missAt e.key e.clu e.part e.asid va fva false e.h.ctx.pc
  | .migrate t => s.startMigration e t


/-- A scope code of an encoding, 0 selecting the descriptor's (R116, R198). -/
def scopeOr (code desc : ScopeCode) : ScopeCode := if code = 0 then desc else code

/-- A load that has passed its checks (R253). -/
def State.load (s : State) (e : Iss) (S : BitVec 3) (n : DescN) (off : Dword) (sz : MSize) (d : Reg) (kind : AK) (acq : ScopeCode → Option ScopeCode) (nt : Bool) (post : Held → Held) : State :=
  s.withAccess e (s.access e n.toNat off (sizeBytes sz) kind) fun a sc =>
    s.startFrom e S d (.load { a with nt } sz e.h.ctx.lm (acq sc) []) (post e.h)

/-- Whether an address lies in a primary line, where its page is a context page (R34). -/
def inPrimary (pa : Nat) : Bool := pa % 256 < 128

/-- Posts one store of addressed bytes (R74, R253). -/
def State.postOne (s : State) (e : Iss) (a : Access) (rel : Option ScopeCode) (undo : Option (Reg × Dword)) (bs : List (Nat × Byte)) : State :=
  let f := s.fenceOf e.key
  let toCtx := ((bs.filter fun c => (a.pageAt c.1).ctx && inPrimary c.1).map (fun c => c.1 / 128 * 128)).head?
  let p : PStore :=
    { key := e.key, part := a.part, launch := e.h.ctx.launch, pos := e.pos, asid := a.asid, desc := a.desc, va := a.va, bytes := bs,
      rel := match rel with | some sc => some sc | none => f.rel, after := if rel.isSome then s.nextId else f.after,
      nt := (bs.head?).any (fun c => a.ntAt c.1), toCtx, pc := e.h.ctx.pc, undo := if toCtx.isSome then undo else none, busy := a.busy }
  let ev := if toCtx.isSome then Instr.contextLineStore s.nextId else Instr.storePerform s.nextId
  ({ s with stores := mapPut s.stores s.nextId p }.emit ev).bump

/-- Posts a store: one for each line (R43, R74, R118). -/
def State.post (s : State) (e : Iss) (a : Access) (rel : Option ScopeCode) (undo : Option (Reg × Dword)) (bs : List (Nat × Byte)) : State :=
  let ls := linesOf bs
  let s := { s with l1 := s.l1.filter fun c => !(c.iu = e.iu && !c.fetch && ls.contains c.line) }
  ls.foldl (fun s l => s.postOne e a rel undo (bs.filter fun c => lineOf c.1 = l)) s

/-- A store that has passed its checks (R253). -/
def State.store (s : State) (e : Iss) (S : BitVec 3) (n : DescN) (off : Dword) (sz : MSize) (v : XReg) (kind : AK) (rel : ScopeCode → Option ScopeCode) (nt : Bool)
    (undo : Option (Reg × Dword)) (post : Held → Held) : State :=
  s.withAccess e (s.access e n.toNat off (sizeBytes sz) kind) fun a sc =>
    (s.finish e S (post e.h)).post e { a with nt } (rel sc) undo (storeBytes a.segs v (storeMask sz e.h.ctx.lm))

/-- The post-advance of LDP and STP (R254). -/
def postAdvance (e : Iss) (a : Reg) (imm : BitVec 6) (h : Held) : Held :=
  h.write e.t 8 a (xSetD (xget e.h.ctx.x a) (memOff (e.xd a) 6 imm.toNat))

/-- A read-modify-write that has passed its checks (R258 to R262). -/
def State.rmw (s : State) (e : Iss) (S : BitVec 3) (n : DescN) (off : Dword) (w : Nat) (d : Reg) (o : Rmw) (b : Dword) (ar : ScopeCode → Option ScopeCode) : State :=
  s.withAccess e (s.access e n.toNat off w .atomic) fun a sc =>
    let f := s.fenceOf e.key
    s.start e S d (.rmw a o w b (ar sc) (match ar sc with | some x => some x | none => f.rel) (if (ar sc).isSome then s.nextId else f.after))

/-! ### Loads and stores (R252 to R256) -/

/-- LD (R252, R253). -/
def execLd (h : Hdr) (sz : MSize) (n : DescN) (d a : Reg) (imm : BitVec 6) (s : State) : Host.Outcome State Fault Refusal :=
  s.run (.ld h sz n d a imm) (shape h [a] [d]) fun e s => s.load e h.s n (memOff (e.xd a) 6 imm.toNat) sz d .load (fun _ => none) false id
/-- LDP: addressed by xa, which then advances (R254). -/
def execLdp (h : Hdr) (sz : MSize) (n : DescN) (d a : Reg) (imm : BitVec 6) (s : State) : Host.Outcome State Fault Refusal :=
  s.run (.ldp h sz n d a imm) (shape h [a] [d, a]) fun e s => s.load e h.s n (e.xd a) sz d .load (fun _ => none) false (postAdvance e a imm)
/-- ST (R252, R253). -/
def execSt (h : Hdr) (sz : MSize) (n : DescN) (x a : Reg) (imm : BitVec 6) (s : State) : Host.Outcome State Fault Refusal :=
  s.run (.st h sz n x a imm) (shape h [a, x] []) fun e s => s.store e h.s n (memOff (e.xd a) 6 imm.toNat) sz (e.y x) .store (fun _ => none) false none id
/-- STP: addressed by xa, which then advances; the data is what xs held at issue (R254). -/
def execStp (h : Hdr) (sz : MSize) (n : DescN) (x a : Reg) (imm : BitVec 6) (s : State) : Host.Outcome State Fault Refusal :=
  s.run (.stp h sz n x a imm) (shape h [a, x] [a]) fun e s =>
    s.store e h.s n (e.xd a) sz (e.y x) .store (fun _ => none) false (some (a, xD (xget e.h.ctx.x a))) (postAdvance e a imm)
/-- LDNT (R77, R255). -/
def execLdnt (h : Hdr) (sz : MSize) (n : DescN) (d a : Reg) (imm : BitVec 6) (s : State) : Host.Outcome State Fault Refusal :=
  s.run (.ldnt h sz n d a imm) (shape h [a] [d]) fun e s => s.load e h.s n (memOff (e.xd a) 6 imm.toNat) sz d .load (fun _ => none) true id
/-- STNT (R77, R255). -/
def execStnt (h : Hdr) (sz : MSize) (n : DescN) (x a : Reg) (imm : BitVec 6) (s : State) : Host.Outcome State Fault Refusal :=
  s.run (.stnt h sz n x a imm) (shape h [a, x] []) fun e s => s.store e h.s n (memOff (e.xd a) 6 imm.toNat) sz (e.y x) .store (fun _ => none) true none id
/-- LDA: an acquire load (R256). -/
def execLda (h : Hdr) (sz : MSize) (n : DescN) (sc : ScopeCode) (d a : Reg) (imm : BitVec 3) (s : State) : Host.Outcome State Fault Refusal :=
  s.run (.lda h sz n sc d a imm) (shape h [a] [d]) fun e s =>
    s.load e h.s n (e.xd a + BitVec.ofNat 64 (4 * imm.toNat)) sz d .acq (fun ds => some (scopeOr sc ds)) false id
/-- STL: a release store (R256). -/
def execStl (h : Hdr) (sz : MSize) (n : DescN) (sc : ScopeCode) (x a : Reg) (imm : BitVec 3) (s : State) : Host.Outcome State Fault Refusal :=
  s.run (.stl h sz n sc x a imm) (shape h [a, x] []) fun e s =>
    s.store e h.s n (e.xd a + BitVec.ofNat 64 (4 * imm.toNat)) sz (e.y x) .rel (fun ds => some (scopeOr sc ds)) false none id

/-! ### Atomics (R258 to R262) -/

/-- Bytes of an atomic. -/
def dwBytes (dw : Bool) : Nat := if dw then 8 else 4

/-- ATOM.op, at the descriptor's scope (R199, R259). -/
def execAtom (h : Hdr) (op : AtomOp) (dw ar : Bool) (n : DescN) (d a b : Reg) (s : State) : Host.Outcome State Fault Refusal :=
  s.run (.atom h op dw ar n d a b) (shape h [a, b] [d]) fun e s =>
    s.rmw e h.s n (e.xd a) (dwBytes dw) d (.op op) (e.yd b) fun ds => if ar then some ds else none
/-- CAS: compares with xd as read at issue (R260). -/
def execCas (h : Hdr) (dw ar : Bool) (sc : ScopeCode) (n : DescN) (d a b : Reg) (s : State) : Host.Outcome State Fault Refusal :=
  s.run (.cas h dw ar sc n d a b) (shape h [a, b, d] [d]) fun e s =>
    s.rmw e h.s n (e.xd a) (dwBytes dw) d (.cas (e.zd d)) (e.yd b) fun ds => if ar then some (scopeOr sc ds) else none
/-- ATOMF.ADD: a floating-point sum rounded in the mode captured at issue (R261). -/
def execAtomfAdd (h : Hdr) (dw ar : Bool) (sc : ScopeCode) (n : DescN) (d a b : Reg) (s : State) : Host.Outcome State Fault Refusal :=
  s.run (.atomfAdd h dw ar sc n d a b) { shape h [a, b] [d] with rounds := true } fun e s =>
    s.rmw e h.s n (e.xd a) (dwBytes dw) d (.fadd dw e.h.ctx.rm) (e.yd b) fun ds => if ar then some (scopeOr sc ds) else none

/-! ### Fences and prefetch (R125, R126, R128, R257) -/

/-- A failed check of R124: SMISS, and with SCOPEMISSEN a trap at the boundary (R125). -/
def State.scopeMiss (s : State) (key : Nat) (st : Stamp) (sc : ScopeCode) (va : Nat) : State :=
  let s' := s.setCtx key (s.ctxAt key).orSmiss
  if (s.part (s.partOf key)).any (fun p => p.scopemissen.getLsbD 0) then s'.boundaryTrapLater key ⟨tcScopemiss, st.scope.toNat + 8 * sc.toNat, va⟩ else s'

/-- An acquire at SYS scope drops the issuing die's copies of peer lines (R128). -/
def State.dropPeer (s : State) (die : Nat) (sc : ScopeCode) : State :=
  if sc = 7 then
    (s.l2.filter fun e => e.1 % 32 = die && (match s.region (e.1 / 32 * 128) with | .peer _ => true | _ => false)).foldl (fun s e => s.dropCopy (e.1 / 32) die) s
  else s

/-- An acquire fence is over once every load it covers has returned: the stamps they read are checked in order, and peer copies are dropped (R126, R128). -/
def State.fenceDone (s : State) (key : Nat) : State :=
  let f := s.fenceOf key
  match f.acq with
  | none => s
  | some (lo, hi, sc, pos) =>
    if s.ops.any fun o => o.2.key = key && o.2.kind.isLoad && decide (lo ≤ o.1 ∧ o.1 < hi) then s
    else
      let mine := f.loads.filter fun l => decide (l.1 / 2 < hi)
      let s := ({ s with fences := mapPut s.fences key { f with acq := none, loads := f.loads.filter fun l => !decide (l.1 / 2 < hi) } } : State).dropPeer ((pos.inst 4).getD 0) sc
      match mine.find? fun l => !stampOk l.2.1 sc key pos with
      | some (_, st, va) => s.scopeMiss key st sc va
      | none => s

/-- FENCE issues at once: a release fence orders what is stored later, an acquire fence covers the loads since the last fence and holds later accesses until they have returned, a full one holds them until earlier stores are performed (R126, R251, R257). -/
def execFence (h : Hdr) (kind : FenceKind) (sc : ScopeCode) (s : State) : Host.Outcome State Fault Refusal :=
  s.run (.fence h kind sc) (shape h [] []) fun e s =>
    let f := s.fenceOf e.key
    let n := s.nextId
    let rel := kind != .acq
    let f' : FenceSt := { loads := if kind = .rel then [] else f.loads, since := n, rel := if rel then some sc else none, after := if rel then n else f.after,
                          acq := if kind = .rel then none else some (f.since, n, sc, e.pos), full := if kind = .full then n else f.full }
    (({ s with fences := mapPut s.fences e.key f' } : State).bump.finish e h.s e.h).fenceDone e.key

/-- Memory whose lines a prefetch fetches: a prefetch of any other is dropped (R257). -/
def State.prefetchable (s : State) (pa : Nat) : Bool := match s.region pa with | .hbm _ => true | .nm _ => true | _ => false
/-- A prefetch whose address passed its checks: the line is fetched in the background (R257). -/
def State.prefetch (s : State) (e : Iss) (a : Access) (l2 : Bool) : State :=
  match a.segs with
  | [] => s
  | (pa, _) :: _ =>
    if a.ctxp || !s.prefetchable pa then s
    else
      ({ s with ops := mapPut s.ops s.nextId { key := e.key, launch := e.h.ctx.launch, pos := e.pos, reg := 0, kind := .pref a (!l2 && !a.ntAt pa) } }.emit (.result s.nextId)).bump

/-- The check of a prefetch once its walk has ended: its page, its region; one that fails is dropped, one of urgent work to frozen memory too, for it has issued (R40, R62, R257, log 65). -/
def State.prefWalked (s : State) (k : Nat) (o : Op) (part asid desc va mode : Nat) (l2 : Bool) : State :=
  let n := match o.pos with | .iu n => n | _ => 0
  let drop : State := { s with ops := mapErase s.ops k }
  match s.tcHit (n / 8) part asid va with
  | none => drop
  | some l =>
    if l.ctx || !s.prefetchable (l.pa va) || (s.pieceBad (dieOfIu n) part desc (some o.launch) mode .load l (l.pa va) 1).isSome then drop
    else
      let a : Access := { part, asid, desc, va, segs := [(l.pa va, 1)], pages := [l], nt := false, busy := false }
      ({ s with ops := mapPut s.ops k { o with kind := .pref a (!l2 && !l.nt) } } : State).emit (.result k)

/-- A prefetch that fails a check is dropped; one of urgent work that nothing else drops raises FROZEN (R257, R380). -/
def State.prefRefused (s : State) (e : Iss) (t : Trap) (drop : State) : State :=
  match s.tcHit e.clu e.part e.asid t.faddr with
  | some l => if t.code = tcFrozen && !l.ctx && s.prefetchable (l.pa t.faddr) then s.trapAt e t.code t.detail t.faddr else drop
  | none => drop

/-- PREF: dropped with no trap where a check fails or its walk faults; one that misses issues at once and waits for a walk behind the context's back (R40, R62, R257); FROZEN is raised (R380). A prefetch of a MIG page does not migrate its context (log 61). -/
def execPref (h : Hdr) (l2 : Bool) (n : DescN) (a : Reg) (imm : BitVec 6) (s : State) : Host.Outcome State Fault Refusal :=
  s.run (.pref h l2 n a imm) (shape h [a] []) fun e s =>
    let off := memOff (e.xd a) 6 imm.toNat
    let s' := s.finish e h.s e.h
    match s.access e n.toNat off 1 .load false with
    | .ok acc _ _ => s'.prefetch e acc l2
    | .miss va _ =>
      let o : Op := { key := e.key, launch := e.h.ctx.launch, pos := e.pos, reg := 0, kind := .prefVa e.part e.asid n.toNat va e.h.ctx.mode l2 }
      (({ s' with ops := mapPut s'.ops s'.nextId o } : State).bump).joinWalk e.part e.asid ⟨e.key, e.clu, va, va, false, false, e.h.ctx.pc, e.h.ctx.pc, some s'.nextId⟩
    | .trap t => s.prefRefused e t s'
    | _ => s'

/-- A translation that hardware needs for an instruction before it issues: the page, a walk's wait, or nothing (R62). -/
def State.withLeaf (s : State) (e : Iss) (va : Nat) (ctxid : Bool) (f : State → Leaf → State) : State :=
  match s.tcHit e.clu e.part e.asid va with
  | some l => f s l
  | none => (s.waitRegs e 0).missAt e.key e.clu e.part e.asid va va false e.h.ctx.pc ctxid

/-- The line that a context identifier in a register names; one that no valid identifier names is CTXID with it, a miss waits (R34, R62). -/
def State.withCtx (s : State) (e : Iss) (id : Nat) (f : State → Nat → State) : State :=
  let bad : State := s.trapAt e tcCtxid 0 id
  if !canonical id || id % 256 != 0 then bad
  else s.withLeaf e id true fun s l => if l.ctx then f s (l.pa id) else bad

/-! ### Messages (R263 to R266) -/

/-- SEND: its target checked, the message on its way (R263). -/
def execSend (h : Hdr) (sc : ScopeCode) (pd pe : Pred) (a j b : Reg) (s : State) : Host.Outcome State Fault Refusal :=
  s.run (.send h sc pd pe a j b) (shape h [a, b] []) fun e s =>
    s.withCtx e (e.xd a).toNat fun s target =>
      let s := s.finish e h.s e.h
      ({ s with sends := mapPut s.sends s.nextId { key := e.key, part := e.part, asid := e.asid, va := (e.xd a).toNat, pos := e.pos, scope := sc, pd, pe, target, j, data := e.y b, status := none } }.emit (.message s.nextId)).bump

/-- RECV: the lowest full register of the mask, an acquire of its message; else the context parks (R265). -/
def execRecv (h : Hdr) (sc : ScopeCode) (d : Reg) (mask : BitVec 8) (s : State) : Host.Outcome State Fault Refusal :=
  s.run (.recv h sc d mask) (shape h [] [d]) fun e s =>
    match (List.range 8).find? fun i => mask.getLsbD i && e.h.ctx.full i with
    | none => s.waitAt e stParked whyRecv
    | some i =>
      let tag := mapGet s.tags (e.key * 8 + i) stampNone
      let h' := ({ e.h with ctx := e.h.ctx.setFull i false } : Held).write e.t 8 d (xSetD (xget e.h.ctx.x d) (BitVec.ofNat 64 i))
      let s := ({ s with tags := mapErase s.tags (e.key * 8 + i) }.finish e h.s h').dropPeer e.die sc
      if stampOk tag sc e.key e.pos then s else s.scopeMiss e.key tag sc 0

end Sys2Proof.Machine
end

