-- ==== Sys2Proof/Machine/Coherence.lean ====
section
/-! DEFINITION. Coherence: what a die asks of a home, how the home and the dies act on each message, leases granted, host accesses to device memory (R71 to R90). -/

namespace Sys2Proof.Machine

/-! ### The home (R79 to R85) -/

/-- A non-temporal write merged at the home, or answered where the home is offline (R77, R81, R92, R93). -/
def State.mergeNt (s : State) (k : Nat) : State :=
  match mapFind s.stores k with
  | none => s
  | some p =>
    if p.bytes.any fun c => s.offline c.1 then s.emit (.storeAnswer k)
    else { s.perform p.bytes (some (.ctx p.key, p.pos)) p.rel with stores := mapErase s.stores k }

/-- Data of a line still on its way to dies that an invalidation reaches: they ask for it again (R87). -/
def State.reask (s : State) (line : Nat) (ds : List Nat) : State :=
  { s with agenda := s.agenda.map fun i => match i with | .datas l d => if l = line && ds.contains d then .gets l d else i | i => i }
/-- No far-line cache keeps a line that a die comes to own, or that a write at the home changes: the entry goes with the copies of dies it served unknown to the home, whose data still on its way they ask for again (R87). -/
def State.flcOwned (s : State) (line die : Nat) : State :=
  let ds := (s.flc.filter fun e => e.2.line = line).flatMap fun e => (sharerList e.2.vec).filter (· != die)
  let s := s.at (ds.foldl (fun m d => max m ((s.l2Line line d).getD l2None).lexp) s.now)
  ((ds.foldl (fun s d => s.dropCopy line d) s).reask line ds).dropFlc line

/-- The grant that ends a transaction (R81, R87). -/
def State.homeGrant (s : State) (line : Nat) (r : Req) : State :=
  let e := { s.dirE line with await := 0, snoop := false, serving := none }
  match r with
  | .gets d =>
    let old := if (s.dirE line).owned then (if (s.l2Line line e.owner).any (·.present) then dieBit e.owner else 0) else e.sharers
    (s.setDir line { e with st := .shd, sharers := old ||| dieBit d, owner := 0 }).emit (.datas line d)
  | .geto d => ((s.flcOwned line d).setDir line { e with st := .own, owner := d, sharers := 0 }).emit (.datao line d)
  | .upg d => ((s.flcOwned line d).setDir line { e with st := .own, owner := d, sharers := 0 }).emit (.datao line d)
  | .wrnt k => ((s.flcOwned line 24).setDir line { e with st := .unc, owner := 0, sharers := 0 }).mergeNt k

/-- The die whose request it is; a non-temporal write keeps no copy. -/
def Req.die? : Req → Option Nat
  | .gets d => some d | .geto d => some d | .upg d => some d | .wrnt _ => none

/-- The message that carries a request. -/
def Req.msg (line : Nat) : Req → Instr
  | .gets d => .gets line d | .geto d => .geto line d | .upg d => .upg line d | .wrnt k => .wrnt k

/-- The home frees an entry for a line it cannot list: Inv to the sharers or RclI to the owner; the request comes again meanwhile (R84, R387). -/
def State.homeFree (s : State) (line : Nat) (r : Req) : State :=
  let s := s.emit (r.msg line)
  if (s.dirOf line).any fun a => (s.dirLines a).any fun e => e.2.st = .wait && e.2.serving.isNone then s
  else
    match s.dirVictim line with
    | none => s
    | some (v, e) =>
      if e.st = .own then (s.setDir v { e with st := .wait, await := 1 }).emit (.rcli v e.owner)
      else if e.sharers = 0 then s.setDir v { e with st := .unc }
      else (s.setDir v { e with st := .wait, await := (sharerList e.sharers).length }).emits ((sharerList e.sharers).map (Instr.inv v ·))

/-- The home acts on a request, or queues it behind a transaction, a claim or a home hold (R19, R81, R84, R85, R90). A peer's lines have no directory: it answers a read with its bytes (R128). -/
def State.homeAct (s : State) (line : Nat) (r : Req) : State :=
  let e := s.dirE line
  if s.isPeer line then (match r with | .wrnt k => s.mergeNt k | .gets d => s.emit (.datas line d) | .geto d => s.emit (.datao line d) | .upg d => s.emit (.datao line d))
  else if e.st = .wait || s.claimed line then s.setDir line { e with queue := e.queue ++ [r] }
  else if r.die?.isSome && s.dirFull line then s.homeFree line r
  else
    let wantsAll := match r with | .gets _ => false | _ => true
    if wantsAll && e.host then
      let s' := s.setDir line { e with st := .wait, await := 1, snoop := true, serving := some r, sharers := if e.st = .own then dieBit e.owner else e.sharers }
      if e.snoop then s' else s'.emit (.backInvalidationResponse line)
    else
      match e.st with
      | .own =>
        let m := if wantsAll then Instr.rcli line e.owner else Instr.rcls line e.owner
        (s.setDir line { e with st := .wait, await := 1, serving := some r }).emit m
      | _ =>
        let ds := (sharerList e.sharers).filter fun d => some d != r.die?
        if wantsAll && !ds.isEmpty then
          (s.setDir line { e with st := .wait, await := ds.length, serving := some r }).emits (ds.map (Instr.inv line ·))
        else s.homeGrant line r

/-- Requests that waited at the home are served in order (R79). -/
def State.homeDrain (s : State) (line : Nat) : State :=
  let q := (s.dirE line).queue
  q.foldl (fun s r => s.homeAct line r) (s.setDir line { s.dirE line with queue := [] })

/-- An acknowledgement arrives; with the last one the transaction ends (R81). -/
def State.homeAck (s : State) (line : Nat) : State :=
  let e := s.dirE line
  if e.st != .wait || e.await = 0 then s
  else if e.await > 1 then s.setDir line { e with await := e.await - 1 }
  else
    match e.serving with
    | some r => (s.homeGrant line r).homeDrain line
    | none => (s.setDir line { e with st := .unc, await := 0, owner := 0, sharers := 0 }).homeDrain line

/-! ### Messages -/

/-- GETS: served from the far-line cache on the way, else by the home (R81, R86, R87). -/
def execGets (line die : Nat) (s : State) : Host.Outcome State Fault Refusal :=
  if (s.die die).down then .next s
  else
    match s.flcAt line die with
    | some (k, e) =>
      if s.claimed line then .next (s.homeAct line (.gets die))
      else if s.isPeer line then .next (s.emit (.datas line die))
      else .next ({ s with flc := mapPut s.flc k { e with vec := e.vec ||| dieBit die } }.emits [.adds line die, .datas line die])
    | none => .next (s.homeAct line (.gets die))
/-- GETO (R81). -/
def execGeto (line die : Nat) (s : State) : Host.Outcome State Fault Refusal := .next (if (s.die die).down then s else s.homeAct line (.geto die))
/-- UPG: always answered with data (R81, R83). -/
def execUpg (line die : Nat) (s : State) : Host.Outcome State Fault Refusal := .next (if (s.die die).down then s else s.homeAct line (.upg die))
/-- PUTO: from the owner, the line is home again; discarded where a recall has taken it (R81). One that meets the WAIT of that owner's recall, a case R81 has no row for, is discarded too, and the recall's answer carries the data (log 14). -/
def execPuto (line die : Nat) (s : State) : Host.Outcome State Fault Refusal :=
  let e := s.dirE line
  .next (if e.st = .own && e.owner = die then s.setDir line { e with st := .unc, owner := 0, sharers := 0 } else s)
/-- WRNT; an offline home answers it (R77, R81, R93). -/
def execWrnt (k : Nat) (s : State) : Host.Outcome State Fault Refusal :=
  match mapFind s.stores k with
  | none => .next s
  | some p =>
    match linesOf p.bytes with
    | [] => .next { s with stores := mapErase s.stores k }
    | l :: _ => .next (if s.offline (l * 128) then s.emit (.storeAnswer k) else s.homeAct l (.wrnt k))
/-- ADDS: the home takes a die that the far-line cache served; where it discards the message the far-line agent keeps the die on record (R81, R84, R87). -/
def execAdds (line die : Nat) (s : State) : Host.Outcome State Fault Refusal :=
  let e := s.dirE line
  let told : State := match s.flcAt line die with
    | some (k, f) => { s with flc := mapPut s.flc k { f with vec := f.vec &&& ~~~dieBit die } }
    | none => s
  .next (match e.st with
    | .unc => (told.dirRoom line).setDir line { e with st := .shd, sharers := e.sharers ||| dieBit die }
    | .shd => told.setDir line { e with sharers := e.sharers ||| dieBit die }
    | _ => s)

/-- Dies an invalidation reaches: the one addressed and those the tower's far-line agent recorded (R87). -/
def State.invTargets (s : State) (line die : Nat) : List Nat :=
  match s.flcAt line die with
  | some (_, e) => die :: (sharerList e.vec).filter (· != die)
  | none => [die]

/-- INV: answered once every lease on the copies it takes has ended (R72, R82, R87). -/
def execInv (line die : Nat) (s : State) : Host.Outcome State Fault Refusal :=
  let ds := s.invTargets line die
  let s := s.at (ds.foldl (fun m d => max m (((s.l2Line line d).getD l2None).lexp)) s.now)
  let s := match s.flcAt line die with | some (k, _) => { s with flc := mapErase s.flc k } | none => s
  .next (((ds.foldl (fun s d => s.dropCopy line d) s).reask line ds).emit (.invack line die))
/-- RCLS: the owner returns the data and keeps a shared copy; a down die is taken as having returned none (R80, R93). -/
def execRcls (line die : Nat) (s : State) : Host.Outcome State Fault Refusal :=
  let s := if s.lost line then s.poisonLine line else s
  let s := if (s.l2Line line die).isSome then s.modL2 line die fun l => { l with owned := false, dirty := false } else s
  .next (s.emit (.rcldata line die))
/-- RCLI: the owner returns the data and keeps no copy, once its leases have ended (R72, R80, R93). -/
def execRcli (line die : Nat) (s : State) : Host.Outcome State Fault Refusal :=
  let s := if s.lost line then s.poisonLine line else s
  let s := s.at ((s.l2Line line die).getD l2None).lexp
  .next ((s.dropCopy line die).emit (.rcldata line die))
/-- INVACK (R81). -/
def execInvack (line die : Nat) (s : State) : Host.Outcome State Fault Refusal :=
  .next ((s.setDir line { s.dirE line with sharers := (s.dirE line).sharers &&& ~~~dieBit die }).homeAck line)
/-- RCLDATA (R81). -/
def execRcldata (line _die : Nat) (s : State) : Host.Outcome State Fault Refusal := .next (s.homeAck line)

/-- DATAS: a shared copy, with the bytes of a peer's line; the far-line cache on the way takes the line (R86, R87, R128). A far-line cache's copy of a peer's line has the peer's own bytes (log 14). -/
def execDatas (line die : Nat) (s : State) : Host.Outcome State Fault Refusal :=
  if (s.die die).down then .next s
  else
    let s := s.flcFill line die
    let s := if s.isPeer line then s.fillPeer line die else s
    .next (s.modL2 line die fun l => { l with present := true, owned := false, dirty := false, asked := false, used := s.now })
/-- DATAO: the copy and its ownership (R81). -/
def execDatao (line die : Nat) (s : State) : Host.Outcome State Fault Refusal :=
  .next (if (s.die die).down then s
    else s.modL2 line die fun l => { l with present := true, owned := true, dirty := false, asked := false, used := s.now })

/-! ### The host (R85) -/

/-- The host's answer to a snoop; the request that waited for it goes on, an engine's access makes its attempt again (R85). -/
def execBackInvalidationResponse (line : Nat) (s : State) : Host.Outcome State Fault Refusal :=
  let e := s.dirE line
  let e' := { e with host := false, snoop := false }
  if !e.snoop then .next s
  else
    let ds := (sharerList e.sharers).filter fun d => some d != e.serving.bind Req.die?
    if e.st != .wait then .next (s.setDir line e')
    else
      if ds.isEmpty then .next (match e.serving with
        | some r => ((s.setDir line e').homeGrant line r).homeDrain line
        | none => (s.setDir line { e' with st := .unc, await := 0, owner := 0 }).homeDrain line)
      else .next ((s.setDir line { e' with await := ds.length }).emits (ds.map (Instr.inv line ·)))

/-- HOST_MEM_READ: every owner is recalled, HOST is set, the bytes are answered; an error is answered with none (R85, R91, R93). A context line that a die holds stays owned by it, and the host reads it without a copy (R103, log 66). -/
def execHostMemRead (tag pa n : Nat) (s : State) : Host.Outcome State Fault Refusal :=
  let ls := (rangeFrom (lineOf pa) (lineOf (pa + n - 1) + 1 - lineOf pa))
  if n = 0 then .next s
  else if s.lineBusy ls || ls.any s.claimed then .next (s.emit (.hostMemRead tag pa n))
  else
    let s := ls.foldl (fun s l =>
      let s := s.cancelLine l
      let e := s.dirE l
      if (mapFind s.held (l * 128)).isSome then s
      else if e.st = .own then
        (if (s.l2Line l e.owner).isSome then s.modL2 l e.owner fun c => { c with owned := false, dirty := false } else s).setDir l
          { e with st := .shd, sharers := dieBit e.owner, owner := 0, host := true }
      else s.setDir l { e with host := true }) s
    let bad := ls.any fun l => s.isPoison l || s.offline (l * 128)
    .next { s with hostReads := s.hostReads ++ [(tag, if bad then [] else s.cohBytes pa n)] }

end Sys2Proof.Machine
end

