-- ==== Sys2Proof/Machine/Control.lean ====
section
/-! DEFINITION. Branches, calls, REPF, NOP, and the pattern that names no instruction (R189, R225 to R227, R230 to R235). -/

namespace Sys2Proof.Machine

/-! ### Branches (R225 to R227) -/

/-- A branch: the link if it writes one, then PC at the target; a target that is not canonical or not aligned traps before any effect (R227). -/
def State.branch (s : State) (e : Iss) (S : BitVec 3) (target : Dword) (link : Option Reg) : State :=
  if !canonical target.toNat || target.toNat % 4 != 0 then s.trapAt e tcAlign 16 target.toNat
  else
    let h := match link with
      | some d => e.h.write e.t 8 d (xSetD (xget e.h.ctx.x d) (e.h.ctx.pc + 4))
      | none => e.h
    { s with held := mapPut s.held e.key ({ h with ctx := { h.ctx with pc := target } }.issued e.t S) }

/-- PC + 4 x offset (R225). -/
def relTarget (pc : Dword) (off : Int) : Dword := pc + BitVec.ofInt 64 (4 * off)

/-- BR (R225). -/
def execBr (h : Hdr) (off : BitVec 19) (s : State) : Host.Outcome State Fault Refusal :=
  s.run (.br h off) (shape h [] []) fun e s => s.branch e h.s (relTarget e.h.ctx.pc off.toInt) none
/-- CALL (R225). -/
def execCall (h : Hdr) (d : Reg) (off : BitVec 16) (s : State) : Host.Outcome State Fault Refusal :=
  s.run (.call h d off) (shape h [] [d]) fun e s => s.branch e h.s (relTarget e.h.ctx.pc off.toInt) (some d)
/-- JMP (R226). -/
def execJmp (h : Hdr) (a : Reg) (s : State) : Host.Outcome State Fault Refusal :=
  s.run (.jmp h a) (shape h [a] []) fun e s => s.branch e h.s (e.xd a) none
/-- CALLR (R226). -/
def execCallr (h : Hdr) (d a : Reg) (s : State) : Host.Outcome State Fault Refusal :=
  s.run (.callr h d a) (shape h [a] [d]) fun e s => s.branch e h.s (e.xd a) (some d)
/-- RET acts as JMP (R226). -/
def execRet (h : Hdr) (a : Reg) (s : State) : Host.Outcome State Fault Refusal :=
  s.run (.ret h a) (shape h [a] []) fun e s => s.branch e h.s (e.xd a) none

/-! ### REPF (R230 to R234) -/

/-- What the capture of a block comes to: the block, the first trap with its PC, or a word that is not at hand, for which REPF is passed over (R231). -/
inductive Capture
  | block (is : List (Instr × Nat)) | trap (t : Trap) (pc : Nat) | lacks
  deriving DecidableEq, Repr

/-- Captures `n` instructions from a VA (R231). -/
def State.capture (s : State) (key : Nat) (h : Held) (slot : Nat) : Nat → Nat → List (Instr × Nat) → Capture
  | 0, _, acc => .block acc.reverse
  | n + 1, va, acc =>
    match s.fetchAt key h slot va with
    | .instr i w => (match captureBad i with | some t => .trap t va | none => s.capture key h slot n (va + 4 * w) ((i, w) :: acc))
    | .trap t _ => .trap t va
    | _ => .lacks

/-- REPF (R230 to R234). -/
def execRepf (h : Hdr) (repsm1 : BitVec 6) (hstep rstep : BitVec 3) (lenm1 : BitVec 4) (s : State) : Host.Outcome State Fault Refusal :=
  s.run (.repf h repsm1 hstep rstep lenm1) (shape h [] []) fun e s =>
    let start := e.h.ctx.pc + 4
    match s.capture e.key e.h e.slot (lenm1.toNat + 1) start.toNat [] with
    | .lacks => s
    | .trap t va => ((s.fwRecord e.die e.part e.key t).finish e h.s e.h).raiseTrap e.key t (BitVec.ofNat 64 va)
    | .block block =>
      let r : Replay := { block, rep := 0, idx := 0, reps := repsm1.toNat + 1, hstep := hstep.toNat, rstep := rstep.toNat,
                          endPc := start + BitVec.ofNat 64 (4 * (block.foldl (fun a b => a + b.2) 0)) }
      { s with held := mapPut s.held e.key { (e.h.advance 1).issued e.t h.s with replay := some r } }

/-! ### NOP, and patterns without a meaning -/

/-- NOP has no effect besides its stall count (R235). -/
def execNop (h : Hdr) (s : State) : Host.Outcome State Fault Refusal :=
  s.run (.nop h) (shape h [] []) fun e s => s.finish e h.s e.h

/-- A word pattern that the encoding chapter does not assign: ILLEGAL whatever its guard, with no interlock; FADDR holds the words (R189). -/
def execUnassignedWordPattern (w0 w1 : Word) (detail : Nat) (s : State) : Host.Outcome State Fault Refusal :=
  match mapFind s.held s.cur with
  | none => .next s
  | some h =>
    if h.slot?.isNone || h.ctx.state != stReady then .next s
    else .next (s.raiseTrap s.cur ⟨tcIllegal, detail, w0.toNat + w1.toNat * 2 ^ 32⟩ h.ctx.pc)

end Sys2Proof.Machine
end

