-- ==== Sys2Proof/Machine/Float.lean ====
section
/-! DEFINITION. Short-vector floating point: arithmetic, fused multiply-add, comparison and conversion (R238 to R249). -/

namespace Sys2Proof.Machine

/-- The shape of a floating-point form: it checks the rounding mode (R238). -/
def fshape (hd : Hdr) (reads writes : List Reg) : Shape := { shape hd reads writes with rounds := true }

/-- Fixed latency of arithmetic (R239). -/
def fLat : FSh → Nat | .f64 => 20 | _ => 16

/-! ### Lane operations (R241, R242) -/

/-- An operation on the values of two lanes, rounded once. -/
def fpExact (op : Nat → FVal → FVal → FVal × Fl) (f : FFmt) (rm a b : Nat) : Nat × Fl := fExact f rm (op rm (fDecode f a) (fDecode f b))
/-- A correctly rounded function of one lane. -/
def fpApprox (op : FVal → Approx) (f : FFmt) (rm a : Nat) : Nat × Fl := fFinish f rm (op (fDecode f a))
/-- 1.0 -/
def fvOne : FVal := .fin false 1 0

/-- The order of FMIN and FMAX, −0 below +0 (R242). -/
def fvBelow (a b : FVal) : Bool := fvCmp a b = -1 || (a.isZero && b.isZero && a.neg && !b.neg)

/-- FMIN, and FMAX with the order reversed (R242). -/
def fpMinMax (mx : Bool) (f : FFmt) (a b : Nat) : Nat × Fl :=
  let x := fDecode f a
  let y := fDecode f b
  let fl := sigFlags [x, y]
  if x.isNan && y.isNan then (f.nan, fl)
  else if x.isNan then (b, fl)
  else if y.isNan then (a, fl)
  else if fvBelow x y then (if mx then b else a, fl) else (if fvBelow y x then (if mx then a else b) else a, fl)

/-- FABS and FNEG act on the sign bit, a NaN becoming canonical (R241). -/
def fpSign (neg : Bool) (f : FFmt) (a : Nat) : Nat × Fl :=
  let top := 2 ^ (f.ebits + f.mbits)
  match fDecode f a with
  | .nan s => (f.nan, if s then flNv else 0)
  | _ => (if neg then (a ^^^ top) % (2 * top) else a % top, 0)

/-! ### Forms -/

/-- A fixed-latency form of two registers (R238, R239). -/
def State.fp2 (s : State) (i : Instr) (h : Hdr) (f : FSh) (d a b : Reg) (op : FFmt → Nat → Nat → Nat → Nat × Fl) : Host.Outcome State Fault Refusal :=
  s.run i (fshape h [a, b] [d]) fun e s => s.lanes e h.s (fLat f) (fshW f) (fshN f) d fun k =>
    op (fshF f) e.h.ctx.rm (lane (fshW f) (e.x a) k) (lane (fshW f) (e.y b) k)

/-- A fixed-latency form of one register and latency 8. -/
def State.fp1 (s : State) (i : Instr) (h : Hdr) (f : FSh) (d a : Reg) (op : FFmt → Nat → Nat × Fl) : Host.Outcome State Fault Refusal :=
  s.run i (fshape h [a] [d]) fun e s => s.lanes e h.s 8 (fshW f) (fshN f) d fun k => op (fshF f) (lane (fshW f) (e.x a) k)

/-- A variable-latency form of one register (R239). -/
def State.fpVar (s : State) (i : Instr) (h : Hdr) (f : FSh) (d a : Reg) (op : FVal → Approx) : Host.Outcome State Fault Refusal :=
  s.run i (fshape h [a] [d]) fun e s => s.startLanes e h.s (fshW f) (fshN f) d fun k =>
    fpApprox op (fshF f) e.h.ctx.rm (lane (fshW f) (e.x a) k)

/-- A fused multiply-add form: the signs of the first factor and of the addend may be inverted (R244). -/
def State.fp3 (s : State) (i : Instr) (h : Hdr) (f : FSh) (d a b c : Reg) (na nc : Bool) : Host.Outcome State Fault Refusal :=
  s.run i (fshape h [a, b, c] [d]) fun e s => s.lanes e h.s (fLat f) (fshW f) (fshN f) d fun k =>
    let x := fDecode (fshF f) (lane (fshW f) (e.x a) k)
    let z := fDecode (fshF f) (lane (fshW f) (e.z c) k)
    fExact (fshF f) e.h.ctx.rm (fvFma e.h.ctx.rm (if na then x.negate else x) (fDecode (fshF f) (lane (fshW f) (e.y b) k)) (if nc then z.negate else z))

/-- FADD: a + b, rounded (R241). -/
def execFadd (h : Hdr) (f : FSh) (d a b : Reg) (s : State) : Host.Outcome State Fault Refusal := s.fp2 (.fadd h f d a b) h f d a b (fpExact fvAdd)
/-- FSUB: FADD with b negated (R241). -/
def execFsub (h : Hdr) (f : FSh) (d a b : Reg) (s : State) : Host.Outcome State Fault Refusal := s.fp2 (.fsub h f d a b) h f d a b (fpExact fun rm x y => fvAdd rm x y.negate)
/-- FMUL: a × b, rounded (R241). -/
def execFmul (h : Hdr) (f : FSh) (d a b : Reg) (s : State) : Host.Outcome State Fault Refusal := s.fp2 (.fmul h f d a b) h f d a b (fpExact fun _ x y => fvMul x y)
/-- FMIN (R242). -/
def execFmin (h : Hdr) (f : FSh) (d a b : Reg) (s : State) : Host.Outcome State Fault Refusal := s.fp2 (.fmin h f d a b) h f d a b fun g _ x y => fpMinMax false g x y
/-- FMAX (R242). -/
def execFmax (h : Hdr) (f : FSh) (d a b : Reg) (s : State) : Host.Outcome State Fault Refusal := s.fp2 (.fmax h f d a b) h f d a b fun g _ x y => fpMinMax true g x y
/-- FABS (R241). -/
def execFabs (h : Hdr) (f : FSh) (d a : Reg) (s : State) : Host.Outcome State Fault Refusal := s.fp1 (.fabs h f d a) h f d a (fpSign false)
/-- FNEG (R241). -/
def execFneg (h : Hdr) (f : FSh) (d a : Reg) (s : State) : Host.Outcome State Fault Refusal := s.fp1 (.fneg h f d a) h f d a (fpSign true)
/-- FCLASS (R243). -/
def execFclass (h : Hdr) (f : FSh) (d a : Reg) (s : State) : Host.Outcome State Fault Refusal := s.fp1 (.fclass h f d a) h f d a fun g x => (fclassOf g x, 0)
/-- FDIV (R239, R241). -/
def execFdiv (h : Hdr) (f : FSh) (d a b : Reg) (s : State) : Host.Outcome State Fault Refusal :=
  s.run (.fdiv h f d a b) (fshape h [a, b] [d]) fun e s => s.startLanes e h.s (fshW f) (fshN f) d fun k =>
    fFinish (fshF f) e.h.ctx.rm (fvDiv (fDecode (fshF f) (lane (fshW f) (e.x a) k)) (fDecode (fshF f) (lane (fshW f) (e.y b) k)))
/-- FSQRT (R241). -/
def execFsqrt (h : Hdr) (f : FSh) (d a : Reg) (s : State) : Host.Outcome State Fault Refusal := s.fpVar (.fsqrt h f d a) h f d a fvSqrt
/-- FRCP: 1 ÷ a (R241). -/
def execFrcp (h : Hdr) (f : FSh) (d a : Reg) (s : State) : Host.Outcome State Fault Refusal := s.fpVar (.frcp h f d a) h f d a (fvDiv fvOne)
/-- FRSQ: 1 ÷ √a (R241). -/
def execFrsq (h : Hdr) (f : FSh) (d a : Reg) (s : State) : Host.Outcome State Fault Refusal := s.fpVar (.frsq h f d a) h f d a fvRsqrt
/-- FEXP2 (R241). -/
def execFexp2 (h : Hdr) (f : FSh) (d a : Reg) (s : State) : Host.Outcome State Fault Refusal := s.fpVar (.fexp2 h f d a) h f d a fvExp2
/-- FLOG2 (R241). -/
def execFlog2 (h : Hdr) (f : FSh) (d a : Reg) (s : State) : Host.Outcome State Fault Refusal := s.fpVar (.flog2 h f d a) h f d a fvLog2
/-- FMA: a × b + c (R244). -/
def execFma (h : Hdr) (f : FSh) (d a b c : Reg) (s : State) : Host.Outcome State Fault Refusal := s.fp3 (.fma h f d a b c) h f d a b c false false
/-- FMS: a × b + (−c) (R244). -/
def execFms (h : Hdr) (f : FSh) (d a b c : Reg) (s : State) : Host.Outcome State Fault Refusal := s.fp3 (.fms h f d a b c) h f d a b c false true
/-- FNMA: (−a) × b + c (R244). -/
def execFnma (h : Hdr) (f : FSh) (d a b c : Reg) (s : State) : Host.Outcome State Fault Refusal := s.fp3 (.fnma h f d a b c) h f d a b c true false

/-- FCMP: the condition over the active lanes; their flags land with pd (R245, R246). -/
def execFcmp (h : Hdr) (f : FSh) (cc : FCond) (any sig : Bool) (pd : Pred) (a b : Reg) (s : State) : Host.Outcome State Fault Refusal :=
  s.run (.fcmp h f cc any sig pd a b) (fshape h [a, b] []) fun e s =>
    let ps := (activeLanes (fshW f) (fshN f) e.h.ctx.lm).map fun k =>
      (fDecode (fshF f) (lane (fshW f) (e.x a) k), fDecode (fshF f) (lane (fshW f) (e.y b) k))
    let fl : Fl := ps.foldl (fun m p => m ||| fcmpFlags sig p.1 p.2) 0
    s.finish e h.s (({ e.h with ctx := e.h.ctx.setP pd (aggregate any (ps.map fun p => fcondHolds cc p.1 p.2)) } : Held).flagAt (e.t + 8) fl)

/-! ### Conversions (R247 to R249) -/

/-- Lanes of a format in a register (R247). -/
def fmtLanes (f : Fmt) : Nat := match f with | .fp64 => 1 | f => 96 / fmtBits f

/-- Whether the lane mask lets a conversion write a lane of its destination (R248). -/
def convWritten (dst : Fmt) (lm : BitVec 12) (k : Nat) : Bool :=
  match fmtBits dst with
  | 64 => true
  | 4 => lm.getLsbD (k / 2)
  | _ => lm.getLsbD k

/-- An integral value of the same format (R249). -/
def fpIntegral (f : FFmt) (rm a : Nat) : Nat × Fl :=
  match fDecode f a with
  | .fin n m e =>
    let (k, nx) := fvToInt rm (.fin n m e)
    ((fEncode f rm (ofScaled k 0 n)).1, if nx then flNx else 0)
  | v => fEncode f rm v

/-- A conversion of the lanes both formats have (R248). -/
def State.conv (s : State) (i : Instr) (h : Hdr) (dst src : Fmt) (d a : Reg) (f : Nat → Nat → Nat × Fl) : Host.Outcome State Fault Refusal :=
  s.run i (fshape h [a] [d]) fun e s =>
    let w := fmtBits dst
    let ks := (List.range (min (fmtLanes src) (fmtLanes dst))).filter (convWritten dst e.h.ctx.lm)
    let r := ks.foldl (fun p k =>
      let c := f e.h.ctx.rm (lane (fmtBits src) (e.x a) k)
      (setF p.1 (w * k) w c.1, p.2 ||| c.2)) (xget e.h.ctx.x d, (0 : Fl))
    s.result e h.s (if dst = .fp64 || src = .fp64 then 20 else 16) d 0xFFF r.1 r.2

/-- FCVT (R249). -/
def execFcvt (h : Hdr) (dst src : Fmt) (d a : Reg) (s : State) : Host.Outcome State Fault Refusal := s.conv (.fcvt h dst src d a) h dst src d a (convElem dst src)
/-- FCVTI (R249). -/
def execFcvti (h : Hdr) (dst src : Fmt) (d a : Reg) (s : State) : Host.Outcome State Fault Refusal := s.conv (.fcvti h dst src d a) h dst src d a (convElem dst src)
/-- ICVTF (R249). -/
def execIcvtf (h : Hdr) (dst src : Fmt) (d a : Reg) (s : State) : Host.Outcome State Fault Refusal := s.conv (.icvtf h dst src d a) h dst src d a (convElem dst src)
/-- FRND (R249). -/
def execFrnd (h : Hdr) (fmt : Fmt) (d a : Reg) (s : State) : Host.Outcome State Fault Refusal :=
  s.conv (.frnd h fmt d a) h fmt fmt d a fun rm x => match fmtF fmt with | some f => fpIntegral f rm x | none => (x, 0)

end Sys2Proof.Machine
end

