-- ==== Sys2Proof/Machine/TileMath.lean ====
section
/-! DEFINITION. What a tile operation computes from the tiles it reads: products, element-wise forms, conversions, transposition, reductions, scans (R175 to R181, R299 to R314). -/

namespace Sys2Proof.Machine

/-! ### Elements and storage -/

/-- Pieces of `w` elements. -/
def chunks {α : Type} (w : Nat) : Nat → List α → List (List α)
  | 0, _ => []
  | n + 1, l => l.take w :: chunks w n (l.drop w)

/-- Rows of equal length turned into columns. -/
def columns {α : Type} (w : Nat) (d : α) (rows : List (List α)) : List (List α) := (List.range w).map fun j => rows.map fun r => r.getD j d

/-- Two 4-bit codes a byte, the lower-numbered element in bits [3:0] (R45). -/
def packNibbles : List Nat → List Byte
  | a :: b :: r => BitVec.ofNat 8 (a % 16 + 16 * (b % 16)) :: packNibbles r
  | [a] => [BitVec.ofNat 8 (a % 16)]
  | [] => []

/-- Stored bytes of element codes (R45, R176). -/
def codeBytes (f : Fmt) (cs : List Nat) : List Byte := match fmtBits f with | 4 => packNibbles cs | w => cs.flatMap (leBytes (w / 8))

/-- Codes of the elements of a tile of any format but VB8. -/
def tileCodes (d : TileHandle) (bs : List Byte) : List Nat :=
  match fmtBits d.fmt with
  | 4 => bs.flatMap fun b => [b.toNat % 16, b.toNat / 16]
  | w => (chunks (w / 8) d.count bs).map leToNat

/-- The element at a position of a scale block (R166, R169). -/
def TileHandle.blockPos (d : TileHandle) (b i : Nat) : Nat :=
  if d.shp && !d.blk then (16 * (b / 2) + i / 16) * 32 + 16 * (b % 2) + i % 16 else i

/-- What an operation writes to a handle: stored bytes, scales, escape flags, and the flags it raises. -/
structure TileVal where
  bytes  : List Byte
  scales : Vector Byte 4
  esc    : BitVec 4
  flags  : Fl
  deriving DecidableEq, Repr

/-- New elements under the scales and escape flags the handle has. -/
def TileHandle.codes (d : TileHandle) (cs : List Nat) (fl : Fl) : TileVal := { bytes := codeBytes d.fmt cs, scales := d.scales, esc := d.esc, flags := fl }

/-- Union of flags. -/
def orFl (l : List Fl) : Fl := l.foldl (· ||| ·) 0

/-- Values coded into a tile with scale blocks (R167, R170, R175). -/
def TileHandle.encode (d : TileHandle) (rm : Nat) (vs : List FVal) : TileVal :=
  let bl := (List.range d.blocks).map fun b => encodeBlock d.fmt rm ((List.range d.blockLen).map fun i => vs.getD (d.blockPos b i) (.zero false))
  let bytes := match d.fmt with
    | .vb8 => bl.flatMap (·.1)
    | _ => (List.range d.count).map fun e => (bl.getD (d.block e).1 ([], 0, false, 0)).1.getD (d.block e).2 0
  { bytes, scales := Vector.ofFn fun b : Fin 4 => match bl[b.val]? with | some x => x.2.1 | none => d.scales[b.val],
    esc := BitVec.ofNat 4 ((List.range 4).foldl (fun a b => match bl[b]? with | some x => if x.2.2.1 then a + 2 ^ b else a | none => a) 0),
    flags := orFl (bl.map (·.2.2.2)) }

/-! ### Products (R180, R181, R304) -/

/-- The sum of a group of exact products, and FINV (R181). -/
def groupSum (ps : List (FVal × FVal)) : FVal × Fl :=
  let rs := ps.map fun p => fvMul p.1 p.2
  let vs := rs.map (·.1)
  if vs.any FVal.isNan || (vs.any (fun v => v.isInf && v.neg) && vs.any (fun v => v.isInf && !v.neg)) then (.nan false, flNv)
  else
    match vs.find? FVal.isInf with
    | some v => (v, 0)
    | none =>
      let q := vs.foldl (fun m v => match v with | .fin _ _ e => min m e | _ => m) 0
      (ofScaled (vs.foldl (fun a v => a + v.scaled q) 0) q false, 0)

/-- One group added to the accumulator (R180). -/
def accGroup (rm o : Nat) (ps : List (FVal × FVal)) : Nat × Fl :=
  let (s, f0) := groupSum ps
  let (sb, f1) := fEncode ffp32 rm s
  let (ob, f2) := fExact ffp32 rm (fvAdd rm (fDecode ffp32 o) (fDecode ffp32 sb))
  (ob, f0 ||| f1 ||| f2)

/-- An accumulator carried through a list of steps with the flags of each. -/
def accAll {α : Type} (f : Nat → α → Nat × Fl) (o : Nat) (l : List α) : Nat × Fl :=
  l.foldl (fun a x => let r := f a.1 x; (r.1, a.2 ||| r.2)) (o, 0)

/-- The parts of a BFX2 element that form products: a low part is ignored where the high one is an infinity or a NaN (R163, R180). -/
def bfx2Parts (b : Nat) : FVal × Option FVal :=
  let hi := fDecode fbf16 (b / 2 ^ 16 % 2 ^ 16)
  (hi, if hi.isNan || hi.isInf then none else some (fDecode fbf16 (b % 2 ^ 16)))

/-- The exact products of one pair of BFX2 elements: hi·hi, hi·lo, lo·hi (R180). -/
def bfx2Pairs (a b : Nat) : List (FVal × FVal) :=
  let x := bfx2Parts a
  let y := bfx2Parts b
  (x.1, y.1) :: ((match y.2 with | some l => [(x.1, l)] | none => []) ++ (match x.2 with | some l => [(l, y.1)] | none => []))

/-- An integer element as it counts (R165). -/
def intElem (f : Fmt) (b : Nat) : Int := match fmtI f with | some (sg, w) => if sg then signedNat w b else ((b % 2 ^ w : Nat) : Int) | none => 0

/-- One element of D + A × B from the row of A and the column of B, each as codes and values (R180). -/
def mmaElem (fd fa fb : Fmt) (rm o : Nat) (row col : List (Nat × FVal)) : Nat × Fl :=
  let pairs := row.zip col
  match fd with
  | .int32 => (wrapInt 32 (signedNat 32 o + pairs.foldl (fun s p => s + intElem fa p.1.1 * intElem fb p.2.1) 0), 0)
  | .fp64 => accAll (fun o p => fExact ffp64 rm (fvFma rm p.1.2 p.2.2 (fDecode ffp64 o))) o pairs
  | _ =>
    match fa with
    | .fp32 => accAll (fun o p => fExact ffp32 rm (fvFma rm p.1.2 p.2.2 (fDecode ffp32 o))) o pairs
    | .bfx2 => accAll (fun o g => accGroup rm o (g.flatMap fun p => bfx2Pairs p.1.1 p.2.1)) o (chunks 8 (pairs.length / 8) pairs)
    | _ => accAll (fun o g => accGroup rm o (g.map fun p => (p.1.2, p.2.2))) o (chunks 8 (pairs.length / 8) pairs)

/-- Codes and values of a tile, element by element; a VB8 tile has values alone. -/
def tileElems (d : TileHandle) (bs : List Byte) : List (Nat × FVal) × Fl :=
  let v := tileValues d bs
  ((match d.fmt with | .vb8 => v.1.map fun x => (0, x) | _ => (tileCodes d bs).zip v.1), v.2)

/-- D + A × B (R304). -/
def tileMma (d a b : TileHandle) (rm : Nat) (db ab bb : List Byte) : TileVal :=
  let w := d.width
  let (av, f1) := tileElems a ab
  let (bv, f2) := tileElems b bb
  let rows := chunks w w av
  let cols := columns w (0, FVal.zero false) (chunks w w bv)
  let accs := chunks w w (tileCodes d db)
  let rs := (rows.zip accs).flatMap fun r => (cols.zip r.2).map fun c =>
    let g := if d.fmt = .aff32 then c.2 / 2 ^ 32 * 2 ^ 32 else 0
    let x := mmaElem d.fmt a.fmt b.fmt rm (if d.fmt = .aff32 then c.2 % 2 ^ 32 else c.2) r.1 c.1
    (g + x.1, x.2)
  d.codes (rs.map (·.1)) (f1 ||| f2 ||| orFl (rs.map (·.2)))

/-! ### Element-wise forms (R307, R308) -/

/-- A form of two elements: 0 TADD, 1 TSUB, 2 TMUL, 3 TFMA, 4 TMAX, 5 TMIN, 6 TABS, 7 TEXP, 8 TRCP, 9 TSCALE (R307). -/
def eltOp (fn : Nat) (f : Fmt) (rm a b c : Nat) : Nat × Fl :=
  match fmtF f with
  | none =>
    let x := signedNat 32 a
    let y := signedNat 32 b
    (wrapInt 32 (match fn with | 0 => x + y | 1 => x - y | 4 => max x y | 5 => min x y | 6 => (x.natAbs : Int) | _ => x * y), 0)
  | some g =>
    let x := fDecode g a
    let y := fDecode g b
    match fn with
    | 0 => fExact g rm (fvAdd rm x y)
    | 1 => fExact g rm (fvAdd rm x y.negate)
    | 3 => fExact g rm (fvFma rm x y (fDecode g c))
    | 4 => fpMinMax true g a b
    | 5 => fpMinMax false g a b
    | 6 => fpSign false g a
    | 7 => fFinish g rm (fvExp2 x)
    | 8 => fFinish g rm (fvDiv fvOne x)
    | _ => fExact g rm (fvMul x y)

/-- An element-wise form over two lists, with the old elements of D. -/
def tileElt (fn : Nat) (d : TileHandle) (rm : Nat) (as bs ds : List Nat) : TileVal :=
  let rs := (as.zip (bs.zip ds)).map fun p => eltOp fn d.fmt rm p.1 p.2.1 p.2.2
  d.codes (rs.map (·.1)) (orFl (rs.map (·.2)))

/-! ### Conversion, transposition, reduction (R309 to R311) -/

/-- A value converted to a format without a block scale (R175). -/
def convVal (dst : Fmt) (rm : Nat) (v : FVal) : Nat × Fl :=
  match fmtF dst, fmtI dst with
  | some f, _ => fEncode f rm v
  | _, some (sg, w) => toInt sg w rm v
  | _, _ => match dst with | .bfx2 => toBfx2 rm v | _ => let (o, f) := fEncode ffp32 rm v; (o + f32One * 2 ^ 32, f)

/-- TCVT (R309). -/
def tileCvt (d a : TileHandle) (rm : Nat) (ab : List Byte) : TileVal :=
  if d.fmt = a.fmt && (!isBlockFmt d.fmt || d.blk = a.blk) then { bytes := ab, scales := if isBlockFmt d.fmt then a.scales else d.scales, esc := if isBlockFmt d.fmt then a.esc else d.esc, flags := 0 }
  else
    let v := tileValues a ab
    if isBlockFmt d.fmt then let r := d.encode rm v.1; { r with flags := r.flags ||| v.2 }
    else
      let rs := if isBlockFmt a.fmt then v.1.map (convVal d.fmt rm) else (tileCodes a ab).map (convElem d.fmt a.fmt rm)
      d.codes (rs.map (·.1)) (v.2 ||| orFl (rs.map (·.2)))

/-- A list read as a square and turned over its diagonal. -/
def transposed {α : Type} (w : Nat) (d : α) (l : List α) : List α := (columns w d (chunks w w l)).flatten

/-- One VB8 block transposed: bytes, scale, and FINV for a malformed one, which becomes a NaN block of zero codes (R310). -/
def vbTranspose (w : Nat) (bytes : List Byte) (sc : Byte) (esc : Bool) : List Byte × Byte × Fl :=
  if sc = 0xFF then (bytes, sc, 0)
  else if esc then (transposed w 0 bytes, sc, 0)
  else
    match vbRead bytes.length (bytes.flatMap byteBits) with
    | some cs => (packBits bytes.length ((transposed w VCode.zero cs).flatMap VCode.bits), sc, 0)
    | none => (packBits bytes.length (List.replicate bytes.length VCode.zero |>.flatMap VCode.bits), 0xFF, flNv)

/-- TTRN: block (i, j) moves to (j, i) with its scale (R310). -/
def tileTrn (d a : TileHandle) (ab : List Byte) : TileVal :=
  let tb (b : Nat) : Nat := if a.blocks = 4 then (match b with | 1 => 2 | 2 => 1 | x => x) else b
  let sc (b : Nat) : Byte := a.scales.toList.getD (tb b) 0
  let esc := BitVec.ofNat 4 ((List.range 4).foldl (fun x b => if a.esc.getLsbD (tb b) then x + 2 ^ b else x) 0)
  match a.fmt with
  | .vb8 =>
    let side := if a.blockLen = 1024 then 32 else 16
    let bl := (List.range a.blocks).map fun b => vbTranspose side ((ab.drop (tb b * a.blockLen)).take a.blockLen) (sc b) (a.esc.getLsbD (tb b))
    { bytes := bl.flatMap (·.1), scales := Vector.ofFn fun b : Fin 4 => match bl[b.val]? with | some x => x.2.1 | none => sc b.val, esc, flags := orFl (bl.map (·.2.2)) }
  | _ => { bytes := codeBytes a.fmt (transposed a.width 0 (tileCodes a ab)), scales := if isBlockFmt a.fmt then Vector.ofFn fun b : Fin 4 => sc b.val else d.scales, esc := d.esc, flags := 0 }

/-- The reduction of one row or column (R311). -/
def reduce (op : RedOp) (f : Fmt) (rm : Nat) : List Nat → Nat × Fl
  | [] => (0, 0)
  | x :: xs =>
    match op, fmtF f with
    | .sum, some g =>
      let h := if g.width = 16 then ffp32 else g
      let acc := accAll (fun (o : Nat) (y : Nat) => fExact h rm (fvAdd rm (fDecode h o) (fDecode g y))) ((fEncode h rm (fDecode g x)).1) xs
      if g.width = 16 then let r := fEncode g rm (fDecode h acc.1); (r.1, acc.2 ||| r.2 ||| sigFlags [fDecode g x]) else (acc.1, acc.2 ||| sigFlags [fDecode g x])
    | .sum, none => (wrapInt 32 ((x :: xs).foldl (fun s y => s + signedNat 32 y) 0), 0)
    | .max, some g => accAll (fun o y => fpMinMax true g o y) x xs
    | .min, some g => accAll (fun o y => fpMinMax false g o y) x xs
    | .max, none => (wrapInt 32 (xs.foldl (fun m y => max m (signedNat 32 y)) (signedNat 32 x)), 0)
    | .min, none => (wrapInt 32 (xs.foldl (fun m y => min m (signedNat 32 y)) (signedNat 32 x)), 0)

/-- TRED (R311). -/
def tileRed (op : RedOp) (col : Bool) (d : TileHandle) (rm : Nat) (as : List Nat) : TileVal :=
  let w := d.width
  let rows := chunks w w as
  let rs := (if col then columns w 0 rows else rows).map (reduce op d.fmt rm)
  let out := rs.map fun r => List.replicate w r.1
  d.codes (if col then (columns w 0 out).flatten else out.flatten) (orFl (rs.map (·.2)))

/-! ### Affine forms (R312 to R314) -/

/-- An affine pair from its code: gain and offset (R176). -/
def affOf (c : Nat) : Nat × Nat := (c / 2 ^ 32, c % 2 ^ 32)
def affCode (p : Nat × Nat) : Nat := p.1 * 2 ^ 32 + p.2

/-- One step of the network of R178 at distance `d`, and its flags. -/
def scanStep (rm d : Nat) (p : List (Nat × Nat)) : List (Nat × Nat) × Fl :=
  let rs := (numberFrom 0 p).map fun e => if e.1 < d then (e.2, (0 : Fl)) else affCompose rm e.2 (p.getD (e.1 - d) (0, 0))
  (rs.map (·.1), orFl (rs.map (·.2)))

/-- The prefix compositions of a row. -/
def scanNet (rm w : Nat) : Nat → Nat → List (Nat × Nat) → Fl → List (Nat × Nat) × Fl
  | 0, _, p, fl => (p, fl)
  | n + 1, d, p, fl => if d < w then let r := scanStep rm d p; scanNet rm w n (2 * d) r.1 (fl ||| r.2) else (p, fl)

/-- A row scanned with its carry: the row, the new carry, the flags (R178). -/
def scanRow (rm w : Nat) (row : List (Nat × Nat)) (c : Nat × Nat) : List (Nat × Nat) × (Nat × Nat) × Fl :=
  let (p, fl) := scanNet rm w 6 1 row 0
  let rs := p.map fun x => affCompose rm x c
  (rs.map (·.1), (rs.map (·.1)).getLastD c, fl ||| orFl (rs.map (·.2)))

/-- TSCAN: the scanned tile, and the carry tile with the new pair of each row at its element 0 (R312). -/
def tileScan (d c : TileHandle) (rm : Nat) (as cs : List Nat) : TileVal × TileVal :=
  let w := d.width
  let rs := ((chunks w w as).zip (chunks w w cs)).map fun p =>
    let r := scanRow rm w (p.1.map affOf) (affOf (p.2.headD 0))
    (r.1.map affCode, affCode r.2.1 :: p.2.drop 1, r.2.2)
  (d.codes (rs.flatMap (·.1)) (orFl (rs.map (·.2.2))), c.codes (rs.flatMap (·.2.1)) 0)

/-- TAFF (R313). -/
def tileAff (d : TileHandle) (rm : Nat) (as bs : List Nat) : TileVal :=
  let rs := (as.zip bs).map fun p => affApply rm (affOf p.1).1 (affOf p.1).2 p.2
  d.codes (rs.map (·.1)) (orFl (rs.map (·.2)))

/-- TCOMP: the pair of A after the pair of B (R314). -/
def tileComp (d : TileHandle) (rm : Nat) (as bs : List Nat) : TileVal :=
  let rs := (as.zip bs).map fun p => affCompose rm (affOf p.1) (affOf p.2)
  d.codes (rs.map fun r => affCode r.1) (orFl (rs.map (·.2)))

/-! ### TZERO and the image form (R299, R301) -/

/-- TZERO (R299). -/
def tileZero (d : TileHandle) : TileVal :=
  let bytes := match d.fmt with
    | .aff32 => (List.replicate d.count (f32One * 2 ^ 32)).flatMap (leBytes 8)
    | _ => List.replicate d.bytes 0
  { bytes, scales := if isBlockFmt d.fmt then Vector.replicate 4 0x7F else d.scales,
    esc := if d.fmt = .vb8 then BitVec.ofNat 4 (2 ^ d.blocks - 1) else d.esc, flags := 0 }


/-- The trailer TST writes (R301). -/
def TileHandle.trailer (d : TileHandle) : List Byte :=
  if d.shp then d.scales.toList ++ [d.esc.setWidth 8, 0, 0, 0]
  else [d.scales[0], 0, 0, 0, (d.esc &&& 1#4).setWidth 8, 0, 0, 0]

/-- What TLD writes to a handle from the bytes it read (R301, R302). -/
def tileLoad (d : TileHandle) (image : Bool) (data : List Byte) : TileVal :=
  if image && isBlockFmt d.fmt then
    let t := data.drop d.bytes
    let n := if d.shp then 4 else 1
    { bytes := data.take d.bytes,
      scales := Vector.ofFn fun b : Fin 4 => if b.val < n then t.getD b.val 0 else d.scales[b.val],
      esc := if d.shp then (t.getD 4 0).setWidth 4 else (t.getD 4 0).setWidth 4 &&& 1#4, flags := 0 }
  else { bytes := data, scales := d.scales, esc := d.esc, flags := 0 }

end Sys2Proof.Machine
end

