-- ==== Sys2Proof/Machine/Tile.lean ====
section
/-! DEFINITION. Tile instructions at issue: the checks of the descriptor table, allocation, and the entry of operations into their subqueue (R282 to R289, R294 to R314). -/

namespace Sys2Proof.Machine

/-! ### Operands and checks (R282, R289) -/

/-- The register a handle operand reads. -/
def hopRegs : HOp → List Reg
  | .imm _ => []
  | .reg x => [x]

/-- Handles of the first, second and third operand (R282). -/
def Iss.h1 (e : Iss) (o : HOp) : Nat := hopVal e.rd o
def Iss.h2 (e : Iss) (o : HOp) : Nat := hopVal e.rd2 o
def Iss.h3 (e : Iss) (o : HOp) : Nat := hopVal e.rd3 o

/-- The shape of a tile instruction (R201, R289). -/
def tshape (h : Hdr) (reads writes : List Reg) (rounds : Bool) : Shape := { hd := h, words := 2, reads, writes, rounds, sup := false }

/-- A trap of the table that names one of the operands at fault, each an operand number and a handle (R289, log 31). -/
def State.tileTrap (s : State) (e : Iss) (code : Nat) (ops : List (Nat × Nat)) : State :=
  let o := ops.getD (Config.pickOperand s.tick % max 1 ops.length) (0, 0)
  { s with tick := s.tick + 1 }.trapAt e code o.1 o.2

/-- Named operands whose handle is FREE, and those of another launch for an APP context (R288, R289). -/
def State.freeOps (s : State) (e : Iss) (ops : List (Nat × Nat)) : List (Nat × Nat) := ops.filter fun o => s.handleState e.quad o.2 = hsFree
def State.foreignOps (s : State) (e : Iss) (ops : List (Nat × Nat)) : List (Nat × Nat) :=
  ops.filter fun o => e.app && (s.handle e.quad o.2).launch.toNat != e.h.ctx.launch

/-- Checks 4 and 5 of R289, then what follows. -/
def State.tileChecked (s : State) (e : Iss) (ops : List (Nat × Nat)) (f : State → State) : State :=
  if s.freeOps e ops != [] then s.tileTrap e tcHstate (s.freeOps e ops)
  else if s.foreignOps e ops != [] then s.tileTrap e tcHowner (s.foreignOps e ops)
  else f s

/-- A tile operation as its instruction gives it, before it is filled in at its entry. -/
def tileOp (op : TOp) (reads : List Nat) (hd ha hb : Nat) : TileOp :=
  { op, reads, hd, ha, hb, key := 0, part := 0, asid := 0, launch := 0, rm := 0, scalar := 0, mode := 0, va := 0, stride := 0, len := 0,
    seq := 0, prep := false, fault := 0, segs := [], data := [], since := 0 }

/-- Changes the engine of a quad. -/
def State.modTe (s : State) (quad : Nat) (f : Te → Te) : State := { s with tes := mapUpd s.tes quad teReset f }
/-- A subqueue of a TE by its IU's number within the quad. -/
def Te.sub (t : Te) (iu : Nat) : List TileOp := t.subq.toList.getD iu []
def Te.setSub (t : Te) (iu : Nat) (q : List TileOp) : Te := { t with subq := t.subq.setIfInBounds iu q }

/-- The operation enters its IU's subqueue; at the head it begins to prepare (R289, R290). -/
def State.enterSubq (s : State) (e : Iss) (S : BitVec 3) (o : TileOp) : State :=
  let s := s.finish e S e.h
  let c := e.h.ctx
  let o := { o with key := e.key, part := e.part, asid := e.asid, launch := c.launch, rm := c.rm, mode := c.mode, seq := s.nextId }
  let q := (s.te e.quad).sub (e.iu % 4)
  let s := (s.modTe e.quad fun t => t.setSub (e.iu % 4) (q ++ [o])).bump
  if q.isEmpty then s.emit (.tilePrepare e.quad (e.iu % 4)) else s

/-- Operands at fault: those that a broken condition is about. -/
def atFault (cs : List (Bool × List Nat)) : List Nat := (cs.filter (·.1)).flatMap (·.2)
/-- The conditions that source `i` must have the format, and the shape, of the destination. -/
def sameAs (d a : TileHandle) (i : Nat) : List (Bool × List Nat) := [(a.fmt != d.fmt, [0, i]), (a.shp != d.shp, [0, i])]
/-- Check 6, then what follows; TOPND names an operand at fault (R289, log 31). -/
def State.tileGood (s : State) (e : Iss) (ops : List (Nat × Nat)) (bad : List Nat) (f : State → State) : State :=
  if bad = [] then f s else s.tileTrap e tcTopnd (ops.filter fun o => bad.contains o.1)

/-- Checks 4 to 6, then the entry. -/
def State.tileEnter (s : State) (e : Iss) (S : BitVec 3) (ops : List (Nat × Nat)) (bad : List (Bool × List Nat)) (o : TileOp) : State :=
  s.tileChecked e ops fun s => s.tileGood e ops (atFault bad) fun s => s.enterSubq e S o

/-! ### Handle management (R286, R288, R295 to R299) -/

/-- Whether a format carries block scales that may be 32×32. -/
def paramFmtBad (v : Dword) : Bool :=
  getF v 6 58 != 0 || getF v 0 4 = 15 || (v.getLsbD 5 && (!v.getLsbD 4 || !isBlockFmt (decFmt (getF v 0 4))))

/-- Handles of a quad that are allocated. -/
def State.allocated (s : State) (quad : Nat) : List TileHandle := (s.handles.filter fun e => e.1 / 1024 = quad && e.2.alloc).map (·.2)

/-- The lowest aligned quarter from which `n` are unallocated (R283). -/
def State.findQuarters (s : State) (quad n : Nat) : Option Nat :=
  let hs := s.allocated quad
  ((List.range (4096 / n)).map (· * n)).find? fun q =>
    hs.all fun h => decide (h.baseq.toNat + h.quarters ≤ q) || decide (q + n ≤ h.baseq.toNat)

/-- Quarters charged to a team in a quad (R288). -/
def State.chargedQuarters (s : State) (quad : Nat) (launch team : Nat) : Nat :=
  ((s.allocated quad).filter fun h => h.charged && h.launch.toNat = launch && h.team = team).foldl (fun a h => a + h.quarters) 0

/-- TQUOTA of a context's team (R141). -/
def State.tquota (s : State) (e : Iss) : Nat := match s.teamPa (some e.clu) e.part e.asid e.h.ctx.link with | some pa => s.readN (pa + 0x1C) 2 | none => 0

/-- The descriptor that a parameter word gives (R284, R286, R295). -/
def handleOf (v : Dword) (c : Ctx) (q : Nat) : TileHandle :=
  { alloc := true, scales := Vector.replicate 4 0x7F, launch := BitVec.ofNat 16 c.launch, level := BitVec.ofNat 3 c.level, fcode := 0, mark := false,
    esc := 0, flags := 0, baseq := BitVec.ofNat 12 q, fmt := decFmt (getF v 0 4), blk := v.getLsbD 5, shp := v.getLsbD 4, team := c.link.toNat,
    charged := c.mode = 0 }

/-- TALLOC (R286, R288, R289, R295). -/
def execTalloc (h : Hdr) (hd : HOp) (a : Reg) (s : State) : Host.Outcome State Fault Refusal :=
  s.run (.talloc h hd a) (tshape h (hopRegs hd ++ [a]) [] false) fun e s =>
    let n := e.h1 hd
    let v := e.yd a
    let d := handleOf v e.h.ctx 0
    if (s.handle e.quad n).alloc then s.trapAt e tcHstate 0 n
    else if paramFmtBad v then s.trapAt e tcTopnd 1 n
    else if d.charged && decide (s.chargedQuarters e.quad e.h.ctx.launch d.team + d.quarters > 4 * s.tquota e) then s.trapAt e tcQuota 0 0
    else match s.findQuarters e.quad d.quarters with
      | none => s.trapAt e tcScrfull 0 0
      | some q => { s.finish e h.s e.h with handles := mapPut s.handles (hKey e.quad n) (handleOf v e.h.ctx q) }

/-- TFREE, accepted once the handle is not BUSY (R296). -/
def execTfree (h : Hdr) (hd : HOp) (s : State) : Host.Outcome State Fault Refusal :=
  s.run (.tfree h hd) (tshape h (hopRegs hd) [] false) fun e s =>
    s.tileChecked e [(0, e.h1 hd)] fun s => { s.finish e h.s e.h with handles := mapErase s.handles (hKey e.quad (e.h1 hd)) }

/-- TDESC (R284, R297). -/
def execTdesc (h : Hdr) (d : Reg) (ha : HOp) (s : State) : Host.Outcome State Fault Refusal :=
  s.run (.tdesc h d ha) (tshape h (hopRegs ha) [d] false) fun e s => s.start e h.s d (.tile e.quad (e.h1 ha) false)
/-- TSTAT (R297). -/
def execTstat (h : Hdr) (d : Reg) (ha : HOp) (s : State) : Host.Outcome State Fault Refusal :=
  s.run (.tstat h d ha) (tshape h (hopRegs ha) [d] false) fun e s => s.start e h.s d (.tile e.quad (e.h1 ha) true)

/-- TWAIT, accepted once the handle is not BUSY: FLAGS move to PRED, a FAULT handle traps (R298). -/
def execTwait (h : Hdr) (ha : HOp) (s : State) : Host.Outcome State Fault Refusal :=
  s.run (.twait h ha) (tshape h (hopRegs ha) [] false) fun e s =>
    let n := e.h1 ha
    s.tileChecked e [(1, n)] fun s =>
      let d := s.handle e.quad n
      let s := { s.finish e h.s (e.h.flagAt (e.t + 8) d.flags) with handles := mapPut s.handles (hKey e.quad n) { d with flags := 0 } }
      if d.mark then s.boundaryTrap e.key ⟨tcTfault, d.fcode.toNat, n⟩ else s

/-- TZERO (R299). -/
def execTzero (h : Hdr) (hd : HOp) (s : State) : Host.Outcome State Fault Refusal :=
  s.run (.tzero h hd) (tshape h (hopRegs hd) [] false) fun e s =>
    let n := e.h1 hd
    s.tileEnter e h.s [(0, n)] [] (tileOp .zero [] n n n)

/-! ### TLD and TST (R300, R301) -/

/-- Bytes of a row. -/
def TileHandle.rowBytes (d : TileHandle) : Nat := d.bytes / d.width
/-- The form's length L (R301). -/
def TileHandle.formLen (d : TileHandle) (stride : Nat) : Nat := if stride = 0 then d.imageLen else (d.width - 1) * stride + d.rowBytes

/-- Checks 4 to 7 of TLD and TST, then the entry (R289, R301). -/
def State.tileMem (s : State) (e : Iss) (S : BitVec 3) (n : DescN) (hd : Nat) (off stride : Dword) (store : Bool) : State :=
  s.tileChecked e [(0, hd)] fun s =>
    let d := s.handle e.quad hd
    let st := stride.toNat
    if st != 0 && (isBlockFmt d.fmt || (store && st < d.rowBytes)) then s.trapAt e tcTopnd 0 hd
    else match s.preCheck e n.toNat off (d.formLen st) (if store then .store else .load) with
      | .error t => s.trapAt e t.code t.detail t.faddr
      | .ok va =>
        let o := if store then tileOp .st [hd] hd hd hd else tileOp .ld [] hd hd hd
        s.enterSubq e S { o with va, stride := st, len := d.formLen st }

/-- TLD (R300 to R302). -/
def execTld (h : Hdr) (n : DescN) (hd : HOp) (a b : Reg) (s : State) : Host.Outcome State Fault Refusal :=
  s.run (.tld h n hd a b) (tshape h (hopRegs hd ++ [a, b]) [] false) fun e s => s.tileMem e h.s n (e.h1 hd) (e.yd a) (e.zd b) false
/-- TST (R300 to R302). -/
def execTst (h : Hdr) (n : DescN) (hd : HOp) (a b : Reg) (s : State) : Host.Outcome State Fault Refusal :=
  s.run (.tst h n hd a b) (tshape h (hopRegs hd ++ [a, b]) [] false) fun e s => s.tileMem e h.s n (e.h1 hd) (e.yd a) (e.zd b) true

/-! ### Products (R303 to R306) -/

/-- The destination format of a product, none where the pair is refused (R303). -/
def mmaDst (a b : Fmt) : Option Fmt :=
  if isBlockFmt a && isBlockFmt b then some .aff32
  else if (a = .int8 || a = .uint8) && (b = .int8 || b = .uint8) then some .int32
  else if (a = .int4 || a = .uint4) && (b = .int4 || b = .uint4) then some .int32
  else if a != b then none
  else match a with
    | .fp64 => some .fp64
    | .fp32 => some .aff32
    | .bfx2 => some .aff32
    | .fp16 => some .aff32
    | .bf16 => some .aff32
    | .int32 => some .int32
    | .int16 => some .int32
    | _ => none

/-- TMMA and TMMAR at issue (R13, R289, R303). -/
def State.tileProduct (s : State) (e : Iss) (S : BitVec 3) (bas rot : Bool) (hd ha hb : Nat) : State :=
  let ops := [(0, hd), (1, ha), (2, hb)]
  s.tileChecked e ops fun s =>
    let d := s.handle e.quad hd
    let a := s.handle e.quad ha
    let b := s.handle e.quad hb
    let r := mmaDst a.fmt b.fmt
    s.tileGood e ops (atFault [(a.shp != d.shp, [0, 1]), (b.shp != d.shp, [0, 2]), (hd = ha, [0, 1]), (hd = hb, [0, 2]), (r.isNone, [1, 2]), (r.isSome && r != some d.fmt, [0])]) fun s =>
    if bas && (e.die % 4 = 0 || !s.isM (e.die - 1)) then s.trapAt e tcAs 0 0
    else s.enterSubq e S (tileOp (.mma bas rot) [hd, ha, hb] hd ha hb)

/-- TMMA (R303 to R305). -/
def execTmma (h : Hdr) (bas : Bool) (hd ha hb : HOp) (s : State) : Host.Outcome State Fault Refusal :=
  s.run (.tmma h bas hd ha hb) (tshape h (hopRegs hd ++ hopRegs ha ++ hopRegs hb) [] true) fun e s => s.tileProduct e h.s bas false (e.h1 hd) (e.h2 ha) (e.h3 hb)
/-- TMMAR (R303, R306). -/
def execTmmar (h : Hdr) (bas : Bool) (hd ha hb : HOp) (s : State) : Host.Outcome State Fault Refusal :=
  s.run (.tmmar h bas hd ha hb) (tshape h (hopRegs hd ++ hopRegs ha ++ hopRegs hb) [] true) fun e s => s.tileProduct e h.s bas true (e.h1 hd) (e.h2 ha) (e.h3 hb)

/-! ### Element-wise forms (R307) -/

/-- Formats of element-wise forms, INT32 where the table allows it (R307, R311). -/
def eltFmtOk (int : Bool) (f : Fmt) : Bool := match f with | .fp64 => true | .fp32 => true | .fp16 => true | .bf16 => true | .int32 => int | _ => false

/-- A format outside those of the form is that operand's fault. -/
def fmtFault (int : Bool) (ts : List TileHandle) : List (Bool × List Nat) := (numberFrom 0 ts).map fun e => (!eltFmtOk int e.2.fmt, [e.1])

/-- A form of two tiles: D and both sources of one shape and format (R307). -/
def State.tileElt2 (s : State) (i : Instr) (h : Hdr) (fn : Nat) (int rounds : Bool) (hd ha hb : HOp) : Host.Outcome State Fault Refusal :=
  s.run i (tshape h (hopRegs hd ++ hopRegs ha ++ hopRegs hb) [] rounds) fun e s =>
    let (d, a, b) := (e.h1 hd, e.h2 ha, e.h3 hb)
    let q (n : Nat) := s.handle e.quad n
    let bad := fmtFault int [q d, q a, q b] ++ sameAs (q d) (q a) 1 ++ sameAs (q d) (q b) 2
    s.tileEnter e h.s [(0, d), (1, a), (2, b)] bad (tileOp (.elt fn) (if fn = 3 then [d, a, b] else [a, b]) d a b)

/-- A form of one tile (R307). -/
def State.tileElt1 (s : State) (i : Instr) (h : Hdr) (fn : Nat) (int rounds : Bool) (hd ha : HOp) : Host.Outcome State Fault Refusal :=
  s.run i (tshape h (hopRegs hd ++ hopRegs ha) [] rounds) fun e s =>
    let (d, a) := (e.h1 hd, e.h2 ha)
    let q (n : Nat) := s.handle e.quad n
    s.tileEnter e h.s [(0, d), (1, a)] (fmtFault int [q d, q a] ++ sameAs (q d) (q a) 1) (tileOp (.elt fn) [a] d a a)

/-- TADD (R307). -/
def execTadd (h : Hdr) (hd ha hb : HOp) (s : State) : Host.Outcome State Fault Refusal := s.tileElt2 (.tadd h hd ha hb) h 0 true true hd ha hb
/-- TSUB (R307). -/
def execTsub (h : Hdr) (hd ha hb : HOp) (s : State) : Host.Outcome State Fault Refusal := s.tileElt2 (.tsub h hd ha hb) h 1 true true hd ha hb
/-- TMUL (R307). -/
def execTmul (h : Hdr) (hd ha hb : HOp) (s : State) : Host.Outcome State Fault Refusal := s.tileElt2 (.tmul h hd ha hb) h 2 true true hd ha hb
/-- TFMA: D is also an operand (R307). -/
def execTfma (h : Hdr) (hd ha hb : HOp) (s : State) : Host.Outcome State Fault Refusal := s.tileElt2 (.tfma h hd ha hb) h 3 false true hd ha hb
/-- TMAX (R242, R307). -/
def execTmax (h : Hdr) (hd ha hb : HOp) (s : State) : Host.Outcome State Fault Refusal := s.tileElt2 (.tmax h hd ha hb) h 4 true false hd ha hb
/-- TMIN (R242, R307). -/
def execTmin (h : Hdr) (hd ha hb : HOp) (s : State) : Host.Outcome State Fault Refusal := s.tileElt2 (.tmin h hd ha hb) h 5 true false hd ha hb
/-- TABS (R214, R241, R307). -/
def execTabs (h : Hdr) (hd ha : HOp) (s : State) : Host.Outcome State Fault Refusal := s.tileElt1 (.tabs h hd ha) h 6 true false hd ha
/-- TEXP (R307). -/
def execTexp (h : Hdr) (hd ha : HOp) (s : State) : Host.Outcome State Fault Refusal := s.tileElt1 (.texp h hd ha) h 7 false true hd ha
/-- TRCP (R307). -/
def execTrcp (h : Hdr) (hd ha : HOp) (s : State) : Host.Outcome State Fault Refusal := s.tileElt1 (.trcp h hd ha) h 8 false true hd ha
/-- TSCALE: its scalar is read at issue (R307). -/
def execTscale (h : Hdr) (hd ha : HOp) (b : Reg) (s : State) : Host.Outcome State Fault Refusal :=
  s.run (.tscale h hd ha b) (tshape h (hopRegs hd ++ hopRegs ha ++ [b]) [] true) fun e s =>
    let (d, a) := (e.h1 hd, e.h2 ha)
    let q (n : Nat) := s.handle e.quad n
    s.tileEnter e h.s [(0, d), (1, a)] (fmtFault true [q d, q a] ++ sameAs (q d) (q a) 1)
      { tileOp (.elt 9) [a] d a a with scalar := e.zd b }

/-! ### Conversion, transposition, reduction (R309 to R311) -/

/-- TCVT (R309). -/
def execTcvt (h : Hdr) (hd ha : HOp) (s : State) : Host.Outcome State Fault Refusal :=
  s.run (.tcvt h hd ha) (tshape h (hopRegs hd ++ hopRegs ha) [] true) fun e s =>
    let (d, a) := (e.h1 hd, e.h2 ha)
    s.tileEnter e h.s [(0, d), (1, a)] [(d = a, [0, 1]), ((s.handle e.quad a).shp != (s.handle e.quad d).shp, [0, 1])] (tileOp .cvt [a] d a a)
/-- TTRN (R310). -/
def execTtrn (h : Hdr) (hd ha : HOp) (s : State) : Host.Outcome State Fault Refusal :=
  s.run (.ttrn h hd ha) (tshape h (hopRegs hd ++ hopRegs ha) [] false) fun e s =>
    let (d, a) := (e.h1 hd, e.h2 ha)
    let (p, q) := (s.handle e.quad d, s.handle e.quad a)
    s.tileEnter e h.s [(0, d), (1, a)] ((p.blk != q.blk, [0, 1]) :: sameAs p q 1) (tileOp .trn [a] d a a)
/-- TRED: the SUM forms check the rounding mode (R289, R311). -/
def execTred (h : Hdr) (op : RedOp) (col : Bool) (hd ha : HOp) (s : State) : Host.Outcome State Fault Refusal :=
  s.run (.tred h op col hd ha) (tshape h (hopRegs hd ++ hopRegs ha) [] (op = .sum)) fun e s =>
    let (d, a) := (e.h1 hd, e.h2 ha)
    let (p, q) := (s.handle e.quad d, s.handle e.quad a)
    s.tileEnter e h.s [(0, d), (1, a)] (fmtFault true [p, q] ++ sameAs p q 1) (tileOp (.red op col) [a] d a a)

/-! ### Affine operations (R312 to R314) -/

/-- An affine form: the formats of D, A and B, one shape, and pairs that must differ. -/
def State.tileAffine (s : State) (i : Instr) (h : Hdr) (op : TOp) (fd fb : Fmt) (differ : Nat → Nat → Nat → List (Bool × List Nat)) (hd ha hb : HOp) : Host.Outcome State Fault Refusal :=
  s.run i (tshape h (hopRegs hd ++ hopRegs ha ++ hopRegs hb) [] true) fun e s =>
    let (d, a, b) := (e.h1 hd, e.h2 ha, e.h3 hb)
    let q (n : Nat) := s.handle e.quad n
    let bad := [((q d).fmt != fd, [0]), ((q a).fmt != .aff32, [1]), ((q b).fmt != fb, [2]), ((q a).shp != (q d).shp, [0, 1]), ((q b).shp != (q d).shp, [0, 2])] ++ differ d a b
    s.tileEnter e h.s [(0, d), (1, a), (2, b)] bad (tileOp op [a, b] d a b)

/-- TSCAN (R312). -/
def execTscan (h : Hdr) (hd ha hb : HOp) (s : State) : Host.Outcome State Fault Refusal :=
  s.tileAffine (.tscan h hd ha hb) h .scan .aff32 .aff32 (fun d a b => [(b = a, [1, 2]), (b = d, [0, 2])]) hd ha hb
/-- TAFF (R313). -/
def execTaff (h : Hdr) (hd ha hb : HOp) (s : State) : Host.Outcome State Fault Refusal :=
  s.tileAffine (.taff h hd ha hb) h .aff .fp32 .fp32 (fun d a _ => [(d = a, [0, 1])]) hd ha hb
/-- TCOMP (R314). -/
def execTcomp (h : Hdr) (hd ha hb : HOp) (s : State) : Host.Outcome State Fault Refusal :=
  s.tileAffine (.tcomp h hd ha hb) h .comp .aff32 .aff32 (fun _ _ _ => []) hd ha hb

end Sys2Proof.Machine
end

