-- ==== Sys2Proof/Machine/TileSteps.lean ====
section
/-! DEFINITION. The tile engine at work: prepare, start, run and commit, and rotation steps (R14, R63, R134, R290 to R293, R302 to R306). -/

namespace Sys2Proof.Machine

/-! ### What an operation waits for (R129, R134, R302) -/

/-- The partition is frozen or being frozen: its engines prepare and start nothing (R293, R380). -/
def State.halted (s : State) (k n : Nat) : Bool := (s.part k).any fun p => p.freeze.isSome && !(mapFind p.launches n).any (·.urgent)

/-! ### Prepare (R285, R290, R301, R302) -/

/-- Pieces of a range that lie within 4 KiB each. -/
def splitPages : Nat → Nat → Nat → List (Nat × Nat)
  | 0, _, _ => []
  | f + 1, va, n => if n = 0 then [] else let m := min n (4096 - va % 4096); (va, m) :: splitPages f (va + m) (n - m)

/-- Ranges of VA that a form covers, in the order of the tile's bytes (R301). -/
def TileOp.ranges (o : TileOp) (d : TileHandle) : List (Nat × Nat) :=
  let rs := if o.stride = 0 then [(o.va, o.len)] else (List.range d.width).map fun i => (o.va + i * o.stride, d.rowBytes)
  rs.flatMap fun r => splitPages 16 r.1 r.2

/-- FCODE of a trap of a walk (R285). -/
def walkFcode (code : Nat) : Nat := if code = tcNomap then 1 else if code = tcPtfmt then 2 else if code = tcPhys then 3 else 6

/-- Lines of ranges of addresses. -/
def segLines (segs : List (Nat × Nat)) : List Nat := segs.flatMap fun g => rangeFrom (lineOf g.1) (lineOf (g.1 + g.2 - 1) + 1 - lineOf g.1)

/-- Fault code of a page piece that an engine reaches for a launch, 0 where it may be used (R57, R285, R320, R380). -/
def State.pageFcode (s : State) (die part launch mode : Nat) (st : Bool) (l : Leaf) (va n : Nat) : Nat :=
  let pa := l.pa va
  if l.ctx then 4
  else match s.pieceBad die part 0 (some launch) mode (if st then .store else .load) l pa n with
    | some (c, _) => if c = tcPhys then 3 else if mapRow pa = 3 && c != tcPerm then 5 else if c = tcFrozen then 28 else 4
    | none =>
      match s.region pa with
      | .bde _ => 4
      | .alias_ .. => 5
      | _ =>
        if st && s.hitsTeam part pa n then 4
        else if s.offline pa then 6 else 0

/-- A refusal by the firewall of a page piece that an engine reaches is recorded (R398, R403). -/
def State.pageRecord (s : State) (die part key launch mode : Nat) (st : Bool) (l : Leaf) (va n : Nat) : State :=
  match s.pieceBad die part 0 (some launch) mode (if st then .store else .load) l (l.pa va) n with
  | some (c, d) => if l.ctx then s else s.fwRecord die part key ⟨c, d, va⟩
  | none => s

/-- FCODE of a page piece of a tile operation; memory that a freeze copies is PERM (R285, R380, log 35). -/
def State.pieceFcode (s : State) (die : Nat) (o : TileOp) (st : Bool) (l : Leaf) (va n : Nat) : Nat :=
  match s.pageFcode die o.part o.launch o.mode st l va n with
  | 28 => 4
  | 0 => if !st && (segLines [(l.pa va, n)]).any s.isPoison then 6 else 0
  | c => c

/-- What a prepare finds of the pieces of an operation: physical ranges, the lines that L2 takes no copy of, the FCODEs met. -/
structure Prep where
  s    : State
  segs : List (Nat × Nat)
  past : List Nat
  cs   : List Nat
  deriving DecidableEq, Repr
/-- Translates the pieces of an operation, installing what its walks find (R31, R63, R285). -/
def Prep.pieces (p : Prep) (quad : Nat) (o : TileOp) (st : Bool) : List (Nat × Nat) → Prep
  | [] => p
  | (va, n) :: r =>
    match p.s.engineLookup (quad / 2) o.part o.asid va with
    | (s, .fault t) => { p with s, cs := p.cs ++ [walkFcode t.code] }.pieces quad o st r
    | (s, .ok l) =>
      let s := (s.noteHov (lineOf (l.pa va)) (quad / 32) l).pageRecord (quad / 32) o.part o.key o.launch o.mode st l va n
      let c := s.pieceFcode (quad / 32) o st l va n
      let past := (segLines [(l.pa va, n)]).filter (s.bypasses l.nt)
      { s, segs := p.segs ++ [(l.pa va, n)], past := p.past ++ past, cs := if c = 0 then p.cs else p.cs ++ [c] : Prep }.pieces quad o st r
def State.prepPieces (s : State) (quad : Nat) (o : TileOp) (st : Bool) : Prep := (⟨s, [], [], []⟩ : Prep).pieces quad o st (o.ranges (s.handle quad o.hd))

/-- The head of a subqueue is prepared: it may start (R290). -/
def State.prepared (s : State) (quad iu : Nat) (o : TileOp) : State :=
  let o := { o with prep := true, since := s.now }
  let s := s.modTe quad fun t => t.setSub iu (o :: (t.sub iu).drop 1)
  let s := match o.op with | .mma _ true => s.emit (.rottime quad) | _ => s
  s.emit (.tileStart quad)

/-- An operation with memory operands waits for its context's earlier accesses and for tables whose home is held (R19, R129). -/
def State.prepWaits (s : State) (quad : Nat) (o : TileOp) : Bool :=
  s.accessBefore o.key o.seq || (o.ranges (s.handle quad o.hd)).any fun g => s.lookupHeld (quad / 2) o.part o.asid g.1

/-- A fault met in prepare: one of those met (R285). -/
def State.prepFault (s : State) (quad iu : Nat) (o : TileOp) (cs : List Nat) : State :=
  { s with tick := s.tick + 1 }.prepared quad iu { o with fault := cs.getD (Config.pickOperand s.tick % max 1 cs.length) 6 }

/-- TILE_PREPARE: TLD reads its source lines through its die's L2, TST owns its lines and holds them (R75, R85, R89, R290, R302). -/
def execTilePrepare (quad iu : Nat) (s : State) : Host.Outcome State Fault Refusal :=
  match (s.te quad).sub iu with
  | [] => .next s
  | o :: _ =>
    let die := quad / 32
    if o.prep || s.halted o.part o.launch then .next s
    else
      match o.op with
      | .ld =>
        if s.prepWaits quad o then .next (s.emit (.tilePrepare quad iu))
        else
          let ⟨s, segs, past, cs⟩ := s.prepPieces quad o false
          let ls := segLines segs
          if cs != [] then .next (s.prepFault quad iu o cs)
          else if s.lineBusy ls || ls.any s.claimed || ls.any (fun l => !past.contains l && !s.canShare l die) then .next (s.emit (.tilePrepare quad iu))
          else
            let s := ls.foldl (fun s l => s.agentRead (past.contains l) l die) s
            .next (s.prepared quad iu { o with segs, data := segs.flatMap fun g => s.dieBytes (past.contains (lineOf g.1)) die g.1 g.2 })
      | .st =>
        if s.prepWaits quad o then .next (s.emit (.tilePrepare quad iu))
        else
          let ⟨s, segs, past, cs⟩ := s.prepPieces quad o true
          let ls := segLines segs
          if cs != [] then .next (s.prepFault quad iu o cs)
          else if s.lineBusy ls || ls.any s.claimed || !s.canOwn (ls.filter fun l => !past.contains l) die || s.hostHas ls then .next ((s.snoopHost ls).emit (.tilePrepare quad iu))
          else
            let s := ls.foldl (fun s l => s.agentOwn (past.contains l) l die) s
            .next (({ s with claims := s.claims ++ [⟨.te quad, die, o.seq, ls⟩] } : State).prepared quad iu { o with segs })
      | _ => .next (s.prepared quad iu o)

/-! ### What a run computes (R291, R292, R304 to R314) -/

/-- First byte of the adjacent-store window of a quad, and of a tile's storage in it (R12, R305). -/
def asAddr (quad : Nat) (d : TileHandle) : Nat :=
  let die := quad / 32
  0x100_0000_0000 + towerOfDie die * 2 ^ 30 + (die % 4 - 1) * 0xB00_0000 + 0x600_0000 + quad % 32 * 2 ^ 21 + 512 * d.baseq.toNat

/-- Bytes the SRAM holds: an owner's unwritten bytes do not show; while they are on their way, each 2-byte unit is old or new, as is one that a non-temporal store is about to change (R14). -/
def State.asBytes (s : State) (a n : Nat) : List Byte :=
  let nts := (s.stores.filter fun p => p.2.nt).flatMap fun p => p.2.bytes.filter fun c => decide (a ≤ c.1 ∧ c.1 < a + n)
  (rangeFrom a n).map fun x =>
    match mapFind s.sram (lineOf x) with
    | some old => if (s.dirE (lineOf x)).st = .wait && Config.raceNew s.tick (x / 2) then memRead s.mem x else old.getD (x % 128) 0
    | none => if Config.raceNew s.tick (x / 2) then ((nts.find? (·.1 = x)).map (·.2)).getD (memRead s.mem x) else memRead s.mem x

/-- A value for a handle as it will be committed. -/
def State.outOf (s : State) (quad h : Nat) (v : TileVal) : TileOut :=
  { handle := h, bytes := numberFrom ((s.handle quad h).addr quad) v.bytes, scales := v.scales, esc := v.esc, flags := v.flags }

/-- The bytes of an operand of an operation. -/
def State.operand (s : State) (quad : Nat) (o : TileOp) (h : Nat) : List Byte :=
  let d := s.handle quad h
  s.racedBytes o.key (d.addr quad) d.bytes

/-- Whether a line of a handle's storage is poisoned (R91). -/
def State.tilePoison (s : State) (quad h : Nat) : Bool := (segLines [((s.handle quad h).addr quad, (s.handle quad h).bytes)]).any s.isPoison

/-- Whether a poisoned byte, or an adjacent store that is down, reaches the operation (R91, R305). -/
def State.runPoison (s : State) (quad : Nat) (o : TileOp) : Bool :=
  match o.op with
  | .mma true _ =>
    let a := asAddr quad (s.handle quad o.hb)
    s.tilePoison quad o.hd || s.tilePoison quad o.ha || s.offline a || (segLines [(a, (s.handle quad o.hb).bytes)]).any s.isPoison
  | _ => o.reads.any (s.tilePoison quad)

/-- What an operation writes to handles when it runs alone on the tiles as they stand. -/
def State.tileOuts (s : State) (quad : Nat) (o : TileOp) : List TileOut :=
  let d := s.handle quad o.hd
  let a := s.handle quad o.ha
  let b := s.handle quad o.hb
  let bd := s.operand quad o o.hd
  let ba := s.operand quad o o.ha
  let bb := s.operand quad o o.hb
  let out (v : TileVal) : List TileOut := [s.outOf quad o.hd v]
  match o.op with
  | .zero => out (tileZero d)
  | .ld => out (tileLoad d (o.stride = 0) o.data)
  | .st => []
  | .mma bas _ => out (tileMma d a b o.rm bd ba (if bas then s.asBytes (asAddr quad b) b.bytes else bb))
  | .elt fn =>
    let bs := if fn = 9 then List.replicate d.count (o.scalar.toNat % 2 ^ fmtBits d.fmt) else tileCodes b bb
    out (tileElt fn d o.rm (tileCodes a ba) bs (tileCodes d bd))
  | .cvt => out (tileCvt d a o.rm ba)
  | .trn => out (tileTrn d a ba)
  | .red op col => out (tileRed op col d o.rm (tileCodes a ba))
  | .scan => let r := tileScan d b o.rm (tileCodes a ba) (tileCodes b bb); [s.outOf quad o.hd r.1, s.outOf quad o.hb r.2]
  | .aff => out (tileAff d o.rm (tileCodes a ba) (tileCodes b bb))
  | .comp => out (tileComp d o.rm (tileCodes a ba) (tileCodes b bb))

/-- The bytes a TST writes (R301, R302). -/
def State.tileMemOut (s : State) (quad : Nat) (o : TileOp) : List (Nat × Byte) :=
  match o.op with
  | .st =>
    let d := s.handle quad o.hd
    let bs := s.operand quad o o.hd ++ (if o.stride = 0 && isBlockFmt d.fmt then d.trailer else [])
    (o.segs.flatMap fun g => rangeFrom g.1 g.2).zip bs
  | _ => []

/-- The run of an operation, from the tiles as they stand at its start (R291, R292). -/
def State.tileRunOf (s : State) (quad : Nat) (o : TileOp) : TileRun :=
  if o.fault != 0 then { op := o, fault := o.fault, outs := [], mem := [] }
  else if o.reads.any (fun h => (s.handle quad h).mark) then { op := o, fault := 7, outs := [], mem := [] }
  else if s.runPoison quad o then { op := o, fault := 6, outs := [], mem := [] }
  else { op := o, fault := 0, outs := s.tileOuts quad o, mem := s.tileMemOut quad o }

/-! ### Start (R290, R306) -/

/-- Whether a head may start, its rotation apart; its issue is a release towards the TE: what its context did before is performed (R129, R134, R290, R391). -/
def State.startable (s : State) (quad : Nat) (o : TileOp) : Bool :=
  o.prep && !s.halted o.part o.launch && (s.die (quad / 32)).relock.isNone && !((s.te quad).ops.any fun p => decide (p.seq < o.seq) && p.names.any o.names.contains) && !s.accessBefore o.key o.seq

/-- The first IU after the pointer whose head is as asked. -/
def Te.nextHead (t : Te) (p : TileOp → Bool) : Option (Nat × TileOp) :=
  ((List.range 4).map fun i => (t.ptr + 1 + i) % 4).findSome? fun iu => match t.sub iu with | o :: _ => if p o then some (iu, o) else none | [] => none

def TileOp.isRot (o : TileOp) : Bool := match o.op with | .mma _ true => true | _ => false

/-- The participants of a rotation step of a die, once every TE has one (R306). -/
def State.rotParts (s : State) (die : Nat) : Option (List (Nat × Nat × TileOp)) :=
  let ps := (rangeFrom (32 * die) 32).filterMap fun q => ((s.te q).nextHead fun o => o.isRot && s.startable q o).map fun x => (q, x.1, x.2)
  if ps.length = 32 then some ps else none

/-- An operation leaves its subqueue for its run; the next head prepares. -/
def State.launchRun (s : State) (quad iu : Nat) (r : TileRun) : State :=
  let s := s.modTe quad fun t => ({ t with ptr := iu, run := t.run ++ [r] } : Te).setSub iu ((t.sub iu).drop 1)
  let s := if ((s.te quad).sub iu).isEmpty then s else s.emit (.tilePrepare quad iu)
  s.emits [.tileCommit quad, .tileStart quad]

/-- What the participants of a step must agree on (R306). -/
def State.rotSig (s : State) (quad : Nat) (o : TileOp) : TOp × List (Fmt × Bool) :=
  (o.op, [o.ha, o.hb, o.hd].map fun h => ((s.handle quad h).fmt, (s.handle quad h).shp))

/-- A tile as it is sent to a neighbour: its bytes, scales and escape flags (R306). -/
def State.sentTile (s : State) (quad : Nat) (o : TileOp) (h : Nat) : TileVal :=
  { bytes := s.operand quad o h, scales := (s.handle quad h).scales, esc := (s.handle quad h).esc, flags := 0 }

/-- A rotation step on every TE of a die at once (R306). -/
def State.rotStep (s : State) (die : Nat) (ps : List (Nat × Nat × TileOp)) : State :=
  let runs := ps.map fun p => (p, s.tileRunOf p.1 p.2.2)
  let same := ps.all fun p => ps.all fun q => s.rotSig p.1 p.2.2 == s.rotSig q.1 q.2.2
  let sends (r : TileRun) : Bool := r.fault = 0 || (r.fault = 6 && Config.rotSends s.tick)
  let from' (q : Nat) (f : TileOp → Nat) : Option TileVal :=
    (runs.find? fun r => r.1.1 = q).bind fun r => if sends r.2 then some (s.sentTile q r.1.2.2 (f r.1.2.2)) else none
  let runs' := runs.map fun (p, r) =>
    let c := p.1 % 32
    let east := 32 * die + c / 8 * 8 + (c % 8 + 1) % 8
    let south := 32 * die + (c / 8 + 1) % 4 * 8 + c % 8
    let ina := (from' east (·.ha)).map (s.outOf p.1 p.2.2.ha)
    let inb := match p.2.2.op with | .mma true _ => none | _ => (from' south (·.hb)).map (s.outOf p.1 p.2.2.hb)
    let ins := if Config.pickOperand s.tick % 2 = 0 then ina.toList ++ inb.toList else inb.toList ++ ina.toList
    (p, if !same then ({ op := p.2.2, fault := 9, outs := [], mem := [] } : TileRun) else if r.fault != 0 then r else { r with outs := r.outs ++ ins })
  runs'.foldl (fun s r => s.launchRun r.1.1 r.1.2.1 r.2) { s with tick := s.tick + 1 }

/-- TILE_START (R290, R292, R306). -/
def execTileStart (quad : Nat) (s : State) : Host.Outcome State Fault Refusal :=
  let rot := s.rotParts (quad / 32)
  match (s.te quad).nextHead fun o => s.startable quad o && (!o.isRot || rot.isSome) with
  | some (iu, o) =>
    if o.isRot then .next (s.rotStep (quad / 32) (rot.getD []))
    else .next ({ s with tick := s.tick + 1 }.launchRun quad iu (s.tileRunOf quad o))
  | none =>
    let waits := (List.range 4).any fun iu => match (s.te quad).sub iu with | o :: _ => o.prep && s.accessBefore o.key o.seq | [] => false
    .next (if waits then s.emit (.tileStart quad) else s)

/-! ### Commit (R287, R291, R299, R302) -/

/-- A handle's share of a commit. -/
def State.commitOut (s : State) (quad : Nat) (w : TileOut) : State :=
  let s := s.perform w.bytes none none
  let d := s.handle quad w.handle
  { s with handles := mapPut s.handles (hKey quad w.handle) { d with scales := w.scales, esc := w.esc, flags := d.flags ||| w.flags } }

/-- A fault marks the destination (R287, R291). -/
def State.tileFault (s : State) (quad h code : Nat) : State :=
  { s with handles := mapPut s.handles (hKey quad h) { s.handle quad h with mark := true, fcode := BitVec.ofNat 8 code } }

/-- A command, or a prepared TST, gives up the lines it held; requests that waited go on (R90, R290). -/
def State.dropClaims (s : State) (num : Nat) : State :=
  let ls := (s.claims.filter (·.num = num)).flatMap (·.lines)
  ls.foldl (fun s l => s.homeDrain l) { s with claims := s.claims.filter (·.num != num) }

/-- An operation ends: its held lines are given up, the launch's end is looked at again. -/
def State.tileEnd (s : State) (quad : Nat) (o : TileOp) : State :=
  let s := match o.op with | .st => s.dropClaims o.seq | _ => s
  s.emits [.tileStart quad, .launchCompletion o.part o.launch]

/-- TILE_COMMIT: the whole of one run, in one step; a store waits while a role change holds the home of its lines (R19, R291). -/
def execTileCommit (quad : Nat) (s : State) : Host.Outcome State Fault Refusal :=
  match (s.te quad).run with
  | [] => .next s
  | r :: rest =>
    if (linesOf r.mem).any fun l => s.homeHeld (l * 128) then .next (s.emit (.tileCommit quad))
    else
    let s := s.modTe quad fun t => { t with run := rest }
    if r.fault != 0 then .next ((s.tileFault quad r.op.hd r.fault).tileEnd quad r.op)
    else
      let s := r.outs.foldl (fun s w => s.commitOut quad w) s
      let s := if r.mem = [] then s else (s.perform r.mem (some (.te quad, .quad quad)) none).peerWrite (quad / 32) r.mem
      let s := match r.op.op with
        | .zero => { s with handles := mapUpd s.handles (hKey quad r.op.hd) handleFree fun d => { d with mark := false, fcode := 0 } }
        | .ld => { s with handles := mapUpd s.handles (hKey quad r.op.hd) handleFree fun d => { d with mark := false, fcode := 0 } }
        | .mma _ true => s.modTe quad fun t => { t with rotstep := t.rotstep + 1 }
        | _ => s
      .next (s.tileEnd quad r.op)

/-- Nanoseconds a TMMAR waits for the others (R306). -/
def rotLimit : Nat := 65536

/-- ROTTIME: a TMMAR that has waited its time completes as a fault, once nothing older names its handles (R290, R306). -/
def execRottime (quad : Nat) (s : State) : Host.Outcome State Fault Refusal :=
  let waiting (o : TileOp) : Bool := o.isRot && o.prep && !s.halted o.part o.launch
  let due (o : TileOp) : Bool := waiting o && decide (o.since + rotLimit * Config.ticksPerNs ≤ s.now) &&
    !((s.te quad).ops.any fun p => decide (p.seq < o.seq) && p.names.any o.names.contains)
  match (s.te quad).nextHead due with
  | some (iu, o) =>
    let s := s.modTe quad fun t => t.setSub iu ((t.sub iu).drop 1)
    let s := (s.tileFault quad o.hd 8).tileEnd quad o
    .next (if ((s.te quad).sub iu).isEmpty then s else s.emit (.tilePrepare quad iu))
  | none => .next (if ((s.te quad).nextHead waiting).isSome then s.emit (.rottime quad) else s)

end Sys2Proof.Machine
end

