-- ==== Sys2Proof/Machine/Tlb.lean ====
section
/-! DEFINITION. Walks and their completion, invalidation of translations, cache-line instructions (R58 to R69, R76, R338). -/

namespace Sys2Proof.Machine

/-! ### Walks (R58 to R62) -/

/-- TRANSLATION_WALK: each entry is read through the L2 of the walking die, held while its home is; once they are all there the walk has its outcome (R19, R58, R69). -/
def execTranslationWalk (k : Nat) (s : State) : Host.Outcome State Fault Refusal :=
  match mapFind s.walks k with
  | none => .next s
  | some w =>
    let t := s.traceOn w.die w.part w.asid w.va
    if t.reads.any s.homeHeld then .next (s.emit (.translationWalk k))
    else
      match t.reads.find? fun pa => s.coherent pa && !s.offline pa && !s.l2Reads (lineOf pa) w.die && !s.isM w.die with
      | some pa => .next ((s.askShared (lineOf pa) w.die).emit (.translationWalk k))
      | none => .next (({ s with walks := mapPut s.walks k { w with result := some t.res, path := t.path } } : State).emit (.walkCompletion k))

/-- The trap that a faulting walk gives a waiter: the VA its access reports, the PA of a poisoned entry, CTXID where the VA was to name a context (R34, R42, R58). -/
def Waiter.trapOf (x : Waiter) (t : Trap) : Trap := if t.code = tcPoison then t else if x.ctxid then ⟨tcCtxid, 0, x.fva⟩ else { t with faddr := x.fva }
/-- A faulting walk performs trap entry with its cause at the waiting instruction; a context that no longer waits at it makes its attempt again, and a prefetch is dropped (R62). -/
def State.walkFault (s : State) (x : Waiter) (t : Trap) : State :=
  match x.op with
  | some n => { s with ops := mapErase s.ops n }
  | none =>
  let c := s.ctxAt x.key
  if c.pc = x.pc && (if x.fetch then c.state = stReady else c.state = stWaiting && c.why = whyReg) then s.raiseTrap x.key (x.trapOf t) x.spc else s

/-- A walk that found a leaf: its waiter's cluster gets the translation and the context that waits wakes (R61, R62, R106). -/
def State.walkDone (s : State) (w : Walk) (l : Leaf) (x : Waiter) : State :=
  let s := s.tcInstall x.clu w.part w.asid x.va l
  match x.op with
  | some n => s.emit (.result n)
  | none => if x.fetch || (s.ctxAt x.key).pc != x.pc then s else s.setCtx x.key (s.wakeReg x.key (s.ctxAt x.key))

/-- WALK_COMPLETION: every outstanding miss of the die in the installed page completes from it, walks that queue for a walker among them; walkers that are free take the next (R60, R61). -/
def execWalkCompletion (k : Nat) (s : State) : Host.Outcome State Fault Refusal :=
  match mapFind s.walks k with
  | none => .next s
  | some w =>
    if w.waiters.any (fun x => x.op.isNone && s.isMoving x.key) then .next (s.emit (.walkCompletion k))
    else
      match w.result with
      | none => .next s
      | some (.fault t) => .next ((w.waiters.foldl (fun s x => s.walkFault x t) ({ s with walks := mapErase s.walks k } : State)).walkersGo w.die)
      | some (.ok l) =>
        let s := s.wcInstall w.die w.part w.asid w.va w.path
        let here (v : Walk) : Bool := v.die = w.die && v.part = w.part && v.asid = w.asid && v.va / l.size = w.va / l.size && !(v.waiters.any fun x => x.op.isNone && s.isMoving x.key)
        let ws := s.walks.filter fun e => here e.2
        .next ((ws.foldl (fun s e => e.2.waiters.foldl (fun s x => s.walkDone e.2 l x) s) ({ s with walks := s.walks.filter fun e => !here e.2 } : State)).walkersGo w.die)

/-! ### TLBI (R64 to R67) -/

/-- Whether a use of a VA may be one that the form covers (R65): VA and U forms cover the 1 GiB region of their VA. -/
def tlbiCovers (f : TlbiForm) (part asid va p a v : Nat) : Bool :=
  p = part && (match f with | .all => true | .as => a = asid | _ => a = asid && v / 2 ^ 30 = va / 2 ^ 30)

/-- Removes the named entries, has the covered walks start again, and the covered prepares of tile operations (R64, R65, R293). -/
def State.tlbiRemove (s : State) (f : TlbiForm) (part asid va : Nat) : State :=
  let hits (t : TcEntry) : Bool := t.part = part && (match f with | .all => true | .as => t.asid = asid | _ => t.asid = asid && t.covers va)
  let path (w : WcEntry) : Bool := w.part = part && (match f with | .all => true | .as => w.asid = asid | _ => w.asid = asid && w.onPath va)
  let s := { s with tcache := s.tcache.filter (fun t => !hits t), wcache := s.wcache.filter fun w => !path w }
  let again := s.walks.filter fun e => tlbiCovers f part asid va e.2.part e.2.asid e.2.va && e.2.result.isSome
  let s := ({ s with walks := again.foldl (fun m e => mapPut m e.1 { e.2 with result := none, path := [] }) s.walks } : State).emits (again.map fun e => .translationWalk e.1)
  s.tes.foldl (fun s e => (List.range 4).foldl (fun s iu =>
    match (s.te e.1).sub iu with
    | o :: r =>
      if o.prep && o.segs != [] && (o.ranges (s.handle e.1 o.hd)).any (fun g => tlbiCovers f part asid va o.part o.asid g.1) then
        let s := match o.op with | .st => s.dropClaims o.seq | _ => s
        (s.modTe e.1 fun t => t.setSub iu ({ o with prep := false, segs := [], data := [] } :: r)).emit (.tilePrepare e.1 iu)
      else s
    | [] => s) s) s

/-- Whether a user of a removed translation numbered below `n` is still at work: an access on either page it touches, a prefetch, a message not yet delivered, a tile operation in its run on any page of its rows (R65, step 4, R293). -/
def State.tlbiUsers (s : State) (f : TlbiForm) (part asid va n : Nat) : Bool :=
  let u (p a v : Nat) := tlbiCovers f part asid va p a v || tlbiCovers f part asid va p a (v + 15)
  (s.stores.any fun p => decide (p.1 < n) && u p.2.part p.2.asid p.2.va) ||
  (s.ops.any fun p => decide (p.1 < n) && (match p.2.kind with
    | .load a .. => u a.part a.asid a.va
    | .rmw a .. => u a.part a.asid a.va
    | .pref a _ => u a.part a.asid a.va
    | .line _ a _ => u a.part a.asid a.va
    | _ => false)) ||
  (s.sends.any fun p => decide (p.1 < n) && p.2.status.isNone && u p.2.part p.2.asid p.2.va) ||
  (s.tes.any fun e => e.2.run.any fun r => decide (r.op.seq < n) && r.op.segs != [] &&
    (r.op.ranges (s.handle e.1 r.op.hd)).any fun g => tlbiCovers f part asid va r.op.part r.op.asid g.1)

/-- Whether a line of a page is pinned in the L2 of a die of the partition (R66). -/
def State.pinnedIn (s : State) (part : Nat) (l : Leaf) : Bool :=
  s.l2.any fun e => e.2.pinned && s.partOfTower (towerOfDie (e.1 % 32)) == some part && decide (l.base ≤ e.1 / 32 * 128 ∧ e.1 / 32 * 128 < l.base + l.size)
/-- Whether a PINL that has translated through a page is still to pin its line: it comes first, and the TLBI.U finds its pin (R67). -/
def State.pinning (s : State) (part : Nat) (l : Leaf) : Bool :=
  s.ops.any fun p => match p.2.kind with | .line _ a 1 => a.part = part && a.segs.any fun g => decide (l.base ≤ g.1 ∧ g.1 < l.base + l.size) | _ => false

/-- Whether a handle that is not FREE is reached through a page of the alias space (R66). -/
def State.reaches (s : State) (base size : Nat) : Bool :=
  let meet (a n : Nat) : Bool := decide (a < base + size ∧ base < a + n)
  s.handles.any fun e =>
    let q := e.1 / 1024
    let h := e.1 % 1024
    e.2.alloc && (meet (e.2.addr q) (512 * e.2.quarters) ||
      [0x80_0000, 0x100_0000, 0x180_0000].any fun w => meet (rawBase q + w + h * 0x2000) 0x2000)

/-- The address of the leaf entry of a VA, by the walk of R58. -/
def State.leafAt (s : State) (va : Nat) : Nat → Nat → Bool → Nat
  | lv, table, g64 =>
    let pa := table + (if lv = 0 && g64 then va / 2 ^ 16 % 32 else va / 2 ^ (12 + 9 * lv) % 512) * 8
    let e : Dword := BitVec.ofNat 64 (s.readN pa 8)
    match lv with
    | 0 => pa
    | n + 1 => if e.getLsbD 1 then pa else leafAt s va n (getF e 12 40 * 4096) (n = 0 && e.getLsbD 7)
def State.leafPa (s : State) (k asid va : Nat) : Nat :=
  match s.part k with
  | none => 0
  | some p => s.leafAt va 4 (getF (BitVec.ofNat 64 (s.readN (p.asTable + asid * 8) 8)) 12 40 * 4096) false

/-- TLBI statuses (R64). -/
abbrev tlbiOk : Nat := 0
abbrev tlbiBusy : Nat := 1
abbrev tlbiNomap : Nat := 2

/-- Delivers a status as a `.D` result (R64, R338). -/
def State.status (s : State) (k : Nat) (o : Op) (v : Nat) : State :=
  { s with ops := mapErase s.ops k }.deliver o.key o.reg (fun x => xSetD x (BitVec.ofNat 64 v)) 0

/-- A step of a TLBI: its waits, the removal, and the end once no user is left (R65 to R67). That a walk of TLBI.U which ends in PTFMT, PHYS or POISON gives NOMAP too is a choice (log 57). -/
def State.tlbiStep (s : State) (k : Nat) (o : Op) (f : TlbiForm) (part asid va : Nat) (removed : Option Nat) : State :=
  let again := s.emit (.result k)
  match removed with
  | some n => if s.tlbiUsers f part asid va n then again else s.status k o tlbiOk
  | none =>
    let remove (s : State) : State :=
      (({ s.tlbiRemove f part asid va with ops := mapPut s.ops k { o with kind := .tlbi f part asid va (some s.nextId) } } : State).emit (.result k)).bump
    if s.stores.any (fun p => p.2.key = o.key && decide (p.1 < k)) then again
    else match f with
      | .va => if canonical va then remove s else s.status k o tlbiOk
      | .u =>
        if !canonical va then s.status k o tlbiNomap
        else
          let die := o.pos.die?
          let t := s.traceWith (fun _ => none) part asid va
          if t.reads.any (s.entryWaits die) then again
          else
          let s := s.readThrough die t.reads
          match t.res with
          | .fault _ => s.status k o tlbiNomap
          | .ok l =>
            let pa := s.leafPa part asid va
            let again := s.emit (.result k)
            if s.pinning part l then again
            else if s.pinnedIn part l || (l.sal && s.reaches l.base l.size) then s.status k o tlbiBusy
            else if s.lineBusy [lineOf pa] || s.claimed (lineOf pa) then again
            else if s.hostHas [lineOf pa] then (s.snoopHost [lineOf pa]).emit (.result k)
            else remove ((s.takeHome (lineOf pa)).perform [(pa, memRead s.mem pa &&& 0xFE)] none none)
      | _ => remove s

/-- TLBI.VA (R64, R338). -/
def execTlbiVa (h : Hdr) (d a b : Reg) (s : State) : Host.Outcome State Fault Refusal :=
  s.run (.tlbiVa h d a b) { shape h [a, b] [d] with sup := true } fun e s => s.start e h.s d (.tlbi .va e.part (getF (e.yd b) 0 12) (e.xd a).toNat none)
/-- TLBI.AS (R64, R338). -/
def execTlbiAs (h : Hdr) (d b : Reg) (s : State) : Host.Outcome State Fault Refusal :=
  s.run (.tlbiAs h d b) { shape h [b] [d] with sup := true } fun e s => s.start e h.s d (.tlbi .as e.part (getF (e.xd b) 0 12) 0 none)
/-- TLBI.ALL (R64, R338). -/
def execTlbiAll (h : Hdr) (d : Reg) (s : State) : Host.Outcome State Fault Refusal :=
  s.run (.tlbiAll h d) { shape h [] [d] with sup := true } fun e s => s.start e h.s d (.tlbi .all e.part 0 0 none)
/-- TLBI.U (R64, R66, R338). -/
def execTlbiU (h : Hdr) (d a b : Reg) (s : State) : Host.Outcome State Fault Refusal :=
  s.run (.tlbiU h d a b) { shape h [a, b] [d] with sup := true } fun e s => s.start e h.s d (.tlbi .u e.part (getF (e.yd b) 0 12) (e.xd a).toNat none)

/-! ### CFLUSH, PINL, UNPINL (R76, R338) -/

/-- Starts a cache-line instruction on the byte it addresses (R338). -/
def State.lineStart (s : State) (e : Iss) (S : BitVec 3) (n : DescN) (off : Dword) (d : Reg) (op : Nat) (pin : Bool) : State :=
  match s.access e n.toNat off 1 .load with
  | .ok a sc l =>
    if pin && !l.pin then s.trapAt e tcPerm n.toNat a.va
    else s.withAccess e (.ok a sc l) fun a _ => s.start e S d (.line e.die a op)
  | r => s.withAccess e r fun _ _ => s

/-- CFLUSH (R338). -/
def execCflush (h : Hdr) (n : DescN) (d a : Reg) (s : State) : Host.Outcome State Fault Refusal :=
  s.run (.cflush h n d a) { shape h [a] [d] with sup := true } fun e s => s.lineStart e h.s n (e.xd a) d 0 false
/-- PINL (R56, R76, R338). -/
def execPinl (h : Hdr) (n : DescN) (d a : Reg) (s : State) : Host.Outcome State Fault Refusal :=
  s.run (.pinl h n d a) { shape h [a] [d] with sup := true } fun e s => s.lineStart e h.s n (e.xd a) d 1 true
/-- UNPINL (R76, R338). -/
def execUnpinl (h : Hdr) (n : DescN) (d a : Reg) (s : State) : Host.Outcome State Fault Refusal :=
  s.run (.unpinl h n d a) { shape h [a] [d] with sup := true } fun e s => s.lineStart e h.s n (e.xd a) d 2 false

/-- Statuses of R338. -/
abbrev lineFull : Nat := 3
abbrev lineNotpin : Nat := 4

/-- CFLUSH at its line: written back where dirty and dropped, or refilled clean into a reserved way (R338). -/
def State.flushLine (s : State) (line die : Nat) : State :=
  let s := s.at ((s.l2Line line die).getD l2None).lexp
  match s.l2Line line die with
  | none => s
  | some l =>
    let s' := s.dropCopy line die
    let s' := if l.present && l.dirty && !s.isPeer line then s'.emit (.puto line die) else s'
    if l.pinned && l.present then (if l.dirty then s'.askShared line die else s) else s'

/-- Performs a cache-line instruction; an offline home ends one that needs it (R19, R76, R93, R338). PINL finds no way it may pin where L2 takes no copy of the line: on a die in M role, for a non-temporal page off the module (R10, R31, log 64). -/
def State.lineStep (s : State) (k : Nat) (o : Op) (die : Nat) (a : Access) (op : Nat) : State :=
  let pa := (a.segs.headD (0, 0)).1
  let line := lineOf pa
  let l := (s.l2Line line die).getD l2None
  let again := s.emit (.result k)
  match op with
  | 0 =>
    if s.offline pa then s.emit (.poisonedResult k)
    else if s.lineBusy [line] || s.claimed line || l.asked then again else (s.flushLine line die).status k o 0
  | 1 =>
    if s.offline pa then s.emit (.poisonedResult k)
    else if l.pinned then s.status k o 0
    else if s.isM die || s.bypasses (a.ntAt pa) line then s.status k o lineFull
    else if ((s.setOf line die).filter fun e => e.2.pinned).length ≥ pinWays then s.status k o lineFull
    else if l.present then (s.modL2 line die fun l => { l with pinned := true }).status k o 0
    else if s.claimed line then again
    else (s.askPage line die (a.pages.headD ⟨0, 4096⟩)).emit (.result k)
  | _ =>
    if !l.pinned then s.status k o lineNotpin
    else
      let s := s.modL2 line die fun l => { l with pinned := false }
      (if l.present || l.asked then s else { s with l2 := mapErase s.l2 (l2Key line die) }).status k o 0

end Sys2Proof.Machine
end

