-- ==== Sys2Proof/Machine/Deliver.lean ====
section
/-! DEFINITION. Deliveries and the performance of accesses: results, poisoned results, stores, stores to primary lines, messages, trap entry (R35, R36, R47, R48, R72 to R78, R91, R92, R106, R107, R118 to R128, R253, R258 to R266, R370). -/

namespace Sys2Proof.Machine

/-! ### Order within a context (R120, R126) -/

/-- Whether two lists of ranges share a byte. -/
def segsMeet (a b : List (Nat × Nat)) : Bool := a.any fun g => b.any fun h => decide (g.1 < h.1 + h.2 ∧ h.1 < g.1 + g.2)

/-- The ranges an outstanding load or read-modify-write touches. -/
def OpKind.segs : OpKind → List (Nat × Nat)
  | .load a .. => a.segs
  | .rmw a .. => a.segs
  | _ => []

/-- The ranges that an offline home or poison may end an operation for: those, and the line of a cache-line instruction (R92, R93). -/
def OpKind.risks : OpKind → List (Nat × Nat)
  | .line _ a _ => a.segs
  | k => k.segs

/-- The slots of tile scratch that ranges touch, those of the handle where a decode window names one (R44, R46, R49). -/
def State.slotsTouched (s : State) (segs : List (Nat × Nat)) : List Nat :=
  segs.flatMap fun g =>
    match s.region g.1 with
    | .alias_ d q off =>
      let b := (d * 32 + q) * 1024
      match decWindow off with
      | some (h, _, _) => let t := s.handle (d * 32 + q) h; rangeFrom (b + t.baseq.toNat / 4) ((t.baseq.toNat + t.quarters - 1) / 4 + 1 - t.baseq.toNat / 4)
      | none => rangeFrom (b + off / 0x800) ((off + g.2 - 1) / 0x800 + 1 - off / 0x800)
    | _ => []

/-- An earlier access of the context to an overlapping location, or to a slot of scratch that this one touches, is still to be performed (R49, R120). -/
def State.priorOverlap (s : State) (key k : Nat) (segs : List (Nat × Nat)) : Bool :=
  let sl := s.slotsTouched segs
  let meet (other : List (Nat × Nat)) : Bool := segsMeet segs other || (!sl.isEmpty && (s.slotsTouched other).any sl.contains)
  (s.stores.any fun p => p.2.key = key && decide (p.1 < k) && meet (p.2.bytes.map fun c => (c.1, 1))) ||
  (s.ops.any fun p => p.2.key = key && decide (p.1 < k) && meet p.2.kind.segs)

/-! ### What a location makes an access wait for -/

/-- A peer that does not answer access `num`: its port is down, or it leaves it unanswered (R389). -/
def State.silent (s : State) (k pa num : Nat) : Bool :=
  match s.region pa with
  | .peer n => Config.peerSilent num || !((s.part k).any fun p => match p.routes.getD n none with | some q => (s.port q).up | none => false)
  | _ => false
/-- The wait for a peer's answer begins (R389). -/
def State.awaitPeer (s : State) (num : Nat) : State :=
  if (mapFind s.sent num).isSome then s else ({ s with sent := mapPut s.sent num s.now } : State).emitOnce (.peerTimeout num)
/-- How long an access to a peer waits for its answer, in ns, and whether access `num` has waited as long (R389). -/
def peerWaitNs : Nat := 2_000_000
def State.unanswered (s : State) (num : Nat) : Bool := (mapFind s.sent num).any fun t => decide (t + peerWaitNs * Config.ticksPerNs ≤ s.now)

/-- Whether an address of the access lies in a primary line of a context page. -/
def Access.primary (a : Access) (pa : Nat) : Bool := (a.pageAt pa).ctx && inPrimary pa

/-- What a piece of a load needs before it can be served. -/
inductive Ready
  | yes | wait | ask (line : Nat)
  deriving DecidableEq, Repr

/-- A load's piece at its place (R19, R31, R47, R48, R71, R72, R77, R90, R111); a die in M role has it read at its home (R10, R396). -/
def State.loadReady (s : State) (k : Nat) (o : Op) (a : Access) (g : Nat × Nat) : Ready :=
  match s.region g.1 with
  | .alias_ d q off => if s.scratchWaits (d * 32 + q) off g.2 k then .wait else .yes
  | .bde _ => if s.homeHeld g.1 then .wait else .yes
  | .none_ => .yes
  | _ =>
    let line := lineOf g.1
    if a.primary g.1 then (if s.isMoving (line * 128) || s.homeHeld g.1 then .wait else .yes)
    else if s.silent a.part g.1 k || s.claimed line then .wait
    else if s.isM o.pos.die? || s.bypasses (a.ntAt g.1) line then .yes
    else if (!a.ntAt g.1 && s.l1Hit o.pos.iu? line false) || s.l2Reads line o.pos.die? then .yes
    else .ask line

/-- A piece that is poisoned or offline (R92, R93): its line, and whether its home is offline. -/
def State.badPiece (s : State) (g : Nat × Nat) : Option (Nat × Bool) :=
  if s.offline g.1 then some (lineOf g.1, true) else if s.isPoison (lineOf g.1) then some (lineOf g.1, false) else none

/-- Bytes a piece of a load reads (R46, R111, R128, R134). -/
def State.pieceBytes (s : State) (o : Op) (a : Access) (g : Nat × Nat) : List Byte :=
  match s.region g.1 with
  | .alias_ d q off =>
    match decWindow off with
    | some (h, e, f) => let t := s.handle (d * 32 + q) h; t.decBytes (s.racedBytes o.key (t.addr (d * 32 + q)) t.bytes) e g.2 f
    | none => s.racedBytes o.key g.1 g.2
  | .peer _ => s.dieBytes (a.ntAt g.1) o.pos.die? g.1 g.2
  | _ => leBytes g.2 (s.readPa g.1 g.2)

/-- A served piece leaves its traces: the lease of an L1D fill, a use of the copy and of the line (R31, R71, R72, R75, R77). For a die in M role the home recalls an owner, and no lease is taken (R10, R396). A non-temporal read makes the line the oldest of its set whether it was there before or not, and of several such lines the one listed first goes first (log 14). -/
def State.servedPiece (s : State) (o : Op) (a : Access) (g : Nat × Nat) : State :=
  let line := lineOf g.1
  let die := o.pos.die?
  match s.region g.1 with
  | .alias_ d q _ => s.emitOnce (.tileStart (d * 32 + q))
  | .bde _ => s
  | .none_ => s
  | _ =>
    if a.primary g.1 then s
    else if s.isM die then s.recall line
    else
      let s := if (s.l2Line line die).isSome then s.modL2 line die fun l => { l with used := if a.ntAt g.1 then 0 else s.now } else s
      if a.ntAt g.1 || s.offModule line || !s.l2Reads line die then s
      else if s.l1Hit o.pos.iu? line false then s.useL1 o.pos.iu? line false else s.grant o.pos.iu? line a.part false

/-- Stamps that a read of coherent memory at its home or its owner carries (R123). -/
def State.readStamps (s : State) (a : Access) : List Stamp :=
  ((a.segs.filter fun g => s.coherent g.1).map fun g => lineOf g.1).map s.stamp

/-- An acquire checks the stamps it read; another access since the last fence leaves them to the next FENCE.ACQ, or to the one that waits for it (R124, R126). -/
def State.acquired (s : State) (k : Nat) (o : Op) (a : Access) (sts : List Stamp) (acq : Option ScopeCode) : State :=
  match acq with
  | some sc =>
    let s := s.dropPeer o.pos.die? sc
    match sts.find? fun st => !stampOk st sc o.key o.pos with
    | some st => if (s.ctxAt o.key).state = stDone || (s.ctxAt o.key).state = stFaulted then s else s.scopeMiss o.key st sc a.va
    | none => s
  | none =>
    let f := s.fenceOf o.key
    let mine := decide (f.since ≤ k) || f.acq.any fun w => decide (w.1 ≤ k ∧ k < w.2.1)
    if sts.isEmpty || !s.isLive o.key || !mine then s
    else { s with fences := mapPut s.fences o.key { f with loads := (numberFrom (2 * k) sts).foldl (fun m x => mapPut m x.1 (x.2, a.va)) f.loads } }

/-- The end of an operation that read poison or an offline home (R92). -/
def State.failResult (s : State) (k : Nat) (o : Op) (line : Nat) (off : Bool) : State :=
  ({ s with ops := mapErase s.ops k }.deliverTrap o.key o.reg ⟨tcPoison, o.reg.toNat + (if off then 2 ^ 15 else 0), line * 128⟩).fenceDone o.key

/-! ### Loads -/

/-- A decode-window piece that met a BUSY handle which has become FAULT (R47). -/
def State.refused (s : State) (a : Access) (g : Nat × Nat) : Bool :=
  match s.region g.1 with
  | .alias_ d q off => match decWindow off with | some (h, _, _) => a.busy && (s.handle (d * 32 + q) h).mark | none => false
  | _ => false

/-- Asks for the lines that pieces still lack (R56, R80). -/
def State.askAll (s : State) (die : Nat) (a : Access) (rs : List Ready) : State :=
  rs.foldl (fun s r => match r with
    | .ask l => s.askPage l die (a.pageAt (l * 128))
    | _ => s) s

/-- A load reads one piece that can be served; with its last one it delivers. A load that crosses a line is two accesses, in either order (R43, R92, R106, R118, R253). -/
def State.loadStep (s : State) (k : Nat) (o : Op) (a : Access) (sz : MSize) (lm : BitVec 12) (acq : Option ScopeCode) (got : SMap (List Byte × List Stamp)) : State :=
  let left := (numberFrom 0 a.segs).filter fun g => (mapFind got g.1).isNone
  if s.priorOverlap o.key k a.segs then s.emit (.result k)
  else if left.any fun g => (s.badPiece g.2).isSome then s.emit (.poisonedResult k)
  else
    let can := left.filter fun g => s.loadReady k o a g.2 = .yes
    match can[Config.pickOperand s.tick % max 1 can.length]? with
    | none =>
      let s := if left.any fun g => s.silent a.part g.2.1 k then s.awaitPeer k else s
      (s.askAll o.pos.die? a (left.map fun g => s.loadReady k o a g.2)).emit (.result k)
    | some (i, g) =>
      if s.refused a g then { s with ops := mapErase s.ops k }.deliverTrap o.key o.reg ⟨tcWindow, a.desc, a.va⟩
      else
        let got := mapPut got i (s.pieceBytes o a g, if s.coherent g.1 then [s.viewStamp o.pos.die? (a.ntAt g.1) (lineOf g.1)] else [])
        let s := ({ s with tick := s.tick + 1 } : State).servedPiece o a g
        if left.length > 1 then { s with ops := mapPut s.ops k { o with kind := .load a sz lm acq got } }.emit (.result k)
        else
          let v : XReg := BitVec.ofNat 96 (leToNat (got.flatMap fun x => x.2.1))
          ((({ s with ops := mapErase s.ops k } : State).deliver o.key o.reg (mergeBytes (loadMask sz lm) v) 0).acquired k o a (got.flatMap fun x => x.2.2) acq).fenceDone o.key

/-! ### Read-modify-writes (R258 to R262) -/

/-- The new value of `n` bytes, whether it is written, and flags (R259 to R261). -/
def Rmw.apply (o : Rmw) (n old b : Nat) : Nat × Bool × Fl :=
  let w := 8 * n
  let c := b % 2 ^ w
  match o with
  | .op .add => ((old + c) % 2 ^ w, true, 0)
  | .op .and => (old &&& c, true, 0)
  | .op .or => (old ||| c, true, 0)
  | .op .xor => (old ^^^ c, true, 0)
  | .op .min => (if signedNat w old ≤ signedNat w c then old else c, true, 0)
  | .op .max => (if signedNat w old ≥ signedNat w c then old else c, true, 0)
  | .op .minu => (Nat.min old c, true, 0)
  | .op .maxu => (Nat.max old c, true, 0)
  | .op .xchg => (c, true, 0)
  | .cas cmp => (c, old = cmp.toNat % 2 ^ w, 0)
  | .fadd dw rm =>
    let f := if dw then ffp64 else ffp32
    let r := fExact f rm (fvAdd rm (fDecode f old) (fDecode f c))
    (r.1, true, r.2)

/-- A read-modify-write at its slice, with the line owned and every lease on it ended; one to peer memory is performed at the peer, one that no slice may keep the line for at the home (R10, R31, R78, R118, R259, R262, log 64). -/
def State.rmwStep (s : State) (k : Nat) (o : Op) (a : Access) (r : Rmw) (n : Nat) (b : Dword) (acq rel : Option ScopeCode) (after : Nat) : State :=
  let again := s.emit (.result k)
  match a.segs with
  | [] => s
  | (pa, _) :: _ =>
    let line := lineOf pa
    let die := o.pos.die?
    if s.priorOverlap o.key k a.segs || s.accessBefore o.key after || s.claimed line then again
    else if s.silent a.part pa k then (s.awaitPeer k).emit (.result k)
    else if (s.badPiece (pa, n)).isSome then s.emit (.poisonedResult k)
    else
    let home := s.isM die || s.bypasses (a.ntAt pa) line
    if home && s.hostHas [line] then (s.snoopHost [line]).emit (.result k)
    else if !home && !s.isPeer line && !s.l2Owns line die then (s.askOwn line die).emit (.result k)
    else
      let s := if home then s.takeHome line else s.at ((s.l2Line line die).getD l2None).lexp
      let old := s.readN pa n
      let (v, wr, fl) := r.apply n old b.toNat
      let sts := s.readStamps a
      let w := if rel.isSome then some (Writer.ctx o.key, o.pos) else none
      let s := { s with ops := mapErase s.ops k, l1 := s.l1.filter fun c => !(c.iu = o.pos.iu? && !c.fetch && c.line = line) }
      let s := if !wr then s
        else if s.isPeer line then (s.perform (bytesAt pa n v) w rel).peerWrite die (bytesAt pa n v)
        else (if home then s else s.modL2 line die fun l => { l with dirty := true, used := s.now }).perform (bytesAt pa n v) w rel
      ((s.deliver o.key o.reg (fun x => xSetD x (BitVec.ofNat 64 old)) fl).acquired k o a sts acq).fenceDone o.key

/-! ### Other results -/

/-- A prefetch fills its line, or is dropped: on a die in M role, which has no L1D and keeps no copies, always (R10, R257). -/
def State.prefStep (s : State) (k : Nat) (o : Op) (a : Access) (l1 : Bool) : State :=
  let line := lineOf ((a.segs.headD (0, 0)).1)
  let die := o.pos.die?
  let done : State := { s with ops := mapErase s.ops k }
  if s.offline (line * 128) || s.isPoison line || s.claimed line || s.isM die then done
  else if s.l2Reads line die then (if l1 then done.grant o.pos.iu? line a.part false else done)
  else (s.askPage line die (a.pages.headD ⟨0, 4096⟩)).emit (.result k)

/-- The 96 bits of TDESC (R284). -/
def State.tdescOf (s : State) (quad h : Nat) : XReg :=
  let d := s.handle quad h
  let sc (b : Nat) : Nat := (d.scales.toList.getD b 0).toNat
  let hi := sc 0 + sc 1 * 2 ^ 8 + sc 2 * 2 ^ 16 + sc 3 * 2 ^ 24
  let lo := d.shp.toNat * 2 ^ 2 + d.blk.toNat * 2 ^ 3 + fmtCode d.fmt * 2 ^ 4 + d.baseq.toNat * 2 ^ 8 + d.flags.toNat * 2 ^ 20 + d.esc.toNat * 2 ^ 26 +
    s.handleState quad h * 2 ^ 30
  let mid := d.fcode.toNat + d.level.toNat * 2 ^ 13 + d.launch.toNat * 2 ^ 16
  if d.alloc then BitVec.ofNat 96 (lo + mid * 2 ^ 32 + hi * 2 ^ 64) else 0

/-- The 64 bits of TSTAT (R297). -/
def State.tstatOf (s : State) (quad h : Nat) : Dword :=
  let d := s.handle quad h
  BitVec.ofNat 64 (s.handleState quad h + d.fcode.toNat * 2 ^ 8 + d.flags.toNat * 2 ^ 20 + (s.te quad).rotstep.toNat * 2 ^ 32)

/-- RESULT: the next step of an outstanding operation, and its delivery once it is ready; a delivery to a moving line is held (R106). -/
def execResult (k : Nat) (s : State) : Host.Outcome State Fault Refusal :=
  match mapFind s.ops k with
  | none => .next s
  | some o =>
    if s.isMoving o.key then .next (s.holdLate o.key (.result k))
    else .next (match o.kind with
      | .value v m fl => { s with ops := mapErase s.ops k }.deliver o.key o.reg (mergeBytes m v) fl
      | .fut v => { s with ops := mapErase s.ops k }.deliver o.key o.reg (mergeBytes 0x0FF v) 0
      | .load a sz lm acq got => s.loadStep k o a sz lm acq got
      | .rmw a r n b acq rel after => s.rmwStep k o a r n b acq rel after
      | .pref a l1 => s.prefStep k o a l1
      | .prefVa p a d va m l2 => s.prefWalked k o p a d va m l2
      | .tile q h st => { s with ops := mapErase s.ops k }.deliver o.key o.reg (fun x => if st then xSetD x (s.tstatOf q h) else s.tdescOf q h) 0
      | .tlbi f p a va r => s.tlbiStep k o f p a va r
      | .line d a op => s.lineStep k o d a op)

/-- POISONED_RESULT (R92, R93, R106). -/
def execPoisonedResult (k : Nat) (s : State) : Host.Outcome State Fault Refusal :=
  match mapFind s.ops k with
  | none => .next s
  | some o =>
    if s.isMoving o.key then .next (s.holdLate o.key (.poisonedResult k))
    else match o.kind.risks.findSome? s.badPiece with
      | some (line, off) => .next (s.failResult k o line off)
      | none => .next (s.emit (.result k))

/-- PEER_TIMEOUT: an access to a peer that has had no response for 2 ms; before that it waits on (R389). -/
def execPeerTimeout (k : Nat) (s : State) : Host.Outcome State Fault Refusal :=
  let ended : State := { s with sent := mapErase s.sent k }
  let toPeer (pa : Nat) : Bool := match s.region pa with | .peer _ => true | _ => false
  match mapFind s.ops k, mapFind s.stores k with
  | some o, _ =>
    match o.kind.segs.find? fun g => toPeer g.1 with
    | some g => .next (if !s.unanswered k then s.emitOnce (.peerTimeout k) else if s.isMoving o.key then s.holdLate o.key (.peerTimeout k) else ended.failResult k o (lineOf g.1) true)
    | none => .next ended
  | none, some p => .next (if !(p.bytes.any fun c => toPeer c.1) then ended else if s.unanswered k then ended.emit (.storeAnswer k) else s.emitOnce (.peerTimeout k))
  | none, none => .next ended

/-! ### Stores (R74, R77, R92, R253) -/

/-- STORE_ANSWER: an offline home did not perform the store; the context traps at its next boundary (R92). -/
def execStoreAnswer (k : Nat) (s : State) : Host.Outcome State Fault Refusal :=
  match mapFind s.stores k with
  | none => .next s
  | some p =>
    if s.isMoving p.key then .next (s.holdLate p.key (.storeAnswer k))
    else
      let s := { s with stores := mapErase s.stores k }
      let c := s.ctxAt p.key
      let pa := (p.bytes.map (·.1)).headD 0
      .next (if c.state = stDone || c.state = stFaulted then s else s.boundaryTrap p.key ⟨tcPoison, 0xFF + 2 ^ 15, lineOf pa * 128⟩)

/-- STORE_PERFORM: the store reaches its point of performance: a peer's memory is written at the peer, and a die in M role has its stores written at the home (R10, R19, R48, R74, R77, R119, R128). -/
def execStorePerform (k : Nat) (s : State) : Host.Outcome State Fault Refusal :=
  match mapFind s.stores k with
  | none => .next s
  | some p =>
    let again : State := s.emit (.storePerform k)
    let done (s : State) : State := { s with stores := mapErase s.stores k }
    match p.bytes with
    | [] => .next (done s)
    | (pa, _) :: _ =>
      let line := lineOf pa
      let die := p.pos.die?
      if s.priorOverlap p.key k (p.bytes.map fun c => (c.1, 1)) || s.accessBefore p.key p.after then .next again
      else if s.offline pa then .next (s.emit (.storeAnswer k))
      else match s.region pa with
        | .alias_ d q off =>
          if s.scratchWaits (d * 32 + q) off ((p.bytes.map (·.1)).foldl max pa + 1 - pa) k then .next again
          else .next ((done (s.perform p.bytes none none)).emitOnce (.tileStart (d * 32 + q)))
        | .bde n => .next (if s.homeHeld pa then again else done (s.bdeWrite n (pa % 2 ^ 16) (BitVec.ofNat 64 (leToNat (p.bytes.map (·.2))))))
        | .none_ => .next (done s)
        | .peer _ =>
          if s.silent p.part pa k then .next ((s.awaitPeer k).emit (.storePerform k))
          else .next (done ((s.perform p.bytes (some (.ctx p.key, p.pos)) p.rel).peerWrite die p.bytes))
        | _ =>
          if s.l2Owns line die then
            if s.claimed line then .next again
            else
              let s := s.at ((s.l2Line line die).getD l2None).lexp
              let s := s.modL2 line die fun l => { l with dirty := true, used := s.now }
              .next (done (s.perform p.bytes (some (.ctx p.key, p.pos)) p.rel))
          else if p.nt || s.isM die then .next (s.emit (.wrnt k))
          else if s.claimed line then .next again
          else .next ((s.askOwn line die).emit (.storePerform k))

/-- The bytes of a permitted store merged into a primary line: a PARKED line becomes READY by a STATE of READY and no other way, a DONE or FAULTED one keeps STATE and WHY, bits that are read-only keep their values (R36, R96 to R100). -/
def ctxStore (c : Ctx) (key : Nat) (bs : List (Nat × Byte)) : Ctx :=
  let raw := bs.foldl (fun l b => if key ≤ b.1 ∧ b.1 < key + 128 then l.set (b.1 - key) b.2 else l) (ctxBytes c)
  let n := ctxOfBytes raw
  let wake := c.state = stParked && n.state = stReady && bs.any fun b => b.1 = key + 0x10
  { n with
    pc := n.pc &&& ~~~3#64,
    pred := setF (setF n.pred 0 1 1) 27 5 (getF c.pred 27 5),
    wait := setF (setF n.wait 28 4 (getF c.wait 28 4)) 24 4 (if wake then 0 else c.why),
    stat := setF (setF n.stat 16 16 (getF c.stat 16 16)) 2 3 (if wake then stReady else c.state),
    owner := setF n.owner 19 5 (getF c.owner 19 5) }

/-- CONTEXT_LINE_STORE: the holder performs the store as one update, with the line's stamp, or refuses it precisely; a store that itself makes a context READY takes it out of its park before a barrier wake still on its way, which is spent (R35, R36, R106, R111, R123). -/
def execContextLineStore (k : Nat) (s : State) : Host.Outcome State Fault Refusal :=
  match mapFind s.stores k with
  | none => .next s
  | some p =>
    match p.toCtx with
    | none => .next (s.emit (.storePerform k))
    | some key =>
      if s.isMoving key || s.isMoving p.key || s.homeHeld key || s.accessBefore p.key p.after || s.priorOverlap p.key k (p.bytes.map fun c => (c.1, 1)) then
        .next (s.emit (.contextLineStore k))
      else if s.offline key then .next (s.emit (.storeAnswer k))
      else
        let c := s.ctxAt key
        let s := { s with stores := mapErase s.stores k }
        if c.state = stParked || c.state = stDone || c.state = stFaulted then
          let c' := ctxStore c key p.bytes
          let s := if c.state = stParked && c'.state = stReady then { s with agenda := s.agenda.filter fun i => match i with | .barrierWake m _ _ => m != key | _ => true } else s
          .next { s.setCtx key c' with stamps := stampsAfter s.stamps (lineOf key) (some (.ctx p.key, p.pos)) p.rel }
        else
          let w := s.ctxAt p.key
          if w.state = stDone || w.state = stFaulted then .next s
          else
            let s := match p.undo with | some (r, v) => s.setCtx p.key { w with x := xset w.x r (xSetD (xget w.x r) v) } | none => s
            .next (s.raiseTrap p.key ⟨tcPerm, p.desc, p.va⟩ p.pc)

/-! ### Messages (R107, R263, R266, R429) -/

/-- MESSAGE: the delivery at the target's holder; a moving line holds it (R106, R107). -/
def execMessage (k : Nat) (s : State) : Host.Outcome State Fault Refusal :=
  match mapFind s.sends k with
  | none => .next s
  | some o =>
    if o.status.isSome then .next s
    else if s.isMoving o.target then .next (s.holdLate o.target (.message k))
    else if s.offline o.target then .next (s.emit (.message k))
    else
      let s := s.flushSram (some o.pos) (some o.scope)
      let (s, st) := s.message o.target o.j o.data ⟨o.scope, some (.ctx o.key, o.pos)⟩
      .next (({ s with sends := mapPut s.sends k { o with status := some st } } : State).emit (.sendStatus k))

/-- SEND_STATUS: pd and pe in the sender's line, wherever it is held (R263, R266). -/
def execSendStatus (k : Nat) (s : State) : Host.Outcome State Fault Refusal :=
  match mapFind s.sends k with
  | none => .next s
  | some o =>
    match o.status with
    | none => .next s
    | some st =>
      if s.isMoving o.key then .next (s.holdLate o.key (.sendStatus k))
      else
        let s := { s with sends := mapErase s.sends k }
        let c := s.ctxAt o.key
        if c.state = stDone || c.state = stFaulted then .next s
        else .next (s.setCtx o.key ((c.setP o.pd (st = .delivered)).setP o.pe (st = .dead)))

/-! ### Trap entry (R370, R372) -/

/-- TRAP_ENTRY: in-flight work has drained, the handler is entered (R370); a context that is READY again takes the trap that was due (R125, R144). -/
def execTrapEntry (key : Nat) (s : State) : Host.Outcome State Fault Refusal :=
  let st := (s.ctxAt key).state
  .next (if st = stTrapped then s.tryEnter key else if st = stReady then s.takeDue key else s)

end Sys2Proof.Machine
end

