-- ==== Sys2Proof/Machine/Sched.lean ====
section
/-! DEFINITION. Where a context may be held, and the moves of its line: placement, fill, eviction, spill, pre-emption requests (R103 to R110, R136 to R140, R155, R159, R375, R376, R396). -/

namespace Sys2Proof.Machine

/-! ### Domains of a context (R136 to R140) -/

/-- An IU of the firmware column, which no partition context uses (R396). -/
def colIu (iu : Nat) : Bool := iu % 128 / 8 = 15 && (([7, 3, 6, 2].take Config.columnWidth).contains (iu % 8))

def State.launch (s : State) (k n : Nat) : Option Launch := (s.part k).bind fun p => mapFind p.launches n
/-- Changes a live launch. -/
def State.modLaunch (s : State) (k n : Nat) (f : Launch → Launch) : State :=
  match s.launch k n with
  | some l => s.modPart k fun p => { p with launches := mapPut p.launches n (f l) }
  | none => s

/-- The team whose record a LINK names. -/
def State.teamOf (s : State) (k n : Nat) (link : Dword) : Option Team := (s.launch k n).bind fun l => l.teams.find? fun t => t.record = link.toNat

/-- Domain and instance of a team (R138). -/
def State.teamDom (s : State) (k n : Nat) (link : Dword) : Option (Nat × Nat) :=
  match s.launch k n, s.teamOf k n link with
  | some l, some t => (l.levels[t.level]?).map fun d => (d.dom.toNat, t.domid)
  | _, _ => none

/-- The region that bounds a context's moves: its team's instance, or the tower it migrated to (R139); none where no team record of a live launch bounds it. -/
def State.regionOf (s : State) (key : Nat) : Option (Nat × Nat) :=
  let c := s.ctxAt key
  match (mapFind s.live key).bind (·.region) with
  | some t => if s.towerHasC (s.partOf key) t then some (5, t) else s.teamDom (s.partOf key) c.launch c.link
  | none => s.teamDom (s.partOf key) c.launch c.link

/-- A tower that a role change is draining or changing takes no context (R18, R349). -/
def State.draining (s : State) (k t : Nat) : Bool := match (s.part k).bind (·.roleChange) with | some rc => rc.maps.any (·.1 = t) | none => false


/-- Whether a frozen or freezing partition lets contexts of a launch move towards a slot (R349, R380, R381). -/
def State.resumes (s : State) (k n : Nat) : Bool := match (s.part k).bind (·.freeze) with | none => true | some f => !f.thaw && s.isUrgent k n

/-- A launch whose contexts ABORT evicts and discards (R363). -/
def State.aborting (s : State) (k n : Nat) : Bool := (s.launch k n).any (·.st = .aborting)

/-- Whether an IU lies in a region of the partition that takes contexts (R136). -/
def State.iuOf (s : State) (k : Nat) (r : Option (Nat × Nat)) (iu : Nat) : Bool :=
  s.isC (dieOfIu iu) && s.partOfTower (towerOfDie (dieOfIu iu)) == some k &&
  (match r with | some (d, i) => (Pos.iu iu).inst d == some i | none => true) && !colIu iu
/-- The same, where no role change keeps contexts away. -/
def State.iuIn (s : State) (k : Nat) (r : Option (Nat × Nat)) (iu : Nat) : Bool := !s.draining k (towerOfDie (dieOfIu iu)) && s.iuOf k r iu
/-- Instances of a domain in a region of the partition, by number (R136, R138). -/
def State.instances (s : State) (k dom : Nat) (r : Option (Nat × Nat)) : List Nat :=
  (((List.range 3072).filter (s.iuOf k r)).filterMap fun iu => (Pos.iu iu).inst dom).eraseDups
/-- The tower of the lowest-numbered die of an instance, whatever role that die has; for PKG, whose one instance is the partition, its lowest tower (R136, R141, log 59). -/
def State.instTower (s : State) (k dom inst : Nat) : Nat :=
  if dom = 6 then ((s.part k).bind fun p => p.towers.head?).getD 0
  else (((List.range 3072).find? fun iu => (Pos.iu iu).inst dom == some inst).map fun iu => towerOfDie (dieOfIu iu)).getD 0

/-- Clusters of a region, by number. -/
def State.clustersIn (s : State) (k : Nat) (r : Option (Nat × Nat)) : List Nat :=
  (List.range 384).filter fun c => (List.range 8).any fun i => s.iuIn k r (8 * c + i)

/-- SCOPE of a context's level (R140), from its team record. -/
def State.levelScope (s : State) (k asid : Nat) (link : Dword) : ScopeCode :=
  match s.teamPa none k asid link with | some pa => (memRead s.mem (pa + 0xF)).extractLsb' 4 3 | none => 7

/-! ### Slots (R108, R155, R377) -/

/-- Whether a slot of an IU may hold a context; a freeze with urgent work reserves slot 15, and until it is FROZEN that work has no other (R381). -/
def Part.slotOk (p : Part) (j : Nat) (urgent : Bool) : Bool :=
  let n := getF p.cl1lim 0 5
  let fr := p.freeze.any (·.urgent)
  let en := p.rsvslot.getLsbD 0 || fr
  let only15 := fr && !p.freeze.any (·.frozen)
  (decide (j < n) && !(en && j = 15) && !only15) || (en && j = 15 && urgent)

/-- Slots of the firmware column in a cluster: contexts in FW mode run there and nowhere else (R2, R396). -/
def fwSlots (clu : Nat) : List Nat := (rangeFrom (8 * clu) 8).flatMap fun iu => if colIu iu then rangeFrom (16 * iu) 16 else []
/-- The context in a slot. -/
def State.inSlot (s : State) (n : Nat) : Option (Nat × Held) := s.held.find? fun e => e.2.place = .slot n

/-- Slots of a cluster that a context may use, lowest IU first, then lowest slot; slots held for a task are left out (R108, R354). -/
def State.slotsFor (s : State) (clu k : Nat) (r : Option (Nat × Nat)) (urgent : Bool) : List Nat :=
  match s.part k with
  | none => []
  | some p => (rangeFrom (8 * clu) 8).flatMap fun iu =>
      if s.iuIn k r iu then ((List.range 16).filter fun j => p.slotOk j urgent && !(s.iu iu).heldSlots.contains j).map (16 * iu + ·) else []

/-! ### CL2 (R103, R109) -/

/-- The set of a line in a CL2 (R103). -/
def cl2SetIx (key : Nat) : Nat := key / 128 % 1024
/-- Lines that occupy a cluster's CL2 in the set of a line, and those on their way to it; a line that an exchange put there may belong to another set (R108, step 4). -/
def State.cl2Set (s : State) (clu key : Nat) : List (Nat × Held) :=
  s.held.filter fun e => (match e.2.place with | .cl2 c => c = clu | .moving _ d => d = some clu | .slot _ => false) && e.2.way / 8 = cl2SetIx key
/-- Ways of a set. -/
def cl2Ways : Nat := 8
/-- The lowest free way of a line's set, as a CL2 line number. -/
def State.freeWay (s : State) (clu key : Nat) : Option Nat :=
  ((List.range cl2Ways).map (8 * cl2SetIx key + ·)).find? fun w => !((s.cl2Set clu key).any fun e => e.2.way = w)

/-- The home directory records a context line as owned by the die that holds it, with room made for its entry (R84, R103); the host's copy has been taken back (R85). -/
def State.ctxOwned (s : State) (key die : Nat) : State :=
  let s := s.dirRoom (lineOf key)
  s.setDir (lineOf key) { s.dirE (lineOf key) with st := .own, owner := die, sharers := 0, host := false }

/-- Whether a line in memory may be taken from its home now: no role change holds it, the host has no copy (R19, R85). -/
def State.lineFree (s : State) (key : Nat) : Bool := !s.claimed (lineOf key) && !s.hostHas [lineOf key]

/-- A line goes to memory as its record has it, and keeps its STATE (R104, R110, R114); a READY one waits to be loaded (R358). -/
def State.spillAs (s : State) (key : Nat) (h : Held) : State :=
  let s := s.lineHome key h.ctx
  let s := { s with held := mapErase s.held key,
                    live := match mapFind s.live key with | some l => mapPut s.live key { l with readyAt := h.since } | none => s.live }
  match mapFind s.live key with
  | some l => if h.ctx.state = stReady then s.emitOnce (.load l.part) else s
  | none => s
/-- The line goes from its holder to memory (R104). -/
def State.spill (s : State) (key : Nat) : State := match mapFind s.held key with | none => s | some h => s.spillAs key h

/-- The REFT value, in ns, at which a line last changed its STATE (R108). -/
def Held.sinceNs (h : Held) : Nat := h.since / Config.ticksPerNs
/-- The victim of a full set: a DONE or FAULTED line, else the WAITING or PARKED one that has waited longest, ties going to the lowest way (R109). -/
def cl2Victim (set : List (Nat × Held)) : Option Nat :=
  let ended := set.filter fun e => e.2.ctx.state = stDone || e.2.ctx.state = stFaulted
  let waits := set.filter fun e => (match e.2.place with | .moving .. => false | _ => true) && (e.2.ctx.state = stWaiting || e.2.ctx.state = stParked)
  match ended with
  | e :: _ => some e.1
  | [] => (waits.foldl (fun m e => match m with
    | none => some e
    | some b => if e.2.sinceNs < b.2.sinceNs || (e.2.sinceNs = b.2.sinceNs && e.2.way < b.2.way) then some e else some b) none).map (·.1)

/-- Room in a cluster's CL2 for a line, with its way: a free one, or that of a victim, which is spilled; none while its set holds only READY lines (R109). -/
def State.cl2Room (s : State) (clu key : Nat) : Option (State × Nat) :=
  match s.freeWay clu key with
  | some w => some (s, w)
  | none => (cl2Victim (s.cl2Set clu key)).map fun v => (s.spill v, ((mapFind s.held v).map (·.way)).getD 0)

/-- Puts a line with its record into a CL2, owned by its die; a READY one looks for a slot (R103, R108). -/
def State.intoCl2 (s : State) (clu key way : Nat) (h : Held) : State :=
  let s := ({ s with held := mapPut s.held key { h with place := .cl2 clu, next := 0, evictReq := false, way } } : State).ctxOwned key (clu / 16)
  if h.ctx.state = stReady then s.emitOnce (.fill clu) else s

/-- EVICT_LINE: the context drains from its slot, its line enters its cluster's CL2, or passes through it to memory where its set holds only READY lines (R105, R109). A READY context counts from now (R108). A firmware context on a die in M role stays in its slot (R396). -/
def State.evictLine (s : State) (key : Nat) (sinceNow : Bool := true) : State :=
  match (mapFind s.held key).bind Held.slot? with
  | none => s
  | some n =>
    if s.isM (n / 2048) then s
    else
    let s := s.drain key
    match mapFind s.held key with
    | none => s
    | some h =>
      let clu := n / 128
      let h := if sinceNow && h.ctx.state = stReady then { h with since := s.now } else h
      let s := match s.cl2Room clu key with
        | some (s, w) => s.intoCl2 clu key w h
        | none => ({ s with held := mapPut s.held key { h with place := .cl2 clu, next := 0, evictReq := false } } : State).spill key
      s.slotFreed n

/-- A poisoned or offline line does not resume: the context becomes FAULTED in home memory (R110). -/
def State.fillBad (s : State) (key : Nat) : Option Trap :=
  if s.offline key then some ⟨tcPoison, 0xFD + 2 ^ 15, key⟩ else if s.isPoison (lineOf key) then some ⟨tcPoison, 0xFD, key⟩ else none

/-- The lines that such an end writes, and whether one of them is held or at the host, so that it must wait (R19, R85, R110). -/
def State.faultLines (s : State) (key : Nat) : List Nat := let c := s.ctxAt key; ((s.trapLine key c).map lineOf).toList ++ s.retireLines key c
def State.faultWaits (s : State) (key : Nat) : Bool := (s.fillBad key).isSome && ((s.faultLines key).any s.claimed || s.hostHas (s.faultLines key))

/-- The first instruction of a context is an acquire: at SYS scope its die drops its copies of peer lines where the context enters a slot and has not issued yet (R117, R128, R133). -/
def State.firstAcquire (s : State) (key die : Nat) : State :=
  match (mapFind s.live key).bind fun l => l.first.map (l, ·) with
  | some (l, pc, sc) => if (s.ctxAt key).pc = pc then s.dropPeer die sc else { s with live := mapPut s.live key { l with first := none } }
  | none => s

/-- The line enters a slot: NEXT is this cycle, the next one where a delivery of this cycle made it READY (R104, R145, R147). -/
def State.fillSlot (s : State) (key n : Nat) : State :=
  match s.fillBad key with
  | some t => s.moveToFaulted key t (s.trapLine key (s.ctxAt key))
  | none =>
    match mapFind s.held key with
    | none => s
    | some h =>
      let h' : Held := { Held.fresh (.slot n) h.id h.ctx (max (s.cyc (n / 2048)) h.next) s.now with since := h.since }
      let s := ({ s with held := mapPut s.held key h' } : State).firstAcquire key (n / 2048)
      s.modIu (n / 16) fun u => { u with heldSlots := u.heldSlots.filter (· != n % 16) }

/-- A line in memory is placed into a CL2, as its bytes stand (R104, R110). -/
def State.loadCl2 (s : State) (key clu : Nat) : Option State :=
  match s.fillBad key with
  | some t => some (s.moveToFaulted key t (s.trapLine key (s.ctxAt key)))
  | none =>
    (s.cl2Room clu key).map fun (s, w) =>
      let l := (mapFind s.live key).getD { id := 0, part := 0, launch := 0, region := none, migr := none, readyAt := s.now, needs := 0, first := none }
      s.intoCl2 clu key w { Held.fresh (.cl2 clu) l.id (s.ctxAt key) 0 s.now with since := l.readyAt }

/-- The scope at which a new context's first instruction is an acquire: that of its level, SYS where its launch had dependences (R133, R345). -/
def State.firstScope (s : State) (k launch : Nat) (link : Dword) : ScopeCode :=
  if (s.launch k launch).any fun l => l.deps.any (· != 0) then 7 else s.levelScope k (s.asidOf k launch) link

/-- A new context's line is placed into a CL2 (R104, R143, R269). -/
def State.placeLine (s : State) (key id k launch clu : Nat) (c : Ctx) : Option State :=
  if !s.lineFree key then none
  else (s.cl2Room clu key).map fun (s, w) =>
    let s := s.takeHome (lineOf key)
    let s := { s with live := mapPut s.live key { id, part := k, launch, region := none, migr := none, readyAt := s.now, needs := 0, first := some (c.pc, s.firstScope k launch c.link) },
                      poison := mapErase s.poison (lineOf key),
                      tags := s.tags.filter fun e => e.1 / 8 != key, traps := mapErase s.traps key, fences := mapErase s.fences key }
    s.intoCl2 clu key w (Held.fresh (.cl2 clu) id c 0 s.now)

/-! ### Pre-emption requests (R375, R376) -/

/-- Asks for the eviction of a resident context at its next boundary; a line in CL2 or in memory is acknowledged NOTSLOT, as is one on a die in M role, which stays (R376, R396, log 17), one whose context has retired or become FAULTED VOID. -/
def State.requestEvict (s : State) (r : Requester) (key : Nat) : State :=
  match mapFind s.held key with
  | some h =>
    if h.slot?.any fun n => !s.isM (n / 2048) then
      let s := { s with asks := mapUpd s.asks key [] (· ++ [r]) }
      if h.evictReq then s else ({ s with held := mapPut s.held key { h with evictReq := true } } : State).emit (.preemption key)
    else s.ack r key .notslot
  | none => s.ack r key (if (s.ctxAt key).state = stDone || (s.ctxAt key).state = stFaulted then .void else .notslot)

end Sys2Proof.Machine
end

