-- ==== Sys2Proof/Machine/Overflow.lean ====
section
/-! DEFINITION. Memory as the front end and the dispatchers see it, the pool header, and deques: the tasks held on chip and the bytes of their overflow areas (R268, R335, R349 to R353). -/

namespace Sys2Proof.Machine

/-! ### Memory as the front end and the dispatchers see it -/

/-- A write of the device itself at a line's home; like a host write it leaves the stamp (SYS, none) (log 40). -/
def State.hwWrite (s : State) (pa : Nat) (bs : List Byte) : State := s.writeAtHome (numberFrom pa bs) (.host, .off) none
/-- The same at a VA; nothing where it is not mapped (log 11). -/
def State.hwWriteVa (s : State) (k asid va : Nat) (bs : List Byte) : State :=
  match s.vaToPa k asid va with | some pa => s.hwWrite pa bs | none => s
/-- Bytes at a VA, each translated for itself; 0 where it is not mapped. -/
def State.vaBytes (s : State) (k asid va n : Nat) : List Byte :=
  (rangeFrom va n).map fun a => match s.vaToPa k asid a with | some pa => memRead s.mem pa | none => 0
/-- A number at a VA. -/
def State.vaN (s : State) (k asid va n : Nat) : Nat := leToNat (s.vaBytes k asid va n)
/-- Whether lines may be written now: no home hold, claim or copy of the host (R19, R85, R90). -/
def State.linesFree (s : State) (ls : List Nat) : Bool := ls.all (fun l => !s.claimed l) && !s.hostHas ls
/-- The lines of some VAs. -/
def State.vaLines (s : State) (k asid : Nat) (vas : List Nat) : List Nat := vas.filterMap fun va => (s.vaToPa k asid va).map lineOf
/-- Whether the lines of some VAs may be written now. -/
def State.vaFree (s : State) (k asid : Nat) (vas : List Nat) : Bool := s.linesFree (s.vaLines k asid vas)
/-- The die whose dispatcher is the partition's front end: its lowest C die (log 40). -/
def State.frontDie (s : State) (k : Nat) : Option Nat := (List.range 24).find? fun d => s.isC d && s.partOfTower (towerOfDie d) == some k

/-- A read-modify-write of the device on a pool header, at its home and at PKG scope; a pool's identifiers are returned with a release (R350, R351). -/
def State.hwRmwVa (s : State) (k asid va : Nat) (bs : List Byte) : State :=
  match s.vaToPa k asid va with
  | some pa => let d := (s.frontDie k).getD 0; s.writeAtHome (numberFrom pa bs) (.dispatcher d, .die d) (some 6)
  | none => s

/-! ### The pool header (R350) -/

/-- VA of the pool header of a launch: CTXPOOL's, or that of urgent work (R335, R381). -/
def State.poolHdr (s : State) (k : Nat) (urgent : Bool) : Nat :=
  match s.part k with
  | none => 0
  | some p => if urgent then (match p.freeze with | some f => f.upool.toNat | none => 0) else (p.ctxpool &&& ~~~0xFF#64).toNat

/-- Base and size in units of the team-record area homed on a tower; none where there is no header (R350). -/
def State.trArea (s : State) (k asid : Nat) (urgent : Bool) (t : Nat) : Nat × Nat :=
  let h := s.poolHdr k urgent
  if h = 0 then (0, 0) else (s.vaN k asid (h + 0x28 + 8 * t) 8, s.vaN k asid (h + 0x58 + 4 * t) 4)

/-! ### Deques (R268, R352, R353) -/

/-- Tasks nearest the own end, held on chip; tasks an overflow area holds (R353). -/
def dequeChip : Nat := 16
def dequeArea : Nat := 2048

/-- The record of a task and its tag (R268). -/
def Task.record (t : Task) : List Byte := leBytes 8 t.entry.toNat ++ leBytes 12 t.arg0.toNat ++ leBytes 12 t.arg1.toNat
def Task.tag (t : Task) : List Byte :=
  leBytes 8 t.link.toNat ++ leBytes 2 t.launch ++ leBytes 1 (t.level % 8 + t.dom % 8 * 16) ++ [t.sst] ++ leBytes 4 t.domid
/-- The task that the bytes of a record and of a tag hold (R268). -/
def taskOf (r g : List Byte) : Task :=
  let n (b : List Byte) (o k : Nat) : Nat := leToNat ((b.drop o).take k)
  { entry := BitVec.ofNat 64 (n r 0 8), arg0 := BitVec.ofNat 96 (n r 8 12), arg1 := BitVec.ofNat 96 (n r 20 12), link := BitVec.ofNat 64 (n g 0 8),
    launch := n g 8 2, level := n g 10 1 % 8, dom := n g 10 1 / 16 % 8, sst := BitVec.ofNat 8 (n g 11 1), domid := n g 12 4 }

/-- An ASID through which hardware reaches a pool: one of a live launch that uses it, for each maps it (R350, log 42). -/
def State.poolAsid (s : State) (k : Nat) (urgent : Bool) : Nat :=
  ((s.part k).bind fun p => (p.launches.find? fun e => e.2.urgent == urgent).map fun e => e.2.asid).getD 0
/-- Whether the deques are those of urgent work: from the end of step 1 of a Squall, which puts the others aside, until Thaw (R381). -/
def State.dqUrgent (s : State) (k : Nat) : Bool := ((s.part k).bind (·.freeze)).any fun f => !f.thaw && decide (f.step ≥ 2)
/-- Places of the record and of the tag of entry `i` of an IU's overflow area in one of the two pools; entry `i` is the task that is i-th oldest (R353, R381, log 42). None where the area is not mapped. -/
def State.dqEntryIn (s : State) (k : Nat) (urgent : Bool) (iu i : Nat) : Option (Nat × Nat) :=
  let a := s.poolAsid k urgent
  let h := s.poolHdr k urgent
  let va := s.vaN k a (h + 0x70) 8 + 0x2_0000 * iu
  if h = 0 then none
  else (s.vaToPa k a (va + 32 * i)).bind fun r => (s.vaToPa k a (va + 0x1_0000 + 16 * i)).map fun g => (r, g)
/-- The same in the pool that the deques use now. -/
def State.dqEntry (s : State) (k iu i : Nat) : Option (Nat × Nat) := s.dqEntryIn k (s.dqUrgent k) iu i
/-- The task in an entry. -/
def State.dqRead (s : State) (k iu i : Nat) : Option Task := (s.dqEntry k iu i).map fun e => taskOf (memReadList s.mem e.1 32) (memReadList s.mem e.2 16)
/-- A task's record and tag go to their places, if it has any. -/
def State.taskWrite (s : State) (at_ : Option (Nat × Nat)) (t : Task) : State :=
  match at_ with | some e => (s.hwWrite e.1 t.record).hwWrite e.2 t.tag | none => s
/-- Writes a task into an entry; nothing where the area is not mapped. -/
def State.dqWrite (s : State) (k iu i : Nat) (t : Task) : State := s.taskWrite (s.dqEntry k iu i) t
/-- Tasks in an IU's overflow area, oldest first. -/
def State.dqOver (s : State) (k iu : Nat) : List Task := (List.range (s.iu iu).spilled).filterMap (s.dqRead k iu)
/-- All tasks of a deque, from the own end. -/
def State.dqAll (s : State) (k iu : Nat) : List Task := (s.iu iu).deque ++ (s.dqOver k iu).reverse

/-- Tasks that a Squall has put aside, on chip and in the overflow area (R349). -/
def State.dqAside (s : State) (k iu : Nat) : List Task :=
  (s.iu iu).aside ++ (List.range (s.iu iu).asideN).filterMap fun i => (s.dqEntryIn k false iu i).map fun e => taskOf (memReadList s.mem e.1 32) (memReadList s.mem e.2 16)

/-- Whether one more task finds room (R268, R353). -/
def State.dqRoom (s : State) (k iu : Nat) : Bool :=
  decide ((s.iu iu).deque.length < dequeChip) || (decide ((s.iu iu).spilled < dequeArea) && (s.dqEntry k iu (s.iu iu).spilled).isSome)
/-- A push at the own end: the oldest task on chip goes to the overflow area where the chip is full (R352, R353). -/
def State.dqPush (s : State) (k iu : Nat) (t : Task) : State :=
  let u := s.iu iu
  if u.deque.length < dequeChip then s.modIu iu fun u => { u with deque := t :: u.deque }
  else
    match u.deque.getLast? with
    | some o => (s.dqWrite k iu u.spilled o).modIu iu fun u => { u with deque := t :: u.deque.dropLast, spilled := u.spilled + 1 }
    | none => s
/-- The chip holds the tasks nearest the own end: the newest of the overflow area come back to it (R353). -/
def State.dqRefill (s : State) (k iu : Nat) : Nat → State
  | 0 => s
  | n + 1 =>
    let u := s.iu iu
    if u.spilled = 0 || decide (u.deque.length ≥ dequeChip) then s
    else (s.modIu iu fun u => { u with deque := u.deque ++ (s.dqRead k iu (u.spilled - 1)).toList, spilled := u.spilled - 1 }).dqRefill k iu n
/-- Takes the task at the own end. -/
def State.dqPopOwn (s : State) (k iu : Nat) : State := (s.modIu iu fun u => { u with deque := u.deque.drop 1 }).dqRefill k iu 1
/-- The task at the far end (R352). -/
def State.dqFar (s : State) (k iu : Nat) : Option Task := if (s.iu iu).spilled = 0 then (s.iu iu).deque.getLast? else s.dqRead k iu 0
/-- Takes the task at the far end: the entries above it move down. -/
def State.dqPopFar (s : State) (k iu : Nat) : State :=
  let u := s.iu iu
  if u.spilled = 0 then s.modIu iu fun u => { u with deque := u.deque.dropLast }
  else
    let s := (numberFrom 0 ((s.dqOver k iu).drop 1)).foldl (fun s e => s.dqWrite k iu e.1 e.2) s
    s.modIu iu fun u => { u with spilled := u.spilled - 1 }
/-- Lays out the tasks of a deque anew: those nearest the own end on chip, the others in the area (R353). -/
def State.dqSet (s : State) (k iu : Nat) (ts : List Task) : State :=
  let area := (ts.drop dequeChip).reverse
  ((numberFrom 0 area).foldl (fun s e => s.dqWrite k iu e.1 e.2) s).modIu iu fun u => { u with deque := ts.take dequeChip, spilled := area.length }
/-- Keeps the tasks of a deque that a test keeps, in order (R362, R363). -/
def State.dqKeep (s : State) (k iu : Nat) (p : Task → Bool) : State := s.dqSet k iu ((s.dqAll k iu).filter p)
/-- A Squall puts an IU's deque aside, so that urgent work finds an empty one (R349, R381). -/
def Iu.putAside (u : Iu) : Iu := { u with deque := [], spilled := 0, aside := u.deque, asideN := u.spilled }
/-- What was put aside is the deque again. -/
def Iu.takeUp (u : Iu) : Iu := { u with deque := u.aside, spilled := u.asideN, aside := [], asideN := 0 }
/-- Every task put aside goes to the overflow area, as far as it has room (R349). -/
def State.dqSpill (s : State) (k iu : Nat) : State :=
  let u := s.iu iu
  let out := u.aside.reverse.take (dequeArea - u.asideN)
  if (s.dqEntryIn k false iu u.asideN).isNone then s
  else
    let s := (numberFrom u.asideN out).foldl (fun s e => s.taskWrite (s.dqEntryIn k false iu e.1) e.2) s
    s.modIu iu fun u => { u with aside := u.aside.take (u.aside.length - out.length), asideN := u.asideN + out.length }

end Sys2Proof.Machine
end

