-- ==== Sys2Proof/Machine/Task.lean ====
section
/-! DEFINITION. Tasks, futures, barriers, park, migration by request, identity (R267 to R281). -/

namespace Sys2Proof.Machine

/-! ### Read-modify-writes at a home (R251, R273, R274, R276) -/

/-- What a read-modify-write at the home finds of `n` bytes: it is not accepted yet, the word is lost, or its value. -/
inductive HomeWord
  | busy | bad (line : Nat) (off : Bool) | val (v : Nat)
  deriving DecidableEq, Repr

/-- The word at its home, after the context's own earlier accesses to it, and once no lease on it runs and the host holds no copy (R72, R85, R120, R251). -/
def State.homeWord (s : State) (e : Iss) (pa n : Nat) : HomeWord :=
  match s.badPiece (pa, n) with
  | some (l, off) => .bad l off
  | none =>
    if s.priorOverlap e.key s.nextId [(pa, n)] || s.accessBefore e.key (s.fenceOf e.key).after || s.lineBusy [lineOf pa] || s.claimed (lineOf pa) || decide (s.now < s.lexpAll (lineOf pa)) || s.hostHas [lineOf pa] then .busy
    else .val (s.readN pa n)

/-- Writes the word at its home, as a release or as a relaxed read-modify-write (R123). -/
def State.homeWrite (s : State) (e : Iss) (pa n v : Nat) (rel : Option ScopeCode) : State :=
  ((s.takeHome (lineOf pa)).perform (bytesAt pa n v) (if rel.isSome then some (.ctx e.key, e.pos) else none) rel)

/-- The PA of a location of the team record; a miss waits for its walk like any access, and what a role change holds is passed over (R19, R62, R276). -/
def State.withRecord (s : State) (e : Iss) (off : Nat) (f : State → Nat → State) : State :=
  let va := e.h.ctx.link.toNat + off
  s.withLeaf e va false fun s l => if s.homeHeld (l.pa va) then s else f s (l.pa va)

/-- The PA of a barrier of the team record; a barrier operation of urgent work outside the KEEP ranges raises FROZEN (R276, R380, log 35). -/
def State.withBarrier (s : State) (e : Iss) (off : Nat) (f : State → Nat → State) : State :=
  s.withRecord e off fun s pa => if s.frozenAt e.part e.h.ctx.launch pa then s.trapAt e tcFrozen 0 (e.h.ctx.link.toNat + off) else f s pa

/-! ### SPAWN and SPAWNJ (R267 to R270, R352, R353) -/

/-- The task tag's SST byte (R268). -/
def sstOf (c : Ctx) : Byte := BitVec.ofNat 8 (c.mode + c.chk.toNat * 4 + c.rm * 8 + c.prio * 64)

/-- Every IU that may hold contexts of a partition looks whether it is idle, where CTXPOOL.EN is 1 (R356). -/
def State.lookAll (s : State) (k : Nat) : State :=
  if (s.part k).any fun p => p.ctxpool.getLsbD 0 then
    s.emits (((List.range 3072).filter fun iu => s.iuOf k none iu && !s.agenda.contains (.stealRound iu)).map Instr.stealRound)
  else s

/-- Pushes a task at the own end (R352, R354). -/
def State.pushTask (s : State) (k iu : Nat) (t : Task) : State :=
  (s.dqPush k iu t).emitOnce (.dequePop iu)

/-- Whether a launch discards its tasks (R362, R363). -/
def State.discards (s : State) (k n : Nat) : Bool := match s.launch k n with | some l => l.st = .draining || l.st = .aborting | none => false

/-- The task that a context spawns, with its tag from the team record at a PA (R268). -/
def State.spawned (s : State) (e : Iss) (pa : Nat) (entry : Dword) (arg0 arg1 : XReg) : Task :=
  let c := e.h.ctx
  { entry := entry &&& ~~~3#64, arg0, arg1, link := c.link, launch := c.launch, level := c.level,
    dom := getF (memRead s.mem (pa + 0xF)) 0 3, sst := sstOf c, domid := s.readN (pa + 0x10) 4 }

/-- The push of a spawned task, or DEQFULL (R268, R362). -/
def State.spawn (s : State) (e : Iss) (S : BitVec 3) (entry : Dword) (arg0 arg1 : XReg) (pa : Nat) : State :=
  let t := s.spawned e pa entry arg0 arg1
  let s := (s.flushSram (some e.pos) (some (s.levelScope e.part e.asid e.h.ctx.link))).finish e S e.h
  if s.discards e.part e.h.ctx.launch then s else s.pushTask e.part e.iu t

/-- Whether an entry VA may not be branched to (R227, R267). -/
def entryBad (en : Dword) : Bool := !canonical en.toNat || en.toNat % 4 != 0

/-- SPAWN (R267, R268). -/
def execSpawn (h : Hdr) (a b : Reg) (s : State) : Host.Outcome State Fault Refusal :=
  s.run (.spawn h a b) (shape h [a, b, regAdd b 1] []) fun e s =>
    let en := e.xd a
    if entryBad en then s.trapAt e tcAlign 16 en.toNat
    else s.withRecord e 0 fun s pa =>
      if !s.dqRoom e.part e.iu then s.trapAt e tcDeqfull 0 0 else s.spawn e h.s en (e.y b) (e.z (regAdd b 1)) pa

/-! ### Futures (R271) -/

/-- Fields of a future word. -/
def futSt (w : Nat) : Nat := w / 2 ^ 62 % 4
def futReg (w : Nat) : Reg := BitVec.ofNat 3 (w / 2 ^ 59)
/-- The identifier in a WAITERS word, bits [63:57] equal to bit 56. -/
def futId (w : Nat) : Nat := (BitVec.ofNat 57 (w % 2 ^ 57 / 256 * 256)).signExtend 64 |>.toNat
/-- A word that breaks the table of R271. -/
def futBad (w : Nat) : Bool :=
  match futSt w with
  | 0 => w != 0
  | 1 => w / 2 ^ 57 % 4 != 0 || w % 256 != 0
  | 2 => false
  | _ => w / 2 ^ 32 % 2 ^ 30 != 0
def futWaiters (id : Nat) (d : Reg) : Nat := 2 ^ 62 + d.toNat * 2 ^ 59 + id % 2 ^ 57 / 256 * 256
def futResolved (v : Nat) : Nat := 2 ^ 63 + v % 2 ^ 62
def futFaulted (code : Nat) : Nat := 3 * 2 ^ 62 + code % 2 ^ 32

/-- SPAWNJ: the checks of the join word's access and of the entry, the reset of the join word, the push; a word that must not be reset is found before anything is done (R270, R369, log 53). -/
def execSpawnj (h : Hdr) (n : DescN) (d a b : Reg) (s : State) : Host.Outcome State Fault Refusal :=
  s.run (.spawnj h n d a b) (shape h [a, b, d] []) fun e s =>
    let en := e.xd a
    s.withAccess e (s.access e n.toNat (e.zd d) 8 .atomic) fun acc _ =>
      let pa := (acc.segs.headD (0, 0)).1
      if entryBad en then s.trapAt e tcAlign 16 en.toNat
      else s.withRecord e 0 fun s rec =>
        match s.homeWord e pa 8 with
        | .busy => s.snoopHost [lineOf pa]
        | .bad l off => (s.finish e h.s e.h).boundaryTrap e.key ⟨tcPoison, 0xFF + (if off then 2 ^ 15 else 0), l * 128⟩
        | .val w =>
          if futSt w = 1 then s.trapAt e tcFutbusy n.toNat acc.va
          else if futBad w then s.trapAt e tcFutfmt n.toNat acc.va
          else if !s.dqRoom e.part e.iu then s.trapAt e tcDeqfull 0 0
          else (s.homeWrite e pa 8 0 (s.fenceOf e.key).rel).spawn e h.s en (e.y b) (xSetD (BitVec.ofNat 96 (n.toNat * 2 ^ 64)) (e.zd d)) rec

/-- FUTW (R273). -/
def execFutw (h : Hdr) (n : DescN) (sc : ScopeCode) (d a : Reg) (s : State) : Host.Outcome State Fault Refusal :=
  s.run (.futw h n sc d a) (shape h [a] [d]) fun e s =>
    if e.h.ctx.pendAll != 0 then s.waitRegs e 0xFF
    else s.withAccess e (s.access e n.toNat (e.xd a) 8 .atomic) fun acc ds =>
      let pa := (acc.segs.headD (0, 0)).1
      match s.homeWord e pa 8 with
      | .busy => s.snoopHost [lineOf pa]
      | .bad l off => (s.finish e h.s e.h).boundaryTrap e.key ⟨tcPoison, d.toNat + (if off then 2 ^ 15 else 0), l * 128⟩
      | .val w =>
        if futBad w then s.trapAt e tcFutfmt n.toNat acc.va
        else if futSt w ≥ 2 then
          let st := s.stamp (lineOf pa)
          let sc := scopeOr sc ds
          let s := (s.start e h.s d (.fut (xOfD (BitVec.ofNat 64 w)))).dropPeer e.die sc
          if stampOk st sc e.key e.pos then s else s.scopeMiss e.key st sc acc.va
        else
          let s := s.homeWrite e pa 8 (futWaiters e.h.id d) (s.fenceOf e.key).rel
          let c := ({ e.h.ctx with x := xset e.h.ctx.x d (xSetD (xget e.h.ctx.x d) (BitVec.ofNat 64 w)) } : Ctx).setPend d.toNat true
          s.waitAt { e with h := { e.h with ctx := c } } stParked whyFut

/-- FUTR and FUTF; DOUBLE goes before FUTFMT (R274, R369). The model's choice: POISON of an RMW that writes no register carries 0xFF where R250 has the register's number (log 67). -/
def State.resolve (s : State) (e : Iss) (S : BitVec 3) (n : DescN) (sc : ScopeCode) (off : Dword) (new : Nat) : State :=
  s.withAccess e (s.access e n.toNat off 8 .atomic) fun acc ds =>
    let pa := (acc.segs.headD (0, 0)).1
    match s.homeWord e pa 8 with
    | .busy => s.snoopHost [lineOf pa]
    | .bad l o => (s.finish e S e.h).boundaryTrap e.key ⟨tcPoison, 0xFF + (if o then 2 ^ 15 else 0), l * 128⟩
    | .val w =>
      if futSt w ≥ 2 then s.trapAt e tcDouble n.toNat acc.va
      else if futBad w then s.trapAt e tcFutfmt n.toNat acc.va
      else
        let s := (s.homeWrite e pa 8 new (some (scopeOr sc ds))).finish e S e.h
        if w = 0 then s
        else (({ s with futs := mapPut s.futs s.nextId { part := e.part, asid := e.asid, va := acc.va, word := BitVec.ofNat 64 new, link := BitVec.ofNat 64 w } } : State).emit
          (.futureWalk s.nextId)).bump

/-- FUTR (R274). -/
def execFutr (h : Hdr) (n : DescN) (sc : ScopeCode) (a b : Reg) (s : State) : Host.Outcome State Fault Refusal :=
  s.run (.futr h n sc a b) (shape h [a, b] []) fun e s => s.resolve e h.s n sc (e.xd a) (futResolved (e.yd b).toNat)
/-- FUTF (R274). -/
def execFutf (h : Hdr) (n : DescN) (sc : ScopeCode) (a b : Reg) (s : State) : Host.Outcome State Fault Refusal :=
  s.run (.futf h n sc a b) (shape h [a, b] []) fun e s => s.resolve e h.s n sc (e.xd a) (futFaulted (e.yd b).toNat)

/-- FUTURE_WALK: one waiter of the list, from the newest; the walk ends at one that is no live context parked for a future with PEND[d] set (R273, R275, R429). -/
def execFutureWalk (k : Nat) (s : State) : Host.Outcome State Fault Refusal :=
  match mapFind s.futs k with
  | none => .next s
  | some f =>
    let ended : State := { s with futs := mapErase s.futs k }
    let home := ((s.vaToPa f.part f.asid f.va).bind s.homeTower).getD 0
    let broken (s : State) : State := s.bb (4 * home) 9 f.part [f.va, f.link.toNat]
    let w := f.link.toNat
    if w = 0 then .next ended
    else if futSt w != 1 || futBad w then .next (broken ended)
    else
      match s.ctxLine none f.part f.asid (futId w) with
      | none => .next (broken ended)
      | some key =>
        if s.isMoving key then .next (s.holdLate key (.futureWalk k))
        else
          let c := s.ctxAt key
          if !(s.isLive key && c.state = stParked && c.why = whyFut && c.pend (futReg w).toNat) then .next (broken ended)
          else
            let d := futReg w
            let link := xD (xget c.x d)
            let c := ({ c with x := xset c.x d (xSetD (xget c.x d) f.word) } : Ctx).setPend d.toNat false
            let s := s.setCtx key (c.wake whyFut)
            .next (({ s with futs := mapPut s.futs k { f with link } } : State).emit (.futureWalk k))

/-! ### Barriers (R142, R276, R277) -/

/-- The identifiers in a team's roster, block by block (R355). -/
def State.rosterIds (s : State) (k asid : Nat) (t : Team) : List Nat :=
  (List.range t.roster).filterMap fun i => (t.blocks[i / 127]?).map fun b => s.vaN k asid (b + 8 + 8 * (i % 127)) 8
/-- Members of a team: the live contexts that its roster names and whose LINK is the team's (R277, R355). -/
def State.members (s : State) (k n : Nat) (link : Dword) : List Nat :=
  match s.teamOf k n link with
  | none => []
  | some t =>
    let asid := s.asidOf k n
    (((s.rosterIds k asid t).filterMap fun id => s.ctxLine none k asid id).filter fun m =>
      ((mapFind s.live m).any fun l => l.part = k && l.launch = n) && (s.ctxAt m).link = link).eraseDups

/-- The word at a VA of a context's address space, as hardware reads it. -/
def State.wordAt (s : State) (key va : Nat) : Nat :=
  let k := s.partOf key
  match s.vaToPa k (s.asidOf k (s.ctxAt key).launch) va with | some pa => s.readPa pa 4 | none => 0

/-- Whether a parked member's PC is past a BAR naming n, or at a BARW naming n (R277). -/
def State.parkedAt (s : State) (key n : Nat) : Bool :=
  let pc := (s.ctxAt key).pc.toNat
  (match instrOf (s.wordAt key pc) 0 with | .barw _ _ m => m.toNat = n | _ => false) ||
  (match instrOf (s.wordAt key (pc - 4)) 0 with | .bar _ m => m.toNat = n | _ => false)

/-- An arrival at the home: the phase it found, and whether it opened the barrier, which wakes the members parked at it (R276, R277). -/
def State.arrive (s : State) (e : Iss) (n : BitVec 2) (pa : Nat) : State × Nat × Bool :=
  let expect := s.readN pa 4
  let arrived := s.readN (pa + 4) 4
  let p := s.readN (pa + 8) 4
  let sc := s.levelScope e.part e.asid e.h.ctx.link
  if arrived + 1 ≥ expect then
    let s := s.homeWrite e (pa + 4) 8 ((p + 1) % 2 ^ 32 * 2 ^ 32) (some sc)
    let ms := (s.members e.part e.h.ctx.launch e.h.ctx.link).filter fun m => (s.ctxAt m).state = stParked && (s.ctxAt m).why = whyBar && s.parkedAt m n.toNat
    (s.emits (ms.map fun m => .barrierWake m e.h.ctx.link.toNat n.toNat), p, true)
  else (s.homeWrite e (pa + 4) 4 (arrived + 1) (some sc), p, false)

/-- Leaving an open barrier: an acquire at the level's SCOPE of what the record's line carried; a context that no die holds may resume on any (R128, R133, R139, R140). -/
def State.leaveBar (s : State) (key : Nat) (pos : Pos) (k asid : Nat) (link : Dword) (st : Stamp) (va : Nat) : State :=
  let sc := s.levelScope k asid link
  let s := (match pos.inst 4 with | some d => [d] | none => List.range 24).foldl (fun s d => s.dropPeer d sc) s
  if stampOk st sc key pos then s else s.scopeMiss key st sc va

/-- Address of barrier object n of the team record (R141). -/
def barOff (n : BitVec 2) : Nat := 0x40 + 16 * n.toNat

/-- What the home answers to an arrival follows every wake that it sent the context before: those are past when the context parks (R7, R277). -/
def State.pastWakes (s : State) (key : Nat) : State := { s with agenda := s.agenda.filter fun i => match i with | .barrierWake m _ _ => m != key | _ => true }

/-- BAR: it has issued when the context parks (R276). -/
def execBar (h : Hdr) (n : BitVec 2) (s : State) : Host.Outcome State Fault Refusal :=
  s.run (.bar h n) (shape h [] []) fun e s => s.withBarrier e (barOff n) fun s pa =>
    match s.homeWord e pa 16 with
    | .busy => s.snoopHost [lineOf pa]
    | .bad l off => (s.finish e h.s e.h).boundaryTrap e.key ⟨tcPoison, 0xFF + (if off then 2 ^ 15 else 0), l * 128⟩
    | .val _ =>
      let st := s.stamp (lineOf pa)
      let (s, _, opened) := (s.finish e h.s e.h).arrive e n pa
      if opened then s.leaveBar e.key e.pos e.part e.asid e.h.ctx.link st (e.h.ctx.link.toNat + barOff n) else (s.pastWakes e.key).setCtx e.key ((s.ctxAt e.key).setState stParked whyBar)
/-- BARA: arrives and delivers the phase (R276). -/
def execBara (h : Hdr) (d : Reg) (n : BitVec 2) (s : State) : Host.Outcome State Fault Refusal :=
  s.run (.bara h d n) (shape h [] [d]) fun e s => s.withBarrier e (barOff n) fun s pa =>
    match s.homeWord e pa 16 with
    | .busy => s.snoopHost [lineOf pa]
    | .bad l off => (s.finish e h.s e.h).boundaryTrap e.key ⟨tcPoison, d.toNat + (if off then 2 ^ 15 else 0), l * 128⟩
    | .val _ =>
      let (s, p, _) := s.arrive e n pa
      s.start e h.s d (.value (xOfD (BitVec.ofNat 64 p)) 0x0FF 0)
/-- BARW: issues once the phase has moved on, else parks at itself (R276). -/
def execBarw (h : Hdr) (a : Reg) (n : BitVec 2) (s : State) : Host.Outcome State Fault Refusal :=
  s.run (.barw h a n) (shape h [a] []) fun e s => s.withBarrier e (barOff n) fun s pa =>
    match s.homeWord e pa 16 with
    | .busy => s.snoopHost [lineOf pa]
    | .bad l off => (s.finish e h.s e.h).boundaryTrap e.key ⟨tcPoison, 0xFF + (if off then 2 ^ 15 else 0), l * 128⟩
    | .val _ =>
      if s.readN (pa + 8) 4 != getF (e.xd a) 0 32 then
        (s.finish e h.s e.h).leaveBar e.key e.pos e.part e.asid e.h.ctx.link (s.stamp (lineOf pa)) (e.h.ctx.link.toNat + barOff n)
      else (s.pastWakes e.key).waitAt e stParked whyBar

/-- BARRIER_WAKE: a member parked at the barrier wakes; one that parked after its BAR leaves it here, one at a BARW when that issues (R106, R128, R133, R277). -/
def execBarrierWake (key link n : Nat) (s : State) : Host.Outcome State Fault Refusal :=
  if s.isMoving key then .next (s.holdLate key (.barrierWake key link n))
  else
    let c := s.ctxAt key
    if !(s.isLive key && c.link.toNat = link && c.state = stParked && c.why = whyBar && s.parkedAt key n) then .next s
    else
      let atBarw : Bool := match instrOf (s.wordAt key c.pc.toNat) 0 with | .barw _ _ m => decide (m.toNat = n) | _ => false
      let k := s.partOf key
      let asid := s.asidOf k c.launch
      let va := link + barOff (BitVec.ofNat 2 n)
      let s := s.setCtx key (c.wake whyBar)
      match s.vaToPa k asid va with
      | some pa => .next (if atBarw then s else s.leaveBar key (s.posOf key) k asid c.link (s.stamp (lineOf pa)) va)
      | none => .next s

/-! ### PARK, MIGR, SELF (R278 to R281) -/

/-- PARK (R279). -/
def execPark (h : Hdr) (a : Reg) (s : State) : Host.Outcome State Fault Refusal :=
  s.run (.park h a) (shape h [a] []) fun e s =>
    let t := (e.xd a).toNat
    if t = 0 then s.waitAt e stParked whyPark
    else if s.reft ≥ t then s.finish e h.s e.h
    else ({ s.waitAt e stParked whyTimer with timers := mapPut s.timers e.key t } : State).emit (.timerWake e.key)

/-- TIMER_WAKE: no earlier than the deadline (R279). -/
def execTimerWake (key : Nat) (s : State) : Host.Outcome State Fault Refusal :=
  let c := s.ctxAt key
  match mapFind s.timers key with
  | none => .next s
  | some t =>
    if decide (s.reft < t) || !s.resumes (s.partOf key) c.launch then .next (s.emit (.timerWake key))
    else if s.isMoving key then .next (s.holdLate key (.timerWake key))
    else
      let s := { s with timers := mapErase s.timers key }
      .next (if c.state = stParked && c.why = whyTimer then s.setCtx key (c.wake whyTimer) else s)

/-- MIGR (R280). The model's choice: an address that has no home tower (a host or peer page without HOV, an alias address) moves nothing, and the instruction is done (log 68). -/
def execMigr (h : Hdr) (n : DescN) (a : Reg) (s : State) : Host.Outcome State Fault Refusal :=
  s.run (.migr h n a) (shape h [a] []) fun e s =>
    match s.access e n.toNat (e.xd a) 1 .load false with
    | .ok acc _ l =>
      match s.migTower l (l.pa acc.va) with
      | some t => if t != towerOfDie e.die && s.towerHasC e.part t then s.startMigration e t else s.finish e h.s e.h
      | none => s.finish e h.s e.h
    | r => s.withAccess e r fun _ _ => s

/-- SELF (R281). -/
def execSelf (h : Hdr) (d : Reg) (s : State) : Host.Outcome State Fault Refusal :=
  s.run (.self h d) (shape h [] [d]) fun e s => s.result e h.s 8 d 0xFFF (xSetD (BitVec.ofNat 96 (e.iu * 2 ^ 64)) (BitVec.ofNat 64 e.h.id))

end Sys2Proof.Machine
end

