-- ==== Sys2Proof/Machine/System.lean ====
section
/-! DEFINITION. Control registers, TRAP, TRET and EVICT (R73, R125, R152, R155, R156, R334 to R337). -/

namespace Sys2Proof.Machine

/-! ### Control registers (R334, R335) -/

/-- Clock cap of a die in units of 0.05 GHz (R16, R396). -/
def State.freqCap (s : State) (die : Nat) : Nat := if s.isM die then 12 else match s.roleOf (towerOfDie die) with | some .cccc => 27 | _ => 36
/-- CUR: 12 on a die in M role (R396). -/
def State.freqCur (s : State) (die : Nat) : Nat := if s.isM die then 12 else (s.die die).cur

/-- The value RDS reads (R335). -/
def State.rdsVal (s : State) (die k : Nat) (r : Creg) : Dword :=
  let f (g : Part → Dword) : Dword := ((s.part k).map g).getD 0
  match r with
  | .cl1lim => f (·.cl1lim)
  | .rsvslot => f (·.rsvslot)
  | .lease => f (·.lease)
  | .chkstall => f (·.chkstall)
  | .scopemissen => f (·.scopemissen)
  | .ctxpool => f (·.ctxpool)
  | .trapvec => f (·.trapvec)
  | .reft => BitVec.ofNat 64 s.reft
  | .cyc => BitVec.ofNat 64 (s.cyc die)
  | .ncy => BitVec.ofNat 64 (s.reft * 9 / 5)
  | .freq => BitVec.ofNat 64 (s.freqCap die * 2 ^ 16 + (((s.part k).map (·.freqReq)).getD 36) * 2 ^ 8 + s.freqCur die)
  | .partid => BitVec.ofNat 64 (k + ((List.range 24).filter fun d => s.isC d && s.partOfTower (towerOfDie d) == some k).foldl (fun a d => a + 2 ^ (8 + d)) 0)
  | .wdog => f (·.wdog)

/-- Modes that may read, or write, a register: 0 APP, 1 SUP, 2 FW (R334). -/
def rdsOk (r : Creg) (mode : Nat) : Bool :=
  match r with
  | .reft => true | .cyc => true | .ncy => true | .freq => true | .partid => true
  | .wdog => mode = 2
  | _ => decide (mode ≥ 1)
def wrsOk (r : Creg) (mode : Nat) : Bool := match r with | .wdog => mode = 2 | _ => decide (mode ≥ 1)
/-- Registers with no writable field. -/
def cregRo (r : Creg) : Bool := match r with | .reft => true | .cyc => true | .ncy => true | .partid => true | _ => false

/-- A value that sets a reserved bit or breaks a limit (R73, R125, R152, R155, R335). -/
def wrsBad (r : Creg) (v : Dword) : Bool :=
  match r with
  | .cl1lim => decide (v.toNat = 0 ∨ v.toNat > 16)
  | .rsvslot => decide (v.toNat > 1)
  | .lease => decide (v.toNat < 64 ∨ v.toNat > 8192)
  | .chkstall => decide (v.toNat > 1)
  | .scopemissen => decide (v.toNat > 1)
  | .ctxpool => getF v 1 7 != 0
  | .trapvec => getF v 0 2 != 0 || !canonical v.toNat
  | .freq => getF v 24 40 != 0 || decide (getF v 8 8 < 12 ∨ getF v 8 8 > 36)
  | .wdog => getF v 33 31 != 0
  | _ => false

/-- Residents that CL1LIM or RSVSLOT no longer admit are evicted at their next boundary; slots now open are looked at (R156). -/
def State.enforceSlots (s : State) (k : Nat) : State :=
  match s.part k with
  | none => s
  | some p =>
    let out := s.held.filter fun e => match e.2.place with | .slot n => s.partOf e.1 = k && e.2.ctx.mode != 2 && !p.slotOk (n % 16) e.2.ctx.urgent | _ => false
    (s.clustersIn k none).foldl (fun s c => s.emitOnce (.fill c)) (out.foldl (fun s e => s.requestEvict (.wrs k) e.1) s)

/-- CL1LIM_WRITE's effect (R155, R156). -/
def State.setCl1lim (s : State) (k : Nat) (v : Dword) : State := (s.modPart k fun p => { p with cl1lim := v }).enforceSlots k
/-- RSVSLOT_WRITE's effect (R155, R156). -/
def State.setRsvslot (s : State) (k : Nat) (v : Dword) : State := (s.modPart k fun p => { p with rsvslot := v }).enforceSlots k
/-- LEASE_WRITE's effect: leases granted from now on (R73). -/
def State.setLease (s : State) (k : Nat) (v : Dword) : State := s.modPart k fun p => { p with lease := v }
/-- Number of samples whose moment has come: at 1,000 ns past every multiple of 10,000 ns (R393). -/
def State.sampleNow (s : State) : Nat := (s.reft + 9000) / 10000
/-- The samples of a die that the power manager does not sample yet begin with the next (R393). -/
def State.startSampling (s : State) (d : Nat) : State :=
  if s.agenda.contains (.powerSample d) then s
  else ({ s with dies := mapUpd s.dies d dieReset fun x => { x with sampled := s.sampleNow } } : State).emit (.powerSample d)
/-- FREQ_WRITE's effect: REQ, which the power manager follows (R335, R393). -/
def State.setFreq (s : State) (k : Nat) (v : Dword) : State :=
  let s := s.modPart k fun p => { p with freqReq := getF v 8 8 }
  (((s.part k).map (·.towers)).getD []).foldl (fun s t => (rangeFrom (4 * t) 4).foldl (fun s d => s.startSampling d) s) s
/-- WDOG_WRITE's effect: the count restarts (R335, R401). -/
def State.setWdog (s : State) (k : Nat) (v : Dword) : State :=
  let s := s.modPart k fun p => { p with wdog := v, wdogAt := s.now }
  if v.getLsbD 32 then s.emitOnce (.watchdogExpiry k) else s
/-- CTXPOOL: pops, steals and placements that waited for it look again (R354, R356). -/
def State.setCtxpool (s : State) (k : Nat) (v : Dword) : State :=
  let s := s.modPart k fun p => { p with ctxpool := v }
  let s := s.ius.foldl (fun s e => if e.2.deque.isEmpty then s else s.emitOnce (.dequePop e.1)) s
  (s.lookAll k).emitOnce (.poolAllocate k)

/-- A control register written with a value that passed its checks. -/
def State.wrsEffect (s : State) (k : Nat) (r : Creg) (v : Dword) : State :=
  match r with
  | .cl1lim => s.setCl1lim k v
  | .rsvslot => s.setRsvslot k v
  | .lease => s.setLease k v
  | .chkstall => s.modPart k fun p => { p with chkstall := v }
  | .scopemissen => s.modPart k fun p => { p with scopemissen := v }
  | .ctxpool => s.setCtxpool k v
  | .trapvec => s.modPart k fun p => { p with trapvec := v }
  | .freq => s.setFreq k v
  | .wdog => s.setWdog k v
  | _ => s

/-- RDS (R334). -/
def execRds (h : Hdr) (r : Creg) (d : Reg) (s : State) : Host.Outcome State Fault Refusal :=
  s.run (.rds h r d) (shape h [] [d]) fun e s =>
    if rdsOk r e.h.ctx.mode then s.resultD e h.s 8 d (s.rdsVal e.die e.part r) else s.trapAt e tcPerm 16 0
/-- WRS; a register with no writable field is ILLEGAL by its word alone (R334). -/
def execWrs (h : Hdr) (r : Creg) (a : Reg) (s : State) : Host.Outcome State Fault Refusal :=
  if cregRo r then s.run (.wrs h r a) (shape h [] []) fun e s => s.illegal e 4
  else s.run (.wrs h r a) (shape h [a] []) fun e s =>
    if !wrsOk r e.h.ctx.mode then s.trapAt e tcPerm 16 0
    else if wrsBad r (e.xd a) then s.illegal e 6
    else (s.finish e h.s e.h).wrsEffect e.part r (e.xd a)

/-- CL1LIM_WRITE (R155, R156). -/
def execCl1limWrite (k : Nat) (v : Dword) (s : State) : Host.Outcome State Fault Refusal := .next (if wrsBad .cl1lim v then s else s.setCl1lim k v)
/-- RSVSLOT_WRITE (R155, R156). -/
def execRsvslotWrite (k : Nat) (v : Dword) (s : State) : Host.Outcome State Fault Refusal := .next (if wrsBad .rsvslot v then s else s.setRsvslot k v)
/-- LEASE_WRITE (R73). -/
def execLeaseWrite (k : Nat) (v : Dword) (s : State) : Host.Outcome State Fault Refusal := .next (if wrsBad .lease v then s else s.setLease k v)
/-- FREQ_WRITE (R335). -/
def execFreqWrite (k : Nat) (v : Dword) (s : State) : Host.Outcome State Fault Refusal := .next (if wrsBad .freq v then s else s.setFreq k v)
/-- WDOG_WRITE (R335, R401). -/
def execWdogWrite (k : Nat) (v : Dword) (s : State) : Host.Outcome State Fault Refusal := .next (if wrsBad .wdog v then s else s.setWdog k v)
/-- ERRCNT_WRITE: ones clear (R29). -/
def execErrcntWrite (n : Nat) (v : Dword) (s : State) : Host.Outcome State Fault Refusal := .next (s.bdeClearErr n v)

/-! ### TRAP, TRET, EVICT (R336, R337) -/

/-- TRAP: issues, and traps at the following boundary (R336). -/
def execTrap (h : Hdr) (code : BitVec 8) (s : State) : Host.Outcome State Fault Refusal :=
  s.run (.trap h code) (shape h [] []) fun e s => (s.finish e h.s e.h).boundaryTrap e.key ⟨tcSwtrap, code.toNat, 0⟩

/-- The saved STAT is one that TRET may not restore (R337). -/
def statBad (saved cur : Word) : Bool := getF saved 16 16 != 0 || getF saved 0 2 = 3 || decide (getF saved 0 2 > getF cur 0 2) || decide (getF saved 5 3 ≥ 5)

/-- What TRET restores from the trap line at `pa` (R102, R337). -/
def State.tretCtx (s : State) (c : Ctx) (pa : Nat) : Ctx :=
  let x (i : Nat) : XReg := BitVec.ofNat 96 (s.readN (pa + 0x20 + 12 * i) 12)
  { c with
    pc := BitVec.ofNat 64 (s.readN pa 8) &&& ~~~3#64,
    pred := setF (setF (BitVec.ofNat 32 (s.readN (pa + 8) 4)) 0 1 1) 27 5 0,
    stat := setF (BitVec.ofNat 32 (s.readN (pa + 0xC) 4)) 2 3 stReady,
    x := xset (xset (xset (xset c.x 0 (x 0)) 1 (x 1)) 2 (x 2)) 3 (x 3) }

/-- TRET (R337). -/
def execTret (h : Hdr) (s : State) : Host.Outcome State Fault Refusal :=
  s.run (.tret h) { shape h [] [] with sup := true } fun e s =>
    let c := e.h.ctx
    if !c.inTrap then s.trapAt e tcIllegal 6 0
    else
      s.withLeaf e (e.h.id + 0x80) false fun s l =>
        let pa := l.pa (e.h.id + 0x80)
        match s.badPiece (pa, 128) with
        | some (ln, off) => s.trapAt e tcPoison (0xFF + if off then 2 ^ 15 else 0) (ln * 128)
        | none =>
          if s.priorOverlap e.key s.nextId [(pa, 128)] || s.accessBefore e.key (s.fenceOf e.key).after || s.claimed (lineOf pa) then s
          else if statBad (BitVec.ofNat 32 (s.readN (pa + 0xC) 4)) c.stat then
            if s.readN (pa + 0x10) 2 = tcStatfmt then
              if s.retireHeld e.key e.h.ctx || s.hostHas (lineOf pa :: s.retireLines e.key e.h.ctx) then s.snoopHost (lineOf pa :: s.retireLines e.key e.h.ctx)
              else ({ s with held := mapPut s.held e.key e.h } : State).moveToFaulted e.key ⟨tcStatfmt, 0, 0⟩ (some pa)
            else s.trapAt e tcStatfmt 0 0
          else { s with held := mapPut s.held e.key ({ e.h with ctx := s.tretCtx c pa }.issued e.t h.s) }

/-- The request of an EVICT by `by_` at the line's holder: a line in a CL2 is spilled, a DONE or FAULTED one is left as it is (R336, R376). -/
def State.evictRequest (s : State) (by_ key : Nat) : State :=
  let st := (s.ctxAt key).state
  match (mapFind s.held key).map Held.place with
  | some (.cl2 _) =>
    if st = stDone || st = stFaulted then s.ack (.evict by_) key .void else (s.spill key).ack (.evict by_) key .notslot
  | _ => s.requestEvict (.evict by_) key

/-- EVICT (R336). -/
def execEvict (h : Hdr) (a : Reg) (s : State) : Host.Outcome State Fault Refusal :=
  s.run (.evict h a) { shape h [a] [] with sup := true } fun e s =>
    s.withCtx e (e.xd a).toNat fun s key => if s.isMoving key then s else (s.finish e h.s e.h).evictRequest e.key key

end Sys2Proof.Machine
end

