-- ==== Sys2Proof/Machine/Resident.lean ====
section
/-! DEFINITION. Residency: YIELD and END, replacement, loads, rotation, pre-emption, migration (R108, R109, R112, R236, R237, R280, R358, R359, R374 to R377). -/

namespace Sys2Proof.Machine

/-! ### Replacement (R108, R377) -/

/-- Puts a line into a list by a number that orders it, after those of the same number. -/
def insertBy (f : Nat × Held → Nat) (e : Nat × Held) : List (Nat × Held) → List (Nat × Held)
  | [] => [e]
  | a :: r => if f e < f a then e :: a :: r else a :: insertBy f e r

/-- The READY lines of a cluster's CL2 in the order in which they became READY (R108, step 1). -/
def State.readyLines (s : State) (clu : Nat) : List (Nat × Held) :=
  (s.held.filter fun e => e.2.place = .cl2 clu && e.2.ctx.state = stReady && s.resumes (s.partOf e.1) e.2.ctx.launch && !s.aborting (s.partOf e.1) e.2.ctx.launch).foldl (fun l e => insertBy (·.2.since) e l) []

/-- Slots a line in a cluster's CL2 may take; none on a tower that a role change drains (R18, R108, R139, R155). -/
def State.slotsOf (s : State) (clu key : Nat) (h : Held) : List Nat :=
  if h.ctx.mode = 2 then (if s.draining (s.partOf key) (clu / 64) then [] else fwSlots clu) else s.slotsFor clu (s.partOf key) (s.regionOf key) h.ctx.urgent

/-- A resident that replacement may evict (R108, step 3). -/
def Held.victim (h : Held) : Bool := (h.ctx.state = stWaiting || h.ctx.state = stParked) && !h.evictReq && h.replay.isNone

/-- The victim among slots that has waited longest, by REFT; ties go to the first (R108, step 3). -/
def State.victimOf (s : State) (slots : List Nat) : Option (Nat × Held × Nat) :=
  (slots.filterMap fun n => ((s.inSlot n).filter (·.2.victim)).map fun e => (e.1, e.2, n)).foldl
    (fun m e => match m with | none => some e | some b => if e.2.1.sinceNs < b.2.1.sinceNs then some e else some b) none

/-- The exchange of R108, step 4: the victim takes the CL2 line that the filled line leaves, whatever its own set. -/
def State.exchange (s : State) (clu key victim n : Nat) : State :=
  let s := s.drain victim
  let way := ((mapFind s.held key).map (·.way)).getD 0
  match mapFind s.held victim with
  | none => s
  | some h => ({ s with held := mapPut s.held victim { h with place := .cl2 clu, next := 0, way } } : State).fillSlot key n

/-- One READY line looks for a slot; what it has found one for and cannot be read does not resume (R108, R110). -/
def State.fillOne (s : State) (clu : Nat) (e : Nat × Held) : State :=
  let slots := s.slotsOf clu e.1 e.2
  if s.faultWaits e.1 then (s.snoopHost (s.faultLines e.1)).emitOnce (.fill clu)
  else match slots.find? fun n => (s.inSlot n).isNone with
  | some n => s.fillSlot e.1 n
  | none =>
    match s.victimOf slots with
    | some (v, _, n) => (match s.fillBad e.1 with | some t => s.moveToFaulted e.1 t (s.trapLine e.1 (s.ctxAt e.1)) | none => s.exchange clu e.1 v n)
    | none => s

/-- FILL: ready-first replacement in one cluster; a line that no slot of the cluster may take is left to the scheduler (R108, R139). -/
def execFill (clu : Nat) (s : State) : Host.Outcome State Fault Refusal :=
  let s := (s.readyLines clu).foldl (fun s e => s.fillOne clu e) s
  let s := (s.readyLines clu).foldl (fun s e => if (s.slotsOf clu e.1 e.2).isEmpty then s.emitOnce (.load (s.partOf e.1)) else s) s
  .next (if (s.readyLines clu).isEmpty then s else s.emitOnce (.rotation clu))

/-! ### YIELD and END (R236, R237) -/

/-- YIELD: the first waiting READY line that could take the slot takes it; the yielding context counts as READY since its issue. -/
def execYield (h : Hdr) (s : State) : Host.Outcome State Fault Refusal :=
  s.run (.yield h) (shape h [] []) fun e s =>
    let s := s.finish e h.s e.h
    match (s.readyLines e.clu).find? fun x => (s.slotsOf e.clu x.1 x.2).contains e.slot && !s.faultWaits x.1 with
    | none => s
    | some x =>
      let s := match mapFind s.held e.key with | some y => { s with held := mapPut s.held e.key { y with since := s.now } } | none => s
      (s.evictLine e.key false).fillSlot x.1 e.slot

/-- END: waits for every result, then retires the context; it is passed over while its team record's home or its line's is held, or the host has one of the two (R19, R85, R237). -/
def execEndCtx (h : Hdr) (s : State) : Host.Outcome State Fault Refusal :=
  s.run (.endCtx h) (shape h [] []) fun e s =>
    if e.h.ctx.pendAll != 0 then s.waitRegs e 0xFF
    else
      if s.retireHeld e.key e.h.ctx || s.hostHas (s.retireLines e.key e.h.ctx) then s.snoopHost (s.retireLines e.key e.h.ctx) else
      let s := (s.finish e h.s e.h).drain e.key
      s.retire e.key ((s.ctxAt e.key).setState stDone 0)

/-! ### Load and rotation (R358, R359) -/

/-- Ready lines in memory, class first, then by the time they became READY. -/
def State.readyInMem (s : State) (k : Nat) : List (Nat × Live) :=
  let before (a b : Nat × Live) : Bool :=
    let pa := (s.ctxAt a.1).prio
    let pb := (s.ctxAt b.1).prio
    decide (pb < pa) || (pa == pb && decide (a.2.readyAt < b.2.readyAt))
  let rec ins (e : Nat × Live) : List (Nat × Live) → List (Nat × Live)
    | [] => [e]
    | a :: r => if before e a then e :: a :: r else a :: ins e r
  (s.live.filter fun e => e.2.part = k && (mapFind s.held e.1).isNone && (s.ctxAt e.1).state = stReady && s.resumes k e.2.launch && !s.aborting k e.2.launch).foldl (fun l e => ins e l) []

/-- Clusters that may take a line from memory: those of its region, cluster 15 of a C die for a firmware context; none on a tower that a role change drains (R18, R139, R358, R396). -/
def State.clustersOf (s : State) (k key : Nat) : List Nat :=
  if (s.ctxAt key).mode = 2 then (List.range 384).filter fun c => c % 16 = 15 && s.isC (c / 16) && s.partOfTower (c / 64) == some k && !s.draining k (c / 64)
  else s.clustersIn k (s.regionOf key)
/-- Free slots of the firmware column on M dies of a partition, which take firmware contexts from memory directly (R396). -/
def State.mSlots (s : State) (k key : Nat) : List Nat :=
  if (s.ctxAt key).mode = 2 then
    ((List.range 24).filter fun d => s.isM d && s.partOfTower (towerOfDie d) == some k && !s.draining k (towerOfDie d)).flatMap fun d => (fwSlots (16 * d + 15)).filter fun n => (s.inSlot n).isNone
  else []
/-- A firmware context's line is placed into a slot of the column on an M die (R110, R396). -/
def State.loadSlot (s : State) (key n : Nat) : State :=
  match s.fillBad key with
  | some t => s.moveToFaulted key t (s.trapLine key (s.ctxAt key))
  | none =>
    let l := (mapFind s.live key).getD { id := 0, part := 0, launch := 0, region := none, migr := none, readyAt := s.now, needs := 0, first := none }
    let h := { Held.fresh (.slot n) l.id (s.ctxAt key) (s.cyc (n / 2048)) s.now with since := l.readyAt }
    (({ s with held := mapPut s.held key h } : State).ctxOwned key (n / 2048)).firstAcquire key (n / 2048)
/-- A READY line in memory is loaded into a CL2 of its region with room for it, or into a slot that takes it directly; which one is free (R109, R358, R396). It waits for a home that is held and for the host's copy (R19, R85). -/
def State.loadOne (s : State) (k key : Nat) : State :=
  let cs := (s.clustersOf k key).filter fun c => (s.cl2Room c key).isSome
  let ms := s.mSlots k key
  let s' := { s with tick := s.tick + 1 }
  let i := Config.pickOperand s.tick % (cs.length + ms.length)
  if !s.lineFree key then s.snoopHost [lineOf key]
  else if s.faultWaits key then s.snoopHost (s.faultLines key)
  else
    match cs[i]?, ms[i - cs.length]? with
    | some c, _ => (s'.loadCl2 key c).getD s
    | none, some n => s'.loadSlot key n
    | none, none => s

/-- The scheduler pushes a READY line of a CL2 that no longer lies in its region to a CL2 that does (R104, R139). -/
def State.pushOne (s : State) (k : Nat) (e : Nat × Held) : State :=
  match e.2.place with
  | .cl2 c =>
    let cs := s.clustersOf k e.1
    if cs.contains c || e.2.ctx.state != stReady then s
    else match cs.findSome? fun d => (s.freeWay d e.1).map (d, ·) with
      | some (d, w) => ({ s with held := mapPut s.held e.1 { e.2 with place := .moving c (some d), way := w } } : State).emit (.arrival e.1)
      | none => s
  | _ => s

/-- LOAD: READY lines in memory, and those that stand in a CL2 outside their region (R139, R358). -/
def execLoad (k : Nat) (s : State) : Host.Outcome State Fault Refusal :=
  let s := (s.readyInMem k).foldl (fun s e => s.loadOne k e.1) s
  let s := (s.held.filter fun e => s.partOf e.1 = k && s.resumes k e.2.ctx.launch).foldl (fun s e => s.pushOne k e) s
  .next (if (s.readyInMem k).isEmpty then s else s.emitOnce (.load k))

/-- How long replacement may leave a READY line without a slot (R359). -/
def rotationNs : Nat := 16384

/-- The resident that rotation evicts for a line (R359). -/
def State.rotated (s : State) (slots : List Nat) (prio : Nat) : Option (Nat × Held × Nat) :=
  (slots.filterMap fun n => ((s.inSlot n).filter fun x => x.2.ctx.state = stReady && x.2.replay.isNone && !x.2.evictReq && !s.endDue x.1 x.2 n && decide (x.2.ctx.prio ≤ prio)).map fun e => (e.1, e.2, n)).foldl
    (fun m e => match m with | none => some e | some b => if e.2.1.filled < b.2.1.filled then some e else some b) none

/-- ROTATION: the first line that has waited long enough in its CL2 takes the slot of the longest resident (R359, R376). -/
def execRotation (clu : Nat) (s : State) : Host.Outcome State Fault Refusal :=
  let ls := s.readyLines clu
  let again (s : State) : State := if (s.readyLines clu).isEmpty then s else s.emitOnce (.rotation clu)
  match (ls.filter fun x => decide (s.now ≥ max x.2.since x.2.filled + rotationNs * Config.ticksPerNs) && !s.faultWaits x.1).findSome? fun x => (s.rotated (s.slotsOf clu x.1 x.2) x.2.ctx.prio).map (x, ·) with
  | none => .next (again s)
  | some (x, (v, _, n)) => .next (again (((s.evictLine v).ack (.rotation clu) v .evicted).fillSlot x.1 n))

/-! ### Pre-emption (R374 to R376) -/

/-- PREEMPTION: at the boundary, after a replay's last issue and after trap entry; an END that is due comes first. All who have asked are told (R234, R374, R375, R376). -/
def execPreemption (key : Nat) (s : State) : Host.Outcome State Fault Refusal :=
  if !s.isLive key then .next (s.ackAll key .void)
  else
    match mapFind s.held key with
    | none => .next (s.ackAll key .evicted)
    | some h =>
      match h.slot? with
      | none => .next (s.ackAll key .evicted)
      | some n =>
        if h.replay.isSome || h.ctx.state = stTrapped || s.endDue key h n then .next (s.emit (.preemption key))
        else .next ((s.evictLine key).ackAll key .evicted)

/-! ### Migration (R112, R139, R280) -/

/-- The full fence of a migration, at the scope of the context's level: the checks of the loads since its last fence, and the order of what follows (R112, R126). -/
def State.migrationFence (s : State) (key : Nat) : State :=
  let c := s.ctxAt key
  let k := s.partOf key
  let sc := s.levelScope k (s.asidOf k c.launch) c.link
  let f := s.fenceOf key
  let pos := s.posOf key
  let s := ({ s with fences := mapPut s.fences key { loads := [], since := s.nextId, rel := some sc, after := s.nextId, acq := none, full := 0 } } : State).bump.flushSram (some pos) (some sc)
  let s := s.dropPeer pos.die? sc
  match f.loads.find? fun l => !stampOk l.2.1 sc key pos with
  | some (_, st, va) => s.scopeMiss key st sc va
  | none => s

/-- The CL2 of a tower with a free line in the set, lowest die and cluster first, and that line (R112, step 4). -/
def State.pushTarget (s : State) (k t key : Nat) : Option (Nat × Nat) := (s.clustersIn k (some (5, t))).findSome? fun c => (s.freeWay c key).map (c, ·)

/-- The line is evicted to its own cluster's CL2, and leaves it for its home tower or for memory; one that the eviction has spilled is there already (R109, R112, steps 3 to 5). -/
def State.depart (s : State) (key t : Nat) (l : Live) : State :=
  let s := ({ s with live := mapPut s.live key { l with region := some t, migr := none } } : State).evictLine key
  match mapFind s.held key with
  | none => let c := s.ctxAt key; s.setCtx key (c.wake whyMigr)
  | some h =>
    let goal := s.pushTarget (s.partOf key) t key
    let src := match h.place with | .cl2 c => c | _ => 0
    ({ s with held := mapPut s.held key { h with place := .moving src (goal.map (·.1)), evictReq := false, way := (goal.map (·.2)).getD 0 } } : State).emit (.arrival key)

/-- MIGRATION: once no result is due and every earlier access is performed (R112). A context that something else has made READY or TRAPPED does not move. -/
def execMigration (key : Nat) (s : State) : Host.Outcome State Fault Refusal :=
  let c := s.ctxAt key
  match mapFind s.live key with
  | none => .next s
  | some l =>
    match l.migr with
    | none => .next s
    | some t =>
      if !(c.state = stParked && c.why = whyMigr) then .next { s with live := mapPut s.live key { l with migr := none } }
      else if c.pendAll != 0 || s.accessesOut key || s.heldOut key then .next (s.emit (.migration key))
      else
        .next ((s.migrationFence key).depart key t l)

/-- ARRIVAL: the move has ended; the arrival makes the context READY, and the deliveries held for it come next (R106, R112, step 5). -/
def execArrival (key : Nat) (s : State) : Host.Outcome State Fault Refusal :=
  match mapFind s.held key with
  | none => .next s
  | some h =>
    match h.place with
    | .moving _ d =>
      let h := { h with ctx := h.ctx.wake whyMigr, since := s.now }
      let s := s.releaseLate key
      let s := if s.trapDue key then s.emitOnce (.trapEntry key) else s
      .next (match d with
        | some clu => s.intoCl2 clu key h.way h
        | none => s.spillAs key h)
    | _ => .next s

end Sys2Proof.Machine
end

