-- ==== Sys2Proof/Machine/Engine.lean ====
section
/-! DEFINITION. Copy engines and base-die engines: commands at issue, tokens, and the run of a command at its completion (R129, R316 to R325). -/

namespace Sys2Proof.Machine

/-! ### Claims (R90) -/

/-- The rows of a copy: destination and source VA of each, and its bytes (R323). -/
def copyRows (c : Cmd) : List (Nat × Nat × Nat) :=
  match c.ins with
  | .cpys .. => let (rb, nr, ss, ds) := cpysFields c.b c.b1; (List.range nr).map fun i => (c.dst + i * ds, c.src + i * ss, rb)
  | .cpy .. => [(c.dst, c.src, (xD c.b).toNat)]
  | _ => []
/-- A range cut at the line boundaries. -/
def splitLines : Nat → Nat → Nat → List (Nat × Nat)
  | 0, _, _ => []
  | f + 1, va, n => if n = 0 then [] else let m := min n (128 - va % 128); (va, m) :: splitLines f (va + m) (n - m)
/-- The pieces of a copy, one for each destination line of a row, with the line as the translations stand (R90, R324). -/
def State.copyPieces (s : State) (c : Cmd) : List Piece :=
  (copyRows c).flatMap fun r => (splitLines (r.2.2 / 128 + 2) r.1 r.2.2).map fun p => ⟨p.1, r.2.1 + (p.1 - r.1), p.2, (s.vaToPa c.part c.asid p.1).map lineOf⟩
/-- The lines a copy will write, each once (R90). -/
def State.copyLines (s : State) (c : Cmd) : List Nat := ((s.copyPieces c).filterMap (·.line)).eraseDups

/-- Claims a home keeps (R90). -/
def homeClaims : Nat := 64
/-- The home whose table a claim takes a place in: its tower; one off the module has none of its own (R90). -/
def State.claimHome (s : State) (lines : List Nat) : Option Nat := (lines.head?).bind fun l => s.homeTower (l * 128)
/-- Whether a home has room for one more claim of a CE. -/
def State.claimRoom (s : State) (lines : List Nat) : Bool :=
  match s.claimHome lines with
  | none => true
  | some h => decide ((s.claims.filter fun c => (match c.holder with | .ce _ => true | _ => false) && s.claimHome c.lines == some h).length < homeClaims)
/-- The lines of a copy home by home (R90). -/
def State.byHome (s : State) (ls : List Nat) : List (List Nat) :=
  let hs := (ls.map fun l => s.homeTower (l * 128)).eraseDups
  if ls = [] then [[]] else hs.map fun h => ls.filter fun l => s.homeTower (l * 128) == h
/-- Whether a command has placed its claims. -/
def State.placed (s : State) (c : Cmd) : Bool := s.claims.any (·.num = c.num)
/-- A command places its claim at each home of its destination, once all have room (R90). -/
def State.claimFor (s : State) (clu : Nat) (c : Cmd) : State :=
  let gs := s.byHome (s.copyLines c)
  if s.placed c || !gs.all s.claimRoom then s else { s with claims := s.claims ++ gs.map fun ls => ⟨.ce clu, clu / 16, c.num, ls⟩ }
/-- The commands of a CE place their claims in the order of its queue (R90). -/
def State.placeClaims (s : State) (clu : Nat) : List Cmd → State
  | [] => s
  | c :: r => let s' := s.claimFor clu c; if s'.placed c then s'.placeClaims clu r else s

/-! ### Commands at issue (R317, R318) -/

/-- A token becomes PENDING in the line (R318, step 4). -/
def Ctx.startTok (c : Ctx) (k : Tok) : Ctx := { c with wait := setBit c.wait (16 + k.toNat) true, owner := setBit c.owner (24 + k.toNat) false }

/-- Checks 4 and 5 of R317, then the steps of R318 in their order: token, queue, release, issue; `enq` puts the command into its engine's queue. -/
def State.command (s : State) (e : Iss) (S : BitVec 3) (enq : State → Cmd → State) : State :=
  match s.cmdForm e e.ins with
  | none => s
  | some f =>
    match s.cmdBad e f with
    | some b => s.trapAt e b.code b.detail b.faddr
    | none =>
      if e.h.ctx.tok f.tail.tok.toNat then s.waitAt e stWaiting whyTok
      else if s.cmdFull (s.cmdOf e f) || s.accessesOut e.key then s
      else (enq (s.flushSram (some e.pos) (some f.tail.scope)).bump (s.cmdOf e f)).finish e S { e.h with ctx := e.h.ctx.startTok f.tail.tok }
/-- An engine command's meaning. -/
def State.runCommand (s : State) (i : Instr) (enq : State → Cmd → State) : Host.Outcome State Fault Refusal :=
  match cmdShape i with
  | some sh => s.run i sh fun e s => s.command e sh.hd.s enq
  | none => .next s

/-- The queue of a cluster's CE; the command places its claims as it issues, where every home has room for them (R90, R318). -/
def State.ceEnqueue (s : State) (c : Cmd) : State :=
  let clu := (c.pos.inst 3).getD 0
  let q := mapGet s.ces clu [] ++ [c]
  (({ s with ces := mapPut s.ces clu q } : State).placeClaims clu q).emit (.ceCompletion clu)
/-- The queue of a BDE (R318). -/
def State.bdeEnqueue (s : State) (c : Cmd) : State :=
  let n := s.bdeOf c
  let b := s.bde n
  ({ s with bdes := mapPut s.bdes n { b with queue := b.queue ++ [c] } } : State).emit (.bdeCompletion n)

/-- CPY (R323). -/
def execCpy (h : Hdr) (d a b : Reg) (t : EngTail) (s : State) : Host.Outcome State Fault Refusal := s.runCommand (.cpy h d a b t) State.ceEnqueue
/-- CPYS (R323). -/
def execCpys (h : Hdr) (d a b : Reg) (t : EngTail) (s : State) : Host.Outcome State Fault Refusal := s.runCommand (.cpys h d a b t) State.ceEnqueue
/-- GATH (R325). -/
def execGath (h : Hdr) (d a b : Reg) (g : DescN) (le : BitVec 3) (t : EngTail) (s : State) : Host.Outcome State Fault Refusal := s.runCommand (.gath h d a b g le t) State.bdeEnqueue
/-- REDB (R325). -/
def execRedb (h : Hdr) (op : RedOp) (fmt : Fmt) (d a b : Reg) (t : EngTail) (s : State) : Host.Outcome State Fault Refusal := s.runCommand (.redb h op fmt d a b t) State.bdeEnqueue
/-- CONVB (R325). -/
def execConvb (h : Hdr) (dst src : Fmt) (d a b : Reg) (t : EngTail) (s : State) : Host.Outcome State Fault Refusal := s.runCommand (.convb h dst src d a b t) State.bdeEnqueue

/-! ### Tokens (R100, R322) -/

/-- The snapshot of a token: 0 PENDING, 1 DONE, 2 FAULT. -/
def Ctx.tokSnap (c : Ctx) (k : Tok) : Nat := if c.tok k.toNat then 0 else if c.tflt k.toNat then 2 else 1
/-- Observing DONE or FAULT is an acquire of the settlement; one made at SYS scope drops peer copies (R128, R129). -/
def State.observe (s : State) (e : Iss) (k : Tok) : State := if e.h.ctx.tok k.toNat then s else s.dropPeer e.die (mapGet s.toks (e.key * 8 + k.toNat) 0)
/-- ESTAT xd (R322). -/
def execEstatX (h : Hdr) (d : Reg) (t : Tok) (s : State) : Host.Outcome State Fault Refusal :=
  s.run (.estatX h d t) (shape h [] [d]) fun e s => (s.resultD e h.s 8 d (BitVec.ofNat 64 (e.h.ctx.tokSnap t))).observe e t
/-- ESTAT pd (R322). -/
def execEstatP (h : Hdr) (pd : Pred) (t : Tok) (s : State) : Host.Outcome State Fault Refusal :=
  s.run (.estatP h pd t) (shape h [] []) fun e s => (s.plain e h.s (·.setP pd (e.h.ctx.tokSnap t = 1))).observe e t
/-- WTOK (R322). -/
def execWtok (h : Hdr) (t : Tok) (s : State) : Host.Outcome State Fault Refusal :=
  s.run (.wtok h t) (shape h [] []) fun e s => if e.h.ctx.tok t.toNat then s.waitAt e stWaiting whyTok else (s.finish e h.s e.h).observe e t

/-! ### An engine at memory (R63, R89, R91, R118, R320, R321) -/

/-- An engine at work: the state so far, the command, where the engine stands, for a copy the source lines it has read with the poison each had (R324), flags, poison read and not yet passed on, the fault, whether the work must wait (a home hold, a claim, a full set, the host's copy), and the lines to ask the host for (R19, R75, R85, R90). -/
structure Io where
  s     : State
  cmd   : Cmd
  clu   : Nat
  die   : Nat
  bde   : Option Nat
  who   : Writer × Pos
  snap  : Option (SMap (List Byte × Bool))
  fl    : Fl
  pois  : Bool
  bad   : Option (Nat × Nat)
  faddr : Nat
  wait  : Bool
  asks  : List Nat
  deriving DecidableEq, Repr

/-- An engine that takes up a command. -/
def State.ioOf (s : State) (c : Cmd) (clu : Nat) (bde : Option Nat) (who : Writer × Pos) : Io :=
  { s, cmd := c, clu, die := clu / 16, bde, who, snap := none, fl := 0, pois := false, bad := none, faddr := 0, wait := false, asks := [] }
def Io.stop (io : Io) : Bool := io.bad.isSome || io.wait
/-- The run ends with a fault code and its detail (R320). -/
def Io.fail (io : Io) (code detail va : Nat) : Io := { io with bad := some (code, detail), faddr := va }

/-- Whether another command holds a line, or its home is held; of two that claim one line the first to claim goes first (R19, R90, R290, log 18). -/
def State.heldFrom (s : State) (num line : Nat) : Bool := s.homeHeld (line * 128) || (s.claims.takeWhile fun c => c.num != num).any fun c => c.lines.contains line

/-- Translation and checks of bytes within one line; the physical address and whether its page is non-temporal, once nothing holds the line (R19, R63, R90, R317, R320, R325). A refusal by the firewall is recorded (R398). -/
def Io.addr (io : Io) (dn : Nat) (st : Bool) (va n : Nat) : Io × Nat × Bool :=
  let c := io.cmd
  if io.stop then (io, 0, false)
  else if c.mode = 0 && supHalf va then (io.fail 4 dn va, 0, false)
  else if io.s.lookupHeld io.clu c.part c.asid va then ({ io with wait := true }, 0, false)
  else
    match io.s.engineLookup io.clu c.part c.asid va with
    | (s, .fault t) => ({ io with s }.fail (walkFcode t.code) (if t.code = tcNomap || t.code = tcPtfmt then t.detail else 0) va, 0, false)
    | (s, .ok l) =>
      let pa := l.pa va
      let io := { io with s := s.noteHov (lineOf pa) io.die l }
      let f := io.s.pageFcode io.die c.part c.launch c.mode st l va n
      let far := match io.bde, io.s.region pa with
        | none, _ => false
        | some b, .hbm t => t != b / 2
        | some b, .nm t => t != b / 2
        | some _, _ => true
      if f != 0 then ({ io with s := io.s.pageRecord io.die c.part c.key c.launch c.mode st l va n }.fail f (if f = 4 || f = 5 then dn else 0) va, 0, false)
      else if far then (io.fail 12 0 va, 0, false)
      else if io.s.heldFrom c.num (lineOf pa) then ({ io with wait := true }, 0, false)
      else (io, pa, l.nt)

/-- A poisoned read by a BDE is counted (R29). -/
def State.bdePoison (s : State) (n line : Nat) : State :=
  { s with bdes := mapUpd s.bdes n bdeReset fun b => { b with errcnt := b.errcnt + BitVec.ofNat 64 (2 ^ 32), poisaddr := BitVec.ofNat 64 (line * 128) } }

/-- Reads bytes within one line: a copy reads the whole of a source line, once (R31, R75, R89, R118, R128, R324). -/
def Io.readPiece (io : Io) (dn va n : Nat) : Io × List Byte :=
  let (io, pa, nt) := io.addr dn false va n
  let line := lineOf pa
  if io.stop then (io, List.replicate n 0)
  else
    match io.snap.bind (mapFind · line) with
    | some (bs, p) => ({ io with pois := io.pois || p }, (bs.drop (pa % 128)).take n)
    | none =>
      if io.bde.isNone && !io.s.bypasses nt line && !io.s.canShare line io.die then ({ io with wait := true }, List.replicate n 0)
      else
        let s := if io.bde.isSome then io.s.recall line else io.s.agentRead nt line io.die
        let s := match io.bde with | some b => if s.isPoison line then s.bdePoison b line else s | none => s
        let io := { io with s, pois := io.pois || s.isPoison line }
        match io.snap with
        | none => (io, s.dieBytes nt io.die pa n)
        | some m =>
          let bs := s.dieBytes nt io.die (line * 128) 128
          ({ io with snap := some (mapPut m line (bs, s.isPoison line)) }, (bs.drop (pa % 128)).take n)

/-- Writes bytes within one line, as a store of the die or at the home; a relaxed read-modify-write leaves the stamp. Poison read goes with them and ends the run (R31, R75, R85, R89, R91, R123, R321). -/
def Io.writePiece (io : Io) (dn va : Nat) (bs : List Byte) (rmw : Bool) : Io :=
  let (io, pa, nt) := io.addr dn true va bs.length
  let line := lineOf pa
  if io.stop then io
  else if io.s.hostHas [line] then { io with wait := true, asks := io.asks ++ [line] }
  else if io.bde.isNone && !io.s.bypasses nt line && !io.s.canOwn [line] io.die then { io with wait := true }
  else
    let s := if io.bde.isSome then io.s.takeHome line else io.s.agentOwn nt line io.die
    let s := (s.perform (numberFrom pa bs) (if rmw then none else some io.who) none).peerWrite io.die (numberFrom pa bs)
    if io.pois then { io with s := { s with poison := mapPut s.poison line () } }.fail 6 0 va else { io with s }

/-- Reads a range. -/
def Io.read (io : Io) (dn va n : Nat) : Io × List Byte :=
  (splitLines (n / 128 + 2) va n).foldl (fun (r : Io × List Byte) p => let (io, bs) := r.1.readPiece dn p.1 p.2; (io, r.2 ++ bs)) (io, [])
/-- Writes a range. -/
def Io.write (io : Io) (dn va : Nat) (bs : List Byte) (rmw : Bool := false) : Io :=
  (splitLines (bs.length / 128 + 2) va bs.length).foldl (fun io p => io.writePiece dn p.1 ((bs.drop (p.1 - va)).take p.2) rmw) io

/-! ### The pieces of a command's work (R323 to R325) -/

/-- One piece of a copy (R324). -/
def Io.copyPiece (io : Io) (p : Piece) : Io :=
  let (io, bs) := io.read io.cmd.tail.sdesc.toNat p.src p.len
  if io.stop then io else io.writePiece io.cmd.tail.ddesc.toNat p.dst bs false

/-- Element `i` of GATH: its index, its place within the data range, its copy (R325). -/
def Io.gather (io : Io) (g e i : Nat) : Io :=
  let c := io.cmd
  let (io, ix) := io.read c.tail.sdesc.toNat (c.src + 8 * i) 8
  let off := leToNat ix * e
  let inside := if c.win then canonical off && canonical (off + e - 1) && supHalf off == supHalf (off + e - 1) && decide (off + e ≤ 2 ^ 64) else decide (off + e ≤ c.desc.limit.toNat)
  if io.stop then io
  else if io.pois then io.fail 6 0 (c.src + 8 * i)
  else if !inside then io.fail 11 g off
  else
    let (io, bs) := io.read g (if c.win then off else c.desc.base.toNat + off) e
    io.write c.tail.ddesc.toNat (c.dst + i * e) bs

/-- A reduction of two elements (R325). -/
def redbOp (op : RedOp) (f : Fmt) (rm a b : Nat) : Nat × Fl := eltOp (match op with | .sum => 0 | .max => 4 | .min => 5) f rm a b 0
/-- Element `i` of REDB: one indivisible read and write at the home (R325). -/
def Io.reduce1 (io : Io) (op : RedOp) (f : Fmt) (i : Nat) : Io :=
  let c := io.cmd
  let w := fmtBits f / 8
  let (io, a) := io.read c.tail.ddesc.toNat (c.dst + i * w) w
  let (io, b) := io.read c.tail.sdesc.toNat (c.src + i * w) w
  if io.stop then io
  else
    let r := redbOp op f c.rm (leToNat a) (leToNat b)
    { io with fl := io.fl ||| r.2 }.write c.tail.ddesc.toNat (c.dst + i * w) (leBytes w r.1) true

/-- Conversion of a group of elements, a 32×32 tile's image where a side has a block format (R175, R325). -/
def convGroup (dst src : Fmt) (rm n : Nat) (bs : List Byte) : List Byte × Fl :=
  if isBlockFmt dst || isBlockFmt src then
    let a := convTile src
    let l := tileLoad a true bs
    let a := { a with scales := l.scales, esc := l.esc }
    let d := convTile dst
    let r := tileCvt d a rm l.bytes
    (r.bytes ++ (if isBlockFmt dst then { d with scales := r.scales, esc := r.esc }.trailer else []), r.flags)
  else
    let rs := (List.range n).map fun i => convElem dst src rm (elemCode src bs i)
    (codeBytes dst (rs.map (·.1)), orFl (rs.map (·.2)))
/-- Group `g` of CONVB, at most 1,024 elements. -/
def Io.convert (io : Io) (dst src : Fmt) (count g : Nat) : Io :=
  let c := io.cmd
  let n := min 1024 (count - 1024 * g)
  let (io, bs) := io.read c.tail.sdesc.toNat (c.src + convLen src (1024 * g)) (convLen src n)
  if io.stop then io
  else
    let r := convGroup dst src c.rm n bs
    { io with fl := io.fl ||| r.2 }.write c.tail.ddesc.toNat (c.dst + convLen dst (1024 * g)) r.1

/-- The work of a command as it starts: the pieces of a copy, the elements or groups of a BDE's command (R323, R325). -/
def State.piecesOf (s : State) (c : Cmd) : List Piece :=
  let n := (xD c.b).toNat
  let idx (n : Nat) : List Piece := (List.range n).map fun i => ⟨i, 0, 0, none⟩
  match c.ins with
  | .gath .. => idx n
  | .redb .. => idx n
  | .convb .. => idx ((n + 1023) / 1024)
  | _ => s.copyPieces c
/-- One piece of work. -/
def Io.piece (io : Io) (p : Piece) : Io :=
  let c := io.cmd
  match c.ins with
  | .gath _ _ _ _ g le _ => io.gather g.toNat (2 ^ le.toNat) p.dst
  | .redb _ op f _ _ _ _ => io.reduce1 op f p.dst
  | .convb _ dst src _ _ _ _ => io.convert dst src (xD c.b).toNat p.dst
  | _ => io.copyPiece p

/-! ### A run, step by step (R90, R129, R321, R324) -/

/-- The pieces that may come next: the writes of a copy go in increasing address order within each home, and nothing else orders an engine's writes (R90, R129, R324, log 18). -/
def State.readyPieces (s : State) (todo : List Piece) : List Piece :=
  todo.filter fun p => match p.line with
    | none => true
    | some l => !todo.any fun q => match q.line with | some m => decide (m < l) && s.homeTower (m * 128) == s.homeTower (l * 128) | none => false

/-- One step of work: a free choice of the pieces that may come next, with all that lie in the same line of a copy; what is left to do. -/
def Io.work (io : Io) (todo : List Piece) : Io × List Piece :=
  let ready := io.s.readyPieces todo
  match ready[Config.pickOperand io.s.tick % max 1 ready.length]? with
  | none => (io, [])
  | some p =>
    let mine := if p.line.isNone then [p] else todo.filter (·.line = p.line)
    (mine.foldl Io.piece { io with s := { io.s with tick := io.s.tick + 1 } }, todo.filter fun q => !mine.contains q)

/-- Or a copy reads source lines of a piece before their turn (R324). -/
def Io.workOrRead (io : Io) (todo : List Piece) : Io × List Piece :=
  let io' := { io with s := { io.s with tick := io.s.tick + 1 } }
  match io.snap, todo[Config.pickOperand io.s.tick % max 1 todo.length]? with
  | some m, some p =>
    let r := (io'.read io.cmd.tail.sdesc.toNat p.src p.len).1
    if Config.raceNew io.s.tick 1 && !r.wait && (r.bad.isSome || r.snap.any fun m' => m'.length != m.length) then ({ r with pois := io.pois }, todo) else io'.work todo
  | _, _ => io'.work todo

/-! ### Settlement (R106, R274, R319, R320) -/

/-- The outcome of an engine's resolution of its future: it must wait, it failed, it is done. -/
inductive FutRes
  | wait | failed (s : State) | done (s : State)
  deriving DecidableEq, Repr

/-- The line of a command's future, where its page is found (R274). -/
def State.futLine (s : State) (c : Cmd) : List Nat := if c.tail.fe then ((s.vaToPa c.part c.asid c.futVa).map lineOf).toList else []
/-- Resolves the future of a command; the release's origin is the issuer's position at issue (R115, R132, R274, R319). -/
def State.resolveFut (s : State) (c : Cmd) (who : Writer) (word : Nat) : FutRes :=
  let clu := (c.pos.inst 3).getD 0
  if s.lookupHeld clu c.part c.asid c.futVa then .wait
  else
    match s.engineLookup clu c.part c.asid c.futVa with
    | (s, .fault _) => .failed s
    | (s, .ok l) =>
      let pa := l.pa c.futVa
      if s.heldFrom c.num (lineOf pa) || s.hostHas [lineOf pa] then .wait
      else if !l.permits .atomic || s.pageFcode (clu / 16) c.part c.launch c.mode true l c.futVa 8 != 0 || s.isPoison (lineOf pa) then
        .failed (s.pageRecord (clu / 16) c.part c.key c.launch c.mode true l c.futVa 8)
      else
        let w := s.readN pa 8
        if futSt w ≥ 2 || futBad w then .failed s
        else
          let s := (s.takeHome (lineOf pa)).perform (bytesAt pa 8 word) (some (who, c.relPos)) (some c.tail.scope)
          if w = 0 then .done s
          else .done (({ s with futs := mapPut s.futs s.nextId { part := c.part, asid := c.asid, va := c.futVa, word := BitVec.ofNat 64 word, link := BitVec.ofNat 64 w } } : State).emit (.futureWalk s.nextId)).bump

/-- The end of a command: its writes are performed at its scope, the future is resolved, the token settles as one delivery (R319). None while the issuer's line moves or the future's line is held. -/
def State.engineEnd (s : State) (c : Cmd) (who : Writer × Pos) (status : Nat) (bad : Option (Nat × Nat)) : Option State :=
  if s.isMoving c.key then none
  else
    let s := s.flushSram (some who.2) (some c.tail.scope)
    let ended (s : State) (f : Bool) : State := (s.settle c.key c.id c.tail.tok f c.tail.scope).emit (.launchCompletion c.part c.launch)
    if !c.tail.fe then some (ended s bad.isSome)
    else
      match s.resolveFut c who.1 (match bad with | some (code, d) => futFaulted (code + d * 2 ^ 16) | none => futResolved status) with
      | .wait => none
      | .failed s => some (ended s true)
      | .done s => some (ended s bad.isSome)

/-- Keys of the runs of a CE and of a BDE. -/
def ceRun (clu : Nat) : Nat := clu
def bdeRun (n : Nat) : Nat := 0x1000 + n

/-- The lines of a copy that nothing is left to write are no longer held: the mark has passed them (R90). -/
def State.passLines (s : State) (c : Cmd) (todo : List Piece) : State :=
  let gone := ((s.claims.filter (·.num = c.num)).flatMap (·.lines)).filter fun l => !todo.any (·.line = some l)
  let s := { s with claims := s.claims.map fun k => if k.num = c.num then { k with lines := k.lines.filter fun l => !gone.contains l } else k }
  gone.foldl (fun s l => s.homeDrain l) s

/-- A step of the command at the head of an engine's queue: a piece of its work, and with the last piece or a fault its end, at which its claims go and it leaves the queue. A step that must wait does nothing but ask the host for lines it holds; an end that must wait keeps what is done (R90, R319, R321). -/
def State.engineStep (s : State) (c : Cmd) (key : Nat) (bde : Option Nat) (who : Writer × Pos) (me : Instr) (pop : State → State) : State :=
  let r := (mapFind s.runs key).getD { todo := s.piecesOf c, snap := [], fl := 0, bad := none }
  let io := { s.ioOf c ((c.pos.inst 3).getD 0) bde who with snap := if bde.isSome then none else some r.snap, fl := r.fl, bad := r.bad }
  let (io, todo) := if r.bad.isSome || r.todo = [] then (io, []) else io.workOrRead r.todo
  let save (s : State) (todo : List Piece) : State := { s with runs := mapPut s.runs key { todo, snap := io.snap.getD [], fl := io.fl, bad := io.bad } }
  if io.wait then (s.snoopHost io.asks).emit me
  else if io.bad.isNone && todo != [] then (save (io.s.passLines c todo) todo).emit me
  else
    match io.s.engineEnd c who io.fl.toNat io.bad with
    | some s => (pop { s with runs := mapErase s.runs key }).dropClaims c.num
    | none => (save (io.s.snoopHost (io.s.futLine c)) []).emit me

/-- CE_COMPLETION: commands that have not yet found room for their claims look again; the first of the queue works on once it has placed them (R90, R319, R324). -/
def execCeCompletion (clu : Nat) (s : State) : Host.Outcome State Fault Refusal :=
  match mapGet s.ces clu [] with
  | [] => .next s
  | c :: rest =>
    let s := s.placeClaims clu (c :: rest)
    if !s.placed c then .next (s.emit (.ceCompletion clu))
    else .next (s.engineStep c (ceRun clu) none (.ce clu, .cluster clu) (.ceCompletion clu) fun s => { s with ces := if rest = [] then mapErase s.ces clu else mapPut s.ces clu rest })

/-- BDE_COMPLETION (R319, R325). -/
def execBdeCompletion (n : Nat) (s : State) : Host.Outcome State Fault Refusal :=
  match (s.bde n).queue with
  | [] => .next s
  | c :: rest =>
    .next (s.engineStep c (bdeRun n) (some n) (.bde n, .tower (n / 2)) (.bdeCompletion n) fun s => { s with bdes := mapUpd s.bdes n bdeReset fun b => { b with queue := rest, cmdcnt := b.cmdcnt + 1 } })

end Sys2Proof.Machine
end

