-- ==== Sys2Proof/Machine/Rlc.lean ====
section
/-! DEFINITION. The refinement loop controller: its commands, its block, its arithmetic, one tile operation to a checkpoint (R326 to R333). -/

namespace Sys2Proof.Machine

/-! ### The block (R326) -/

def rlcReset : Rlc := { queue := [], run := none, blk := [], flags := 0, hist := 0, stop := false }
def State.rlc (s : State) (clu : Nat) : Rlc := mapGet s.rlcs clu rlcReset
def State.modRlc (s : State) (clu : Nat) (f : Rlc → Rlc) : State := { s with rlcs := mapUpd s.rlcs clu rlcReset f }

/-- A field of the block. -/
def bget (b : List Byte) (off n : Nat) : Nat := leToNat ((b.drop off).take n)
/-- The block with a field replaced. -/
def bset (b : List Byte) (off n v : Nat) : List Byte := b.take off ++ leBytes n v ++ b.drop (off + n)

/-- Fields of the block as numbers: order, tile size, rungs, residual format, history records kept. -/
def bN (b : List Byte) : Nat := bget b 0 4
def bTs (b : List Byte) : Nat := bget b 4 1
def bNlad (b : List Byte) : Nat := bget b 5 1
def bHcap (b : List Byte) : Nat := bget b 0x38 4
def bState (b : List Byte) : Nat := bget b 0x80 1
def bRung (b : List Byte) : Nat := bget b 0x82 1
def bPhase (b : List Byte) : Nat := bget b 0x83 1
def bIter (b : List Byte) : Nat := bget b 0x84 4
def bTotit (b : List Byte) : Nat := bget b 0x88 4
def bStep (b : List Byte) : Nat := bget b 0x8C 4
/-- Blocks of rows. -/
def bNb (b : List Byte) : Nat := bN b / bTs b
/-- The rung format (R326). -/
def bFmt (b : List Byte) : Fmt := decFmt (bget b (8 + bRung b) 1)
/-- VAs of A, b, x, the workspace and the history. -/
def bVa (b : List Byte) (i : Nat) : Nat := bget b (0x10 + 8 * i) 8

/-- An FP64 datum as a value, and a value that FP64 holds as its datum. -/
def rVal (v : Nat) : FVal := fDecode ffp64 v
def rBits (v : FVal) : Nat := (fEncode ffp64 0 v).1
/-- FP64 +∞. -/
def rInf : Nat := 0x7FF0_0000_0000_0000

/-- A number that is finite. -/
def rFin (v : Nat) : Bool := !(rVal v).isNan && !(rVal v).isInf
/-- Order of two numbers, false where one is a NaN. -/
def rLt (a b : FVal) : Bool := !a.isNan && !b.isNan && decide (fvCmp a b < 0)

/-- Whether the block breaks a limit of R326. -/
def blkBad (b : List Byte) : Bool :=
  let n := bN b
  let ts := bTs b
  let pol := bget b 0x3E 1
  decide (n < 16 ∨ n > 65536) || !(ts = 16 || ts = 32) || n % max 1 ts != 0 || decide (bNlad b < 1 ∨ bNlad b > 8) || decide (bget b 6 1 > 1) || decide (bget b 7 1 > 1) ||
  (List.range 8).any (fun i => decide (bget b (8 + i) 1 > 7) || (decide (i ≥ bNlad b) && bget b (8 + i) 1 != 0)) ||
  bget b 0x3C 2 = 0 || decide (pol ≥ 64) || [0, 2, 4].any (fun i => decide (pol / 2 ^ i % 4 > 1)) || bget b 0x3F 1 != 0 || bget b 0x58 40 != 0 ||
  !rFin (bget b 0x40 8) || !rFin (bget b 0x48 8) || !rFin (bget b 0x50 8) ||
  rLt (rVal (bget b 0x40 8)) (.zero false) || !rLt (.zero false) (rVal (bget b 0x48 8)) || rLt (rVal (bget b 0x50 8)) (rVal (bget b 0x48 8))

/-- The regions a block names: VA and length. -/
def blkRegions (b : List Byte) : List (Nat × Nat) :=
  let n := bN b
  [(bVa b 0, 8 * n * n), (bVa b 1, 8 * n), (bVa b 2, 8 * n), (bVa b 3, 8 * n * n + 28 * n), (bVa b 4, 16 * bHcap b)]
/-- A region outside the descriptor's range as captured at issue (R326). -/
def Cmd.outside (c : Cmd) (r : Nat × Nat) : Bool :=
  r.2 != 0 && !(if c.win then canonical r.1 && decide (r.1 + r.2 ≤ 2 ^ 64) && canonical (r.1 + r.2 - 1) && supHalf r.1 == supHalf (r.1 + r.2 - 1)
    else decide (c.desc.base.toNat ≤ r.1 ∧ r.1 + r.2 ≤ c.desc.base.toNat + c.desc.limit.toNat))
/-- What is wrong with a block: BLKFMT or BOUNDS with its detail. -/
def Cmd.blockFault (c : Cmd) (b : List Byte) : Option (Nat × Nat) :=
  if blkBad b then some (15, 0) else if (blkRegions b).any c.outside then some (11, c.tail.sdesc.toNat) else none

/-! ### The numbers a tile operation works on -/

/-- A tile operation under way: its accesses, the numbers read and written so far by VA with their width and whether they are to be written, and flags. -/
structure Rw where
  io  : Io
  buf : SMap (Nat × Nat × Bool)
  fl  : Fl
  deriving DecidableEq, Repr

abbrev RlcM := StateM Rw

/-- Reads a number of `n` bytes. -/
def rGet (va n : Nat) : RlcM Nat := fun r =>
  match mapFind r.buf va with
  | some v => (v.1, r)
  | none =>
    let (io, bs) := r.io.read r.io.cmd.tail.sdesc.toNat va n
    let io := if io.pois && !io.stop then io.fail 6 0 va else io
    (leToNat bs, { r with io, buf := mapPut r.buf va (leToNat bs, n, false) })
/-- Writes one; it reaches memory at the end of the operation. -/
def rPut (va n v : Nat) : RlcM Unit := fun r => ((), { r with buf := mapPut r.buf va (v, n, true) })
/-- Raises flags. -/
def rFlag (f : Fl) : RlcM Unit := fun r => ((), { r with fl := r.fl ||| f })
/-- A result with its flags. -/
def rRes (x : Nat × Fl) : RlcM Nat := do rFlag x.2; return x.1
/-- The writes of the operation are performed; one that faults writes nothing (R329). -/
def Rw.flush (r : Rw) : Rw :=
  if r.io.stop then r
  else
    let io := r.buf.foldl (fun io e => if e.2.2.2 then io.write r.io.cmd.tail.sdesc.toNat e.1 (leBytes e.2.2.1 e.2.1) else io) r.io
    { r with io := if io.bad.isSome then { io with s := r.io.s } else io }

/-- Offset of an element of A or of F (R326). -/
def tileOff (b : List Byte) (i j : Nat) : Nat := let n := bN b; let t := bTs b; 8 * (i / t * n * t + j / t * t * t + i % t * t + j % t)
/-- VAs of the workspace's regions (R328). -/
def vaA (b : List Byte) (i j : Nat) : Nat := bVa b 0 + tileOff b i j
def vaB (b : List Byte) (i : Nat) : Nat := bVa b 1 + 8 * i
def vaX (b : List Byte) (i : Nat) : Nat := bVa b 2 + 8 * i
def vaF (b : List Byte) (i j : Nat) : Nat := bVa b 3 + tileOff b i j
def vaPiv (b : List Byte) (i : Nat) : Nat := bVa b 3 + 8 * bN b * bN b + 4 * i
def vaXb (b : List Byte) (i : Nat) : Nat := bVa b 3 + 8 * bN b * bN b + 4 * bN b + 8 * i
def vaRv (b : List Byte) (i : Nat) : Nat := bVa b 3 + 8 * bN b * bN b + 12 * bN b + 8 * i
def vaDv (b : List Byte) (i : Nat) : Nat := bVa b 3 + 8 * bN b * bN b + 20 * bN b + 8 * i

/-! ### Arithmetic (R328) -/

/-- The accumulator format that goes with the rung format (R303, R328). -/
def accFmt (f : Fmt) : FFmt := if f = .fp64 then ffp64 else ffp32
/-- The tile whose one block is a TS×TS tile of F (R328). -/
def rungTile (f : Fmt) (ts : Nat) : TileHandle := { handleFree with fmt := f, shp := decide (ts = 32), blk := decide (ts = 32) }

/-- A number rounded to a format without block scale, as FP64 holds it. -/
def rungRound (f : Fmt) (rm v : Nat) : Nat × Fl := let r := convElem f .fp64 rm v; (rBits (elemValue f r.1), r.2)

/-- A tile of F as its encoding in a format with block scales gives it: its cells, their values, the flags (R167, R170, R328). -/
def rEncoded (b : List Byte) (rm : Nat) (tile : Nat × Nat) : RlcM (List ((Nat × Nat) × Nat) × Fl) := do
  let t := bTs b
  let idx := (List.range (t * t)).map fun k => (tile.1 * t + k / t, tile.2 * t + k % t)
  let vs ← idx.mapM fun c => rGet (vaF b c.1 c.2) 8
  let d := rungTile (bFmt b) t
  let r := d.encode rm (vs.map rVal)
  let back := (tileValues { d with scales := r.scales, esc := r.esc } r.bytes).1
  return (idx.zip (back.map rBits), r.flags)
/-- The tiles that some cells of F lie in. -/
def tilesOf (b : List Byte) (cells : List (Nat × Nat)) : List (Nat × Nat) := (cells.map fun c => (c.1 / bTs b, c.2 / bTs b)).eraseDups

/-- The tiles of F re-encoded in a format with block scales, or the cells rounded to another (R328). -/
def rRound (b : List Byte) (rm : Nat) (cells : List (Nat × Nat)) : RlcM Unit := do
  if isBlockFmt (bFmt b) then
    for tile in tilesOf b cells do
      let (xs, f) ← rEncoded b rm tile
      rFlag f
      for x in xs do rPut (vaF b x.1.1 x.1.2) 8 x.2
  else
    for c in cells do
      let v ← rGet (vaF b c.1 c.2) 8
      let r ← rRes (rungRound (bFmt b) rm v)
      rPut (vaF b c.1 c.2) 8 r

/-- Cells that this operation has computed, as a product takes them: values of the rung format. A tile with block scales gives them as it would be encoded where it stands, and is itself re-encoded once, at the operation's end (R328, log 38). -/
def rOperands (b : List Byte) (rm : Nat) (cells : List (Nat × Nat)) : RlcM (List Nat) := do
  if isBlockFmt (bFmt b) then
    let xs ← (tilesOf b cells).mapM fun tile => rEncoded b rm tile
    let all := xs.flatMap (·.1)
    return cells.map fun c => ((all.find? fun x => x.1 == c).map (·.2)).getD 0
  else cells.mapM fun c => rGet (vaF b c.1 c.2) 8

/-- `a - Σ l·u` as a matrix product's accumulation in the accumulator format, products taken in the order of the list (R180, R328). -/
def rungAcc (f : Fmt) (rm a : Nat) (terms : List (Nat × Nat)) : Nat × Fl :=
  let g := accFmt f
  let (o, f0) := fEncode g rm (rVal a)
  let ts := terms.map fun t => ((rVal t.1).negate, rVal t.2)
  let groups := chunks 8 ((ts.length + 7) / 8) ts
  let r := match f with
    | .fp64 => accAll (fun (o : Nat) (p : FVal × FVal) => fExact g rm (fvFma rm p.1 p.2 (fDecode g o))) o ts
    | .fp32 => accAll (fun (o : Nat) (p : FVal × FVal) => fExact g rm (fvFma rm p.1 p.2 (fDecode g o))) o ts
    | .bfx2 => accAll (fun (o : Nat) (q : List (FVal × FVal)) => accGroup rm o (q.flatMap fun (p : FVal × FVal) => bfx2Pairs (toBfx2 0 p.1).1 (toBfx2 0 p.2).1)) o groups
    | _ => accAll (fun (o : Nat) (q : List (FVal × FVal)) => accGroup rm o q) o groups
  (rBits (fDecode g r.1), f0 ||| r.2)

/-- One element of F minus some products, rounded at the operation's end or by its caller. -/
def rUpdate (b : List Byte) (rm i j : Nat) (terms : List (Nat × Nat)) : RlcM Unit := do
  let a ← rGet (vaF b i j) 8
  let r ← rRes (rungAcc (bFmt b) rm a terms)
  rPut (vaF b i j) 8 r

/-- A fused multiply-add in a format, its operands and result as FP64 holds them. -/
def rFma (g : FFmt) (rm a x s : Nat) : Nat × Fl := let r := fExact g rm (fvFma rm (rVal a).negate (rVal x) (rVal s)); (rBits (fDecode g r.1), r.2)
/-- A number rounded to a floating-point format. -/
def rTo (g : FFmt) (rm v : Nat) : Nat × Fl := let r := fEncode g rm (rVal v); (rBits (fDecode g r.1), r.2)
/-- A correctly rounded quotient. -/
def rDiv (g : FFmt) (rm a p : Nat) : Nat × Fl := let r := fFinish g rm (fvDiv (rVal a) (rVal p)); (rBits (fDecode g r.1), r.2)

/-! ### Tile operations (R331) -/

/-- FACTOR: the conversion of one tile of A. -/
def rConvert (b : List Byte) (rm k : Nat) : RlcM Unit := do
  let t := bTs b
  let cells := (List.range (t * t)).map fun x => (k / bNb b * t + x / t, k % bNb b * t + x % t)
  for c in cells do
    let v ← rGet (vaA b c.1 c.2) 8
    rPut (vaF b c.1 c.2) 8 v
  rRound b rm cells

/-- The pivot of column `j`: the first strictly largest magnitude at or below row `j`; a NaN neither replaces nor is replaced. -/
def rPivot (b : List Byte) (j : Nat) : RlcM Nat := do
  let mut p := j
  for i in rangeFrom (j + 1) (bN b - (j + 1)) do
    let v ← rGet (vaF b i j) 8
    let w ← rGet (vaF b p j) 8
    if rLt (rVal w).magnitude (rVal v).magnitude then p := i
  return p

/-- FACTOR: one column step of a panel; true is a breakdown. PIV holds the row of A that each row of F came from (log 38). -/
def rColumn (b : List Byte) (rm j : Nat) : RlcM Bool := do
  let n := bN b
  let t := bTs b
  let f := bFmt b
  let p ← rPivot b j
  if p ≠ j then
    for c in List.range n do
      let x ← rGet (vaF b j c) 8
      let y ← rGet (vaF b p c) 8
      rPut (vaF b j c) 8 y
      rPut (vaF b p c) 8 x
    let x ← rGet (vaPiv b j) 4
    let y ← rGet (vaPiv b p) 4
    rPut (vaPiv b j) 4 y
    rPut (vaPiv b p) 4 x
  let swapped := if p ≠ j && isBlockFmt f then (List.range n).flatMap fun c => [(j, c), (p, c)] else []
  let pv ← rGet (vaF b j j) 8
  if !rFin pv || (rVal pv).isZero then
    rRound b rm swapped
    return true
  let below := rangeFrom (j + 1) (n - (j + 1))
  for i in below do
    let a ← rGet (vaF b i j) 8
    let l ← rRes (rDiv (accFmt f) rm a pv)
    rPut (vaF b i j) 8 l
  let lcells := below.map (·, j)
  if !isBlockFmt f then rRound b rm lcells
  let ls ← rOperands b rm lcells
  let right := rangeFrom (j + 1) (j / t * t + t - (j + 1))
  let us ← right.mapM fun c => rGet (vaF b j c) 8
  for x in below.zip ls do
    for y in right.zip us do rUpdate b rm x.1 y.1 [(x.2, y.2)]
  rRound b rm ((below.flatMap fun i => right.map (i, ·)) ++ if isBlockFmt f then lcells ++ swapped else [])
  return false

/-- FACTOR: one tile of the block row of U to the right of panel `p`, row by row. -/
def rRowTile (b : List Byte) (rm p q : Nat) : RlcM Unit := do
  let t := bTs b
  let rows := rangeFrom (p * t + 1) (t - 1)
  let cols := rangeFrom (q * t) t
  for i in rows do
    let ks := rangeFrom (p * t) (i - p * t)
    let us ← rOperands b rm (ks.flatMap fun k => cols.map (k, ·))
    let ls ← ks.mapM fun k => rGet (vaF b i k) 8
    for c in List.range t do rUpdate b rm i (q * t + c) ((List.range ks.length).map fun x => (ls.getD x 0, us.getD (x * t + c) 0))
    if !isBlockFmt (bFmt b) then rRound b rm (cols.map (i, ·))
  if isBlockFmt (bFmt b) then rRound b rm (rows.flatMap fun i => cols.map (i, ·))

/-- FACTOR: one tile of the trailing update of panel `p`. -/
def rTrailTile (b : List Byte) (rm p bi bj : Nat) : RlcM Unit := do
  let t := bTs b
  let cells := (rangeFrom (bi * t) t).flatMap fun i => (rangeFrom (bj * t) t).map (i, ·)
  for c in cells do
    let ts ← (rangeFrom (p * t) t).mapM fun k => do
      let l ← rGet (vaF b c.1 k) 8
      let u ← rGet (vaF b k c.2) 8
      return (l, u)
    rUpdate b rm c.1 c.2 ts
  rRound b rm cells

/-- Tile operations of one panel. -/
def panelOps (b : List Byte) (p : Nat) : Nat := let m := bNb b - 1 - p; bTs b + m + m * m
/-- Operation `k` of the panels from `p` on. -/
def rPanel (b : List Byte) (rm : Nat) : Nat → Nat → Nat → RlcM Bool
  | 0, _, _ => return false
  | f + 1, p, k =>
    let m := bNb b - 1 - p
    let t := bTs b
    if k < t then rColumn b rm (p * t + k)
    else if k < t + m then do rRowTile b rm p (p + 1 + (k - t)); return false
    else if k < panelOps b p then do rTrailTile b rm p (p + 1 + (k - t - m) / m) (p + 1 + (k - t - m) % m); return false
    else rPanel b rm f (p + 1) (k - panelOps b p)
/-- Tile operations of FACTOR. -/
def factorOps (b : List Byte) : Nat := bNb b * bNb b + (List.range (bNb b)).foldl (fun a p => a + panelOps b p) 0
/-- FACTOR, operation `k`; true is a breakdown. The first also sets PIV to the rows of A in order. -/
def rFactor (b : List Byte) (rm k : Nat) : RlcM Bool := do
  if k = 0 then
    for i in List.range (bN b) do rPut (vaPiv b i) 4 i
  if k < bNb b * bNb b then
    rConvert b rm k
    return false
  else rPanel b rm (bNb b) 0 (k - bNb b * bNb b)

/-- The residual format (R326). -/
def resFmt (b : List Byte) : FFmt := if bget b 6 1 = 1 then ffp32 else ffp64
/-- RESID, operation `k`: one tile of A taken into the partial sums. -/
def rResid (b : List Byte) (rm k : Nat) : RlcM Unit := do
  let t := bTs b
  let bi := k / bNb b
  let bj := k % bNb b
  for i in rangeFrom (bi * t) t do
    let mut s ← (if bj = 0 then do let v ← rGet (vaB b i) 8; rRes (rTo (resFmt b) rm v) else rGet (vaRv b i) 8)
    for j in rangeFrom (bj * t) t do
      let a ← rGet (vaA b i j) 8
      let x ← rGet (vaX b j) 8
      s ← rRes (rFma (resFmt b) rm a x s)
    rPut (vaRv b i) 8 s

/-- SOLVE, forward substitution with unit L; what it has so far stands in DV (log 38). -/
def rForward (b : List Byte) (rm k : Nat) : RlcM Unit := do
  let g := accFmt (bFmt b)
  for i in rangeFrom (k * bTs b) (bTs b) do
    let p ← rGet (vaPiv b i) 4
    let v ← rGet (vaRv b p) 8
    let mut y ← rRes (rTo g rm v)
    for c in List.range i do
      let l ← rGet (vaF b i c) 8
      let z ← rGet (vaDv b c) 8
      y ← rRes (rFma g rm l z y)
    rPut (vaDv b i) 8 y
/-- SOLVE, back substitution with U. -/
def rBackward (b : List Byte) (rm k : Nat) : RlcM Unit := do
  let g := accFmt (bFmt b)
  for i in (rangeFrom ((bNb b - 1 - k) * bTs b) (bTs b)).reverse do
    let mut y ← rGet (vaDv b i) 8
    for c in rangeFrom (i + 1) (bN b - (i + 1)) do
      let u ← rGet (vaF b i c) 8
      let z ← rGet (vaDv b c) 8
      y ← rRes (rFma g rm u z y)
    let p ← rGet (vaF b i i) 8
    let d ← rRes (rDiv g rm y p)
    rPut (vaDv b i) 8 d
/-- SOLVE, the update of x. -/
def rCorrect (b : List Byte) (rm k : Nat) : RlcM Unit := do
  for i in rangeFrom (k * bTs b) (bTs b) do
    let x ← rGet (vaX b i) 8
    let d ← rGet (vaDv b i) 8
    let r ← rRes (fExact ffp64 rm (fvAdd rm (rVal x) (rVal d)))
    rPut (vaX b i) 8 r
/-- SOLVE, operation `k`. -/
def rSolve (b : List Byte) (rm k : Nat) : RlcM Unit :=
  if k < bNb b then rForward b rm k else if k < 2 * bNb b then rBackward b rm (k - bNb b) else rCorrect b rm (k - 2 * bNb b)

/-- Tile operations of a phase. -/
def phaseOps (b : List Byte) : Nat := match bPhase b with | 0 => factorOps b | 1 => bNb b * bNb b | _ => 3 * bNb b

/-- The infinity norm of `n` numbers from a VA on, exact; a NaN makes it one. -/
def rNorm (va : Nat → Nat) (n : Nat) : RlcM Nat := do
  let mut m := FVal.zero false
  for i in List.range n do
    let v ← rGet (va i) 8
    if (rVal v).isNan then m := .nan false
    else if rLt m (rVal v).magnitude then m := (rVal v).magnitude
  return rBits m
/-- Copies `n` numbers. -/
def rCopy (dst src : Nat → Nat) (n : Nat) : RlcM Unit := do
  for i in List.range n do
    let v ← rGet (src i) 8
    rPut (dst i) 8 v

/-! ### The loop (R329, R330) -/

/-- What a step of the RLC leads to: the run goes on with a block, or ends DONE with it. -/
inductive RlcNext
  | more (b : List Byte) | ended (b : List Byte)
  deriving DecidableEq, Repr

/-- The block at the start of a phase. -/
def toPhase (b : List Byte) (ph : Nat) : List Byte := bset (bset b 0x83 1 ph) 0x8C 4 0
/-- The block one rung up; x starts from the best so far (R329). -/
def rEscalate (b : List Byte) : RlcM (List Byte) := do
  rCopy (vaX b) (vaXb b) (bN b)
  return toPhase (bset (bset (bset b 0x82 1 (bRung b + 1)) 0x84 4 0) 0x98 8 rInf) 0

/-- The exit of the loop: 1 CONVERGED, 2 STAGNATED, 3 DIVERGED, 4 MAXITER (R329). -/
def rExit (b : List Byte) (e : Nat) : RlcM RlcNext := do
  if e = 1 then return .ended (bset (bset b 0x81 1 1) 0x80 1 4)
  else if bget b 0x3E 1 / 2 ^ (2 * (e - 2)) % 4 = 0 && bRung b + 1 < bNlad b then
    let b' ← rEscalate b
    return .more b'
  else
    rCopy (vaX b) (vaXb b) (bN b)
    return .ended (bset (bset (bset b 0x90 8 (bget b 0xA0 8)) 0x81 1 e) 0x80 1 3)

/-- The tests after a residual: 0 where the loop goes on (R329). -/
def rTest (b : List Byte) (r : Nat) : Nat :=
  let v := rVal r
  let prod (off1 off2 : Nat) : FVal := (fvMul (rVal (bget b off1 8)) (rVal (bget b off2 8))).1
  let above (x : FVal) : Bool := rLt x v
  if !v.isNan && !(prod 0x40 0xA8).isNan && !above (prod 0x40 0xA8) then 1
  else if v.isNan || v.isInf || (decide (bIter b ≥ 1) && above (prod 0x50 0x98)) then 3
  else if decide (bIter b ≥ 1) && above (prod 0x48 0x98) then 2
  else if bIter b = bget b 0x3C 2 then 4 else 0

/-- The end of RESID: norm, tests, history, the best x so far (R329, R330); `h` history records exist. -/
def rResidEnd (b : List Byte) (h : Nat) : RlcM RlcNext := do
  let r ← rNorm (vaRv b) (bN b)
  let e := rTest b r
  let b := bset b 0x90 8 r
  if h < bHcap b then
    rPut (bVa b 4 + 16 * h) 8 r
    rPut (bVa b 4 + 16 * h + 8) 8 (bTotit b + bRung b * 2 ^ 32 + e * 2 ^ 40)
  let best := rLt (rVal r) (rVal (bget b 0xA0 8))
  if best then rCopy (vaXb b) (vaX b) (bN b)
  let b := if best then bset b 0xA0 8 r else b
  if e = 0 then return .more (toPhase b 2) else rExit b e

/-- The rounding mode a run uses: the captured RM; RLCX makes no check of it, and a reserved one gives one of the five (R173, R317, log 25). -/
def runRm (rm : Nat) : Nat := if rm < 5 then rm else Config.rlcRm rm % 5

/-- One step: a tile operation, or what follows the last one of a phase (R331). -/
def rStep (b : List Byte) (h : Nat) : RlcM RlcNext := do
  let rm := runRm (bget b 0xB8 4 / 2 ^ 7 % 8)
  let k := bStep b
  let stepped := bset b 0x8C 4 (k + 1)
  if k < phaseOps b then
    match bPhase b with
    | 0 =>
      let broke ← rFactor b rm k
      if broke then rExit b 3 else return .more stepped
    | 1 => rResid b rm k; return .more stepped
    | _ => rSolve b rm k; return .more stepped
  else
    match bPhase b with
    | 0 => return .more (toPhase b 1)
    | 1 => rResidEnd b h
    | _ => return .more (toPhase (bset (bset (bset b 0x98 8 (bget b 0x90 8)) 0x84 4 (bIter b + 1)) 0x88 4 (bTotit b + 1)) 1)

/-! ### Commands (R318, R327, R333) -/

/-- The event that starts a command. -/
def rlcStartOf (clu : Nat) (c : Cmd) : Instr := match c.ins with | .rlcx .. => .rlcxStart clu | _ => .rlcClaim clu
/-- The queue of a cluster's RLC. -/
def State.rlcEnqueue (s : State) (c : Cmd) : State :=
  let clu := (c.pos.inst 3).getD 0
  (s.modRlc clu fun r => { r with queue := r.queue ++ [c] }).emit (rlcStartOf clu c)

/-- RLCS (R317, R326). -/
def execRlcs (h : Hdr) (a : Reg) (t : EngTail) (s : State) : Host.Outcome State Fault Refusal := s.runCommand (.rlcs h a t) State.rlcEnqueue
/-- RLCX (R333). -/
def execRlcx (h : Hdr) (n : DescN) (a b : Reg) (s : State) : Host.Outcome State Fault Refusal := s.runCommand (.rlcx h n a b) State.rlcEnqueue

/-- RLCQ: an acquire load of one word of the status (R333). -/
def execRlcq (h : Hdr) (n : DescN) (sel : BitVec 4) (d a : Reg) (s : State) : Host.Outcome State Fault Refusal :=
  s.run (.rlcq h n sel d a) (shape h [a] [d]) fun e s =>
    let add := 0x80 + 8 * sel.toNat
    let off := e.xd a + BitVec.ofNat 64 add
    match s.preCheck e n.toNat off 8 .acq with
    | .error t => s.trapAt e t.code t.detail t.faddr
    | .ok va =>
      if (e.xd a).toNat % 256 != 0 then s.trapAt e tcAlign n.toNat ((va + 2 ^ 64 - add) % 2 ^ 64)
      else s.load e h.s n off .d d .acq (fun ds => some ds) false id

/-! ### Running (R327, R329, R331 to R333) -/

/-- The engine's view of memory for a command of the RLC. -/
def State.rlcIo (s : State) (clu : Nat) (c : Cmd) : Io := s.ioOf c clu none (.rlc clu, .cluster clu)

/-- The fields of the status half of the block, the reserved bytes as one: offset and length (R326). -/
def blkFields : List (Nat × Nat) :=
  [(0x80, 1), (0x81, 1), (0x82, 1), (0x83, 1), (0x84, 4), (0x88, 4), (0x8C, 4), (0x90, 8), (0x98, 8), (0xA0, 8), (0xA8, 8), (0xB0, 8), (0xB8, 4), (0xBC, 4), (0xC0, 8), (0xC8, 8), (0xD0, 48)]
/-- The fields of the status half that have changed are written as one release, whose origin is the issuer's position (R115, R331). -/
def Io.release (io : Io) (old b : List Byte) (sc : ScopeCode) : Io :=
  let (io, pa, nt) := io.addr io.cmd.tail.sdesc.toNat true (io.cmd.src + 0x80) 128
  let line := lineOf pa
  let bs := (blkFields.filter fun f => bget old f.1 f.2 != bget b f.1 f.2).flatMap fun f => numberFrom (pa + (f.1 - 0x80)) ((b.drop f.1).take f.2)
  if io.stop then io
  else if io.s.hostHas [line] then { io with wait := true, asks := io.asks ++ [line] }
  else if !io.s.bypasses nt line && !io.s.canOwn [line] io.die then { io with wait := true }
  else { io with s := (((io.s.agentOwn nt line io.die).perform bs (some (io.who.1, io.cmd.relPos)) (some sc)).peerWrite io.die bs) }

/-- What a step of an RLC comes to: it waits, with the lines to ask the host for, or it leaves a state. -/
abbrev RlcRes := Except Io State

/-- The run ends: the token settles, the next command starts. -/
def Io.rlcEnd (io : Io) (b : List Byte) (fl : Fl) (bad : Option (Nat × Nat)) : RlcRes :=
  match io.s.engineEnd io.cmd (.rlc io.clu, .cluster io.clu) (fl.toNat + bget b 0x81 1 * 2 ^ 16 + bRung b * 2 ^ 24 + bTotit b * 2 ^ 32) bad with
  | none => .error { io with bad := none, wait := false, asks := io.asks ++ io.s.futLine io.cmd }
  | some s =>
    let s := s.modRlc io.clu fun r => { r with run := none, blk := [], flags := 0, hist := 0, stop := false }
    .ok (match (s.rlc io.clu).queue with | n :: _ => s.emit (rlcStartOf io.clu n) | [] => s)

/-- The run ends in a fault: STATE, FCODE and, for a memory fault, EXIT and FADDR are written where the block can be (R327, R329, R331). -/
def Io.rlcFault (io : Io) (b : List Byte) (bad : Nat × Nat) (va : Option Nat) : RlcRes :=
  let b' := bset (bset b 0x80 1 5) 0xBC 4 (bad.1 + bad.2 * 2 ^ 16)
  let b' := match va with | some v => bset (bset b' 0x81 1 5) 0xC8 8 v | none => b'
  let io := ({ io with bad := none } : Io).release b b' io.cmd.tail.scope
  if io.wait then .error io else io.rlcEnd b' 0 (some bad)

/-- A checkpoint, then what follows it; a block that cannot be written ends the run (R329, R331). -/
def Io.checkpoint (io : Io) (old b : List Byte) (sc : ScopeCode) (go : Io → RlcRes) : RlcRes :=
  let io := io.release old b sc
  if io.wait then .error io
  else match io.bad with
    | some bad => io.rlcEnd old 0 (some bad)
    | none => go io

/-- Whether an RLC stands still: its partition is frozen, or its tower drains for a role change (R331). -/
def State.rlcHeld (s : State) (clu : Nat) (c : Cmd) : Bool := s.halted c.part c.launch || s.draining c.part (clu / 64)

/-- The block with the fields that name the command (R326, R327). -/
def blkClaim (b : List Byte) (c : Cmd) : List Byte :=
  let cmd := c.tail.tok.toNat + c.tail.scope.toNat * 2 ^ 3 + c.tail.fe.toNat * 2 ^ 6 + c.rm * 2 ^ 7 + c.asid * 2 ^ 16
  bset (bset (bset (bset b 0x80 1 2) 0xB0 8 c.id) 0xB8 4 cmd) 0xC0 8 c.futVa

/-- A piece of a run, from its block: its writes are performed, then the checkpoint; a memory fault ends the run (R329, R331). -/
def Io.rlcWork (io : Io) (b0 : List Byte) (fl : Fl) (hist : Nat) (work : RlcM RlcNext) : RlcRes :=
  let (n, w) := work { io, buf := [], fl }
  let w := w.flush
  if w.io.wait then .error w.io
  else
    match w.io.bad with
    | some bad => w.io.rlcFault b0 bad (some w.io.faddr)
    | none =>
      match n with
      | .more b => w.io.checkpoint b0 b io.cmd.tail.scope fun io =>
          .ok ((io.s.modRlc io.clu fun x => { x with run := some io.cmd, blk := b, flags := w.fl, hist }).emit (.rlcCheckpoint io.clu))
      | .ended b => w.io.checkpoint b0 b io.cmd.tail.scope fun io => io.rlcEnd b w.fl none

/-- What a valid block starts from; the reserved bytes of its status half are written as zero (R326, R327). -/
def rInit (b : List Byte) : RlcM RlcNext := do
  let n := bN b
  let bn ← rNorm (vaB b) n
  if bget b 7 1 % 2 = 0 then
    for i in List.range n do rPut (vaX b i) 8 0
  rCopy (vaXb b) (vaX b) n
  let b := bset (bset (bset b 0x81 1 0) 0x82 1 0) 0x84 8 0
  let b := bset (bset (bset b 0x98 8 rInf) 0xA0 8 rInf) 0xA8 8 bn
  return .more (toPhase (bset (bset (bset b 0xBC 4 0) 0xC8 8 0) 0xD0 48 0) 0)

/-- A step of an RLC that may have to wait: then it does nothing but ask the host for lines (R85). -/
def State.rlcGo (s : State) (r : RlcRes) (again : Instr) : State := match r with | .ok s => s | .error io => (s.snoopHost io.asks).emit again
/-- The head of the queue leaves it; its block is read and `work` starts its run (R327, R333). -/
def State.rlcTake (s : State) (clu : Nat) (again : Instr) (x : Bool) (work : Io → List Byte → RlcRes) : State :=
  let r := s.rlc clu
  match r.run, r.queue with
  | none, c :: q =>
    if (match c.ins with | .rlcx .. => true | _ => false) != x || s.rlcHeld clu c then s
    else
      let (io, b) := ((s.modRlc clu fun r => { r with queue := q, hist := 0, stop := false }).rlcIo clu c).read c.tail.sdesc.toNat c.src 256
      let io := if io.pois then io.fail 6 0 c.src else io
      s.rlcGo (if io.wait then .error io else if io.bad.isSome then io.rlcEnd [] 0 io.bad else work io b) again
  | _, _ => s

/-- RLC_CLAIM: the block is claimed and validated, the run starts (R327). -/
def execRlcClaim (clu : Nat) (s : State) : Host.Outcome State Fault Refusal :=
  .next (s.rlcTake clu (.rlcClaim clu) false fun io b =>
    if bState b = 2 || bState b = 3 then io.rlcEnd [] 0 (some (16, 0))
    else
      let b' := blkClaim b io.cmd
      io.checkpoint b b' 6 fun io =>
        match io.cmd.blockFault b' with
        | some f => io.rlcFault b' f none
        | none => io.rlcWork b' 0 0 (rInit b'))

/-- What a resumed block goes on from (R333, step 4); none where RUNG or PIV is out of range (step 3). -/
def rResume (b : List Byte) (up : Bool) : RlcM RlcNext := do
  if up && bRung b + 1 < bNlad b then
    let b' ← rEscalate b
    return .more b'
  else if up then return .ended (bset b 0x80 1 3)
  else return .more (toPhase (bset (bset b 0x84 4 0) 0x98 8 rInf) 1)

/-- Whether the fields that the RLC keeps are in range (R333, step 3). -/
def rKept (b : List Byte) : RlcM Bool := do
  let ps ← (List.range (bN b)).mapM fun i => rGet (vaPiv b i) 4
  return decide (bRung b < bNlad b) && ps.all fun p => decide (p < bN b)

/-- RLCX_START (R333). -/
def execRlcxStart (clu : Nat) (s : State) : Host.Outcome State Fault Refusal :=
  .next (s.rlcTake clu (.rlcxStart clu) true fun io b =>
    if bState b != 3 then io.rlcEnd [] 0 (some (16, 0))
    else
      let v := (xD io.cmd.b).toNat
      let p := bset b 0x3E 1 v
      let b' := blkClaim p io.cmd
      let io := io.write io.cmd.tail.sdesc.toNat (io.cmd.src + 0x3E) (leBytes 1 v)
      if io.wait then .error io
      else if io.bad.isSome then io.rlcEnd [] 0 io.bad
      else io.checkpoint p b' 6 fun io =>
        match io.cmd.blockFault b' with
        | some f => io.rlcFault b' f none
        | none =>
          let (ok, r) := rKept b' { io, buf := [], fl := 0 }
          if r.io.wait then .error r.io
          else match r.io.bad with
            | some bad => r.io.rlcFault b' bad (some r.io.faddr)
            | none => if ok then r.io.rlcWork b' 0 0 (rResume b' (v / 2 ^ 8 % 2 = 1)) else r.io.rlcFault b' (15, 0) none)

/-- A run whose die left C role goes on at the lowest-numbered cluster of the partition's C dies, once that RLC runs nothing (R331). -/
def State.rlcMove (s : State) (clu : Nat) (r : Rlc) : State :=
  match r.run with
  | none => s
  | some c =>
    match (s.clustersIn c.part none).head? with
    | none => s.emit (.rlcCheckpoint clu)
    | some t =>
      if (s.rlc t).run.isSome then s.emit (.rlcCheckpoint clu)
      else ((s.modRlc t fun x => { x with run := r.run, blk := r.blk, flags := r.flags, hist := r.hist, stop := r.stop }).modRlc clu
        fun x => { x with run := none, blk := [], flags := 0, hist := 0, stop := false }).emit (.rlcCheckpoint t)

/-- RLC_CHECKPOINT: one tile operation, or a phase change or exit, and the release that makes it visible (R328 to R332). -/
def execRlcCheckpoint (clu : Nat) (s : State) : Host.Outcome State Fault Refusal :=
  let r := s.rlc clu
  match r.run with
  | none => .next s
  | some c =>
    if s.rlcHeld clu c then .next s
    else if !s.isC (clu / 16) then .next (s.rlcMove clu r)
    else
      let io := s.rlcIo clu c
      let hist := if bPhase r.blk = 1 && bStep r.blk = phaseOps r.blk then r.hist + 1 else r.hist
      .next (s.rlcGo (if r.stop then io.rlcFault r.blk (10, 0) none else io.rlcWork r.blk r.flags hist (rStep r.blk r.hist)) (.rlcCheckpoint clu))

end Sys2Proof.Machine
end

