-- ==== Sys2Proof/Machine/Launch.lean ====
section
/-! DEFINITION. Launches: windows and their headers, parse, dependences, dispatch, placement, the context pool, completion, the end of a window, host writes (R32, R33, R137 to R143, R339 to R355, R362 to R367, R383). -/

namespace Sys2Proof.Machine

/-! ### Windows (R32, R339) -/

/-- A destroyed window whose launches have all completed is CLOSED (R364). -/
def State.closeWindow (s : State) (k w : Nat) : State :=
  match s.window k w, s.part k with
  | some win, some p =>
    if (s.winByte win 1 = winDraining || s.winByte win 1 = winAborting) && !(p.launches.any fun l => l.2.win = w) then s.hwWrite (win.pa + 1) [3] else s
  | _, _ => s

/-- Whether the front end parses a window now: not while a role change quiesces it, in a freeze only the urgent window once step 1 has ended and no scrub is under way (R18, R349, R380, R381). -/
def Part.parses (p : Part) (w : Nat) : Bool :=
  p.roleChange.isNone && (match p.freeze with | none => true | some f => f.urgent && !f.thaw && f.uwin = w && decide (f.step ≥ 2) && !(f.frozen && f.scrub))

/-! ### The launch record (R137, R341, R343) -/

/-- A field of a record's bytes. -/
def recN (b : List Byte) (off n : Nat) : Nat := leToNat ((b.drop off).take n)

/-- A level declaration (R137). -/
def levelDecl (v : Nat) : LevelDecl :=
  let w : BitVec 128 := BitVec.ofNat 128 v
  { entoff := BitVec.ofNat 32 (v / 2 ^ 64), tquota := BitVec.ofNat 16 (v / 2 ^ 48), ctx := BitVec.ofNat 16 (v / 2 ^ 32), teams := BitVec.ofNat 16 (v / 2 ^ 16),
    scope := w.extractLsb' 4 3, dom := w.extractLsb' 0 3 }

/-- The launch that a record describes (R341). -/
def recLaunch (b : List Byte) (w slot : Nat) (urgent : Bool) : Launch :=
  { win := w, slot, st := .waiting, entry := BitVec.ofNat 64 (recN b 0 8), asid := recN b 8 2 % 2 ^ 12, prio := BitVec.ofNat 2 (recN b 0xB 1), urgent,
    deppol := (BitVec.ofNat 8 (recN b 0xB 1)).getLsbD 2, cstat := BitVec.ofNat 32 (recN b 0xC 4), dtab := BitVec.ofNat 64 (recN b 0x10 8),
    args := BitVec.ofNat 64 (recN b 0x18 8), compl := BitVec.ofNat 64 (recN b 0x20 8),
    deps := ((List.range 4).map fun i => BitVec.ofNat 64 (recN b (0x28 + 8 * i) 8)).filter (· != 0),
    levels := (List.range (min 8 (recN b 0xA 1))).map fun i => levelDecl (recN b (0x70 + 16 * i) 16),
    teams := [], nfault := 0, ffirst := 0, tstart := 0, order := 0 }

/-- Check 1 of R343. -/
def recBad (b : List Byte) (sup : Bool) : Bool :=
  let nlev := recN b 0xA 1
  let cstat := recN b 0xC 4
  recN b 0x48 40 != 0 || recN b 0xF0 15 != 0 || decide (recN b 8 2 ≥ 2 ^ 12) || nlev = 0 || decide (nlev > 8) || decide (recN b 0xB 1 ≥ 8) || decide (cstat ≥ 64)
  || !canonical (recN b 0 8) || recN b 0 8 % 4 != 0 || recN b 0x10 8 % 32 != 0 || recN b 0x18 8 % 8 != 0 || recN b 0x20 8 % 64 != 0
  || !canonical (recN b 0x20 8) || decide (cstat % 4 > 1) || decide (cstat / 8 > 4) || (cstat % 4 = 1 && !sup)
  || recN b (0x70 + 16 * min 8 nlev) (16 * (8 - nlev)) != 0

/-- Check 2 (R51). -/
def State.asidBad (s : State) (k asid : Nat) : Bool :=
  match s.part k with
  | none => true
  | some p =>
    let e : Dword := BitVec.ofNat 64 (s.readN (p.asTable + asid * 8) 8)
    !e.getLsbD 0 || getF e 52 12 != 0 || getF e 1 11 != 0

/-- Check 3: the declarations, as numbers, with the domain of the level above (R137). -/
def levelsBad : List Nat → Option Nat → Bool
  | [], _ => false
  | v :: r, up =>
    let d := levelDecl v
    decide (v ≥ 2 ^ 96) || v / 2 ^ 7 % 2 ^ 9 != 0 || v / 8 % 2 = 1 || d.dom = 0 || d.dom = 7 || decide (d.scope < d.dom)
    || (match up with | none => d.teams != 1 | some u => decide (d.dom.toNat > u)) || d.teams = 0 || d.entoff % 4 != 0 || levelsBad r (some d.dom.toNat)

/-- Whether a range of VAs translates, with R, and with W where it is written (R343). -/
def State.rangeMaps (s : State) (k asid va n : Nat) (w : Bool) : Bool :=
  (splitPages (n / 4096 + 2) va n).all fun p =>
    canonical p.1 && decide (p.1 < 2 ^ 64) &&
    (match s.walk k asid p.1 with | .ok l => l.r && (!w || l.w) && s.paOk k (l.pa p.1) | .fault _ => false)

/-- Teams bound to each instance of a level, from those of the level above (R138): instance, number. -/
def State.levelCounts (s : State) (k : Nat) (d : LevelDecl) (up : Option (Nat × List (Nat × Nat))) : List (Nat × Nat) :=
  match up with
  | none => [(((s.instances k d.dom.toNat none).headD 0), 1)]
  | some (pd, ps) =>
    let t := d.teams.toNat
    (ps.flatMap fun p =>
      let is := s.instances k d.dom.toNat (some (pd, p.1))
      let m := max 1 is.length
      (numberFrom 0 is).map fun e => (e.2, p.2 * (t / m + if e.1 < t % m then 1 else 0))).foldl (fun m e => mapUpd m e.1 0 (· + e.2)) []

/-- Units a team takes: its record and its roster blocks (R343, check 6). -/
def LevelDecl.units (d : LevelDecl) : Nat := 1 + max 1 ((d.ctx.toNat + 126) / 127)

/-- Units needed on each tower (R343, check 6). -/
def State.needs (s : State) (k : Nat) : List LevelDecl → Option (Nat × List (Nat × Nat)) → SMap Nat → SMap Nat
  | [], _, m => m
  | d :: r, up, m =>
    let c := s.levelCounts k d up
    s.needs k r (some (d.dom.toNat, c)) (c.foldl (fun m e => mapUpd m (s.instTower k d.dom.toNat e.1) 0 (· + e.2 * d.units)) m)

/-- Status codes (R344). -/
abbrev csOk : Nat := 1
abbrev csFaulted : Nat := 2
abbrev csDrained : Nat := 3
abbrev csAborted : Nat := 4
abbrev csBadrec : Nat := 16
abbrev csBadasid : Nat := 17
abbrev csBadlevel : Nat := 18
abbrev csBadptr : Nat := 19
abbrev csNopool : Nat := 20
abbrev csToobig : Nat := 21
abbrev csDepfail : Nat := 22

/-- Whether an address may take the completion of urgent work (R380). -/
def State.keptCompl (s : State) (k pa : Nat) : Bool :=
  mapRow pa = 4 || ((s.part k).bind (·.freeze)).any fun f => f.keep.any fun r => decide (r.1 ≤ pa ∧ pa + 64 ≤ r.1 + r.2)

/-- Whether COMPL can take a completion (R343). -/
def State.complOk (s : State) (k : Nat) (l : Launch) : Bool :=
  l.compl.toNat % 64 = 0 && canonical l.compl.toNat && s.rangeMaps k l.asid l.compl.toNat 64 true &&
  (!l.urgent || (match s.vaToPa k l.asid l.compl.toNat with | some pa => s.keptCompl k pa | none => false))

/-- The checks of R343 in order: the code of the first that fails. A record of urgent work is of class 3 (R381). -/
def State.recCode (s : State) (k : Nat) (sup : Bool) (b : List Byte) (l : Launch) (poisoned : Bool) : Option Nat :=
  if recBad b sup || (l.urgent && l.prio != 3) || poisoned then some csBadrec
  else if s.asidBad k l.asid then some csBadasid
  else if levelsBad ((List.range l.levels.length).map fun i => recN b (0x70 + 16 * i) 16) none then some csBadlevel
  else if !(s.rangeMaps k l.asid l.dtab.toNat 512 false) || !(s.rangeMaps k l.asid l.args.toNat (128 * l.levels.length) false)
    || (l.deps.any fun d => d.toNat % 64 != 0 || !s.rangeMaps k l.asid d.toNat 64 false) || !s.complOk k l then some csBadptr
  else if s.poolHdr k l.urgent = 0 && l.levels.any (fun d => d.ctx != 0) then some csNopool
  else if (s.needs k l.levels none []).any fun e => decide (e.2 > (s.trArea k l.asid l.urgent e.1).2) then some csToobig
  else none

/-! ### Completion records (R342) -/

/-- Writes a completion record as one write, a release at SYS scope. -/
def State.writeCompl (s : State) (k : Nat) (l : Launch) (status n : Nat) : State :=
  match s.vaToPa k l.asid l.compl.toNat with
  | none => s
  | some pa =>
    let d := (s.frontDie k).getD 0
    s.writeAtHome (numberFrom pa (leBytes 4 status ++ leBytes 2 n ++ leBytes 2 0 ++ leBytes 8 l.nfault ++ leBytes 8 l.ffirst ++ leBytes 8 l.tstart ++ leBytes 8 s.reft ++ List.replicate 24 0))
      (.dispatcher d, .die d) (some 7)

/-- A launch leaves the launch table. -/
def State.endLaunch (s : State) (k n : Nat) (l : Launch) (status : Nat) : State :=
  let s := s.writeCompl k l status n
  ((s.modPart k fun p => { p with launches := mapErase p.launches n }).closeWindow k l.win).emitOnce (.launchParse k l.win)

/-! ### Parse (R33, R340, R343) -/

/-- Lowest launch number that no live launch holds (R343). -/
def freeNumber (m : SMap Launch) : Nat := ((List.range (m.length + 1)).find? fun n => (mapFind m n).isNone).getD 0

/-- The parse is over: the seal is cleared, HEAD and PARSED move on (R340). -/
def State.parsed (s : State) (win : Window) (slot : Nat) : State :=
  ((s.hwWrite (win.pa + 256 * slot + 0xFF) [0]).hwWrite (win.pa + 2) [BitVec.ofNat 8 (slot % 255 + 1)]).hwWrite (win.pa + 8) (leBytes 8 (s.readN (win.pa + 8) 8 + 1))

/-- LAUNCH_PARSE of slot HEAD of a window (R340, R343). -/
def execLaunchParse (k w : Nat) (s : State) : Host.Outcome State Fault Refusal :=
  match s.part k, s.window k w with
  | some p, some win =>
    let slot := s.winByte win 2
    let at_ := win.pa + 256 * slot
    if !p.parses w || (s.frontDie k).isNone || s.winByte win 1 != winOpen || slot = 0 || s.winByte win (256 * slot + 0xFF) = 0 then .next s
    else
      let b := memReadList s.mem at_ 256
      let l := recLaunch b w slot p.freeze.isSome
      let ls := [lineOf at_, lineOf at_ + 1, lineOf win.pa] ++ s.vaLines k l.asid [l.compl.toNat]
      if !s.linesFree ls then .next ((s.snoopHost ls).emitOnce (.launchParse k w))
      else
        match s.recCode k win.sup b l (s.isPoison (lineOf at_) || s.isPoison (lineOf at_ + 1)) with
        | some code =>
          let s' := s.parsed win slot
          let s' := if s.complOk k l then s'.writeCompl k l code 0 else s'.hwWrite (win.pa + 4) (leBytes 4 (slot + code * 256))
          .next (s'.emitOnce (.launchParse k w))
        | none =>
          if freeNumber p.launches > 65535 then .next (s.emitOnce (.launchParse k w))
          else
            let n := freeNumber p.launches
            let s := (s.modPart k fun p => { p with launches := mapPut p.launches n { l with order := s.nextId } }).bump
            .next ((((s.parsed win slot).emit (.dependenceCheck k n))).emitOnce (.launchParse k w))
  | _, _ => .next s

/-! ### Dependences (R345) -/

/-- DEPENDENCE_CHECK: the launch goes on waiting, fails, or is ready: the front end's acquire at SYS scope on its records drops the peer copies of its die (R128, R345, log 41). -/
def execDependenceCheck (k n : Nat) (s : State) : Host.Outcome State Fault Refusal :=
  match s.launch k n with
  | none => .next s
  | some l =>
    if l.st != .waiting || !s.resumes k n then .next s
    else
      let sts := l.deps.map fun d => s.vaN k l.asid d.toNat 4
      if !l.deppol && sts.any (fun v => v != 0 && v != csOk) then
        let ls := s.vaLines k l.asid [l.compl.toNat]
        .next (if s.linesFree ls then s.endLaunch k n l csDepfail else (s.snoopHost ls).emit (.dependenceCheck k n))
      else if sts.any (· = 0) then .next (s.emit (.dependenceCheck k n))
      else .next ((((s.frontDie k).elim s fun d => s.dropPeer d 7).modLaunch k n fun l => { l with st := .ready }).emit (.dispatch k n))

/-! ### Dispatch (R138, R141, R142, R347, R355) -/

/-- Teams of the levels from `lv` on, below the teams numbered in `ps` with their instances (R138). -/
def State.bindLevels (s : State) (k : Nat) : List LevelDecl → Nat → Option (Nat × List (Nat × Nat)) → Nat → List Team
  | [], _, _, _ => []
  | d :: r, lv, up, n =>
    let team (par j inst : Nat) : Team := { level := lv, index := j, domid := inst, parent := par, record := 0, roster := 0, placed := 0, blocks := [] }
    let ts := match up with
      | none => [team 0 0 ((s.instances k d.dom.toNat none).headD 0)]
      | some (pd, ps) => ps.flatMap fun p =>
          let is := s.instances k d.dom.toNat (some (pd, p.2))
          (List.range d.teams.toNat).map fun j => team p.1 j (is.getD (j % max 1 is.length) 0)
    ts ++ s.bindLevels k r (lv + 1) (some (d.dom.toNat, (numberFrom n ts).map fun e => (e.1, e.2.domid))) (n + ts.length)

/-- Units that live launches hold, those of urgent work apart from the others (R355). -/
def State.unitsUsed (s : State) (k : Nat) (urgent : Bool) : List Nat :=
  match s.part k with
  | none => []
  | some p => (p.launches.filter (·.2.urgent = urgent)).flatMap fun e => e.2.teams.flatMap fun t => t.record :: t.blocks

/-- A free unit of an area, sought from unit `n` on. -/
def freeUnit (used : List Nat) (area : Nat × Nat) (n : Nat) : Option Nat :=
  if area.2 = 0 then none
  else (List.range (used.length + 1)).findSome? fun i => let va := area.1 + 1024 * ((n + i) % area.2); if used.contains va then none else some va

/-- `m` free units; which ones is free (R355). -/
def freeUnits (used : List Nat) (area : Nat × Nat) (seed : Nat) : Nat → Option (List Nat)
  | 0 => some []
  | m + 1 => (freeUnit used area (Config.pickOperand (seed + m))).bind fun u => (freeUnits (u :: used) area seed m).map (u :: ·)

/-- Units for every team: its record first, then its roster blocks. None where an area is exhausted (R355). -/
def State.allocTeams (s : State) (k : Nat) (l : Launch) (seed : Nat) : List Team → List Nat → Option (List Team)
  | [], _ => some []
  | t :: r, used =>
    let d := l.levels.getD t.level (levelDecl 0)
    (freeUnits used (s.trArea k l.asid l.urgent (s.instTower k d.dom.toNat t.domid)) seed d.units).bind fun us =>
      (s.allocTeams k l (seed + d.units) r (us ++ used)).map ({ t with record := us.headD 0, blocks := us.drop 1 } :: ·)

/-- A team record (R141, R142). -/
def teamRecord (l : Launch) (d : LevelDecl) (t : Team) (parent lrec : Nat) (dtab : List Byte) : List Byte :=
  let n := d.ctx.toNat
  leBytes 8 parent ++ leBytes 4 t.index ++ leBytes 2 l.asid ++ leBytes 1 t.level ++ leBytes 1 (d.dom.toNat + d.scope.toNat * 16) ++ leBytes 4 t.domid ++
  leBytes 4 n ++ leBytes 4 n ++ leBytes 2 d.tquota.toNat ++ leBytes 2 0 ++ leBytes 8 lrec ++ List.replicate 24 0 ++
  ((List.range 4).flatMap fun _ => leBytes 4 n ++ List.replicate 12 0) ++ List.replicate 128 0 ++ dtab ++ List.replicate 256 0

/-- Links the roster blocks of a team (R355). -/
def State.linkBlocks (s : State) (k asid : Nat) : List Nat → State
  | [] => s
  | b :: r => (s.hwWriteVa k asid b (leBytes 8 (r.headD 0))).linkBlocks k asid r

/-- DISPATCH: every team record and roster of the launch, in one step (R347). -/
def execDispatch (k n : Nat) (s : State) : Host.Outcome State Fault Refusal :=
  match s.part k, s.launch k n with
  | some p, some l =>
    if l.st != .ready || !s.resumes k n then .next s
    else if p.roleChange.isSome then .next (s.emit (.dispatch k n))
    else
      match s.allocTeams k l s.tick (s.bindLevels k l.levels 0 none 0) (s.unitsUsed k l.urgent) with
      | none => .next (s.emit (.dispatch k n))
      | some ts =>
        let ls := s.vaLines k l.asid (ts.flatMap fun t => t.record :: t.blocks)
        if !s.linesFree ls then .next ((s.snoopHost ls).emit (.dispatch k n))
        else
          let dtab := s.vaBytes k l.asid l.dtab.toNat 512
          let lrec := ((s.window k l.win).map (·.pa)).getD 0 + 256 * l.slot
          let s := ts.foldl (fun s t =>
            let up := if t.level = 0 then 0 else ((ts[t.parent]?).map (·.record)).getD 0
            (s.hwWriteVa k l.asid t.record (teamRecord l (l.levels.getD t.level (levelDecl 0)) t up lrec dtab)).linkBlocks k l.asid t.blocks) s
          let s := { s with tick := s.tick + ts.foldl (fun n (t : Team) => n + t.blocks.length + 1) 0 }
          .next ((s.modLaunch k n fun l => { l with st := .placing, teams := ts }).emit (.place k n))
  | _, _ => .next s

/-! ### The context pool (R351) -/

/-- Replaces an element of a list. -/
def setAt {α : Type} (l : List α) (i : Nat) (x : α) : List α := l.set i x

/-- The event that goes on with a request. -/
def PoolReq.event (k : Nat) (r : PoolReq) : Instr := if r.task.isNone then .place k r.launch else if r.stolen then .stealAnswer r.iu else .dequePop r.iu

/-- VA of ring entry `i` of a pool (R351). -/
def State.ringEntry (s : State) (k asid h i : Nat) : Nat := s.vaN k asid h 8 + 8 * (i % max 1 (s.vaN k asid (h + 8) 4))

/-- POOL_ALLOCATE: the first request that may go on; each access to the header is one read-modify-write at its home (R350, R351). -/
def execPoolAllocate (k : Nat) (s : State) : Host.Outcome State Fault Refusal :=
  match s.part k with
  | none => .next s
  | some p =>
    match (numberFrom 0 p.poolWait).find? fun e => e.2.id.isNone && s.resumes k e.2.launch with
    | none => .next s
    | some (i, r) =>
      let again : State := s.emitOnce (.poolAllocate k)
      let asid := s.asidOf k r.launch
      let h := s.poolHdr k (s.isUrgent k r.launch)
      let take := s.vaN k asid (h + 0x10) 8
      let e := s.ringEntry k asid h take
      let id := s.vaN k asid e 8
      let ls := s.vaLines k asid [h, e]
      if !s.linesFree ls then .next (again.snoopHost ls)
      else if take = s.vaN k asid (h + 0x18) 8 then
        if r.counted then .next again
        else .next ((again.hwRmwVa k asid (h + 0x20) (leBytes 8 (s.vaN k asid (h + 0x20) 8 + 1))).modPart k fun p => { p with poolWait := setAt p.poolWait i { r with counted := true } })
      else if id = 0 then .next again
      else
        let s := (again.hwRmwVa k asid e (leBytes 8 0)).hwRmwVa k asid (h + 0x10) (leBytes 8 (take + 1))
        .next ((s.modPart k fun p => { p with poolWait := setAt p.poolWait i { r with id := some id } }).emitOnce (r.event k))

/-- POOL_RETURN: an entry is claimed with one atomic add, then the identifier is written with a release (R351). A line with results still due is not returned yet. -/
def execPoolReturn (k id : Nat) (s : State) : Host.Outcome State Fault Refusal :=
  match s.part k with
  | none => .next s
  | some p =>
    match (numberFrom 0 p.returns).find? fun e => e.2.id = id with
    | none => .next s
    | some (i, r) =>
      let again : State := s.emit (.poolReturn k id)
      let h := s.poolHdr k r.urgent
      let due := match s.ctxLine none k r.asid id with | some key => (s.ops.any fun o => o.2.key = key) || (s.sends.any fun o => o.2.key = key) | none => false
      let ls := s.vaLines k r.asid (h :: r.entry.toList)
      if due then .next again
      else if !s.linesFree ls then .next (again.snoopHost ls)
      else
        match r.entry with
        | none =>
          let put := s.vaN k r.asid (h + 0x18) 8
          .next ((again.hwRmwVa k r.asid (h + 0x18) (leBytes 8 (put + 1))).modPart k fun p => { p with returns := setAt p.returns i { r with entry := some (s.ringEntry k r.asid h put) } })
        | some e => .next ((s.hwRmwVa k r.asid e (leBytes 8 id)).modPart k fun p => { p with returns := p.returns.eraseIdx i })

/-! ### Rosters (R355) -/

/-- Changes a team of a launch. -/
def State.modTeam (s : State) (k n i : Nat) (f : Team → Team) : State :=
  s.modLaunch k n fun l => match l.teams[i]? with | some t => { l with teams := setAt l.teams i (f t) } | none => l

/-- Appends an identifier to a team's roster; a new block comes from the area of the tower that homes the record, and waits for space there: none (R355). -/
def State.rosterAppend (s : State) (k n : Nat) (l : Launch) (i : Nat) (t : Team) (id : Nat) : Option State :=
  let put (s : State) (b : Nat) : State := (s.hwWriteVa k l.asid (b + 8 + 8 * (t.roster % 127)) (leBytes 8 id)).modTeam k n i fun t => { t with roster := t.roster + 1 }
  match t.blocks[t.roster / 127]? with
  | some b => some (put s b)
  | none =>
    let d := l.levels.getD t.level (levelDecl 0)
    let home := ((s.vaToPa k l.asid t.record).bind s.homeTower).getD (s.instTower k d.dom.toNat t.domid)
    (freeUnit (s.unitsUsed k l.urgent) (s.trArea k l.asid l.urgent home) (Config.pickOperand s.tick)).map fun u =>
      let s := { s with tick := s.tick + 1 }.hwWriteVa k l.asid u (leBytes 8 0)
      let s := match t.blocks.getLast? with | some b => s.hwWriteVa k l.asid b (leBytes 8 u) | none => s
      put (s.modTeam k n i fun t => { t with blocks := t.blocks ++ [u] }) u

/-! ### Placement (R143, R348) -/

/-- STAT of a new context from MODE, CHK, RM and PRIO (R143, R269). -/
def newStat (mode chk rm prio : Nat) : Word := BitVec.ofNat 32 (mode + rm * 2 ^ 5 + chk * 2 ^ 8 + prio * 2 ^ 10 + (if prio = 3 then 2 ^ 12 else 0))

/-- x0 of a new context: member, INDEX, level in lanes (R143, R269). -/
def newX0 (m index level : Nat) : XReg := BitVec.ofNat 96 (m % 2 ^ 32 + index % 2 ^ 32 * 2 ^ 32 + level * 2 ^ 64)

/-- A dispatched member's context (R143). -/
def State.memberCtx (s : State) (k n : Nat) (l : Launch) (t : Team) : Ctx :=
  let d := l.levels.getD t.level (levelDecl 0)
  let a (i : Nat) : XReg := BitVec.ofNat 96 (s.vaN k l.asid (l.args.toNat + 128 * t.level + 12 * i) 12)
  let cs := l.cstat.toNat
  { pc := l.entry + d.entoff.setWidth 64, pred := predReset, wait := 0, stat := newStat (cs % 4) (cs / 4 % 2) (cs / 8 % 8) l.prio.toNat,
    owner := BitVec.ofNat 32 (n + t.level * 2 ^ 16), link := BitVec.ofNat 64 t.record,
    x := #v[newX0 t.placed t.index t.level, a 0, a 1, a 2, a 3, a 4, a 5, a 6] }

/-- Members of a team that its launch dispatches. -/
def Launch.ctxOf (l : Launch) (t : Team) : Nat := (l.levels.getD t.level (levelDecl 0)).ctx.toNat

/-- The cluster of a team's next member (R348). -/
def State.nextCluster (s : State) (k : Nat) (l : Launch) (t : Team) : Option Nat :=
  let cs := s.instances k 3 (some ((l.levels.getD t.level (levelDecl 0)).dom.toNat, t.domid))
  cs[t.placed % max 1 cs.length]?

/-- What the dispatcher can do for a team's next member. -/
inductive PlaceAct
  /-- It asks the pool for a line. -/
  | request
  /-- It places the line `key` that request `i` was granted. -/
  | place (i key : Nat)
  deriving DecidableEq, Repr

/-- The lines that the requests of a launch's members were granted: the host gives up its copies of them (R85). -/
def State.grantedLines (s : State) (k n : Nat) (l : Launch) : List Nat :=
  match s.part k with
  | none => []
  | some p => (p.poolWait.filter fun r => r.launch = n && r.task.isNone).filterMap fun r => (r.id.bind fun id => s.ctxLine none k l.asid id).map lineOf
/-- What it can do now, none where it must wait (R109, R348, R349). -/
def State.placeAct (s : State) (k n : Nat) (l : Launch) (i clu : Nat) : Option PlaceAct :=
  match s.part k with
  | none => none
  | some p =>
    match (numberFrom 0 p.poolWait).find? fun e => e.2.launch = n && e.2.team = i && e.2.task.isNone with
    | none => if s.draining k (clu / 64) then none else some .request
    | some (j, r) =>
      match r.id with
      | none => none
      | some id =>
        match s.ctxLine none k l.asid id with
        | none => none
        | some key => if s.draining k (clu / 64) || (s.cl2Room clu key).isNone || !s.linesFree [lineOf key] then none else some (.place j key)

/-- The next members of every launch being placed: launch, team and cluster. -/
def State.nextMembers (s : State) (k : Nat) : List (Nat × Launch × Nat × Team × Nat) :=
  match s.part k with
  | none => []
  | some p => (p.launches.filter fun e => e.2.st = .placing && s.resumes k e.1).flatMap fun e =>
      (numberFrom 0 e.2.teams).filterMap fun x => if x.2.placed < e.2.ctxOf x.2 then (s.nextCluster k e.2 x.2).map fun c => (e.1, e.2, x.1, x.2, c) else none

/-- Places a member (R348). -/
def State.placeMember (s : State) (k n : Nat) (l : Launch) (i : Nat) (t : Team) (clu j key id : Nat) : Option State :=
  let c := s.memberCtx k n l t
  (s.rosterAppend k n l i t id).bind fun s =>
    (s.placeLine key id k n clu c).map fun s =>
      let s := s.modPart k fun p => { p with poolWait := p.poolWait.eraseIdx j }
      (s.modLaunch k n fun m => { m with tstart := if l.teams.all (fun x => x.placed = 0) then s.reft else m.tstart }).modTeam k n i fun t => { t with placed := t.placed + 1 }

/-- PLACE: one action of the dispatcher of the die of one of the launch's next members, for the launch of highest class and then the earliest parsed (R348). -/
def execPlace (k n : Nat) (s : State) : Host.Outcome State Fault Refusal :=
  let ms := s.nextMembers k
  let mine := ms.filter (·.1 = n)
  match mine with
  | [] => .next (s.emitOnce (.launchCompletion k n))
  | m0 :: _ =>
    let die := (mine.getD (Config.pickOperand s.tick % mine.length) m0).2.2.2.2 / 16
    let s := { s with tick := s.tick + 1 }.emitOnce (.place k n)
    let acts : List ((Nat × Launch × Nat × Team × Nat) × PlaceAct) := (ms.filter fun m => m.2.2.2.2 / 16 = die).filterMap fun m => (s.placeAct k m.1 m.2.1 m.2.2.1 m.2.2.2.2).map (m, ·)
    let better (a b : Launch) : Bool := decide (a.prio.toNat > b.prio.toNat) || (a.prio = b.prio && decide (a.order < b.order))
    match acts.foldl (fun b a => match b with | none => some a | some x => if better a.1.2.1 x.1.2.1 then some a else some x) none with
    | none => .next (s.snoopHost (s.grantedLines k n m0.2.1))
    | some (m, a) =>
      match a with
      | .request => .next ((s.modPart k fun p => { p with poolWait := p.poolWait ++ [⟨m.1, m.2.2.1, none, 0, false, none, none, false⟩] }).emitOnce (.poolAllocate k))
      | .place j key =>
        let id := (((s.part k).bind fun p => p.poolWait[j]?).bind (·.id)).getD 0
        .next ((s.placeMember k m.1 m.2.1 m.2.2.1 m.2.2.2.1 m.2.2.2.2 j key id).getD s)

/-! ### Completion (R366) -/

/-- Whether something of a launch is still under way: contexts, tasks, pool requests, writes, engine and tile commands. -/
def State.launchBusy (s : State) (k n : Nat) : Bool :=
  let mine (c : Cmd) : Bool := c.part = k && c.launch = n
  let task (t : Task) (iu : Nat) : Bool := t.launch = n && s.partOfTower (iu / 512) == some k
  (s.live.any fun e => e.2.part = k && e.2.launch = n) ||
  (s.ius.any fun e => ((s.dqAll k e.1 ++ s.dqAside k e.1).any fun t => task t e.1) || (match e.2.answer with | some (some t) => task t e.1 | _ => false)) ||
  ((s.part k).any fun p => p.poolWait.any fun r => r.launch = n && r.task.isSome) ||
  (s.stores.any fun e => e.2.part = k && e.2.launch = n) || (s.ops.any fun e => s.partOf e.2.key = k && e.2.launch = n) ||
  (s.ces.any fun e => e.2.any mine) || (s.bdes.any fun e => e.2.queue.any mine) || (s.rlcs.any fun e => e.2.queue.any mine || e.2.run.any mine) ||
  (s.tes.any fun e => e.2.ops.any fun o => o.part = k && o.launch = n)

/-- Handles a launch owns: keys of the handle table (R288). -/
def State.handlesOf (s : State) (k n : Nat) : List Nat :=
  (s.handles.filter fun e => e.2.alloc && e.2.launch.toNat = n && s.partOfTower (e.1 / 1024 / 128) == some k).map (·.1)

/-- A discarded line: DONE with WHY 0 in its home memory, the deliveries held for it dropped (R363). -/
def State.discard (s : State) (key : Nat) : State :=
  let s := s.drain key
  { s.retire key ((s.ctxAt key).setState stDone 0) with late := mapErase s.late key }

/-- ABORT asks for the eviction of every context of a launch (R363, R375). -/
def State.abortAsks (s : State) (k n : Nat) : State := (s.live.filter fun e => e.2.part = k && e.2.launch = n).foldl (fun s e => s.requestEvict (.abort k n) e.1) s
/-- Every context of the launch that has left its slot is discarded; one on its way between holders follows when it has arrived, one whose team record's home or whose line is not free once it is (R19, R85, R105, R363). -/
def State.discardAll (s : State) (k n : Nat) : State :=
  (s.live.filter fun e => e.2.part = k && e.2.launch = n).foldl (fun s e =>
    let c := s.ctxAt e.1
    if s.isMoving e.1 || ((mapFind s.held e.1).bind Held.slot?).isSome then s
    else if s.retireHeld e.1 c || s.hostHas (s.retireLines e.1 c) then s.snoopHost (s.retireLines e.1 c)
    else s.discard e.1) s

/-- Status of a launch at its end (R344, R364). -/
def Launch.status (l : Launch) : Nat := match l.st with | .draining => csDrained | .aborting => csAborted | _ => if l.nfault = 0 then csOk else csFaulted

/-- Whether a launch has placed all it ever will. -/
def Launch.placedAll (l : Launch) : Bool :=
  match l.st with
  | .placing => l.teams.all fun t => t.placed = l.ctxOf t
  | .draining => true
  | .aborting => true
  | _ => false

/-- Whether a launch's completion is due (R366). -/
def State.completes (s : State) (k n : Nat) (l : Launch) : Bool :=
  l.placedAll && !s.launchBusy k n && !(s.handlesOf k n).any (fun h => s.handleState (h / 1024) (h % 1024) = hsBusy) && s.vaFree k l.asid [l.compl.toNat]

/-- Whether a freeze keeps a launch's completion back: from step 3 on (R380). -/
def State.complHeld (s : State) (k n : Nat) : Bool := (s.part k).any fun p => p.freeze.any (fun f => decide (f.step > 2) || f.thaw) && !s.isUrgent k n

/-- LAUNCH_COMPLETION (R366). -/
def execLaunchCompletion (k n : Nat) (s : State) : Host.Outcome State Fault Refusal :=
  if s.complHeld k n then .next s
  else
    let s := if (s.launch k n).any (·.st = .aborting) then s.discardAll k n else s
    match s.launch k n with
    | none => .next s
    | some l =>
      if s.completes k n l then .next ({ s with handles := (s.handlesOf k n).foldl mapErase s.handles }.endLaunch k n l l.status)
      else if l.placedAll && (l.st = .aborting || !(s.live.any fun e => e.2.part = k && e.2.launch = n)) then .next (s.emitOnce (.launchCompletion k n))
      else .next s

/-! ### The end of a window (R362 to R364) -/

/-- Launches parsed from a window. -/
def State.windowLaunches (s : State) (k w : Nat) : List Nat :=
  match s.part k with | some p => (p.launches.filter fun e => e.2.win = w).map (·.1) | none => []

/-- Tasks of a launch on deques, in steal replies and before their line is placed are discarded, as are its members' pool requests; identifiers granted go back (R362, R363). -/
def State.dropTasks (s : State) (k n : Nat) : State :=
  let mine (iu : Nat) (t : Task) : Bool := t.launch = n && s.partOfTower (iu / 512) == some k
  let s := (s.ius.filter fun e => s.partOfTower (e.1 / 512) == some k).foldl (fun s e => s.dqKeep k e.1 fun t => t.launch != n) s
  let s : State := { s with ius := mapMap s.ius fun iu u => { u with answer := match u.answer with | some (some t) => if mine iu t then some none else u.answer | a => a } }
  match s.part k with
  | none => s
  | some p =>
    let out := p.poolWait.filter (·.launch = n)
    let s := s.modPart k fun p => { p with poolWait := p.poolWait.filter (·.launch != n) }
    let s := out.foldl (fun s r => s.modIu r.iu fun u => { u with heldSlots := u.heldSlots.filter fun j => r.slot != some j }) s
    out.foldl (fun s r => match r.id with | some id => s.giveBack k n id | none => s) s

/-- The window's CMD is taken: CMD 0 and a new STATE. -/
def State.takeCmd (s : State) (win : Window) (st : Nat) : State := (s.hwWrite win.pa [0]).hwWrite (win.pa + 1) [BitVec.ofNat 8 st]

/-- Whether CMD bytes are taken now: not during a freeze or a home hold, nor while the settlement of a command of the window would have to wait for its issuer's line (R19, R106, R380). -/
def State.takesCmd (s : State) (k : Nat) (win : Window) : Bool :=
  (s.part k).any (fun p => p.freeze.isNone && p.roleChange.all fun rc => decide (rc.step < 4)) && s.linesFree [lineOf win.pa] &&
  !(s.held.any fun e => s.isMoving e.1 && s.partOf e.1 = k)

/-- Runs the effect of a command where it is the one that CMD asks for; another one that is due comes instead. -/
def State.command_ (s : State) (k w : Nat) (me : Instr) (f : Window → State) : State :=
  match s.window k w, s.cmdEvent k w with
  | some win, some i =>
    if i != me then s.emitOnce i
    else if s.takesCmd k win then f win
    else if (s.part k).any (·.freeze.isNone) then (s.snoopHost [lineOf win.pa]).emitOnce me else s
  | _, _ => s

/-- DRAIN (R362). -/
def execDrain (k w : Nat) (s : State) : Host.Outcome State Fault Refusal :=
  .next (s.command_ k w (.drain k w) fun win =>
    let s := (s.windowLaunches k w).foldl (fun s n => ((s.modLaunch k n fun l => { l with st := .draining }).dropTasks k n).emitOnce (.launchCompletion k n)) (s.takeCmd win winDraining)
    s.closeWindow k w)

/-- Whether the first command of an engine's queue has started to run (R321). -/
def State.runs_ (s : State) (key : Nat) : Bool := (mapFind s.runs key).isSome
/-- The engine commands of a window's launches that queue behind the running ones, with their engine. -/
def State.queuedCmds (s : State) (k w : Nat) : List ((Writer × Pos) × Cmd) :=
  let mine (c : Cmd) : Bool := c.part = k && (s.windowLaunches k w).contains c.launch
  (s.ces.flatMap fun e => ((if s.runs_ (ceRun e.1) then e.2.drop 1 else e.2).filter mine).map (((.ce e.1, .cluster e.1), ·))) ++
  (s.bdes.flatMap fun e => ((if s.runs_ (bdeRun e.1) then e.2.queue.drop 1 else e.2.queue).filter mine).map (((.bde e.1, .tower (e.1 / 2)), ·))) ++
  (s.rlcs.flatMap fun e => (e.2.queue.filter mine).map (((.rlc e.1, .cluster e.1), ·)))
/-- Whether each of them can settle now; if not ABORT is taken once it can, and the host is asked for the futures' lines it holds (R19, R85, R319, R363). -/
def State.abortReady (s : State) (k w : Nat) : Bool := (s.queuedCmds k w).all fun c => (s.engineEnd c.2 c.1 0 (some (10, 0))).isSome
def State.abortWait (s : State) (k w : Nat) : State := (s.snoopHost ((s.queuedCmds k w).flatMap fun c => s.futLine c.2)).emitOnce (.abort k w)

/-- Queued engine commands of a launch end with ABORTED; the commands that run go on, RLC runs to a checkpoint (R321, R331, R363). -/
def State.abortEngines (s : State) (k n : Nat) : State :=
  let mine (c : Cmd) : Bool := c.part = k && c.launch = n
  let fin (who : Writer × Pos) (s : State) (c : Cmd) : State := ((s.engineEnd c who 0 (some (10, 0))).getD s).dropClaims c.num
  let s := s.ces.foldl (fun s e =>
    let (run, wait) := if s.runs_ (ceRun e.1) then (e.2.take 1, e.2.drop 1) else ([], e.2)
    (wait.filter mine).foldl (fin (.ce e.1, .cluster e.1)) { s with ces := mapPut s.ces e.1 (run ++ wait.filter fun c => !mine c) }) s
  let s := s.bdes.foldl (fun s e =>
    let (run, wait) := if s.runs_ (bdeRun e.1) then (e.2.queue.take 1, e.2.queue.drop 1) else ([], e.2.queue)
    (wait.filter mine).foldl (fin (.bde e.1, .tower (e.1 / 2))) { s with bdes := mapUpd s.bdes e.1 bdeReset fun b => { b with queue := run ++ wait.filter fun c => !mine c } }) s
  s.rlcs.foldl (fun s e =>
    let s := s.modRlc e.1 fun r => { r with queue := r.queue.filter (fun c => !mine c), stop := r.stop || r.run.any mine }
    (e.2.queue.filter mine).foldl (fin (.rlc e.1, .cluster e.1)) s) s

/-- Queued tile operations of a launch end with FCODE ABORTED (R293). -/
def State.abortTiles (s : State) (k n : Nat) : State :=
  let mine (o : TileOp) : Bool := o.part = k && o.launch = n
  s.tes.foldl (fun s e =>
    let gone := e.2.subq.toList.flatten.filter mine
    let s := s.modTe e.1 fun t => { t with subq := t.subq.map fun q => q.filter fun o => !mine o }
    let s := gone.foldl (fun s o => (s.tileFault e.1 o.hd 10).tileEnd e.1 o) s
    if gone = [] then s else s.emits ((List.range 4).map fun i => .tilePrepare e.1 i)) s

/-- ABORT (R363). -/
def execAbort (k w : Nat) (s : State) : Host.Outcome State Fault Refusal :=
  .next (s.command_ k w (.abort k w) fun win => if !s.abortReady k w then s.abortWait k w else
    let s := (s.windowLaunches k w).foldl (fun s n =>
      (((((((s.modLaunch k n fun l => { l with st := .aborting }).dropTasks k n).abortEngines k n).abortTiles k n).abortAsks k n).discardAll k n)).emitOnce (.launchCompletion k n)) (s.takeCmd win winAborting)
    s.closeWindow k w)

/-- REOPEN (R364). -/
def execReopen (k w : Nat) (s : State) : Host.Outcome State Fault Refusal :=
  .next (s.command_ k w (.reopen k w) fun win =>
    let s := (rangeFrom 1 255).foldl (fun s i => s.hwWrite (win.pa + 256 * i + 0xFF) [0]) (s.takeCmd win winOpen)
    (((s.hwWrite (win.pa + 2) [1]).hwWrite (win.pa + 8) (leBytes 8 0))).emitOnce (.launchParse k w))

/-- BAD_COMMAND: taken and ignored, LASTERR says so (R364). -/
def execBadCommand (k w : Nat) (s : State) : Host.Outcome State Fault Refusal :=
  .next (s.command_ k w (.badCommand k w) fun win => (s.hwWrite win.pa [0]).hwWrite (win.pa + 4) (leBytes 4 (255 * 256)))

/-! ### Host writes (R32, R33, R89, R123, R383) -/

/-- A partition whose freeze refuses a host write to an address (R383). -/
def Part.refusesHost (p : Part) (pa : Nat) : Bool :=
  p.freeze.any fun f => decide (f.step ≥ 4) && !(f.keep.any fun r => decide (r.1 ≤ pa ∧ pa < r.1 + r.2))

/-- HOST_MEM_WRITE through CXL.mem: performed at the home, or an error response (R89, R93, R123, R383). -/
def execHostMemWrite (pa : Nat) (bytes : List Byte) (s : State) : Host.Outcome State Fault Refusal :=
  let bs := numberFrom pa bytes
  let ls := linesOf bs
  let refused := bs.any fun b => s.offline b.1 || !s.coherent b.1 || ((s.homeTower b.1).bind s.partOfTower).any fun k => (s.part k).any (·.refusesHost b.1)
  if refused then .next { s with hostErrs := s.hostErrs ++ [pa] }
  else if s.lineBusy ls || ls.any s.claimed then .next (s.emit (.hostMemWrite pa bytes))
  else .next (s.writeAtHome bs (.host, .off) none)

/-! ### A partition goes on (R18, R349, R384) -/

/-- Everything of a partition that a freeze or a role change held back looks again. -/
def State.wakePart (s : State) (k : Nat) : State :=
  match s.part k with
  | none => s
  | some p =>
    let mineT (t : Nat) : Bool := p.towers.contains t
    let s := ((List.range 384).filter fun c => mineT (c / 64)).foldl (fun s c => s.emitOnce (.fill c)) (s.emitOnce (.load k))
    let s := (List.range p.windows.length).foldl (fun s w => let s := s.emitOnce (.launchParse k w); match s.cmdEvent k w with | some i => s.emitOnce i | none => s) s
    let s := p.launches.foldl (fun s e =>
      match e.2.st with
      | .waiting => s.emitOnce (.dependenceCheck k e.1)
      | .ready => s.emitOnce (.dispatch k e.1)
      | .placing => s.emitOnce (.place k e.1)
      | _ => s.emitOnce (.launchCompletion k e.1)) s
    let s := s.emitOnce (.poolAllocate k)
    let s := (p.poolWait.filter fun r => r.id.isSome).foldl (fun s r => s.emitOnce (r.event k)) s
    let s := p.returns.foldl (fun s r => s.emitOnce (.poolReturn k r.id)) s
    let s := (s.ius.filter fun e => mineT (e.1 / 512)).foldl (fun s e =>
      let s := if e.2.deque.isEmpty then s else s.emitOnce (.dequePop e.1)
      if e.2.answer.isSome then s.emitOnce (.stealAnswer e.1) else s) (s.lookAll k)
    let s := (s.tes.filter fun e => mineT (e.1 / 128)).foldl (fun s e => (List.range 4).foldl (fun s i => s.emitOnce (.tilePrepare e.1 i)) (s.emitOnce (.tileStart e.1))) s
    (s.rlcs.filter fun e => mineT (e.1 / 64)).foldl (fun s e =>
      match e.2.run, e.2.queue with
      | some _, _ => s.emitOnce (.rlcCheckpoint e.1)
      | none, c :: _ => s.emitOnce (rlcStartOf e.1 c)
      | none, [] => s) s

end Sys2Proof.Machine
end

