-- ==== Sys2Proof/Machine/Deque.lean ====
section
/-! DEFINITION. Deques: pops by the owner, steal rounds, requests and their answers, and the tasks that become contexts (R269, R352 to R357). -/

namespace Sys2Proof.Machine

/-! ### A slot for a task (R354, R356) -/

/-- A free slot of an IU that a task could take, one of class 3 where `urgent`, and that R108 has no READY line for; one that any task may use goes first (R155, R354). -/
def State.taskSlot (s : State) (iu : Nat) (urgent : Bool) : Option Nat :=
  match s.partOfTower (iu / 512) with
  | none => none
  | some k =>
    match s.part k with
    | none => none
    | some p =>
      if !s.iuIn k none iu then none
      else
        let free := ((List.range 16).map (16 * iu + ·)).filter fun n => (s.inSlot n).isNone && !(s.iu iu).heldSlots.contains (n % 16)
        let lines := s.readyLines (iu / 8)
        let ok := free.filter fun n => !(lines.any fun e => (s.slotsOf (iu / 8) e.1 e.2).contains n)
        match ok.find? fun n => p.slotOk (n % 16) false with
        | some n => some n
        | none => if urgent then ok.find? fun n => p.slotOk (n % 16) true else none

/-- A task goes to the pool for a line, its slot held (R354). -/
def State.seekLine (s : State) (k iu : Nat) (t : Task) (stolen : Bool) (slot : Option Nat) : State :=
  (s.modPart k fun p => { p with poolWait := p.poolWait ++ [⟨t.launch, 0, some t, iu, stolen, slot, none, false⟩] }).emitOnce (.poolAllocate k)

/-- The hold of a request's slot ends. -/
def State.unhold (s : State) (k i : Nat) (r : PoolReq) : State :=
  (s.modIu r.iu fun u => { u with heldSlots := u.heldSlots.filter fun j => r.slot != some j }).modPart k fun p => { p with poolWait := setAt p.poolWait i { r with slot := none } }

/-! ### A task becomes a context (R269, R354, R355) -/

/-- The context of a task as member `m` (R269). -/
def Task.ctx (t : Task) (m index : Nat) : Ctx :=
  let sst := t.sst.toNat
  { pc := t.entry, pred := predReset, wait := 0, stat := newStat (sst % 4) (sst / 4 % 2) (sst / 8 % 8) (sst / 64),
    owner := BitVec.ofNat 32 (t.launch + t.level * 2 ^ 16), link := t.link,
    x := #v[newX0 m index t.level, t.arg0, t.arg1, 0, 0, 0, 0, 0] }

/-- The team a task joins: its position among the launch's teams. -/
def Launch.teamAt (l : Launch) (link : Dword) : Option (Nat × Team) := (numberFrom 0 l.teams).find? fun e => e.2.record = link.toNat

/-- Places the task whose identifier has been granted: MEMBERS and LIVE go up by one, the roster takes it, and a taker inside the instance fills its held slot. None where it must wait (R109, R355). -/
def State.placeTask (s : State) (k i : Nat) (r : PoolReq) (t : Task) (l : Launch) (id key : Nat) : Option State :=
  let inside := s.iuIn k (some (t.dom, t.domid)) r.iu
  match (if inside then some (r.iu / 8) else (s.clustersIn k (some (t.dom, t.domid))).head?) with
  | none => none
  | some clu =>
    match l.teamAt t.link, s.vaToPa k l.asid t.link.toNat with
    | some (ti, tm), some pa =>
      if !s.linesFree [lineOf pa, lineOf key] then none
      else
        let m := s.readN (pa + 0x18) 4
        let live := s.readN (pa + 0x14) 4
        (s.rosterAppend k t.launch l ti tm id).bind fun s =>
          (s.placeLine key id k t.launch clu (t.ctx m tm.index)).map fun s =>
            let s := s.hwWrite (pa + 0x14) (leBytes 4 ((live + 1) % 2 ^ 32) ++ leBytes 4 ((m + 1) % 2 ^ 32))
            let s := s.modPart k fun p => { p with poolWait := p.poolWait.eraseIdx i }
            match (if inside then r.slot else none) with
            | some j =>
              if (s.part k).any (·.slotOk j (decide (t.sst.toNat / 64 = 3))) && (s.inSlot (16 * r.iu + j)).isNone then s.fillSlot key (16 * r.iu + j)
              else s.modIu r.iu fun u => { u with heldSlots := u.heldSlots.filter (· != j) }
            | none => s
    | _, _ => none

/-- Goes on with a granted request of an IU: the task is placed, or waits without its hold (R354). -/
def State.goOn (s : State) (iu : Nat) (stolen : Bool) : Option State :=
  (s.partOfTower (iu / 512)).bind fun k => (s.part k).bind fun p =>
    ((numberFrom 0 p.poolWait).find? fun e => e.2.iu = iu && e.2.stolen = stolen && e.2.task.isSome && e.2.id.isSome && s.resumes k e.2.launch).bind fun (i, r) =>
      match r.task, r.id, s.launch k r.launch with
      | some t, some id, some l =>
        let wait (s : State) : State := s.emitOnce (r.event k)
        match s.ctxLine none k l.asid id with
        | none => some ((s.modPart k fun p => { p with poolWait := setAt p.poolWait i { r with id := none } }).emitOnce (.poolAllocate k))
        | some key =>
          let s := if s.iuIn k (some (t.dom, t.domid)) iu then s else s.unhold k i r
          let r := if s.iuIn k (some (t.dom, t.domid)) iu then r else { r with slot := none }
          match s.placeTask k i r t l id key with
          | some s => some s
          | none =>
            let clu := if s.iuIn k (some (t.dom, t.domid)) iu then iu / 8 else (s.clustersIn k (some (t.dom, t.domid))).headD 0
            some (wait ((if (s.cl2Room clu key).isNone then s.unhold k i r else s).snoopHost (lineOf key :: s.vaLines k l.asid [t.link.toNat])))
      | _, _, _ => none

/-! ### Pops (R352, R354) -/

/-- Whether the owner's next pop takes the far end: every sixteenth, where two tasks or more are there (R352). -/
def Iu.popsFar (u : Iu) : Bool := (u.pops + 1) % 16 = 0 && decide (u.deque.length + u.spilled ≥ 2)
/-- The task that the owner's pop takes (R352, R353). -/
def State.dqNext (s : State) (k iu : Nat) : Option Task := if (s.iu iu).popsFar then s.dqFar k iu else (s.iu iu).deque.head?
/-- The owner pops it. -/
def State.dqPop (s : State) (k iu : Nat) : State :=
  (if (s.iu iu).popsFar then s.dqPopFar k iu else s.dqPopOwn k iu).modIu iu fun u => { u with pops := u.pops + 1 }

/-- DEQUE_POP: goes on with a task popped before, or pops one into a slot it holds (R354). -/
def execDequePop (iu : Nat) (s : State) : Host.Outcome State Fault Refusal :=
  match s.goOn iu false with
  | some s => .next (if (s.iu iu).deque.isEmpty then s else s.emitOnce (.dequePop iu))
  | none =>
    match (s.partOfTower (iu / 512)).bind fun k => (s.dqNext k iu).map ((k, ·)) with
    | some (k, t) =>
      if !s.resumes k t.launch then .next s
      else
        match (if s.poolOn iu then s.taskSlot iu (decide (t.sst.toNat / 64 = 3)) else none) with
        | none => .next (s.emitOnce (.dequePop iu))
        | some n => .next ((((s.dqPop k iu).modIu iu fun u => { u with heldSlots := u.heldSlots ++ [n % 16] }).seekLine k iu t false (some (n % 16))).emitOnce (.dequePop iu))
    | none => .next s

/-! ### Steals (R354 to R357) -/

/-- IUs of a round, in groups that are asked in order: the quad's others, the cluster's other four, then eight drawn (R356). -/
def roundMax : Nat := 15
/-- The wait after a round with no task, in ns (R356). -/
def stealPause : Nat := 1024

/-- The next IU a round asks; draws are free among those still eligible (R356). -/
def State.nextVictim (s : State) (k iu : Nat) (asked : List Nat) : Option Nat :=
  if asked.length ≥ roundMax then none
  else
    match ((rangeFrom (iu / 4 * 4) 4).filter fun v => v != iu && !asked.contains v) ++ ((rangeFrom (iu / 8 * 8) 8).filter fun v => v / 4 != iu / 4 && !asked.contains v) with
    | v :: _ => some v
    | [] =>
      let el := (List.range 3072).filter fun v => s.iuOf k none v && v != iu && !asked.contains v
      el[Config.stealDraw s.tick % max 1 el.length]?

/-- Whether an IU is idle: a free slot, no READY line for it, its own deque empty, no request under way (R356). -/
def State.idle (s : State) (iu : Nat) : Option Nat := if (s.iu iu).deque.isEmpty && (s.iu iu).answer.isNone && (s.iu iu).askSlot.isNone && s.poolOn iu then s.taskSlot iu true else none

/-- The IU goes on looking whether it is idle, for as long as CTXPOOL.EN is 1 (R356). -/
def State.lookAgain (s : State) (iu : Nat) : State := if s.poolOn iu then s.emitOnce (.stealRound iu) else s

/-- STEAL_ROUND: an idle IU sends its next request, its slot held, or ends a round without a task and begins the next after its wait, whether or not any deque holds a task (R356). -/
def execStealRound (iu : Nat) (s : State) : Host.Outcome State Fault Refusal :=
  let u := s.iu iu
  match s.idle iu, s.partOfTower (iu / 512) with
  | some n, some k =>
    if s.now < u.askAt then .next (s.emitOnce (.stealRound iu))
    else
      match s.nextVictim k iu u.asked with
      | some v =>
        .next ((({ s with tick := s.tick + 1 } : State).modIu iu fun u => { u with asked := u.asked ++ [v], heldSlots := u.heldSlots ++ [n % 16], askSlot := some (n % 16) }).emit (.stealRequest v iu))
      | none =>
        .next ((s.modIu iu fun u => { u with asked := [], askAt := s.now + stealPause * Config.ticksPerNs }).lookAgain iu)
  | _, _ => .next ((if u.askSlot.isSome then s else s.modIu iu fun u => { u with asked := [] }).lookAgain iu)

/-- Whether a thief may have a task: its IU lies in the instance that the tag names (R356). -/
def State.mayTake (s : State) (victim thief : Nat) (t : Task) : Bool :=
  match s.partOfTower (victim / 512) with
  | some k => s.iuIn k (some (t.dom, t.domid)) thief && s.resumes k t.launch
  | none => false

/-- STEAL_REQUEST: the victim answers with its far-end task, or NONE, as it does while CTXPOOL.EN is 0 (R352, R354, R356, R357). -/
def execStealRequest (victim thief : Nat) (s : State) : Host.Outcome State Fault Refusal :=
  let k := (s.partOfTower (victim / 512)).getD 0
  let t := if s.poolOn victim then (s.dqFar k victim).filter (s.mayTake victim thief) else none
  let s := if t.isSome then s.dqPopFar k victim else s
  .next ((s.modIu thief fun u => { u with answer := some t }).emit (.stealAnswer thief))

/-- STEAL_ANSWER: the thief takes the task, and looks whether it is still idle, or asks on; and it goes on with tasks stolen before (R354, R356). -/
def execStealAnswer (thief : Nat) (s : State) : Host.Outcome State Fault Refusal :=
  match (s.iu thief).answer, s.partOfTower (thief / 512) with
  | some (some t), some k =>
    let slot := (s.iu thief).askSlot
    .next (((s.modIu thief fun u => { u with answer := none, asked := [], askSlot := none }).seekLine k thief t true slot).emitOnce (.stealRound thief))
  | some none, _ =>
    .next ((s.modIu thief fun u => { u with answer := none, heldSlots := u.heldSlots.filter fun j => u.askSlot != some j, askSlot := none }).emitOnce (.stealRound thief))
  | _, _ => .next ((s.goOn thief true).getD s)

end Sys2Proof.Machine
end

