-- ==== Sys2Proof/Machine/Squall.lean ====
section
/-! DEFINITION. Squall and Thaw: the control block, the six steps of a freeze, the image, the scrub, and the way back (R21, R95, R113, R293, R306, R321, R331, R349, R378 to R385, R406). -/

namespace Sys2Proof.Machine

/-! ### Responses to management requests (R390) -/

/-- Status values. -/
abbrev rsOk : Nat := 0
abbrev rsBusy : Nat := 1
abbrev rsRolemap : Nat := 2
abbrev rsCancelled : Nat := 3
abbrev rsBadreq : Nat := 4
abbrev rsBadsig : Nat := 5
abbrev rsBasever : Nat := 6
abbrev rsActive : Nat := 7
abbrev rsNopart : Nat := 8

/-- A response with its tag echoed. -/
def State.respond (s : State) (tag : BitVec 16) (status : Nat) (data : List Nat := []) : State := { s with resps := s.resps ++ [⟨tag, status, data⟩] }

/-! ### The control block (R378, R379) -/

def State.cbN (s : State) (cb off n : Nat) : Nat := leToNat (memReadList s.mem (cb + off) n)

/-- STATUS values (R379). -/
abbrev sqAccepted : Nat := 1
abbrev sqFrozen : Nat := 2
abbrev sqThawed : Nat := 3
abbrev sqBadcb : Nat := 16
abbrev sqBusy : Nat := 17
abbrev sqNospace : Nat := 18
abbrev sqThawmap : Nat := 19
abbrev sqThawimg : Nat := 20
abbrev sqThawlive : Nat := 21

/-- KEEP ranges in use: base and length (R378). -/
def State.cbKeep (s : State) (cb : Nat) : List (Nat × Nat) :=
  ((List.range 4).map fun i => (s.cbN cb (0x30 + 16 * i) 8, s.cbN cb (0x38 + 16 * i) 8)).filter (·.2 != 0)

/-- Whether a KEEP range lies in the partition's HBM and clear of its far-line caches (R379). -/
def Part.keepOk (p : Part) (r : Nat × Nat) : Bool :=
  r.1 % 2 ^ 21 = 0 && r.2 % 2 ^ 21 = 0 && decide (r.1 + r.2 ≤ 0xC0_0000_0000) && decide (r.1 % 2 ^ 36 + r.2 ≤ stackBytes) && p.towers.contains (r.1 / 2 ^ 37) &&
  !(p.towers.any fun t => decide (r.1 < t * 2 ^ 37 + 2 ^ 36 + stackBytes ∧ flcBase t p.flcGib < r.1 + r.2))

/-- Whether no two of a list of ranges overlap. -/
def rangesApart : List (Nat × Nat) → Bool
  | [] => true
  | a :: r => r.all (fun b => decide (a.1 + a.2 ≤ b.1 ∨ b.1 + b.2 ≤ a.1)) && rangesApart r

/-- BADCB: the window and the pool header of urgent work are looked at where URGENT is 1 (R350, R378, R379). -/
def State.cbBad (s : State) (p : Part) (cb op : Nat) : Bool :=
  cb % 256 != 0 || mapRow cb != 4 || s.cbN cb 0 4 != op || decide (s.cbN cb 4 4 ≥ 4) || s.cbN cb 8 8 % 4096 != 0 || mapRow (s.cbN cb 8 8) != 4 ||
  (s.cbN cb 4 4 % 2 = 1 && (s.cbN cb 0x20 8 % 256 != 0 || decide (s.cbN cb 0x18 1 > 63))) || s.cbN cb 0x19 7 != 0 || s.cbN cb 0x28 8 != 0 || s.cbN cb 0x70 16 != 0 || !(s.cbKeep cb).all p.keepOk || !rangesApart (s.cbKeep cb)

/-- Bytes of a field whose value is stated, or left open. -/
def State.cbField (s : State) (off n : Nat) (v : Option Nat) : List Byte :=
  match v with | some v => leBytes n v | none => (List.range n).map fun i => Config.cbByte s.tick (off + i)

/-- The device's half of the block as one release at SYS scope; a field that the text gives no value at this STATUS is open (R378, log 20). -/
def State.cbWrite (s : State) (k cb status step : Nat) (treq tdone size tfreeze tjump digest : Option Nat) : State :=
  let d := 4 * (((s.part k).map fun p => p.towers.headD 0).getD 0)
  let bs := leBytes 4 status ++ leBytes 4 step ++ s.cbField 0x88 8 treq ++ s.cbField 0x90 8 tdone ++ s.cbField 0x98 8 size ++ s.cbField 0xA0 8 tfreeze ++
    s.cbField 0xA8 8 tjump ++ List.replicate 16 0 ++ s.cbField 0xC0 64 digest
  ({ s with tick := s.tick + 1 }.writeAtHome (numberFrom (cb + 0x80) bs) (.dispatcher d, .die d) (some 7)).bb d 8 k [step, status]

/-- A refused request (R379). A block that does not lie in host memory is not written, since a refusal changes nothing of the partition (log 20). -/
def State.cbRefuse (s : State) (k cb status : Nat) : State :=
  if mapRow cb != 4 || mapRow (cb + 0xFF) != 4 then s.bb (4 * (((s.part k).map fun p => p.towers.headD 0).getD 0)) 8 k [0, status]
  else s.cbWrite k cb status 0 none none none none none none

/-! ### What belongs to a partition -/

/-- Whether an address lies in memory that an image holds: HBM outside the KEEP ranges and the far-line caches, near memory, scratch (R380). -/
def Part.imaged (p : Part) (keep : List (Nat × Nat)) (pa : Nat) : Bool :=
  (mapTower pa).any p.towers.contains && mapRow pa != 2 && !p.inFlc pa && !(keep.any fun r => decide (r.1 ≤ pa ∧ pa < r.1 + r.2))
/-- Whether an address lies in any memory of the partition. -/
def Part.owns (p : Part) (pa : Nat) : Bool := (mapTower pa).any p.towers.contains && mapRow pa != 2
def Part.ownsIu (p : Part) (iu : Nat) : Bool := p.towers.contains (iu / 512)
def Part.ownsQuad (p : Part) (q : Nat) : Bool := p.towers.contains (q / 128)
def Part.ownsClu (p : Part) (c : Nat) : Bool := p.towers.contains (c / 64)
def Part.ownsDie (p : Part) (d : Nat) : Bool := p.towers.contains (d / 4)

/-- Whether urgent work of a launch goes on in a freeze. -/
def State.goesOn (s : State) (k n : Nat) : Bool := s.isUrgent k n

/-! ### Step 1: stop (R21, R380, R381) -/

/-- A role change that has not reached step 4 gives way (R21). -/
def State.cancelRoles (s : State) (k : Nat) : State :=
  match (s.part k).bind (·.roleChange) with
  | none => s
  | some rc => (s.modPart k fun p => { p with roleChange := none }).respond rc.tag rsCancelled

/-- FREEZE as a management request: the baseboard controller may not make it, a partition that is not there is NOPART, a block in host memory takes the progress and the request is answered OK (R390, log 44). -/
def State.freezeRequest (s : State) (r : FreezeReq) (cb : Nat) (f : Part → State → State) : State :=
  if r.origin = .bmc then s.respond r.tag rsBadreq
  else
    match s.part r.part with
    | none => s.respond r.tag rsNopart
    | some p => (f p s).respond r.tag (if mapRow cb != 4 || mapRow (cb + 0xFF) != 4 then rsBadreq else rsOk)

/-- SQUALL: the request is checked; parsing and placement stop, every context is pre-empted. One that meets a role change past step 4 waits for its end (R21, R349, R379, R380, R390). -/
def execSquall (r : FreezeReq) (cb : Nat) (s : State) : Host.Outcome State Fault Refusal :=
  if r.origin != .bmc && (s.part r.part).any (fun p => p.roleChange.any fun rc => decide (rc.step ≥ 4)) then .next (s.emitFirst (.squall r cb))
  else .next (s.freezeRequest r cb fun p s =>
    let k := r.part
    let n := s.nextId
    if s.cbBad p cb 1 then s.cbRefuse k cb sqBadcb
    else if p.freeze.isSome then s.cbRefuse k cb sqBusy
    else if s.cbN cb 0x10 8 < Config.imageSize n then s.cbRefuse k cb sqNospace
    else
      let fl := s.cbN cb 4 4
      let f : Freeze := { thaw := false, cb, num := n, base := s.cbN cb 8 8, step := 1, frozen := false, urgent := fl % 2 = 1, scrub := fl / 2 = 1, uwin := s.cbN cb 0x18 1,
                          upool := BitVec.ofNat 64 (s.cbN cb 0x20 8), keep := s.cbKeep cb, treq := s.reft, tfreeze := 0 }
      let s := ((s.cancelRoles k).bump.modPart k fun p => { p with freeze := some f }).cbWrite k cb sqAccepted 1 (some s.reft) none none none none none
      ((s.live.filter fun e => e.2.part = k).foldl (fun s e => s.requestEvict (.squall k) e.1) s).emit .settle)

/-! ### Step 2: settle -/

/-- The lowest-numbered partition whose freeze is at a step. -/
def State.atStep (s : State) (step : Nat) : Option (Nat × Part × Freeze) :=
  s.parts.findSome? fun e => e.2.freeze.bind fun f => if !f.thaw && f.step = step then some (e.1, e.2, f) else none

/-- The freeze goes on to a step. -/
def State.toStep (s : State) (k : Nat) (f : Freeze) (step : Nat) : State :=
  (s.modPart k fun p => { p with freeze := some { f with step } }).bb (4 * (((s.part k).map fun p => p.towers.headD 0).getD 0)) 8 k [step, sqAccepted]

/-- Prepare is abandoned: locks and held lines are given up (R293). -/
def State.unprepare (s : State) (k : Nat) (p : Part) : State :=
  (s.tes.filter fun e => p.ownsQuad e.1).foldl (fun s e =>
    (List.range 4).foldl (fun s iu =>
      match (s.te e.1).sub iu with
      | [] => s
      | o :: r =>
        if !o.prep || s.goesOn k o.launch then s
        else
          let s := s.modTe e.1 fun t => t.setSub iu ({ o with prep := false, segs := [], data := [], fault := 0 } :: r)
          s.dropClaims o.seq) s) s

/-- A firmware context in a slot of a die in M role: it stays there until it ends (R396). -/
def State.fwStays (s : State) (h : Held) : Bool := h.slot?.any fun n => s.isM (n / 2048)

/-- SETTLE: every slot is empty; prepare is abandoned, deques are put aside, and what is in flight completes (R293, R321, R380, R381). -/
def execSettle (s : State) : Host.Outcome State Fault Refusal :=
  match s.atStep 1 with
  | none => .next s
  | some (k, p, f) =>
    if s.held.any fun e => e.2.slot?.isSome && !s.fwStays e.2 && s.partOf e.1 = k then .next (s.emit .settle)
    else
      let s := { (s.unprepare k p).toStep k f 2 with ius := mapMap s.ius fun iu u => if p.ownsIu iu then u.putAside else u }
      .next ((if f.urgent then s.emitOnce (.launchParse k f.uwin) else s).emit .spillAll)

/-! ### Step 3: spill -/

/-- Deliveries and waits still to come for contexts of the partition. -/
def State.owedTo (s : State) (k : Nat) (i : Instr) : Bool :=
  let on (key : Nat) : Bool := s.isLive key && s.partOf key = k && !s.goesOn k (s.ctxAt key).launch
  match i with
  | .barrierWake key _ _ => on key
  | .trapEntry key => on key
  | .migration key => on key
  | .arrival key => on key
  | .preemption key => on key
  | _ => false

/-- Whether something of the partition is still in flight (R113, R135, R380, step 2). -/
def State.inFlight (s : State) (k : Nat) (p : Part) : Bool :=
  let busy (n : Nat) : Bool := !s.goesOn k n
  (s.ops.any fun e => s.partOf e.2.key = k && busy e.2.launch) || (s.stores.any fun e => e.2.part = k && busy e.2.launch) ||
  (s.sends.any fun e => s.partOf e.2.key = k && busy (s.ctxAt e.2.key).launch) || (s.walks.any fun e => e.2.part = k && e.2.waiters.any fun w => busy (s.ctxAt w.key).launch) ||
  (s.futs.any fun e => e.2.part = k) || (s.tes.any fun e => e.2.run.any fun r => r.op.part = k && busy r.op.launch) ||
  (s.ces.any fun e => e.2.any fun c => c.part = k && busy c.launch) || (s.bdes.any fun e => e.2.queue.any fun c => c.part = k && busy c.launch) ||
  (s.ius.any fun e => p.ownsIu e.1 && e.2.answer.any fun t => t.any fun t => busy t.launch) || p.returns.any (fun r => !r.urgent) || s.agenda.any (s.owedTo k) ||
  (p.launches.any fun e => busy e.1 && s.completes k e.1 e.2)

/-- Slots held for frozen tasks that wait for their lines are given up. -/
def State.dropHolds (s : State) (k : Nat) (p : Part) : State :=
  let urgent (r : PoolReq) : Bool := s.goesOn k r.launch
  let kept (iu j : Nat) : Bool := p.poolWait.any fun r => r.iu = iu && r.slot = some j && urgent r
  let s := { s with ius := mapMap s.ius fun iu u => if p.ownsIu iu then { u with heldSlots := u.heldSlots.filter (kept iu), askSlot := none } else u }
  s.modPart k fun p => { p with poolWait := p.poolWait.map fun r => if urgent r then r else { r with slot := none } }

/-- SPILL_ALL: nothing is in flight; every CL2 line goes to memory, and every deque to its overflow area (R349, R353, R380). -/
def execSpillAll (s : State) : Host.Outcome State Fault Refusal :=
  match s.atStep 2 with
  | none => .next s
  | some (k, p, f) =>
    if s.inFlight k p || s.held.any fun e => s.isMoving e.1 && s.partOf e.1 = k then .next (s.emit .spillAll)
    else
      let lines := s.held.filter fun e => s.partOf e.1 = k && !s.goesOn k e.2.ctx.launch && !s.fwStays e.2
      let s := lines.foldl (fun s e => s.spill e.1) (s.dropHolds k p)
      .next ((((s.ius.filter fun e => p.ownsIu e.1).foldl (fun s e => s.dqSpill k e.1) s).toStep k f 3).emit .flush)

/-! ### Step 4: flush -/

/-- Lines that dies of the partition hold, or that its homes or far-line caches list. -/
def State.cachedLines (s : State) (p : Part) : List Nat :=
  let held : List Nat := (s.l2.filter fun e => p.ownsDie (e.1 % 32)).map fun e => e.1 / 32
  let listed : List Nat := (s.dir.filter fun e => p.owns (e.1 * 128)).map fun e => e.1
  (held ++ listed).eraseDups

/-- Some dies give up every copy that their L2s hold. -/
def State.dropDies (s : State) (on : Nat → Bool) : State := (s.l2.filter fun e => on (e.1 % 32)).foldl (fun s e => s.dropCopy (e.1 / 32) (e.1 % 32)) s

/-- Dirty lines are written back, directories, far-line caches and leases emptied (R95). -/
def State.flushPart (s : State) (p : Part) : State :=
  let s := ((s.cachedLines p).foldl (fun s l => s.takeHome l) s).dropDies p.ownsDie
  { s with flc := s.flc.filter fun e => !p.towers.contains (e.1 / 2 ^ 32), l1 := s.l1.filter fun c => !p.ownsIu c.iu }

/-- FLUSH (R380, step 4). -/
def execFlush (s : State) : Host.Outcome State Fault Refusal :=
  match s.atStep 3 with
  | none => .next s
  | some (k, p, f) => .next (((s.flushPart p).toStep k f 4).emit .copy)

/-! ### Step 5: copy -/

/-- What the image stands for. Stamps are no part of it, so no fence has any left to check (R135). -/
def State.imageOf (s : State) (k : Nat) (p : Part) (f : Freeze) : Image :=
  let frozen (key : Nat) : Bool := (mapFind s.live key).any fun l => l.part = k && !s.goesOn k l.launch
  let bytes := (List.range (Config.imageSize f.num)).map (Config.imageByte f.num)
  { bytes, digest := BitVec.ofNat 512 (leToNat (sha512 bytes)), tfreeze := s.reft, towers := p.towers, roles := p.roles,
    mem := s.mem.filter fun c => p.imaged f.keep c.1, poison := s.poison.filter fun e => p.imaged f.keep (e.1 * 128),
    timers := s.timers.filter fun e => frozen e.1,
    handles := s.handles.filter fun e => p.ownsQuad (e.1 / 1024) && !s.goesOn k e.2.launch.toNat,
    tes := mapMap (s.tes.filter fun e => p.ownsQuad e.1) fun _ t => { t with subq := t.subq.map fun q => q.filter fun o => !s.goesOn k o.launch, run := [] },
    gregs := s.gregs.filter fun e => p.ownsIu (e.1 / 8), cycs := ((List.range 24).filter p.ownsDie).map fun d => (d, s.cyc d),
    traps := s.traps.filter fun e => frozen e.1, toks := s.toks.filter fun e => frozen (e.1 / 8),
    fences := mapMap (s.fences.filter fun e => frozen e.1) fun _ f => { f with loads := [] },
    iuDeq := mapMap (s.ius.filter fun e => p.ownsIu e.1) fun _ u => { u.takeUp with asked := [], answer := none, heldSlots := [], askSlot := none },
    part := { p with launches := p.launches.filter fun e => !e.2.urgent, poolWait := p.poolWait.filter fun r => !s.goesOn k r.launch, returns := p.returns.filter fun r => !r.urgent, freeze := none },
    live := s.live.filter fun e => e.2.part = k && !s.goesOn k e.2.launch,
    rlcs := mapMap (s.rlcs.filter fun e => p.ownsClu e.1) fun _ r => { r with queue := r.queue.filter fun c => !s.goesOn k c.launch, run := r.run.filter fun c => !s.goesOn k c.launch } }

/-- COPY: the image goes to the host's buffer (R380, step 5). -/
def execCopy (s : State) : Host.Outcome State Fault Refusal :=
  match s.atStep 4 with
  | none => .next s
  | some (k, p, f) =>
    let img := s.imageOf k p f
    let s := s.hwWrite f.base img.bytes
    .next (({ s with images := mapPut s.images f.num img } : State).toStep k { f with tfreeze := img.tfreeze } 5 |>.emit .release)

/-! ### Step 6: release and scrub (R380, R406) -/

/-- RELEASE: STATUS is FROZEN; urgent work may use every slot (R380, R381). -/
def execRelease (s : State) : Host.Outcome State Fault Refusal :=
  match s.atStep 5 with
  | none => .next s
  | some (k, p, f) =>
    let s := (s.toStep k f 6).modPart k fun p => { p with freeze := some { f with step := 6, frozen := true } }
    let img := mapFind s.images f.num
    let s := s.cbWrite k f.cb sqFrozen 6 (some f.treq) (some s.reft) (img.map (·.bytes.length)) none none (img.map (·.digest.toNat))
    let s := ((List.range 384).filter p.ownsClu).foldl (fun s c => s.emitOnce (.fill c)) s
    .next (if f.scrub then s.emit .scrubComplete else s)

/-- Zeroes memory of the partition outside some ranges, scratch, handles, g registers and the registers of its base-die engines, and empties its caches (R29, R406). -/
def State.scrub (s : State) (p : Part) (keep : List (Nat × Nat)) : State :=
  let out (pa : Nat) : Bool := p.owns pa && !(keep.any fun r => decide (r.1 ≤ pa ∧ pa < r.1 + r.2))
  { s.flushPart p with
    mem := s.mem.filter fun c => !out c.1, poison := s.poison.filter fun e => !out (e.1 * 128), stamps := s.stamps.filter fun e => !out (e.1 * 128),
    handles := s.handles.filter fun e => !p.ownsQuad (e.1 / 1024), gregs := s.gregs.filter fun e => !p.ownsIu (e.1 / 8),
    bdes := mapMap s.bdes fun n b => if p.towers.contains (n / 2) then { b with cmdcnt := 0, errcnt := 0, poisaddr := 0 } else b }

/-- Every control register zero (R406). -/
def Part.zeroed (p : Part) : Part := { p with cl1lim := 0, rsvslot := 0, lease := 0, chkstall := 0, scopemissen := 0, ctxpool := 0, trapvec := 0, freqReq := 0, wdog := 0 }

/-- SCRUB_COMPLETE: the scrub ends, deques that were put aside are cleared, launches of urgent work that waited are parsed (R380, R406, log 43). -/
def execScrubComplete (s : State) : Host.Outcome State Fault Refusal :=
  match s.parts.find? fun e => e.2.freeze.any fun f => f.frozen && f.scrub with
  | none => .next s
  | some (k, p) =>
    match p.freeze with
    | none => .next s
    | some f =>
      let s := { s.scrub p f.keep with ius := mapMap s.ius fun iu u => if p.ownsIu iu then { u with aside := [], asideN := 0 } else u }
      .next ((s.modPart k fun p => { p.zeroed with freeze := some { f with scrub := false } }).emitOnce (.launchParse k f.uwin))

/-! ### Thaw (R379, R384, R385) -/

/-- The image whose bytes stand in the buffer of a request, the latest first. -/
def State.imageAt (s : State) (base : Nat) : Option (Nat × Image) :=
  s.images.reverse.find? fun e => memReadList s.mem base e.2.bytes.length = e.2.bytes

/-- Whether a launch, or urgent work of a frozen partition, is still live (R379). -/
def Part.liveWork (p : Part) : Bool := p.launches.any fun e => e.2.urgent || p.freeze.isNone

/-- The partition's own state from an image, numbered anew. -/
def Part.restored (p : Part) (i : Part) (f : Freeze) (now : Nat) : Part :=
  { i with towers := p.towers, roles := p.roles, flcGib := p.flcGib, windows := p.windows, routes := p.routes, slots := p.slots, created := p.created, wdogAt := now,
           freeze := some f, roleChange := none }

/-- A table with the entries of some keys replaced. -/
def mapSwap {α : Type} (m new : SMap α) (mine : Nat → Bool) : SMap α := new.foldl (fun m e => mapPut m e.1 e.2) (m.filter fun e => !mine e.1)

/-- The image back in its places: same tower, die, quad, IU and handle; every stamp of the partition's memory, and of host and peer lines, is (SYS, none) (R135, R384). -/
def State.restore (s : State) (k : Nat) (p : Part) (img : Image) (f : Freeze) : State :=
  let s := s.flushPart p
  let tile (o : TileOp) : TileOp := { o with part := k }
  let cmd (c : Cmd) : Cmd := { c with part := k }
  let gone (key : Nat) : Bool := (mapFind s.live key).any fun l => l.part = k
  { s with
    mem := memWriteAll (s.mem.filter fun c => !p.owns c.1) img.mem,
    poison := mapSwap s.poison img.poison fun l => p.owns (l * 128), stamps := s.stamps.filter fun e => (mapTower (e.1 * 128)).any fun t => !p.towers.contains t,
    l2 := s.l2.filter fun e => !p.ownsDie (e.1 % 32), peer := s.peer.filter fun e => !p.ownsDie (e.1 % 32), hovs := s.hovs.filter fun e => !p.ownsDie (e.1 % 32), tcache := s.tcache.filter fun t => !p.ownsClu t.cluster, wcache := s.wcache.filter fun w => !p.ownsDie w.die,
    held := s.held.filter fun e => !gone e.1, tags := s.tags.filter fun e => !gone (e.1 / 8), traps := mapSwap s.traps img.traps gone, fences := mapSwap s.fences img.fences gone,
    toks := mapSwap s.toks img.toks fun t => gone (t / 8), timers := mapSwap s.timers img.timers gone,
    live := mapSwap s.live (mapMap img.live fun _ l => { l with part := k }) gone,
    handles := mapSwap s.handles img.handles fun h => p.ownsQuad (h / 1024),
    tes := mapSwap s.tes (mapMap img.tes fun _ t => { t with subq := t.subq.map fun q => q.map tile }) p.ownsQuad,
    gregs := mapSwap s.gregs img.gregs fun r => p.ownsIu (r / 8),
    ius := mapSwap s.ius img.iuDeq p.ownsIu,
    rlcs := mapSwap s.rlcs (mapMap img.rlcs fun _ r => { r with queue := r.queue.map cmd, run := r.run.map cmd }) p.ownsClu,
    dies := img.cycs.foldl (fun m e => mapUpd m e.1 dieReset fun d => { d with cycBase := e.2, timeBase := s.now }) s.dies,
    parts := mapPut s.parts k (p.restored img.part f s.now) }

/-- THAW: the request is checked; memory and every item of the image go back. One that meets a role change waits for its end (R379, R384, R390). -/
def execThaw (r : FreezeReq) (cb : Nat) (s : State) : Host.Outcome State Fault Refusal :=
  if r.origin != .bmc && (s.part r.part).any (·.roleChange.isSome) then .next (s.emitFirst (.thaw r cb))
  else .next (s.freezeRequest r cb fun p s =>
    let k := r.part
    if s.cbBad p cb 2 then s.cbRefuse k cb sqBadcb
    else if p.freeze.any fun f => !f.frozen || f.thaw || f.scrub then s.cbRefuse k cb sqBusy
    else
      match s.imageAt (s.cbN cb 8 8) with
      | none => s.cbRefuse k cb sqThawimg
      | some (n, img) =>
        if s.cbN cb 0x10 8 < img.bytes.length then s.cbRefuse k cb sqNospace
        else if p.towers != img.towers || p.roles != img.roles then s.cbRefuse k cb sqThawmap
        else if p.liveWork then s.cbRefuse k cb sqThawlive
        else
          let f : Freeze := { thaw := true, cb, num := n, base := s.cbN cb 8 8, step := 0, frozen := true, urgent := false, scrub := false, uwin := 0, upool := 0, keep := [],
                              treq := s.reft, tfreeze := img.tfreeze }
          let s := s.cbWrite k cb sqAccepted 0 (some s.reft) none none none none none
          (s.restore k p img f).emit .thawed)

/-- THAWED: TFREEZE and TJUMP are written and work resumes (R349, R384, R385). -/
def execThawed (s : State) : Host.Outcome State Fault Refusal :=
  match s.parts.findSome? fun e => e.2.freeze.bind fun f => if f.thaw then some (e.1, f) else none with
  | none => .next s
  | some (k, f) =>
    let img := mapFind s.images f.num
    let s := s.cbWrite k f.cb sqThawed 0 (some f.treq) (some s.reft) (img.map (·.bytes.length)) (some f.tfreeze) (some (s.reft - f.tfreeze)) (img.map (·.digest.toNat))
    let s := s.modPart k fun p => { p with freeze := none }
    let s : State := match s.part k with
      | some p => (s.ius.filter fun e => p.ownsIu e.1).foldl (fun s e => s.dqKeep k e.1 fun t => (mapFind p.launches t.launch).isSome) s
      | none => s
    let s := (s.timers.filter fun e => s.partOf e.1 = k).foldl (fun s e => s.emitOnce (.timerWake e.1)) s
    .next (s.wakePart k)

end Sys2Proof.Machine
end

