-- ==== Sys2Proof/Machine/Errors.lean ====
section
/-! DEFINITION. Errors: corrected and uncorrectable, a memory side that goes down, a die that rejoins (R91 to R94). -/

namespace Sys2Proof.Machine

/-- ECC_CORRECTED: counted in the black box, and at the stack's engine for HBM (R29, R91). -/
def execEccCorrected (pa : Nat) (s : State) : Host.Outcome State Fault Refusal :=
  let d := s.serveDie pa
  let s := { s with dies := mapUpd s.dies d dieReset fun x => { x with corrected := x.corrected + 1 } }
  let s := match s.region pa with
    | .hbm t => { s with bdes := mapUpd s.bdes (2 * t + pa % 2 ^ 37 / 2 ^ 36) bdeReset fun b => { b with errcnt := setF b.errcnt 0 32 (getF b.errcnt 0 32 + 1) } }
    | _ => s
  .next (s.bb d 1 (s.bbPart pa) [pa, mapRow pa])

/-- UNCORRECTABLE_ERROR (R91). -/
def execUncorrectableError (pa : Nat) (s : State) : Host.Outcome State Fault Refusal := .next (s.poisonLine (lineOf pa))

/-- What a die's former incarnation sent or was sent and has not arrived is discarded, its non-temporal writes with it; the acknowledgements and recalls it owes count as received, so their messages stay (R93, R94). -/
def State.dropOld (s : State) (die : Nat) : State :=
  let old (k : Nat) : Bool := (mapFind s.stores k).any fun p => p.pos.inst 4 == some die
  let gone : Instr → Bool
    | .gets _ d => d = die | .geto _ d => d = die | .upg _ d => d = die | .puto _ d => d = die | .adds _ d => d = die
    | .datas _ d => d = die | .datao _ d => d = die | .wrnt k => old k | _ => false
  let sent : List Nat := s.agenda.filterMap fun i => match i with | .wrnt k => if old k then some k else none | _ => none
  { s with agenda := s.agenda.filter fun i => !gone i, stores := sent.foldl mapErase s.stores }
/-- The entry of a line forgets a die: its sharer bit and its requests go, one that is being served granting nothing to it (a recall for its shared copy leaves the owner's); a line it owns is UNC with home memory poisoned, one that its recall waits for is poisoned (R94). -/
def State.purgeLine (s : State) (die line : Nat) : State :=
  let e := { s.dirE line with queue := (s.dirE line).queue.filter fun r => r.die? != some die }
  let serving := if (e.serving.bind Req.die?) = some die then (match e.serving with | some (.gets _) => if e.owned && e.owner != die then some (Req.gets e.owner) else none | _ => none) else e.serving
  let e := { e with serving, sharers := if e.snoop then e.sharers &&& ~~~dieBit die else e.sharers }
  if e.owned && e.owner = die then
    (if e.st = .own then s.setDir line { e with st := .unc, owner := 0, sharers := 0 } else s.setDir line e).poisonLine line
  else if e.st = .shd then
    let sharers := e.sharers &&& ~~~dieBit die
    s.setDir line { e with sharers, st := if sharers = 0 then .unc else .shd }
  else s.setDir line e
/-- The homes purge every entry that names a die, and its own caches start empty (R94). -/
def State.purgeDie (s : State) (die : Nat) : State :=
  let s := s.dropOld die
  let named : List Nat := (s.dir.filter fun e => e.2.sharers.getLsbD die || (e.2.owned && e.2.owner = die) || (e.2.serving.toList ++ e.2.queue).any fun r => r.die? == some die).map fun e => e.1
  let s := named.foldl (fun s l => s.purgeLine die l) s
  { s with l2 := s.l2.filter fun e => e.1 % 32 != die, l1 := s.l1.filter fun c => dieOfIu c.iu != die, peer := s.peer.filter fun e => e.1 % 32 != die,
           hovs := s.hovs.filter fun e => e.1 % 32 != die, flc := s.flc.map fun e => (e.1, { e.2 with vec := e.2.vec &&& ~~~dieBit die }) }

/-- A memory side goes down: what it owned is lost where a recall comes to find no data (R93). -/
def State.sideDown (s : State) (die : Nat) : State :=
  let s := { s with dies := mapUpd s.dies die dieReset fun d => { d with down := true } }
  if die % 4 = 0 then (rangeFrom (die / 2) 2).foldl (fun s n => { s with bdes := mapUpd s.bdes n bdeReset fun b => { b with live := false } }) s else s

/-- MEMORY_SIDE_DOWN (R93): from here on the acknowledgements and recalls it owes count as received. -/
def execMemorySideDown (die : Nat) (s : State) : Host.Outcome State Fault Refusal := .next (s.sideDown die)

/-- REJOIN: a new incarnation, once every home has purged the old one (R94). -/
def execRejoin (die : Nat) (s : State) : Host.Outcome State Fault Refusal :=
  let s := s.purgeDie die
  let s := { s with dies := mapUpd s.dies die dieReset fun d => { d with down := false, incarn := d.incarn + 1 } }
  let s := if die % 4 = 0 then (rangeFrom (die / 2) 2).foldl (fun s n => { s with bdes := mapUpd s.bdes n bdeReset fun b => { b with live := true } }) s else s
  .next (match s.partOfTower (towerOfDie die) with | some k => s.wakePart k | none => s)

end Sys2Proof.Machine
end

