-- ==== Sys2Proof/Machine/Integer.lean ====
section
/-! DEFINITION. Integer register forms, immediates, constants, lanes, bit fields, selection, comparison and predicate logic (R209 to R224, R228, R229). -/

namespace Sys2Proof.Machine

/-! ### Lane arithmetic (R214 to R216) -/

/-- Bits of a number in the opposite order. -/
def bitRev : Nat → Nat → Nat
  | 0, _ => 0
  | n + 1, v => (v % 2) * 2 ^ n + bitRev n (v / 2)

/-- One bits of a number. -/
def popCount : Nat → Nat → Nat
  | 0, _ => 0
  | n + 1, v => v % 2 + popCount n (v / 2)

def opAdd (w a b : Nat) : Nat := (a + b) % 2 ^ w
def opMulh (w a b : Nat) : Nat := wrapInt w (signedNat w a * signedNat w b / (2 ^ w : Nat))
def opMulhu (w a b : Nat) : Nat := a * b / 2 ^ w
def opDiv (w a b : Nat) : Nat := if b = 0 then 2 ^ w - 1 else wrapInt w ((signedNat w a).tdiv (signedNat w b))
def opRem (w a b : Nat) : Nat := if b = 0 then a else wrapInt w ((signedNat w a).tmod (signedNat w b))
def opDivu (w a b : Nat) : Nat := if b = 0 then 2 ^ w - 1 else a / b
def opRemu (_w a b : Nat) : Nat := if b = 0 then a else a % b
def opShl (w a b : Nat) : Nat := a <<< (b % w) % 2 ^ w
def opShr (w a b : Nat) : Nat := a >>> (b % w)
def opSar (w a b : Nat) : Nat := wrapInt w (signedNat w a / (2 ^ (b % w) : Nat))
def opRol (w a b : Nat) : Nat := (a <<< (b % w) % 2 ^ w) ||| (a >>> (w - b % w))
def opMin (w a b : Nat) : Nat := if signedNat w a ≤ signedNat w b then a else b
def opMax (w a b : Nat) : Nat := if signedNat w a ≥ signedNat w b then a else b
def opAbs (w a : Nat) : Nat := wrapInt w (signedNat w a).natAbs
def opClz (w a : Nat) : Nat := if a = 0 then w else w - 1 - a.log2

/-- A lane-wise form of two registers and fixed latency `L` (R209, R214). -/
def State.lanes2 (s : State) (i : Instr) (h : Hdr) (sh : Sh) (L : Nat) (d a b : Reg) (f : Nat → Nat → Nat → Nat) : Host.Outcome State Fault Refusal :=
  s.run i (shape h [a, b] [d]) fun e s => s.lanes e h.s L (shW sh) (shN sh) d fun k => (f (shW sh) (lane (shW sh) (e.x a) k) (lane (shW sh) (e.y b) k), 0)

/-- A checking form: `f` gives the exact signed result, wrapped, with IOVF where it lies outside the lane (R215). -/
def State.lanesCk (s : State) (i : Instr) (h : Hdr) (sh : Sh) (ck : Bool) (L : Nat) (d a b : Reg) (f : Int → Int → Int) : Host.Outcome State Fault Refusal :=
  s.run i (shape h [a, b] [d]) fun e s => s.lanes e h.s L (shW sh) (shN sh) d fun k =>
    let r := f (signedNat (shW sh) (lane (shW sh) (e.x a) k)) (signedNat (shW sh) (lane (shW sh) (e.y b) k))
    (wrapInt (shW sh) r, if ck && overflows (shW sh) r then flIo else 0)

/-- A lane-wise form of one register. -/
def State.lanes1 (s : State) (i : Instr) (h : Hdr) (sh : Sh) (d a : Reg) (f : Nat → Nat → Nat) : Host.Outcome State Fault Refusal :=
  s.run i (shape h [a] [d]) fun e s => s.lanes e h.s 8 (shW sh) (shN sh) d fun k => (f (shW sh) (lane (shW sh) (e.x a) k), 0)

/-- A lane-wise form of variable latency (R210, R216). -/
def State.lanesVar (s : State) (i : Instr) (h : Hdr) (sh : Sh) (d a b : Reg) (f : Nat → Nat → Nat → Nat) : Host.Outcome State Fault Refusal :=
  s.run i (shape h [a, b] [d]) fun e s => s.startLanes e h.s (shW sh) (shN sh) d fun k => (f (shW sh) (lane (shW sh) (e.x a) k) (lane (shW sh) (e.y b) k), 0)

/-- A lane-wise form with an immediate, taken modulo the lane (R218). -/
def State.lanesImm (s : State) (i : Instr) (h : Hdr) (sh : Sh) (d a : Reg) (imm : BitVec 10) (f : Nat → Nat → Nat → Nat) : Host.Outcome State Fault Refusal :=
  s.run i (shape h [a] [d]) fun e s => s.lanes e h.s 8 (shW sh) (shN sh) d fun k => (f (shW sh) (lane (shW sh) (e.x a) k) (wrapInt (shW sh) imm.toInt), 0)

/-! ### Register forms (R213 to R217) -/

/-- ADD: a + b (R214, R215). -/
def execAdd (h : Hdr) (sh : Sh) (ck : Bool) (d a b : Reg) (s : State) : Host.Outcome State Fault Refusal := s.lanesCk (.add h sh ck d a b) h sh ck 8 d a b (· + ·)
/-- SUB: a − b (R214, R215). -/
def execSub (h : Hdr) (sh : Sh) (ck : Bool) (d a b : Reg) (s : State) : Host.Outcome State Fault Refusal := s.lanesCk (.sub h sh ck d a b) h sh ck 8 d a b (· - ·)
/-- MUL: low half of a × b (R210, R214, R215). -/
def execMul (h : Hdr) (sh : Sh) (ck : Bool) (d a b : Reg) (s : State) : Host.Outcome State Fault Refusal := s.lanesCk (.mul h sh ck d a b) h sh ck 12 d a b (· * ·)
/-- MULH: high half, signed (R214). -/
def execMulh (h : Hdr) (sh : Sh) (d a b : Reg) (s : State) : Host.Outcome State Fault Refusal := s.lanes2 (.mulh h sh d a b) h sh 12 d a b opMulh
/-- MULHU: high half, unsigned (R214). -/
def execMulhu (h : Hdr) (sh : Sh) (d a b : Reg) (s : State) : Host.Outcome State Fault Refusal := s.lanes2 (.mulhu h sh d a b) h sh 12 d a b opMulhu
/-- DIV (R216). -/
def execDiv (h : Hdr) (sh : Sh) (d a b : Reg) (s : State) : Host.Outcome State Fault Refusal := s.lanesVar (.div h sh d a b) h sh d a b opDiv
/-- DIVU (R216). -/
def execDivu (h : Hdr) (sh : Sh) (d a b : Reg) (s : State) : Host.Outcome State Fault Refusal := s.lanesVar (.divu h sh d a b) h sh d a b opDivu
/-- REM (R216). -/
def execRem (h : Hdr) (sh : Sh) (d a b : Reg) (s : State) : Host.Outcome State Fault Refusal := s.lanesVar (.rem h sh d a b) h sh d a b opRem
/-- REMU (R216). -/
def execRemu (h : Hdr) (sh : Sh) (d a b : Reg) (s : State) : Host.Outcome State Fault Refusal := s.lanesVar (.remu h sh d a b) h sh d a b opRemu
/-- AND (R214). -/
def execAnd (h : Hdr) (sh : Sh) (d a b : Reg) (s : State) : Host.Outcome State Fault Refusal := s.lanes2 (.and h sh d a b) h sh 8 d a b fun _ x y => x &&& y
/-- OR (R214). -/
def execOr (h : Hdr) (sh : Sh) (d a b : Reg) (s : State) : Host.Outcome State Fault Refusal := s.lanes2 (.or h sh d a b) h sh 8 d a b fun _ x y => x ||| y
/-- XOR (R214). -/
def execXor (h : Hdr) (sh : Sh) (d a b : Reg) (s : State) : Host.Outcome State Fault Refusal := s.lanes2 (.xor h sh d a b) h sh 8 d a b fun _ x y => x ^^^ y
/-- SHL by b mod w (R214). -/
def execShl (h : Hdr) (sh : Sh) (d a b : Reg) (s : State) : Host.Outcome State Fault Refusal := s.lanes2 (.shl h sh d a b) h sh 8 d a b opShl
/-- SHR by b mod w (R214). -/
def execShr (h : Hdr) (sh : Sh) (d a b : Reg) (s : State) : Host.Outcome State Fault Refusal := s.lanes2 (.shr h sh d a b) h sh 8 d a b opShr
/-- SAR by b mod w (R214). -/
def execSar (h : Hdr) (sh : Sh) (d a b : Reg) (s : State) : Host.Outcome State Fault Refusal := s.lanes2 (.sar h sh d a b) h sh 8 d a b opSar
/-- ROL by b mod w (R214). -/
def execRol (h : Hdr) (sh : Sh) (d a b : Reg) (s : State) : Host.Outcome State Fault Refusal := s.lanes2 (.rol h sh d a b) h sh 8 d a b opRol
/-- MIN, signed (R214). -/
def execMin (h : Hdr) (sh : Sh) (d a b : Reg) (s : State) : Host.Outcome State Fault Refusal := s.lanes2 (.min h sh d a b) h sh 8 d a b opMin
/-- MAX, signed (R214). -/
def execMax (h : Hdr) (sh : Sh) (d a b : Reg) (s : State) : Host.Outcome State Fault Refusal := s.lanes2 (.max h sh d a b) h sh 8 d a b opMax
/-- MINU (R214). -/
def execMinu (h : Hdr) (sh : Sh) (d a b : Reg) (s : State) : Host.Outcome State Fault Refusal := s.lanes2 (.minu h sh d a b) h sh 8 d a b fun _ x y => min x y
/-- MAXU (R214). -/
def execMaxu (h : Hdr) (sh : Sh) (d a b : Reg) (s : State) : Host.Outcome State Fault Refusal := s.lanes2 (.maxu h sh d a b) h sh 8 d a b fun _ x y => max x y
/-- ABS; the most negative value is unchanged (R214). -/
def execAbs (h : Hdr) (sh : Sh) (d a : Reg) (s : State) : Host.Outcome State Fault Refusal := s.lanes1 (.abs h sh d a) h sh d a opAbs
/-- CLZ (R214). -/
def execClz (h : Hdr) (sh : Sh) (d a : Reg) (s : State) : Host.Outcome State Fault Refusal := s.lanes1 (.clz h sh d a) h sh d a opClz
/-- POPC (R214). -/
def execPopc (h : Hdr) (sh : Sh) (d a : Reg) (s : State) : Host.Outcome State Fault Refusal := s.lanes1 (.popc h sh d a) h sh d a fun w x => popCount w x
/-- BREV (R214). -/
def execBrev (h : Hdr) (sh : Sh) (d a : Reg) (s : State) : Host.Outcome State Fault Refusal := s.lanes1 (.brev h sh d a) h sh d a fun w x => bitRev w x
/-- MOV (R214). -/
def execMov (h : Hdr) (sh : Sh) (d a : Reg) (s : State) : Host.Outcome State Fault Refusal := s.lanes1 (.mov h sh d a) h sh d a fun _ x => x

def gZero : GReg := { val := 0, old := [] }
/-- Key of a g register of an IU. -/
def gKey (iu : Nat) (g : BitVec 3) : Nat := iu * 8 + g.toNat
def State.g (s : State) (iu : Nat) (g : BitVec 3) : GReg := mapGet s.gregs (gKey iu g) gZero
/-- The values that writes of the last 7 cycles replaced (R154). -/
def GReg.olds (r : GReg) (t : Nat) : List (Nat × Dword) := r.old.filter fun e => decide (t < e.1 + 8)
/-- The values that a read at a cycle may return: the last one written, or one that a write of the last 7 cycles replaced (R154). -/
def GReg.readable (r : GReg) (t : Nat) : List Dword := r.val :: (r.olds t).map (·.2)
/-- A read of a g register at a cycle: within 7 cycles of a write, an old value or the new one (R154, log 5). -/
def State.readG (s : State) (iu : Nat) (g : BitVec 3) (t : Nat) : Dword :=
  let vs := (s.g iu g).readable t
  vs.getD (Config.staleG s.tick % vs.length) (s.g iu g).val
/-- A g register written at a cycle (R154). -/
def GReg.write (r : GReg) (t : Nat) (v : Dword) : GReg := { val := v, old := r.olds t ++ [(t, r.val)] }

/-- MOV xd, gn (R214, R217). -/
def execMovXdGn (h : Hdr) (d : Reg) (g : BitVec 3) (s : State) : Host.Outcome State Fault Refusal :=
  s.run (.movXdGn h d g) (shape h [] [d]) fun e s => { s with tick := s.tick + 1 }.resultD e h.s 8 d (s.readG e.iu g e.t)
/-- MOV gn, xa (R154, R214, R217). -/
def execMovGnXa (h : Hdr) (g : BitVec 3) (a : Reg) (s : State) : Host.Outcome State Fault Refusal :=
  s.run (.movGnXa h g a) (shape h [a] []) fun e s =>
    ({ s with gregs := mapPut s.gregs (gKey e.iu g) ((s.g e.iu g).write e.t (e.xd a)) }).finish e h.s e.h

/-! ### Immediate and constant forms (R218, R219) -/

/-- ADDI (R218). -/
def execAddi (h : Hdr) (sh : Sh) (d a : Reg) (imm : BitVec 10) (s : State) : Host.Outcome State Fault Refusal := s.lanesImm (.addi h sh d a imm) h sh d a imm opAdd
/-- ANDI (R218). -/
def execAndi (h : Hdr) (sh : Sh) (d a : Reg) (imm : BitVec 10) (s : State) : Host.Outcome State Fault Refusal := s.lanesImm (.andi h sh d a imm) h sh d a imm fun _ x y => x &&& y
/-- ORI (R218). -/
def execOri (h : Hdr) (sh : Sh) (d a : Reg) (imm : BitVec 10) (s : State) : Host.Outcome State Fault Refusal := s.lanesImm (.ori h sh d a imm) h sh d a imm fun _ x y => x ||| y
/-- XORI (R218). -/
def execXori (h : Hdr) (sh : Sh) (d a : Reg) (imm : BitVec 10) (s : State) : Host.Outcome State Fault Refusal := s.lanesImm (.xori h sh d a imm) h sh d a imm fun _ x y => x ^^^ y
/-- SHLI (R218). -/
def execShli (h : Hdr) (sh : Sh) (d a : Reg) (imm : BitVec 10) (s : State) : Host.Outcome State Fault Refusal := s.lanesImm (.shli h sh d a imm) h sh d a imm opShl
/-- SHRI (R218). -/
def execShri (h : Hdr) (sh : Sh) (d a : Reg) (imm : BitVec 10) (s : State) : Host.Outcome State Fault Refusal := s.lanesImm (.shri h sh d a imm) h sh d a imm opShr
/-- SARI (R218). -/
def execSari (h : Hdr) (sh : Sh) (d a : Reg) (imm : BitVec 10) (s : State) : Host.Outcome State Fault Refusal := s.lanesImm (.sari h sh d a imm) h sh d a imm opSar
/-- MOVI: the immediate sign-extended (R219). -/
def execMovi (h : Hdr) (d : Reg) (imm : BitVec 16) (s : State) : Host.Outcome State Fault Refusal :=
  s.run (.movi h d imm) (shape h [] [d]) fun e s => s.resultD e h.s 8 d (imm.signExtend 64)
/-- MOVH: bits [63:32] of xd alone (R219). -/
def execMovh (h : Hdr) (d : Reg) (imm : BitVec 32) (s : State) : Host.Outcome State Fault Refusal :=
  s.run (.movh h d imm) { shape h [] [d] with words := 2 } fun e s => s.result e h.s 8 d 0x0F0 (xOfD (imm ++ (0 : BitVec 32)))

/-! ### Lanes and bit fields (R220, R221) -/

/-- LGET: lane K zero-extended; LM does not apply (R220). -/
def execLget (h : Hdr) (sh : Sh) (d a : Reg) (k : BitVec 4) (s : State) : Host.Outcome State Fault Refusal :=
  s.run (.lget h sh d a k) (shape h [a] [d]) fun e s => s.resultD e h.s 8 d (BitVec.ofNat 64 (lane (shW sh) (e.x a) k.toNat))
/-- LSET: lane K alone, where its mask bit is 1 (R220). -/
def execLset (h : Hdr) (sh : Sh) (d a : Reg) (k : BitVec 4) (s : State) : Host.Outcome State Fault Refusal :=
  s.run (.lset h sh d a k) (shape h [a] [d]) fun e s =>
    s.result e h.s 8 d (laneBytes (shW sh) (shN sh) (e.h.ctx.lm &&& BitVec.ofNat 12 (2 ^ k.toNat))) (packLanes (shW sh) (List.replicate (shN sh) (lane (shW sh) (e.x a) 0)))
/-- LSHUF: lane k of xb selects a lane of xa, 0 past the last (R220). -/
def execLshuf (h : Hdr) (sh : Sh) (d a b : Reg) (s : State) : Host.Outcome State Fault Refusal :=
  s.run (.lshuf h sh d a b) (shape h [a, b] [d]) fun e s => s.lanes e h.s 8 (shW sh) (shN sh) d fun k =>
    let i := lane (shW sh) (e.y b) k
    (if i < shN sh then lane (shW sh) (e.x a) i else 0, 0)
/-- LSPLAT: the low bits of xa in every lane (R220). -/
def execLsplat (h : Hdr) (sh : Sh) (d a : Reg) (s : State) : Host.Outcome State Fault Refusal :=
  s.run (.lsplat h sh d a) (shape h [a] [d]) fun e s => s.lanes e h.s 8 (shW sh) (shN sh) d fun _ => (lane (shW sh) (e.x a) 0, 0)

/-- BFX: a field of xa, zero- or sign-extended (R221). -/
def execBfx (h : Hdr) (sx : Bool) (d a : Reg) (pos lenm1 : BitVec 6) (s : State) : Host.Outcome State Fault Refusal :=
  s.run (.bfx h sx d a pos lenm1) (shape h [a] [d]) fun e s =>
    let len := lenm1.toNat + 1
    let f := getF (e.xd a) pos.toNat len
    s.resultD e h.s 8 d (if sx then BitVec.ofInt 64 (signedNat len f) else BitVec.ofNat 64 f)
/-- BFI: the low bits of xa into a field of xd, which it reads (R221). -/
def execBfi (h : Hdr) (d a : Reg) (pos lenm1 : BitVec 6) (s : State) : Host.Outcome State Fault Refusal :=
  s.run (.bfi h d a pos lenm1) (shape h [a, d] [d]) fun e s =>
    s.resultD e h.s 8 d (setF (e.yd d) pos.toNat (lenm1.toNat + 1) (e.xd a).toNat)

/-! ### Selection, comparison, predicates (R222 to R224, R228, R229) -/

/-- SEL: lanes of xa where the predicate XOR GN is 1, else of xb (R222). -/
def execSel (h : Hdr) (sh : Sh) (d a b : Reg) (gn : Bool) (p : Pred) (s : State) : Host.Outcome State Fault Refusal :=
  s.run (.sel h sh d a b gn p) (shape h [a, b] [d]) fun e s => s.lanes e h.s 8 (shW sh) (shN sh) d fun k =>
    (lane (shW sh) (if e.h.ctx.p p != gn then e.x a else e.y b) k, 0)

/-- CMP: the condition over the active lanes (R223). -/
def execCmp (h : Hdr) (sh : Sh) (any : Bool) (cc : Cond) (pd : Pred) (a b : Reg) (s : State) : Host.Outcome State Fault Refusal :=
  s.run (.cmp h sh any cc pd a b) (shape h [a, b] []) fun e s =>
    s.plain e h.s (·.setP pd (aggregate any ((activeLanes (shW sh) (shN sh) e.h.ctx.lm).map fun k =>
      condHolds cc (shW sh) (lane (shW sh) (e.x a) k) (lane (shW sh) (e.y b) k))))
/-- CMPI: a `.D` comparison with an immediate (R224). -/
def execCmpi (h : Hdr) (cc : Cond) (pd : Pred) (a : Reg) (imm : BitVec 10) (s : State) : Host.Outcome State Fault Refusal :=
  s.run (.cmpi h cc pd a imm) (shape h [a] []) fun e s =>
    s.plain e h.s (·.setP pd (condHolds cc 64 (e.xd a).toNat (wrapInt 64 imm.toInt)))

/-- A predicate written from two others (R228). -/
def State.predOp (s : State) (i : Instr) (h : Hdr) (pd pa pb : Pred) (f : Bool → Bool → Bool) : Host.Outcome State Fault Refusal :=
  s.run i (shape h [] []) fun e s => s.plain e h.s (·.setP pd (f (e.h.ctx.p pa) (e.h.ctx.p pb)))

/-- PAND (R228). -/
def execPand (h : Hdr) (pd pa pb : Pred) (s : State) : Host.Outcome State Fault Refusal := s.predOp (.pand h pd pa pb) h pd pa pb fun x y => x && y
/-- POR (R228). -/
def execPor (h : Hdr) (pd pa pb : Pred) (s : State) : Host.Outcome State Fault Refusal := s.predOp (.por h pd pa pb) h pd pa pb fun x y => x || y
/-- PXOR (R228). -/
def execPxor (h : Hdr) (pd pa pb : Pred) (s : State) : Host.Outcome State Fault Refusal := s.predOp (.pxor h pd pa pb) h pd pa pb fun x y => x != y
/-- PNOT (R228). -/
def execPnot (h : Hdr) (pd pa : Pred) (s : State) : Host.Outcome State Fault Refusal := s.predOp (.pnot h pd pa) h pd pa pa fun x _ => !x

/-- PRED as software reads it: bit 0 is 1, bits [31:27] are 0 (R97). -/
def predRead (p : Word) : Word := (p &&& 0x07FF_FFFF#32) ||| 1#32

/-- PMASK: PRED and xa exchanged as one step (R229). -/
def execPmask (h : Hdr) (a : Reg) (s : State) : Host.Outcome State Fault Refusal :=
  s.run (.pmask h a) (shape h [a] [a]) fun e s =>
    s.finish e h.s ({ e.h with ctx := { e.h.ctx with pred := predRead ((e.xd a).setWidth 32) } }.write e.t 8 a
      (xSetD (xget e.h.ctx.x a) ((predRead e.h.ctx.pred).setWidth 64)))

end Sys2Proof.Machine
end

