-- ==== Sys2Proof/Machine/Power.lean ====
section
/-! DEFINITION. Clocks, power and temperature, links and their ports, the firmware watchdog (R16, R17, R386 to R395, R401). -/

namespace Sys2Proof.Machine

/-! ### Clock settings (R16, R391) -/

/-- Settings of a die, rising, in units of 0.05 GHz (R16). -/
def State.settings (s : State) (die : Nat) : List Nat :=
  if s.freqCap die = 27 then ((List.range 8).map fun i => 12 + 2 * i) ++ [27] else (List.range 13).map fun i => 12 + 2 * i
/-- The greatest setting not above a value (R335). -/
def State.settingBelow (s : State) (die v : Nat) : Nat := ((s.settings die).filter (· ≤ v)).getLast?.getD 12
/-- One step from a setting toward another (R391). -/
def State.stepToward (s : State) (die v w : Nat) : Nat :=
  if v < w then ((s.settings die).find? (v < ·)).getD v else if w < v then ((s.settings die).filter (· < v)).getLast?.getD v else v
/-- The cap that a role change past its flush brings a die that keeps its role to: the settings of the two maps agree up to 1.3 GHz (R16, R18). -/
def State.capToCome (s : State) (die : Nat) : Nat :=
  match ((s.partOfTower (towerOfDie die)).bind s.part).bind (·.roleChange) with
  | some rc =>
    match rc.maps.find? fun m => m.1 = towerOfDie die with
    | some m => if rc.step ≥ 4 && (m.2 == .cccc) != (s.roleOf (towerOfDie die) == some .cccc) then 26 else 36
    | none => 36
  | none => 36
/-- REQ of a die's partition. -/
def State.reqOf (s : State) (die : Nat) : Nat := (((s.partOfTower (towerOfDie die)).bind s.part).map (·.freqReq)).getD 36
/-- What REQ and CAP ask of a die (R335, R393). -/
def State.wantFreq (s : State) (die : Nat) : Nat := s.settingBelow die (min (s.reqOf die) (min (s.freqCap die) (s.capToCome die)))

def State.modDie (s : State) (d : Nat) (f : Die → Die) : State := { s with dies := mapUpd s.dies d dieReset f }

/-- A relock lasts 1.5 µs, and steps are 0.5 µs apart, in ns (R391). -/
def relockNs : Nat := 1500
def stepGapNs : Nat := 500

/-- CLOCK_STEP: one step toward a setting begins; the die's cycles stand still (R391, R392). -/
def State.clockStep (s : State) (d target : Nat) : State :=
  let c := s.cyc d
  (s.modDie d fun x => { x with cycBase := c, timeBase := s.now, relock := some (s.stepToward d x.cur target), target, stepAt := s.now + relockNs * Config.ticksPerNs }).emit (.relockEnd d)

/-- A clock that runs, or is on its way, above what a role change allows goes down by single steps; the step under way is finished first (R16, R391). -/
def State.slowDown (s : State) (d : Nat) : State :=
  let f := s.wantFreq d
  let x := s.die d
  if x.cur ≤ f && x.target ≤ f then s
  else if x.relock.isSome || x.cur != x.target then s.modDie d fun x => { x with target := min x.target f }
  else s.clockStep d f
/-- Whether a die has come to it. -/
def State.slowed (s : State) (d : Nat) : Bool := (s.die d).relock.isNone && decide ((s.die d).cur ≤ s.wantFreq d)

/-- RELOCK_END (R391). -/
def execRelockEnd (d : Nat) (s : State) : Host.Outcome State Fault Refusal :=
  match (s.die d).relock with
  | none => .next s
  | some c =>
    if s.now < (s.die d).stepAt then .next (s.emit (.relockEnd d))
    else
      let s := s.modDie d fun x => { x with cur := c, timeBase := s.now, relock := none, stepAt := s.now + stepGapNs * Config.ticksPerNs }
      let s := (s.tes.filter fun e => e.1 / 32 = d).foldl (fun s e => s.emitOnce (.tileStart e.1)) s
      .next (if c != (s.die d).target then s.emit (.consecutiveClockStep d) else s)

/-- CONSECUTIVE_CLOCK_STEP (R391). -/
def execConsecutiveClockStep (d : Nat) (s : State) : Host.Outcome State Fault Refusal :=
  let x := s.die d
  if x.relock.isSome || x.cur = x.target then .next s
  else if s.now < x.stepAt then .next (s.emit (.consecutiveClockStep d))
  else .next (s.clockStep d x.target)

/-! ### The power manager (R393 to R395) -/

/-- An IU is clock-gated (R394). -/
def State.gated (s : State) (iu : Nat) : Bool :=
  !(s.held.any fun e => match e.2.place with
    | .slot n => n / 16 = iu && (e.2.ctx.state = stReady || e.2.ctx.state = stWaiting)
    | .cl2 c => c = iu / 8 && e.2.ctx.state = stReady
    | .moving .. => false)

/-- Watts a C die may take (R16). -/
def State.allowance (s : State) (d : Nat) : Nat := match s.roleOf (towerOfDie d) with | some .cccc => 337 | _ => 430
/-- Watts of a tower, and of the module, as firmware may set them at most (R17, R397, R398). -/
def State.towerBudget (s : State) (d : Nat) : Nat := min 1350 (getF (s.fw d).plim 16 16)
def State.moduleBudget (s : State) (d : Nat) : Nat := min 8400 (getF (s.fw d).plim 0 16)
/-- Watts that the module draws beside its dies (R17). -/
def restPower : Nat := 300

/-- A die that holds a context of a team one of whose barriers has ARRIVED > 0 (R142, R394). -/
def State.laggard (s : State) (d : Nat) : Bool :=
  s.held.any fun e =>
    let k := s.partOf e.1
    s.holderDie e.1 == some d && (s.teamPa none k (s.asidOf k e.2.ctx.launch) e.2.ctx.link).any fun pa => (List.range 4).any fun n => decide (s.readN (pa + 0x44 + 16 * n) 4 > 0)
/-- Watts of its allowance that a die leaves unused where an IU of it is gated (R394). -/
def State.spare (s : State) (d : Nat) : Nat :=
  if (rangeFrom (128 * d) 128).any s.gated then min (Config.unusedPower s.tick d) (s.allowance d - Config.diePower s.tick d) else 0
/-- What a die is lent of what its tower leaves unused: the C dies that run below REQ take what they lack, those with barrier laggards first (R394). -/
def State.lent (s : State) (d : Nat) : Nat :=
  let ds := (rangeFrom (4 * towerOfDie d) 4).filter s.isC
  let below := ds.filter fun o => decide ((s.die o).cur < s.reqOf o)
  ((below.filter s.laggard ++ below.filter fun o => !s.laggard o).foldl (fun (r : Nat × Nat) o =>
    let g := min (Config.diePower s.tick o - s.allowance o) r.1
    (r.1 - g, if o = d then g else r.2)) (ds.foldl (fun w o => w + s.spare o) 0, 0)).2

/-- A die draws too much: more than its allowance and what it is lent, or its tower or the module more than its budget (R17, R393, R394, R398). -/
def State.overPower (s : State) (d : Nat) : Bool :=
  let sum (ds : List Nat) : Nat := ds.foldl (fun w o => w + Config.diePower s.tick o) 0
  decide (Config.diePower s.tick d > s.allowance d + s.lent d) || decide (sum (rangeFrom (4 * towerOfDie d) 4) > s.towerBudget d) ||
  decide (sum (List.range 24) + restPower > s.moduleBudget d)

/-- Degrees at which a die is stepped down, stops being so, and at which the module shuts down (R395). -/
def hotAt : Nat := 105
def coolBelow : Nat := 100
def shutAt : Nat := 115

/-- The decision of a sample (R393, R395). -/
def State.decide_ (s : State) (d : Nat) : State :=
  let x := s.die d
  let temp := Config.dieTemp s.tick d
  let heat := if temp ≥ hotAt || (x.heat = 1 && decide (temp ≥ coolBelow)) then 1 else if x.heat != 0 && x.cur < s.wantFreq d then 2 else 0
  let much := s.overPower d
  let s := { s with tick := s.tick + 1 }.modDie d fun x => { x with temp, heat }
  let want := s.wantFreq d
  let down := s.stepToward d x.cur 0
  let k := (s.partOfTower (towerOfDie d)).getD 255
  let s := if temp ≥ shutAt then s.emit (.thermalShutdown d) else s
  if x.relock.isSome || x.cur != x.target then s
  else if heat = 1 then (if down = x.cur then s else (s.bb d 6 k [temp, down]).clockStep d down)
  else if much then (if down = x.cur then s else s.clockStep d down)
  else if heat = 2 then (s.bb d 6 k [temp, s.stepToward d x.cur want]).clockStep d (s.stepToward d x.cur want)
  else if x.cur != want then s.clockStep d want
  else s

/-- A sample of a die in M role, whose clock is fixed: its temperature, and the shutdown (R395, R396). -/
def State.warmth (s : State) (d : Nat) : State :=
  let temp := Config.dieTemp s.tick d
  let s := { s with tick := s.tick + 1 }.modDie d fun x => { x with temp }
  if temp ≥ shutAt then s.emit (.thermalShutdown d) else s

/-- POWER_SAMPLE: one at each sample's moment, for as long as a partition has the die (R393, R395). -/
def execPowerSample (d : Nat) (s : State) : Host.Outcome State Fault Refusal :=
  if !(s.isC d || s.isM d) then .next s
  else
    let s' := s.emitOnce (.powerSample d)
    if s.sampleNow ≤ (s.die d).sampled then .next s'
    else
      let s := s'.modDie d fun x => { x with sampled := x.sampled + 1 }
      .next (if s.isC d then s.decide_ d else s.warmth d)

/-- THERMAL_SHUTDOWN: every partition ends as if its towers had gone offline (R93, R395). -/
def execThermalShutdown (d : Nat) (s : State) : Host.Outcome State Fault Refusal :=
  let s := s.bb d 6 ((s.partOfTower (towerOfDie d)).getD 255) [(s.die d).temp, (s.die d).cur]
  .next ((List.range 24).foldl (fun s d => s.sideDown d) s)

/-- HBM_THROTTLE: THROT follows the stack's temperature (R30, R395). -/
def execHbmThrottle (n temp : Nat) (s : State) : Host.Outcome State Fault Refusal :=
  .next { s with bdes := mapUpd s.bdes n bdeReset fun b => { b with temp, throt := decide (temp ≥ 95) } }

/-! ### Links (R386 to R389) -/

/-- LINK_TRAINING: x16 and x8 carry CXL.mem; a narrower link trains to CXL.io only (R387). -/
def execLinkTraining (port width : Nat) (s : State) : Host.Outcome State Fault Refusal :=
  let w := if width ≥ 16 then 16 else width
  .next { s with ports := mapPut s.ports port { up := decide (w ≥ 8), width := w } }

/-- The port of a peer access of a partition. -/
def State.peerPort (s : State) (k pa : Nat) : Option Nat := match s.region pa with | .peer n => (s.part k).bind fun p => p.routes.getD n none | _ => none

/-- The die at which a port is attached (R386). -/
def portDie (port : Nat) : Nat := match port with | 0 => 0 | 1 => 20 | p => 4 * (p - 1)

/-- PORT_DOWN: its peers are silent for accesses in flight, which end at their 2 ms (R388, R389). -/
def execPortDown (port : Nat) (s : State) : Host.Outcome State Fault Refusal :=
  let s := ({ s with tick := s.tick + 1, ports := mapPut s.ports port { s.port port with up := false } } : State).bb (portDie port) 7 255 [port, Config.errClass s.tick]
  let lost : List Nat :=
    ((s.ops.filter fun e => e.2.kind.segs.any fun g => s.peerPort (s.partOf e.2.key) g.1 = some port).map fun e => e.1) ++
    ((s.stores.filter fun e => e.2.bytes.any fun b => s.peerPort e.2.part b.1 = some port).map fun e => e.1)
  .next (lost.foldl (fun s k => s.awaitPeer k) s)

end Sys2Proof.Machine
end

