-- ==== Sys2Proof/Machine/Mgmt.lean ====
section
/-! DEFINITION. Management: partitions made and ended, role changes, black-box reads, firmware updates and patches, the watchdog, resets (R16 to R19, R27, R32, R50, R339, R390, R397 to R404, R406). -/

namespace Sys2Proof.Machine

/-! ### CREATE (R390) -/

/-- Near memory of a tower under a map: base and size (R16, R28). -/
def nmRange (t : Nat) (r : RoleMap) : Nat × Nat := (0x100_0000_0000 + t * 2 ^ 30, mLayers r * 0xB00_0000)

/-- A window that R32 admits: 64 KiB of the partition's HBM outside its far-line caches. -/
def winOk (towers : List Nat) (gib pa : Nat) : Bool :=
  pa % 2 ^ 16 = 0 && decide (pa < 0xC0_0000_0000) && decide (pa % 2 ^ 36 + 2 ^ 16 ≤ stackBytes) && towers.contains (pa / 2 ^ 37) &&
  !(towers.any fun t => decide (pa < t * 2 ^ 37 + 2 ^ 36 + stackBytes ∧ flcBase t gib < pa + 2 ^ 16))

/-- A request that cannot be served as it stands (log 44). -/
def State.createBad (s : State) (r : CreateReq) : Bool :=
  r.towers.isEmpty || !r.towers.Nodup || r.towers.any (fun t => decide (t > 5) || (s.partOfTower t).isSome) || r.roles.map (·.1) != r.towers ||
  !(r.towers.Pairwise (· < ·)) || decide (r.flcGib > 16) || decide (r.windows.length > 64) || !(r.windows.map (·.1)).Nodup || r.windows.any (fun w => !winOk r.towers r.flcGib w.1) ||
  r.routes.length != 16 || r.routes.any (fun q => match q with | some p => decide (p < 2 ∨ p > 5) | none => false)

/-- Links that are divided into slots: seven between towers, two host links (R6, R404). -/
def linkCount : Nat := 9

/-- Slots of a link's frame (R404). -/
def frameSlots : Nat := 64
/-- The slots of a link that no partition owns. -/
def State.freeSlots (s : State) (link : Nat) : List Nat := (List.range frameSlots).filter fun i => !(s.parts.any fun e => e.2.slots.any fun l => l.1 = link && l.2.contains i)
/-- A partition's slots of a link: its share by the towers it holds, rounded down or up, of those that no other owns (R404, log 24). -/
def State.slotShare (s : State) (link towers : Nat) : List Nat :=
  let free := s.freeSlots link
  let n := frameSlots * towers / 6 + if frameSlots * towers % 6 = 0 then 0 else Config.linkSlots s.tick link % 2
  let at_ := Config.linkSlots (s.tick + 1) link % max 1 free.length
  (free.drop at_ ++ free.take at_).take n
/-- The slots as a word with a bit for each. -/
def slotWord (l : List Nat) : Nat := ((List.range frameSlots).filter l.contains).foldl (fun v i => v + 2 ^ i) 0

/-- A new partition: every control register at its reset (R27, R32, R335, R390). -/
def newPart (r : CreateReq) (slots : List (Nat × List Nat)) (now : Nat) : Part :=
  { towers := r.towers, roles := r.roles.map fun e => (e.1, e.2.getD .mccc), flcGib := r.flcGib, windows := r.windows.map fun w => ⟨w.1, w.2⟩, routes := r.routes, slots,
    cl1lim := 16, rsvslot := 0, lease := 512, chkstall := 0, scopemissen := 0, ctxpool := 0, trapvec := 0, freqReq := 36, wdog := 0, wdogAt := 0, created := now,
    launches := [], poolWait := [], returns := [], roleChange := none, freeze := none }

/-- A range of memory is zeroed, with its poison. -/
def State.zero (s : State) (base size : Nat) : State :=
  { s with mem := s.mem.filter fun c => !(decide (base ≤ c.1) && decide (c.1 < base + size)), poison := s.poison.filter fun e => !(decide (base ≤ e.1 * 128) && decide (e.1 * 128 < base + size)) }

/-- The clock of a die at a setting, its count of cycles going on from `c` (R335, R392). -/
def State.setClock (s : State) (d c : Nat) : State :=
  let f := s.wantFreq d
  s.modDie d fun x => { x with cur := f, target := f, relock := none, cycBase := c, timeBase := s.now, sampled := s.sampleNow, heat := 0 }

/-- What CREATE makes of an admitted request: near memory and the address-space table zeroed, window headers, stamps, link slots, clocks (R11, R50, R123, R335, R339, R404). -/
def State.createPart (s : State) (k : Nat) (r : CreateReq) : State :=
  let slots := (List.range linkCount).map fun i => (i, s.slotShare i r.towers.length)
  let p := newPart r slots s.now
  let s := { s with tick := s.tick + 2, parts := mapPut s.parts k p }
  let s := p.roles.foldl (fun s e => s.zero (nmRange e.1 e.2).1 (nmRange e.1 e.2).2) (s.zero p.asTable 0x8000)
  let s := { s with stamps := s.stamps.filter fun e => !p.owns (e.1 * 128) }
  let s := p.windows.foldl (fun s w => s.hwWrite w.pa ([0, 0, 1, 0] ++ List.replicate 252 0)) s
  let s := { s with bdes := mapMap s.bdes fun n b => if p.towers.contains (n / 2) then { b with cmdcnt := 0 } else b }
  ((List.range 24).filter p.ownsDie).foldl (fun s d => (s.setClock d 0).startSampling d) s

/-! ### The window table (R32, R402) -/

/-- An entry that no update has touched; the text gives no first value of SEQ (log 50). -/
def seqEmpty : SeqBlock := { seq := 0, shadow := [], block := [], tag := 0 }
/-- A partition number's entry of the window table. -/
def State.wentry (s : State) (k : Nat) : SeqBlock := mapGet s.wtab k seqEmpty
/-- An update is in progress (R402). -/
def SeqBlock.odd (b : SeqBlock) : Bool := b.seq.getLsbD 0
/-- The first half of an update: the block to its shadow, SEQ odd with a release, then the new contents (R402). -/
def State.seqOpen (s : State) (k : Nat) (new : List Window) (tag : BitVec 16) : State :=
  { s with wtab := mapPut s.wtab k { seq := (s.wentry k).seq + 1, shadow := (s.wentry k).block, block := new, tag } }
/-- The second half: SEQ even with a release. -/
def State.seqClose (s : State) (k : Nat) : State := { s with wtab := mapPut s.wtab k { s.wentry k with seq := (s.wentry k).seq + 1 } }
/-- What a restarted Relnos does where it finds SEQ odd: the old contents come back from the shadow (R402). -/
def SeqBlock.restored (b : SeqBlock) : SeqBlock := if b.odd then { b with seq := b.seq + 1, block := b.shadow } else b

/-- The number a CREATE is given: the one whose window-table entry it has opened, else the lowest that no partition holds (R390, R402). -/
def State.createNumber (s : State) (tag : BitVec 16) : Nat :=
  match (List.range 6).find? fun k => (s.part k).isNone && (s.wentry k).odd && (s.wentry k).tag == tag with
  | some k => k
  | none => ((List.range 6).find? fun k => (s.part k).isNone).getD 0

/-- CREATE: the partition's windows go into the window table through SEQ, in two happenings; with the second the partition is there (R390, R402). -/
def execCreate (o : Origin) (r : CreateReq) (s : State) : Host.Outcome State Fault Refusal :=
  if o = .bmc then .next (s.respond r.tag rsBadreq)
  else if r.roles.any (·.2.isNone) then .next (s.respond r.tag rsRolemap)
  else if s.createBad r then .next (s.respond r.tag rsBadreq)
  else
    let k := s.createNumber r.tag
    let w := s.wentry k
    if !w.odd then .next ((s.seqOpen k (r.windows.map fun w => ⟨w.1, w.2⟩) r.tag).emit (.create o r))
    else if w.tag != r.tag then .next (s.emit (.create o r))
    else
    let s := (s.createPart k r).seqClose k
    match s.part k with
    | none => .next s
    | some p => .next (s.respond r.tag rsOk ([k, p.asTable] ++ p.roles.flatMap (fun e => [(nmRange e.1 e.2).1, (nmRange e.1 e.2).2]) ++ p.slots.map fun l => slotWord l.2))

/-! ### DESTROY (R390, R406) -/

/-- Every trace of a partition beside its memory. -/
def State.forget (s : State) (k : Nat) (p : Part) : State :=
  let gone (key : Nat) : Bool := s.partOf key = k && (mapTower key).isSome
  { s with
    held := s.held.filter fun e => !gone e.1, live := s.live.filter fun e => e.2.part != k, tags := s.tags.filter fun e => !gone (e.1 / 8),
    toks := s.toks.filter fun e => !gone (e.1 / 8),
    traps := s.traps.filter fun e => !gone e.1, fences := s.fences.filter fun e => !gone e.1, timers := s.timers.filter fun e => !gone e.1, late := s.late.filter fun e => !gone e.1,
    peer := s.peer.filter fun e => !p.ownsDie (e.1 % 32), hovs := s.hovs.filter fun e => !p.ownsDie (e.1 % 32),
    l2 := s.l2.filter fun e => !p.ownsDie (e.1 % 32), tcache := s.tcache.filter fun t => !p.ownsClu t.cluster, wcache := s.wcache.filter fun w => !p.ownsDie w.die,
    walks := s.walks.filter fun e => e.2.part != k, ops := s.ops.filter fun e => !gone e.2.key, stores := s.stores.filter fun e => e.2.part != k, sends := s.sends.filter fun e => !gone e.2.key,
    futs := s.futs.filter fun e => e.2.part != k, tes := s.tes.filter fun e => !p.ownsQuad e.1, ces := s.ces.filter fun e => !p.ownsClu e.1, rlcs := s.rlcs.filter fun e => !p.ownsClu e.1,
    ius := s.ius.filter fun e => !p.ownsIu e.1, parts := mapErase s.parts k }

/-- DESTROY: once every launch has ended, the window table's entry is emptied through SEQ, the partition is scrubbed and its number is free (R390, R402, R406). -/
def execDestroy (o : Origin) (tag : BitVec 16) (k : Nat) (s : State) : Host.Outcome State Fault Refusal :=
  if o = .bmc then .next (s.respond tag rsBadreq)
  else
    match s.part k with
    | none => .next (s.respond tag rsNopart)
    | some p =>
      if p.liveWork || p.roleChange.isSome || p.freeze.any (fun f => !f.frozen || f.thaw) then .next (s.emitFirst (.destroy o tag k))
      else if !(s.wentry k).odd then .next ((s.seqOpen k [] tag).emitFirst (.destroy o tag k))
      else if (s.wentry k).tag != tag then .next (s.emitFirst (.destroy o tag k))
      else .next ((((s.scrub p []).forget k p).seqClose k).respond tag rsOk)

/-! ### Role changes (R18, R19) -/

/-- A new map for a tower, the old one where none is named. -/
def Part.newRole (p : Part) (maps : List (Nat × RoleMap)) (t : Nat) : Option RoleMap :=
  match maps.find? (·.1 = t) with | some m => some m.2 | none => (p.roles.find? (·.1 = t)).map (·.2)

/-- Dies of affected towers whose role changes. -/
def Part.changing (p : Part) (maps : List (Nat × RoleMap)) : List Nat :=
  maps.flatMap fun m => match p.roles.find? (·.1 = m.1) with
    | some o => (rangeFrom (4 * m.1) 4).filter fun d => decide (d % 4 < mLayers o.2) != decide (d % 4 < mLayers m.2)
    | none => []

/-- Dies of affected towers that are C dies under both maps. -/
def Part.staying (p : Part) (maps : List (Nat × RoleMap)) : List Nat :=
  maps.flatMap fun m => match p.roles.find? (·.1 = m.1) with
    | some o => (rangeFrom (4 * m.1) 4).filter fun d => decide (mLayers o.2 ≤ d % 4 ∧ mLayers m.2 ≤ d % 4)
    | none => []

/-- ROLES: the request is checked; parsing stops and the affected towers drain (R18, steps 1 and 2). A request that names a tower outside the partition or one twice, for which the text has no status, is BADREQ (log 44). -/
def execRoles (o : Origin) (tag : BitVec 16) (k : Nat) (maps : List (Nat × Option RoleMap)) (s : State) : Host.Outcome State Fault Refusal :=
  if o = .bmc then .next (s.respond tag rsBadreq)
  else
    match s.part k with
    | none => .next (s.respond tag rsNopart)
    | some p =>
      if maps.any (·.2.isNone) then .next (s.respond tag rsRolemap)
      else if maps.any (fun m => !p.towers.contains m.1) || !(maps.map (·.1)).Nodup then .next (s.respond tag rsBadreq)
      else if p.freeze.isSome then .next (s.respond tag rsBusy)
      else if p.roleChange.isSome then .next (s.emitFirst (.roles o tag k maps))
      else
        let ms := maps.map fun m => (m.1, m.2.getD .mccc)
        let s := (s.modPart k fun p => { p with roleChange := some ⟨tag, ms, 2⟩ }).bb (4 * p.towers.headD 0) 8 k [2, rsOk]
        let out := s.held.filter fun e => s.partOf e.1 = k && (s.holderDie e.1).any fun d => ms.any (·.1 = towerOfDie d)
        .next ((out.foldl (fun s e => s.requestEvict (.roles k) e.1) s).emit .roleCheck)

/-- The lowest-numbered partition whose role change is at a step and may leave it. -/
def State.changeAt (s : State) (step : Nat) (ready : Nat → Part → RoleChange → Bool) : Option (Nat × Part × RoleChange) :=
  s.parts.findSome? fun e => e.2.roleChange.bind fun rc => if rc.step = step && ready e.1 e.2 rc then some (e.1, e.2, rc) else none
/-- Whether a role change is at a step. -/
def State.anyAt (s : State) (step : Nat) : Bool := s.parts.any fun e => e.2.roleChange.any fun rc => rc.step = step
/-- A step of a role change goes to the black box (R403). -/
def State.roleStep (s : State) (k : Nat) (p : Part) (step : Nat) : State := s.bb (4 * p.towers.headD 0) 8 k [step, rsOk]

/-- Whether step 2 still goes on: contexts, engine commands or tile operations on affected dies (R18). Firmware contexts on a die in M role stay in their slots (R396). -/
def State.drainingStill (s : State) (k : Nat) (rc : RoleChange) : Bool :=
  let on (t : Nat) : Bool := rc.maps.any (·.1 = t)
  let mine (c : Cmd) : Bool := c.part = k && (c.pos.inst 5).any on
  (s.held.any fun e => match e.2.place with | .slot n => on (n / 8192) && !s.isM (n / 2048) | .moving _ (some c) => on (c / 64) | .moving _ none => s.partOf e.1 = k | .cl2 _ => false) ||
  (s.tes.any fun e => on (e.1 / 128) && !e.2.ops.isEmpty) || (s.ces.any fun e => on (e.1 / 64) && !e.2.isEmpty) || (s.bdes.any fun e => e.2.queue.any mine)

/-- Leaf entries below a table (R52 to R55). -/
def State.leavesFrom (s : State) : Nat → Nat → Bool → List Leaf
  | lv, table, g64 =>
    (List.range (if lv = 0 && g64 then 32 else 512)).flatMap fun i =>
      let e : Dword := BitVec.ofNat 64 (s.readN (table + i * 8) 8)
      if !e.getLsbD 0 then []
      else if e.getLsbD 1 then [⟨e, match lv with | 2 => 2 ^ 30 | 1 => 2 ^ 21 | _ => if g64 then 2 ^ 16 else 2 ^ 12⟩]
      else match lv with | 0 => [] | n + 1 => leavesFrom s n (getF e 12 40 * 4096) (n = 0 && e.getLsbD 7)

/-- Leaf entries of every address space of a partition (R50, R51). -/
def State.leaves (s : State) (p : Part) : List Leaf :=
  (List.range 4096).flatMap fun a =>
    let e : Dword := BitVec.ofNat 64 (s.readN (p.asTable + a * 8) 8)
    if e.getLsbD 0 then s.leavesFrom 4 (getF e 12 40 * 4096) false else []

/-- The check of step 3: a live handle, a page on near memory that goes, a pinned line (R18). -/
def State.roleBusy (s : State) (p : Part) (rc : RoleChange) : Bool :=
  let ds := p.changing rc.maps
  (s.handles.any fun e => e.2.alloc && ds.contains (e.1 / 1024 / 32)) || (s.l2.any fun e => e.2.pinned && ds.contains (e.1 % 32)) ||
  (s.leaves p).any fun l => rc.maps.any fun m =>
    let new := nmRange m.1 m.2
    match p.roles.find? (·.1 = m.1) with
    | some o => decide (l.base < new.1 + (nmRange m.1 o.2).2) && decide (new.1 + new.2 < l.base + l.size) && decide (mLayers m.2 < mLayers o.2)
    | none => false

/-- Step 4: dirty lines of the affected towers written back, lines homed there recalled, far-line caches emptied (R18, R95). -/
def State.flushTowers (s : State) (on : Nat → Bool) : State :=
  let held : List Nat := (s.l2.filter fun e => on (e.1 % 32 / 4)).map fun e => e.1 / 32
  let listed : List Nat := (s.dir.filter fun e => (s.homeTower (e.1 * 128)).any on).map fun e => e.1
  let s := ((held ++ listed).eraseDups.foldl (fun s l => s.takeHome l) s).dropDies fun d => on (d / 4)
  { s with flc := s.flc.filter fun e => !on (e.1 / 2 ^ 32) && !((s.homeTower (e.2.line * 128)).any on), l1 := s.l1.filter fun c => !on (c.iu / 512) }

/-- The role change ends with a status; what it held back goes on (R18). -/
def State.endRoles (s : State) (k : Nat) (rc : RoleChange) (status : Nat) : State :=
  ((((s.modPart k fun p => { p with roleChange := none }).respond rc.tag status).bb (4 * (((s.part k).map fun p => p.towers.headD 0).getD 0)) 8 k [6, status])).wakePart k

/-- ROLE_CHECK: the drain of a partition has ended; the check of step 3, then the flush of step 4; clocks above the cap to come go down (R16, R18, R391). -/
def execRoleCheck (s : State) : Host.Outcome State Fault Refusal :=
  match s.changeAt 2 fun k _ rc => !s.drainingStill k rc with
  | none => .next (if s.anyAt 2 then s.emit .roleCheck else s)
  | some (k, p, rc) =>
    let on (t : Nat) : Bool := rc.maps.any (·.1 = t)
    let lines := s.held.filter fun e => match e.2.place with | .cl2 c => on (c / 64) | _ => false
    let s := lines.foldl (fun s e => s.spill e.1) (s.roleStep k p 3)
    if s.roleBusy p rc then .next (s.endRoles k rc rsBusy)
    else
      let s := ((s.roleStep k p 4).flushTowers on).modPart k fun p => { p with roleChange := some { rc with step := 4 } }
      .next (((p.staying rc.maps).foldl (fun s d => s.slowDown d) s).emit .reEnumerate)

/-- Teams whose instance holds no C die any more are bound anew, in the order of the levels; the record's DOMID follows (R18, R138). -/
def State.rebind (s : State) (k n : Nat) (l : Launch) : State :=
  (numberFrom 0 l.teams).foldl (fun s e =>
    match s.launch k n with
    | none => s
    | some l =>
      let d := (l.levels.getD e.2.level (levelDecl 0)).dom.toNat
      if (s.instances k d (some (d, e.2.domid))) != [] then s
      else
        let is := match l.teams[e.2.parent]? with
          | some u => if e.2.level = 0 then s.instances k d none else s.instances k d (some ((l.levels.getD (e.2.level - 1) (levelDecl 0)).dom.toNat, u.domid))
          | none => s.instances k d none
        match is[if e.2.level = 0 then 0 else e.2.index % max 1 is.length]? with
        | none => s
        | some i => (s.modTeam k n e.1 fun t => { t with domid := i }).hwWriteVa k l.asid (e.2.record + 0x10) (leBytes 4 i)) s

/-- A die that changes role: a new incarnation, the old one purged at every home, SRAM of changed use, g registers and ROTSTEP zeroed, translations gone (R18, R69, R94, R153, R306). -/
def State.enterRole (s : State) (d : Nat) : State :=
  let q0 := 32 * d
  let s := (s.purgeDie d).modDie d fun x => { x with incarn := x.incarn + 1 }
  let s := s.zero (0x100_0000_0000 + towerOfDie d * 2 ^ 30 + d % 4 * 0xB00_0000) 0xB00_0000
  let s := (rangeFrom q0 32).foldl (fun s q => s.zero (rawBase q) 0x20_0000) s
  { s with gregs := s.gregs.filter fun e => dieOfIu (e.1 / 8) != d, tes := mapMap s.tes fun q t => if q / 32 = d then { t with rotstep := 0 } else t,
           tcache := s.tcache.filter fun t => t.cluster / 16 != d, wcache := s.wcache.filter fun w => w.die != d }

/-- Whether the walk of a VA reads an entry homed on some towers, the address-space table's among them. -/
def State.walkReads (s : State) (k asid va : Nat) (on : Nat → Bool) : Bool := (s.traceWith (fun _ => none) k asid va).reads.any fun pa => (s.homeTower pa).any on
/-- Dies whose walks read a table homed on an affected tower lose their translations too: those that hold a translation or a node found by such a walk, or that have one under way (R69). -/
def State.dropWalks (s : State) (k : Nat) (on : Nat → Bool) : State :=
  let ds := (List.range 24).filter fun d =>
    (s.wcache.any fun w => w.die = d && w.part = k && ((s.homeTower w.table).any on || s.walkReads k w.asid w.va on)) ||
    (s.tcache.any fun t => t.cluster / 16 = d && t.part = k && s.walkReads k t.asid t.va on) ||
    s.walks.any fun e => e.2.die = d && e.2.part = k && s.walkReads k e.2.asid e.2.va on
  { s with tcache := s.tcache.filter fun t => !ds.contains (t.cluster / 16), wcache := s.wcache.filter fun w => !ds.contains w.die }

/-- Towers that have lost their C dies bound no context's moves any more (R18, R139). -/
def State.dropRegions (s : State) (k : Nat) : State :=
  { s with live := mapMap s.live fun _ l => if l.part = k then { l with region := l.region.filter (s.towerHasC k) } else l }

/-- RE_ENUMERATE: once no clock runs above the new cap, the new map is live, teams are bound anew, and the partition resumes (R16, R18, steps 5 and 6, R139). -/
def execReEnumerate (s : State) : Host.Outcome State Fault Refusal :=
  match s.changeAt 4 fun _ p rc => (p.staying rc.maps).all s.slowed with
  | none => .next (if s.anyAt 4 then s.emit .reEnumerate else s)
  | some (k, p, rc) =>
    let on (t : Nat) : Bool := rc.maps.any (·.1 = t)
    let ds := p.changing rc.maps
    let cycs := (List.range 24).map fun d => (d, s.cyc d)
    let s := ((s.roleStep k p 5).dropWalks k on).modPart k fun p => { p with roles := p.roles.map fun e => (e.1, (p.newRole rc.maps e.1).getD e.2), roleChange := none }
    let s := (ds.foldl (fun s d => s.enterRole d) s).dropRegions k
    let s := ((List.range 24).filter fun d => on (d / 4)).foldl (fun s d => (if ds.contains d then s.setClock d ((mapFind cycs d).getD 0) else s).startSampling d) s
    let ls : SMap Launch := match s.part k with | some p => p.launches | none => []
    let s : State := ls.foldl (fun s e => s.rebind k e.1 e.2) s
    let t0 := (s.clustersIn k none).headD 0
    let s := (s.rlcs.filter fun e => on (e.1 / 64) && !s.isC (e.1 / 16) && !e.2.queue.isEmpty).foldl (fun s e =>
      (s.modRlc t0 fun r => { r with queue := r.queue ++ e.2.queue }).modRlc e.1 fun r => { r with queue := [] }) s
    let s := s.endRoles k rc rsOk
    .next ((s.dir.filter fun e => (s.homeTower (e.1 * 128)).any on).foldl (fun s e => s.homeDrain e.1) s)

/-! ### Black box, firmware, patches, queries (R390, R399, R400, R403) -/

/-- A record as four 8-byte words. -/
def BbRec.words (r : BbRec) : List Nat :=
  [r.time, r.code + r.die * 2 ^ 16 + r.part * 2 ^ 24 + r.seqn.toNat * 2 ^ 32, getF r.data 0 64, getF r.data 64 64]

/-- BBREAD, from the baseboard controller too (R390, R403). -/
def execBbread (tag : BitVec 16) (die start count : Nat) (s : State) : Host.Outcome State Fault Refusal :=
  if die > 24 then .next (s.respond tag rsBadreq)
  else .next (s.respond tag rsOk ((((mapGet s.bbox die bbEmpty).recs.drop start).take count).flatMap BbRec.words))

/-- UPDATE: the object is verified as its bytes stand in host memory (R399). -/
def execUpdate (o : Origin) (tag : BitVec 16) (pa len : Nat) (s : State) : Host.Outcome State Fault Refusal :=
  if o = .bmc then .next (s.respond tag rsBadreq)
  else
    let img := memReadList s.mem pa len
    if !Config.signatureOk img then .next (s.respond tag rsBadsig)
    else .next ({ s with fware := { s.fware with pending := some img } }.respond tag rsOk)

/-- The running version: the base version with the numbers of the patches appended (R400). -/
def Firmware.running (f : Firmware) : Nat := f.patches.foldl (fun v n => v * 2 ^ 32 + n % 2 ^ 32) f.version

/-- PATCH: verified, compared, and entries into the functions that must be inactive are stopped (R400, steps 1 to 3). -/
def execPatch (o : Origin) (tag : BitVec 16) (pa len : Nat) (s : State) : Host.Outcome State Fault Refusal :=
  let bytes := memReadList s.mem pa len
  if o = .bmc then .next (s.respond tag rsBadreq)
  else if s.fware.patch.isSome then .next (s.emit (.patch o tag pa len))
  else if !Config.signatureOk bytes then .next (s.respond tag rsBadsig)
  else if Config.patchBase bytes != s.fware.running then .next (s.respond tag rsBasever)
  else .next ({ s with fware := { s.fware with patch := some (tag, bytes), stopped := Config.patchStops bytes, patchAt := s.now } }.emits [.patchSwitch, .patchTimeout])

/-- How long a patch waits, in ns (R400). -/
def patchLimit : Nat := 100_000_000
/-- The patch is no longer waited for, and the stop is lifted. -/
def State.endPatch (s : State) : State := { s with fware := { s.fware with patch := none, stopped := [] } }

/-- Whether an FW context has a frame in one of the functions that are stopped; frames are firmware's own, so with FW contexts live the answer is open (R400, log 21). -/
def State.fwFrames (s : State) : Bool :=
  !s.fware.stopped.isEmpty && (s.live.any fun e => (s.ctxAt e.1).mode = 2) && Config.pickOperand s.tick % 2 = 0

/-- PATCH_SWITCH: a complete new table is switched in, as one release (R400, steps 4 and 5). -/
def execPatchSwitch (s : State) : Host.Outcome State Fault Refusal :=
  match s.fware.patch with
  | none => .next s
  | some (tag, bytes) =>
    if s.now > s.fware.patchAt + patchLimit * Config.ticksPerNs then .next s
    else if s.fwFrames then .next ({ s with tick := s.tick + 1 }.emit .patchSwitch)
    else
      let table := ((Config.patchPairs bytes).take 32).foldl (fun m e => mapPut m (e.1 % 256) e.2) s.fware.table
      .next ({ s.endPatch with fware := { s.endPatch.fware with table, patches := s.fware.patches ++ [Config.patchNumber bytes] } }.respond tag rsOk)

/-- PATCH_TIMEOUT (R400, step 3). -/
def execPatchTimeout (s : State) : Host.Outcome State Fault Refusal :=
  match s.fware.patch with
  | none => .next s
  | some (tag, _) => .next (if s.now ≤ s.fware.patchAt + patchLimit * Config.ticksPerNs then s.emit .patchTimeout else s.endPatch.respond tag rsActive)

/-- QUERY, from the baseboard controller too: FREQ, power and temperatures of the dies, temperatures of the stacks, ports, version (R390). -/
def execQuery (tag : BitVec 16) (s : State) : Host.Outcome State Fault Refusal :=
  .next ({ s with tick := s.tick + 1 }.respond tag rsOk
    (((List.range 24).flatMap fun d => [(s.rdsVal d ((s.partOfTower (towerOfDie d)).getD 255) .freq).toNat, Config.diePower s.tick d, (s.die d).temp]) ++ ((List.range 12).map fun n => (s.bde n).temp) ++
     ((List.range 6).flatMap fun n => [(s.port n).up.toNat, (s.port n).width]) ++ [s.fware.running]))

/-! ### The watchdog (R401) -/

/-- FW contexts are discarded, wherever they are held (R401). -/
def State.dropFw (s : State) : State := (s.live.filter fun e => (s.ctxAt e.1).mode = 2).foldl (fun s e => s.discard e.1) s

/-- WATCHDOG_EXPIRY: a warm restart of the firmware column; management requests in progress return BUSY, and an entry of the window table whose update was in progress has its old contents again (R401, R402). -/
def execWatchdogExpiry (k : Nat) (s : State) : Host.Outcome State Fault Refusal :=
  match s.part k with
  | none => .next s
  | some p =>
    if !p.wdog.getLsbD 32 then .next s
    else if s.now < p.wdogAt + getF p.wdog 0 32 * 1000 * Config.ticksPerNs then .next (s.emitOnce (.watchdogExpiry k))
    else
      let s := (s.bb (4 * p.towers.headD 0) 5 k [s.fware.running]).dropFw
      let s := s.parts.foldl (fun s e => match e.2.roleChange with | some rc => s.endRoles e.1 rc rsBusy | none => s) s
      let s := match s.fware.patch with | some (tag, _) => s.endPatch.respond tag rsBusy | none => s
      let tag? : Instr → Option (BitVec 16)
        | .destroy _ t _ => some t
        | .roles _ t _ _ => some t
        | .squall r _ => some r.tag
        | .thaw r _ => some r.tag
        | .patch _ t _ _ => some t
        | .create _ r => if s.wtab.any fun e => e.2.odd && e.2.tag == r.tag then some r.tag else none
        | _ => none
      let waits : List (BitVec 16) := s.agenda.filterMap tag?
      let s := { s with agenda := s.agenda.filter fun i => (tag? i).isNone, wtab := mapMap s.wtab fun _ b => b.restored }
      .next (waits.foldl (fun s t => s.respond t rsBusy) s)

/-! ### Resets (R397, R399) -/

/-- A die's firewall as the boot ROM leaves it; reserved fields stay 0 (R397). -/
def bootFw (d : Nat) : Firewall :=
  { lock := true, hwin := Vector.ofFn fun i : Fin 8 => Config.bootHwin d i.val, plim := Config.bootPlim d &&& 0xFFFF_FFFF, fwmem := Config.bootMem d &&& 0x7F }

/-- COLD_RESET: the module as at reset, its firewalls written and locked; memory beyond the module stays, and so do the firmware image and the black box's place (R397, log 45). -/
def execColdReset (s : State) : Host.Outcome State Fault Refusal :=
  .next { State.reset with
    tick := s.tick, nextId := s.nextId, mem := s.mem.filter (fun c => decide (mapRow c.1 = 4 ∨ mapRow c.1 = 5)), images := s.images, fware := { s.fware with patches := [], table := [], patch := none, stopped := [] },
    fws := (List.range 24).map fun d => (d, bootFw d) }

/-- WARM_RESET: the boot ROM takes an accepted firmware image into use once it has verified it (R399). -/
def execWarmReset (s : State) : Host.Outcome State Fault Refusal :=
  match s.fware.pending with
  | none => .next s
  | some img =>
    if !Config.signatureOk img then .next { s with fware := { s.fware with pending := none } }
    else .next { s with fware := { s.fware with version := Config.fwVersion img, patches := [], table := [], pending := none, patch := none, stopped := [] } }

end Sys2Proof.Machine
end

