-- ==== Sys2Proof/Machine/Dispatch.lean ====
section
/-! DEFINITION. One arm for each constructor of Instr: a direct call of its meaning. -/

namespace Sys2Proof.Machine

/-- What an instruction, or another indivisible step of the part, does to the machine. -/
def exec (i : Instr) (s : State) : Host.Outcome State Fault Refusal :=
  match i with
  | .add h sh ck d a b => Sys2Proof.Machine.execAdd h sh ck d a b s
  | .sub h sh ck d a b => Sys2Proof.Machine.execSub h sh ck d a b s
  | .mul h sh ck d a b => Sys2Proof.Machine.execMul h sh ck d a b s
  | .mulh h sh d a b => Sys2Proof.Machine.execMulh h sh d a b s
  | .mulhu h sh d a b => Sys2Proof.Machine.execMulhu h sh d a b s
  | .div h sh d a b => Sys2Proof.Machine.execDiv h sh d a b s
  | .divu h sh d a b => Sys2Proof.Machine.execDivu h sh d a b s
  | .rem h sh d a b => Sys2Proof.Machine.execRem h sh d a b s
  | .remu h sh d a b => Sys2Proof.Machine.execRemu h sh d a b s
  | .and h sh d a b => Sys2Proof.Machine.execAnd h sh d a b s
  | .or h sh d a b => Sys2Proof.Machine.execOr h sh d a b s
  | .xor h sh d a b => Sys2Proof.Machine.execXor h sh d a b s
  | .shl h sh d a b => Sys2Proof.Machine.execShl h sh d a b s
  | .shr h sh d a b => Sys2Proof.Machine.execShr h sh d a b s
  | .sar h sh d a b => Sys2Proof.Machine.execSar h sh d a b s
  | .rol h sh d a b => Sys2Proof.Machine.execRol h sh d a b s
  | .min h sh d a b => Sys2Proof.Machine.execMin h sh d a b s
  | .max h sh d a b => Sys2Proof.Machine.execMax h sh d a b s
  | .minu h sh d a b => Sys2Proof.Machine.execMinu h sh d a b s
  | .maxu h sh d a b => Sys2Proof.Machine.execMaxu h sh d a b s
  | .abs h sh d a => Sys2Proof.Machine.execAbs h sh d a s
  | .clz h sh d a => Sys2Proof.Machine.execClz h sh d a s
  | .popc h sh d a => Sys2Proof.Machine.execPopc h sh d a s
  | .brev h sh d a => Sys2Proof.Machine.execBrev h sh d a s
  | .mov h sh d a => Sys2Proof.Machine.execMov h sh d a s
  | .movXdGn h d g => Sys2Proof.Machine.execMovXdGn h d g s
  | .movGnXa h g a => Sys2Proof.Machine.execMovGnXa h g a s
  | .addi h sh d a imm => Sys2Proof.Machine.execAddi h sh d a imm s
  | .andi h sh d a imm => Sys2Proof.Machine.execAndi h sh d a imm s
  | .ori h sh d a imm => Sys2Proof.Machine.execOri h sh d a imm s
  | .xori h sh d a imm => Sys2Proof.Machine.execXori h sh d a imm s
  | .shli h sh d a imm => Sys2Proof.Machine.execShli h sh d a imm s
  | .shri h sh d a imm => Sys2Proof.Machine.execShri h sh d a imm s
  | .sari h sh d a imm => Sys2Proof.Machine.execSari h sh d a imm s
  | .movi h d imm => Sys2Proof.Machine.execMovi h d imm s
  | .movh h d imm => Sys2Proof.Machine.execMovh h d imm s
  | .lget h sh d a k => Sys2Proof.Machine.execLget h sh d a k s
  | .lset h sh d a k => Sys2Proof.Machine.execLset h sh d a k s
  | .lshuf h sh d a b => Sys2Proof.Machine.execLshuf h sh d a b s
  | .lsplat h sh d a => Sys2Proof.Machine.execLsplat h sh d a s
  | .bfx h sx d a pos lenm1 => Sys2Proof.Machine.execBfx h sx d a pos lenm1 s
  | .bfi h d a pos lenm1 => Sys2Proof.Machine.execBfi h d a pos lenm1 s
  | .sel h sh d a b gn p => Sys2Proof.Machine.execSel h sh d a b gn p s
  | .cmp h sh any cc pd a b => Sys2Proof.Machine.execCmp h sh any cc pd a b s
  | .cmpi h cc pd a imm => Sys2Proof.Machine.execCmpi h cc pd a imm s
  | .br h off => Sys2Proof.Machine.execBr h off s
  | .call h d off => Sys2Proof.Machine.execCall h d off s
  | .jmp h a => Sys2Proof.Machine.execJmp h a s
  | .callr h d a => Sys2Proof.Machine.execCallr h d a s
  | .ret h a => Sys2Proof.Machine.execRet h a s
  | .pand h pd pa pb => Sys2Proof.Machine.execPand h pd pa pb s
  | .por h pd pa pb => Sys2Proof.Machine.execPor h pd pa pb s
  | .pxor h pd pa pb => Sys2Proof.Machine.execPxor h pd pa pb s
  | .pnot h pd pa => Sys2Proof.Machine.execPnot h pd pa s
  | .pmask h a => Sys2Proof.Machine.execPmask h a s
  | .repf h repsm1 hstep rstep lenm1 => Sys2Proof.Machine.execRepf h repsm1 hstep rstep lenm1 s
  | .nop h => Sys2Proof.Machine.execNop h s
  | .yield h => Sys2Proof.Machine.execYield h s
  | .endCtx h => Sys2Proof.Machine.execEndCtx h s
  | .fadd h f d a b => Sys2Proof.Machine.execFadd h f d a b s
  | .fsub h f d a b => Sys2Proof.Machine.execFsub h f d a b s
  | .fmul h f d a b => Sys2Proof.Machine.execFmul h f d a b s
  | .fmin h f d a b => Sys2Proof.Machine.execFmin h f d a b s
  | .fmax h f d a b => Sys2Proof.Machine.execFmax h f d a b s
  | .fabs h f d a => Sys2Proof.Machine.execFabs h f d a s
  | .fneg h f d a => Sys2Proof.Machine.execFneg h f d a s
  | .fdiv h f d a b => Sys2Proof.Machine.execFdiv h f d a b s
  | .fsqrt h f d a => Sys2Proof.Machine.execFsqrt h f d a s
  | .frcp h f d a => Sys2Proof.Machine.execFrcp h f d a s
  | .frsq h f d a => Sys2Proof.Machine.execFrsq h f d a s
  | .fexp2 h f d a => Sys2Proof.Machine.execFexp2 h f d a s
  | .flog2 h f d a => Sys2Proof.Machine.execFlog2 h f d a s
  | .fclass h f d a => Sys2Proof.Machine.execFclass h f d a s
  | .fma h f d a b c => Sys2Proof.Machine.execFma h f d a b c s
  | .fms h f d a b c => Sys2Proof.Machine.execFms h f d a b c s
  | .fnma h f d a b c => Sys2Proof.Machine.execFnma h f d a b c s
  | .fcmp h f cc any sig pd a b => Sys2Proof.Machine.execFcmp h f cc any sig pd a b s
  | .fcvt h dst src d a => Sys2Proof.Machine.execFcvt h dst src d a s
  | .fcvti h dst src d a => Sys2Proof.Machine.execFcvti h dst src d a s
  | .icvtf h dst src d a => Sys2Proof.Machine.execIcvtf h dst src d a s
  | .frnd h fmt d a => Sys2Proof.Machine.execFrnd h fmt d a s
  | .ld h sz n d a imm => Sys2Proof.Machine.execLd h sz n d a imm s
  | .ldp h sz n d a imm => Sys2Proof.Machine.execLdp h sz n d a imm s
  | .st h sz n x a imm => Sys2Proof.Machine.execSt h sz n x a imm s
  | .stp h sz n x a imm => Sys2Proof.Machine.execStp h sz n x a imm s
  | .lda h sz n sc d a imm => Sys2Proof.Machine.execLda h sz n sc d a imm s
  | .stl h sz n sc x a imm => Sys2Proof.Machine.execStl h sz n sc x a imm s
  | .ldnt h sz n d a imm => Sys2Proof.Machine.execLdnt h sz n d a imm s
  | .stnt h sz n x a imm => Sys2Proof.Machine.execStnt h sz n x a imm s
  | .atom h op dw ar n d a b => Sys2Proof.Machine.execAtom h op dw ar n d a b s
  | .cas h dw ar sc n d a b => Sys2Proof.Machine.execCas h dw ar sc n d a b s
  | .atomfAdd h dw ar sc n d a b => Sys2Proof.Machine.execAtomfAdd h dw ar sc n d a b s
  | .fence h kind sc => Sys2Proof.Machine.execFence h kind sc s
  | .pref h l2 n a imm => Sys2Proof.Machine.execPref h l2 n a imm s
  | .send h sc pd pe a j b => Sys2Proof.Machine.execSend h sc pd pe a j b s
  | .recv h sc d mask => Sys2Proof.Machine.execRecv h sc d mask s
  | .spawn h a b => Sys2Proof.Machine.execSpawn h a b s
  | .spawnj h n d a b => Sys2Proof.Machine.execSpawnj h n d a b s
  | .futw h n sc d a => Sys2Proof.Machine.execFutw h n sc d a s
  | .futr h n sc a b => Sys2Proof.Machine.execFutr h n sc a b s
  | .futf h n sc a b => Sys2Proof.Machine.execFutf h n sc a b s
  | .bar h n => Sys2Proof.Machine.execBar h n s
  | .bara h d n => Sys2Proof.Machine.execBara h d n s
  | .barw h a n => Sys2Proof.Machine.execBarw h a n s
  | .park h a => Sys2Proof.Machine.execPark h a s
  | .migr h n a => Sys2Proof.Machine.execMigr h n a s
  | .self h d => Sys2Proof.Machine.execSelf h d s
  | .talloc h hd a => Sys2Proof.Machine.execTalloc h hd a s
  | .tfree h hd => Sys2Proof.Machine.execTfree h hd s
  | .tdesc h d ha => Sys2Proof.Machine.execTdesc h d ha s
  | .tstat h d ha => Sys2Proof.Machine.execTstat h d ha s
  | .twait h ha => Sys2Proof.Machine.execTwait h ha s
  | .tzero h hd => Sys2Proof.Machine.execTzero h hd s
  | .tld h n hd a b => Sys2Proof.Machine.execTld h n hd a b s
  | .tst h n hd a b => Sys2Proof.Machine.execTst h n hd a b s
  | .tmma h bas hd ha hb => Sys2Proof.Machine.execTmma h bas hd ha hb s
  | .tmmar h bas hd ha hb => Sys2Proof.Machine.execTmmar h bas hd ha hb s
  | .tadd h hd ha hb => Sys2Proof.Machine.execTadd h hd ha hb s
  | .tsub h hd ha hb => Sys2Proof.Machine.execTsub h hd ha hb s
  | .tmul h hd ha hb => Sys2Proof.Machine.execTmul h hd ha hb s
  | .tfma h hd ha hb => Sys2Proof.Machine.execTfma h hd ha hb s
  | .tmax h hd ha hb => Sys2Proof.Machine.execTmax h hd ha hb s
  | .tmin h hd ha hb => Sys2Proof.Machine.execTmin h hd ha hb s
  | .tabs h hd ha => Sys2Proof.Machine.execTabs h hd ha s
  | .texp h hd ha => Sys2Proof.Machine.execTexp h hd ha s
  | .trcp h hd ha => Sys2Proof.Machine.execTrcp h hd ha s
  | .tscale h hd ha b => Sys2Proof.Machine.execTscale h hd ha b s
  | .tcvt h hd ha => Sys2Proof.Machine.execTcvt h hd ha s
  | .ttrn h hd ha => Sys2Proof.Machine.execTtrn h hd ha s
  | .tred h op col hd ha => Sys2Proof.Machine.execTred h op col hd ha s
  | .tscan h hd ha hb => Sys2Proof.Machine.execTscan h hd ha hb s
  | .taff h hd ha hb => Sys2Proof.Machine.execTaff h hd ha hb s
  | .tcomp h hd ha hb => Sys2Proof.Machine.execTcomp h hd ha hb s
  | .cpy h d a b t => Sys2Proof.Machine.execCpy h d a b t s
  | .cpys h d a b t => Sys2Proof.Machine.execCpys h d a b t s
  | .gath h d a b g le t => Sys2Proof.Machine.execGath h d a b g le t s
  | .redb h op fmt d a b t => Sys2Proof.Machine.execRedb h op fmt d a b t s
  | .convb h dst src d a b t => Sys2Proof.Machine.execConvb h dst src d a b t s
  | .rlcs h a t => Sys2Proof.Machine.execRlcs h a t s
  | .estatX h d t => Sys2Proof.Machine.execEstatX h d t s
  | .estatP h pd t => Sys2Proof.Machine.execEstatP h pd t s
  | .wtok h t => Sys2Proof.Machine.execWtok h t s
  | .rlcq h n sel d a => Sys2Proof.Machine.execRlcq h n sel d a s
  | .rlcx h n a b => Sys2Proof.Machine.execRlcx h n a b s
  | .rds h r d => Sys2Proof.Machine.execRds h r d s
  | .wrs h r a => Sys2Proof.Machine.execWrs h r a s
  | .trap h code => Sys2Proof.Machine.execTrap h code s
  | .tret h => Sys2Proof.Machine.execTret h s
  | .evict h a => Sys2Proof.Machine.execEvict h a s
  | .tlbiVa h d a b => Sys2Proof.Machine.execTlbiVa h d a b s
  | .tlbiAs h d b => Sys2Proof.Machine.execTlbiAs h d b s
  | .tlbiAll h d => Sys2Proof.Machine.execTlbiAll h d s
  | .tlbiU h d a b => Sys2Proof.Machine.execTlbiU h d a b s
  | .cflush h n d a => Sys2Proof.Machine.execCflush h n d a s
  | .pinl h n d a => Sys2Proof.Machine.execPinl h n d a s
  | .unpinl h n d a => Sys2Proof.Machine.execUnpinl h n d a s
  | .cl1limWrite part v => Sys2Proof.Machine.execCl1limWrite part v s
  | .rsvslotWrite part v => Sys2Proof.Machine.execRsvslotWrite part v s
  | .leaseWrite part v => Sys2Proof.Machine.execLeaseWrite part v s
  | .freqWrite part v => Sys2Proof.Machine.execFreqWrite part v s
  | .wdogWrite part v => Sys2Proof.Machine.execWdogWrite part v s
  | .errcntWrite stack v => Sys2Proof.Machine.execErrcntWrite stack v s
  | .create o r => Sys2Proof.Machine.execCreate o r s
  | .destroy o tag part => Sys2Proof.Machine.execDestroy o tag part s
  | .roles o tag part maps => Sys2Proof.Machine.execRoles o tag part maps s
  | .bbread tag die start count => Sys2Proof.Machine.execBbread tag die start count s
  | .update o tag pa len => Sys2Proof.Machine.execUpdate o tag pa len s
  | .patch o tag pa len => Sys2Proof.Machine.execPatch o tag pa len s
  | .query tag => Sys2Proof.Machine.execQuery tag s
  | .squall part cb => Sys2Proof.Machine.execSquall part cb s
  | .thaw part cb => Sys2Proof.Machine.execThaw part cb s
  | .launchParse part win => Sys2Proof.Machine.execLaunchParse part win s
  | .dependenceCheck part launch => Sys2Proof.Machine.execDependenceCheck part launch s
  | .dispatch part launch => Sys2Proof.Machine.execDispatch part launch s
  | .place part launch => Sys2Proof.Machine.execPlace part launch s
  | .poolAllocate part => Sys2Proof.Machine.execPoolAllocate part s
  | .poolReturn part id => Sys2Proof.Machine.execPoolReturn part id s
  | .launchCompletion part launch => Sys2Proof.Machine.execLaunchCompletion part launch s
  | .drain part win => Sys2Proof.Machine.execDrain part win s
  | .abort part win => Sys2Proof.Machine.execAbort part win s
  | .reopen part win => Sys2Proof.Machine.execReopen part win s
  | .fill cluster => Sys2Proof.Machine.execFill cluster s
  | .load part => Sys2Proof.Machine.execLoad part s
  | .rotation cluster => Sys2Proof.Machine.execRotation cluster s
  | .preemption key => Sys2Proof.Machine.execPreemption key s
  | .migration key => Sys2Proof.Machine.execMigration key s
  | .arrival key => Sys2Proof.Machine.execArrival key s
  | .result k => Sys2Proof.Machine.execResult k s
  | .poisonedResult k => Sys2Proof.Machine.execPoisonedResult k s
  | .storeAnswer k => Sys2Proof.Machine.execStoreAnswer k s
  | .storePerform k => Sys2Proof.Machine.execStorePerform k s
  | .contextLineStore k => Sys2Proof.Machine.execContextLineStore k s
  | .message k => Sys2Proof.Machine.execMessage k s
  | .sendStatus k => Sys2Proof.Machine.execSendStatus k s
  | .futureWalk k => Sys2Proof.Machine.execFutureWalk k s
  | .barrierWake key link n => Sys2Proof.Machine.execBarrierWake key link n s
  | .timerWake key => Sys2Proof.Machine.execTimerWake key s
  | .trapEntry key => Sys2Proof.Machine.execTrapEntry key s
  | .translationWalk k => Sys2Proof.Machine.execTranslationWalk k s
  | .walkCompletion k => Sys2Proof.Machine.execWalkCompletion k s
  | .gets line die => Sys2Proof.Machine.execGets line die s
  | .geto line die => Sys2Proof.Machine.execGeto line die s
  | .upg line die => Sys2Proof.Machine.execUpg line die s
  | .puto line die => Sys2Proof.Machine.execPuto line die s
  | .wrnt k => Sys2Proof.Machine.execWrnt k s
  | .adds line die => Sys2Proof.Machine.execAdds line die s
  | .inv line die => Sys2Proof.Machine.execInv line die s
  | .rcls line die => Sys2Proof.Machine.execRcls line die s
  | .rcli line die => Sys2Proof.Machine.execRcli line die s
  | .invack line die => Sys2Proof.Machine.execInvack line die s
  | .rcldata line die => Sys2Proof.Machine.execRcldata line die s
  | .datas line die => Sys2Proof.Machine.execDatas line die s
  | .datao line die => Sys2Proof.Machine.execDatao line die s
  | .hostMemRead tag pa n => Sys2Proof.Machine.execHostMemRead tag pa n s
  | .hostMemWrite pa bytes => Sys2Proof.Machine.execHostMemWrite pa bytes s
  | .backInvalidationResponse line => Sys2Proof.Machine.execBackInvalidationResponse line s
  | .eccCorrected pa => Sys2Proof.Machine.execEccCorrected pa s
  | .uncorrectableError pa => Sys2Proof.Machine.execUncorrectableError pa s
  | .memorySideDown die => Sys2Proof.Machine.execMemorySideDown die s
  | .rejoin die => Sys2Proof.Machine.execRejoin die s
  | .tilePrepare quad iu => Sys2Proof.Machine.execTilePrepare quad iu s
  | .tileStart quad => Sys2Proof.Machine.execTileStart quad s
  | .tileCommit quad => Sys2Proof.Machine.execTileCommit quad s
  | .rottime quad => Sys2Proof.Machine.execRottime quad s
  | .ceCompletion cluster => Sys2Proof.Machine.execCeCompletion cluster s
  | .bdeCompletion stack => Sys2Proof.Machine.execBdeCompletion stack s
  | .rlcClaim cluster => Sys2Proof.Machine.execRlcClaim cluster s
  | .rlcCheckpoint cluster => Sys2Proof.Machine.execRlcCheckpoint cluster s
  | .rlcxStart cluster => Sys2Proof.Machine.execRlcxStart cluster s
  | .dequePop iu => Sys2Proof.Machine.execDequePop iu s
  | .stealRound iu => Sys2Proof.Machine.execStealRound iu s
  | .stealRequest victim thief => Sys2Proof.Machine.execStealRequest victim thief s
  | .stealAnswer thief => Sys2Proof.Machine.execStealAnswer thief s
  | .powerSample die => Sys2Proof.Machine.execPowerSample die s
  | .relockEnd die => Sys2Proof.Machine.execRelockEnd die s
  | .thermalShutdown die => Sys2Proof.Machine.execThermalShutdown die s
  | .hbmThrottle stack temp => Sys2Proof.Machine.execHbmThrottle stack temp s
  | .watchdogExpiry part => Sys2Proof.Machine.execWatchdogExpiry part s
  | .linkTraining port width => Sys2Proof.Machine.execLinkTraining port width s
  | .portDown port => Sys2Proof.Machine.execPortDown port s
  | .peerTimeout k => Sys2Proof.Machine.execPeerTimeout k s
  | .unassignedWordPattern w0 w1 detail => Sys2Proof.Machine.execUnassignedWordPattern w0 w1 detail s
  | .consecutiveClockStep die => Sys2Proof.Machine.execConsecutiveClockStep die s
  | .badCommand part win => Sys2Proof.Machine.execBadCommand part win s
  | .roleCheck => Sys2Proof.Machine.execRoleCheck s
  | .reEnumerate => Sys2Proof.Machine.execReEnumerate s
  | .patchSwitch => Sys2Proof.Machine.execPatchSwitch s
  | .patchTimeout => Sys2Proof.Machine.execPatchTimeout s
  | .settle => Sys2Proof.Machine.execSettle s
  | .spillAll => Sys2Proof.Machine.execSpillAll s
  | .flush => Sys2Proof.Machine.execFlush s
  | .copy => Sys2Proof.Machine.execCopy s
  | .release => Sys2Proof.Machine.execRelease s
  | .scrubComplete => Sys2Proof.Machine.execScrubComplete s
  | .thawed => Sys2Proof.Machine.execThawed s
  | .coldReset => Sys2Proof.Machine.execColdReset s
  | .warmReset => Sys2Proof.Machine.execWarmReset s

end Sys2Proof.Machine
end

