-- ==== Sys2Proof/Machine/Barrel.lean ====
section
/-! DEFINITION. What happens next: an instruction issues, or one of the happenings under way comes about; and the time that passes (R105, R146, R393, log 1, log 2). -/

namespace Sys2Proof.Machine

/-! ### Candidates of the issue units (R145, R146, R251) -/

/-- Whether a fetch miss of the context is already being walked for (R62). -/
def State.fetchWaits (s : State) (key : Nat) : Bool := s.walks.any fun w => w.2.waiters.any fun x => x.key = key && x.fetch

/-- A context that could issue, with the cycle of its issue on its die. -/
structure Cand where
  key  : Nat
  slot : Nat
  h    : Held
  next : NextInstr
  at_  : Nat
  deriving DecidableEq, Repr

/-- Contexts that an IU may look at: in a slot, READY with no trap due, not draining but for a replay's last issues and an END due in this cycle, on a die that is not relocking (R105, R125, R146, R237, R374, R391). -/
def State.lookAt (s : State) : List (Nat × Held × Nat) :=
  s.held.filterMap fun e =>
    match e.2.place with
    | .slot n =>
      if e.2.ctx.state = stReady && !s.trapDue e.1 && (!e.2.evictReq || e.2.replay.isSome || s.endDue e.1 e.2 n) && (s.die (n / 2048)).relock.isNone then some (e.1, e.2, n) else none
    | _ => none

/-- Candidates of the whole machine: their next instruction is at hand, and they are not passed over (R146, R251). A miss of the fetch takes no cycle. -/
def State.cands (s : State) : List Cand :=
  s.lookAt.filterMap fun (key, h, n) =>
    let at_ := s.issueCycle h n
    let s' := s.at (s.cycleAt (n / 2048) at_)
    let ni := s'.nextInstr key h n
    let ok := match ni with
      | .instr i _ => !s'.blocked key n h i
      | .trap _ _ => true
      | _ => false
    if ok then some { key, slot := n, h, next := ni, at_ } else none

/-- What a context passed over for its fetch makes the machine do, where that is not under way: a walk, or a step toward its line (R61, R62, R71, R146). -/
def State.fetchDue (s : State) : Option State :=
  s.lookAt.findSome? fun (key, h, n) =>
    let k := s.partOf key
    match (s.at (s.cycleAt (n / 2048) (s.issueCycle h n))).nextInstr key h n with
    | .miss va spc => if s.fetchWaits key then none else some (s.missAt key (n / 128) k (s.asidOf k h.ctx.launch) va va true spc)
    | .fill line page => s.icFill n k line page
    | _ => none

/-- The moment of a candidate's issue. -/
def State.candTime (s : State) (c : Cand) : Nat := s.cycleAt (c.slot / 2048) c.at_

/-- Whether one candidate goes before another: earlier in time, then the lower IU, then the rotation of R146. -/
def State.before (s : State) (a b : Cand) : Bool :=
  let ta := s.candTime a
  let tb := s.candTime b
  let rot (c : Cand) : Nat := (c.slot % 16 + 15 - (s.iu (c.slot / 16)).last) % 16
  decide (ta < tb) || (ta == tb && (decide (a.slot / 16 < b.slot / 16) || (a.slot / 16 == b.slot / 16 && decide (rot a < rot b))))

/-- A candidate in its place among those in order. -/
def State.insertCand (s : State) (c : Cand) : List Cand → List Cand
  | [] => [c]
  | d :: r => if s.before c d then c :: d :: r else d :: s.insertCand c r
/-- The candidates in the order in which they would issue. -/
def State.order (s : State) : List Cand := s.cands.foldr s.insertCand []

/-- A candidate's attempt: REFT passes to its cycle and its IU's slot is taken. None where it is passed over, since what it needs cannot take it yet and nothing was begun for it; what a context passed over has begun stands without its IU's slot (R145, R146, R251, R273). -/
def State.tryIssue (s : State) (c : Cand) : Option (Host.Outcome State Fault Refusal) :=
  let s1 := { ((s.at (s.candTime c)).modIu (c.slot / 16) fun u => { u with last := c.slot % 16, free := c.at_ + 1 }) with cur := c.key }
  match c.next with
  | .instr i _ =>
    match exec i s1 with
    | .next t =>
      if mapFind t.held c.key = mapFind s.held c.key then
        let t := { t with now := s.now, ius := s.ius, cur := s.cur, tick := s.tick }
        if t = s then none else some (.next t)
      else some (.next { t with now := s1.now })
    | o => some o
  | .trap t spc => some (.next { ((s1.fwRecord (c.slot / 2048) (s.partOf c.key) c.key t).raiseTrap c.key t (BitVec.ofNat 64 spc)) with now := s1.now })
  | _ => none

/-! ### Happenings under way (R7, R80, R108, R385, R391, R393, R401) -/

/-- Removes the element at a position. -/
def removeAt {α : Type} : List α → Nat → List α
  | [], _ => []
  | _ :: r, 0 => r
  | x :: r, n + 1 => x :: removeAt r n

/-- The first entry on the path of entry `n`: what goes one path comes about in the order in which it was sent (R7, R80, R390). -/
def State.firstOnPath (s : State) (l : List Instr) (n : Nat) : Nat :=
  match (l[n]?).bind s.msgPath with
  | none => n
  | some p => (l.takeWhile fun i => s.msgPath i != some p).length

/-- The moment of a happening that the spec gives one: the ends of relocks and the gaps after them, samples, the 2 ms of an access to a peer, the watchdog, the limit of a patch (R389, R391, R393, R400, R401). -/
def State.dueAt (s : State) : Instr → Option Nat
  | .relockEnd d => some (s.die d).stepAt
  | .consecutiveClockStep d => some (s.die d).stepAt
  | .powerSample d => some (((s.die d).sampled * 10000 + 1000) * Config.ticksPerNs)
  | .peerTimeout k => (mapFind s.sent k).map (· + peerWaitNs * Config.ticksPerNs)
  | .watchdogExpiry k => (s.part k).map fun p => p.wdogAt + getF p.wdog 0 32 * 1000 * Config.ticksPerNs
  | .patchTimeout => if s.fware.patch.isSome then some (s.fware.patchAt + patchLimit * Config.ticksPerNs + 1) else none
  | _ => none

/-- The earliest such moment on the agenda. -/
def State.deadline (s : State) : Option Nat := (s.agenda.filterMap s.dueAt).min?

/-- How far REFT may pass before something must happen: the next issue, or the next of those moments (R146, log 2). -/
def State.horizon (s : State) : Option Nat := (((s.order.head?).map s.candTime).toList ++ s.deadline.toList).min?.map (max s.now)

/-- Moves of a context's line take it as it stands once its results have landed; nobody else waits for that (R105, log 2). -/
def drains : Instr → Bool
  | .fill _ => true | .rotation _ => true | .preemption _ => true | .migration _ => true | .trapEntry _ => true
  | _ => false

/-- A happening with its result's moment that of its start, where it only drains. -/
def happen (i : Instr) (s : State) : Host.Outcome State Fault Refusal :=
  match exec i s with
  | .next t => .next (if drains i then { t with now := s.now } else t)
  | o => o

/-- A cluster's scheduler that has something to do does it at once: no READY context stays out while a slot, or a victim, is there (R108, R412). -/
def State.fillDue (s : State) : Option State :=
  (List.range s.agenda.length).findSome? fun m =>
    match s.agenda[m]? with
    | some (Instr.fill c) =>
      match happen (.fill c) { s with agenda := removeAt s.agenda m } with
      | .next t => if t.held = s.held then none else some t
      | _ => none
    | _ => none

/-- The earliest of the timed happenings comes about, at its moment. -/
def State.runDeadline (s : State) (d : Nat) : Host.Outcome State Fault Refusal :=
  let m := (s.agenda.takeWhile fun i => s.dueAt i != some d).length
  match s.agenda[m]? with
  | some i => happen i ({ s with agenda := removeAt s.agenda m }.at d)
  | none => .next s

/-- A fetch that is due; else the first candidate, in order, that is not passed over, unless a timed happening comes first; else REFT passes (R145, R146). -/
def State.turn (s : State) : Host.Outcome State Fault Refusal :=
  match s.fetchDue with
  | some s => .next s
  | none =>
    let early := match s.deadline with
      | some d => s.order.filter fun c => decide (s.candTime c < d)
      | none => s.order
    match early.findSome? s.tryIssue with
    | some o => o
    | none =>
      let t := s.now + Config.ticksPerNs
      match s.deadline with
      | some d => if early.isEmpty || decide (d ≤ t) then s.runDeadline d else .next (s.at t)
      | none => .next (s.at t)

/-- A happening of the agenda, first of those on its path: a timed one at its moment, another after a free time, none past the horizon. None where it cannot come about before that. -/
def State.pickOne (s : State) (n elapse : Nat) : Option (Host.Outcome State Fault Refusal) :=
  let m := s.firstOnPath s.agenda n
  (s.agenda[m]?).bind fun i =>
    let within (t : Nat) : Bool := s.horizon.all fun z => decide (t ≤ z)
    let go (t : Nat) : Option (Host.Outcome State Fault Refusal) :=
      match happen i ({ s with agenda := removeAt s.agenda m }.at t) with
      | .next t => if within t.now then some (.next t) else none
      | o => some o
    match s.dueAt i with
    | some d => if within (max s.now d) then go d else none
    | none => go ((s.horizon.map (min (s.now + elapse))).getD (s.now + elapse))

/-- What happens next: a delivery that waited for a line which has arrived; a fill that is due; else a free choice of one of the happenings under way or of an issue (R106, R108, log 1, log 2). -/
def State.advance (s : State) : Host.Outcome State Fault Refusal :=
  match s.soon with
  | i :: r => happen i { s with soon := r }
  | [] =>
    match s.agenda with
    | [] => s.turn
    | _ :: r =>
      match s.fillDue with
      | some t => .next t
      | none =>
        let n := Config.pick s.tick % (r.length + 2)
        let s' := { s with tick := s.tick + 1 }
        if n = 0 then s'.turn
        else (s'.pickOne (n - 1) (Config.elapse s.tick)).getD s'.turn

end Sys2Proof.Machine
end

