-- ==== Sys2Proof/Machine/Step.lean ====
section
/-! DEFINITION. One step of the part: the issue of an instruction, or one of the other happenings, whole and indivisible. -/

namespace Sys2Proof.Machine

/-- One step: what happens next, done by its meaning (log 1). -/
def step (s : State) : Host.Outcome State Fault Refusal := s.advance

/-- The state with an instruction's words as the next to be fetched: a partition and one context stand for the load of a program (log 3). -/
def State.withFetchWord (s : State) (nbits w : Nat) : State := s.withCode (natLe 16 (w % 2 ^ nbits))

end Sys2Proof.Machine
end

