-- ==== Sys2Proof/Safety.lean ====
section
/-! DEFINITION. What counts as a safe step and a sound state, and the words in which claims speak of an instruction that issues. -/

namespace Sys2Proof.Machine

/-- A step is safe when it ends in a next state: the part never stops. -/
def stepsOn (s : State) : Prop := ∃ t, step s = .next t

/-- Memory keeps its one canonical form. -/
def memSound (s : State) : Prop := memWf s.mem = true

/-- A replay in progress holds only instructions that a block may hold (R231). -/
def replaysSound (s : State) : Prop := ∀ e ∈ s.held, ∀ r, e.2.replay = some r → ∀ x ∈ r.block, captureBad x.1 = none

/-- Arithmetic cycle of the die of a slot. -/
def State.cycOf (s : State) (n : Nat) : Nat := s.cyc (n / 2048)

/-- The context that `cur` names is READY in slot `n`; `h` is the issue unit's record of it with the flags landed that are due (R145, R211). -/
def State.readyAt (s : State) (n : Nat) (h : Held) : Prop :=
  ∃ h0, mapFind s.held s.cur = some h0 ∧ h0.place = .slot n ∧ h0.ctx.state = stReady ∧ h = h0.landed (s.cycOf n)

/-- That context issues an instruction of header `hd` which reads and writes the given registers: its guard holds, no register it names has a result outstanding, every register it reads has settled (R147, R150, R187). -/
def State.issuing (s : State) (hd : Hdr) (reads writes : List Reg) (n : Nat) (h : Held) : Prop :=
  s.readyAt n h ∧ guardHolds hd h.ctx = true ∧ (∀ r ∈ reads ++ writes, h.ctx.pend r.toNat = false) ∧
  ∀ r ∈ reads, h.rdy[r.toNat]'r.isLt ≤ s.cycOf n

/-- The state in which that instruction, of `words` words, has issued with `h'` as the record of its context before PC moves: PC past it, NEXT set (R145), everything else as it was. -/
def State.issued (s : State) (hd : Hdr) (words n : Nat) (h' : Held) : State :=
  { s with held := mapPut s.held s.cur ((h'.advance words).issued (s.cycOf n) hd.s) }

/-- What such an instruction carries. -/
def State.issOf (s : State) (i : Instr) (words n : Nat) (h : Held) : Iss :=
  { key := s.cur, h, slot := n, t := s.cycOf n, words, rd := h.ctx.x, rd2 := h.ctx.x, rd3 := h.ctx.x, part := s.partOf s.cur,
    asid := s.asidOf (s.partOf s.cur) h.ctx.launch, ins := i }

/-! ### Lanes, as the spec counts them (R101, R209) -/

/-- Lane `k` of `w` bits of a register. -/
def laneV (w : Nat) (x : XReg) (k : Nat) : BitVec w := x.extractLsb' (w * k) w

/-- A result writes lane `k` of `w` bits: a 64-bit lane always, another where its mask bit is 1. -/
def laneOn (w : Nat) (lm : BitVec 12) (k : Nat) : Bool := w = 64 || lm.getLsbD k

/-- `x'` is a lane-wise result over `x`: active lanes hold `f`, the others and, in `.D`, bits [95:64] keep their value. -/
def laneResult (sh : Sh) (lm : BitVec 12) (x x' : XReg) (f : (k : Nat) → BitVec (shW sh)) : Prop :=
  (∀ k < shN sh, laneV (shW sh) x' k = if laneOn (shW sh) lm k then f k else laneV (shW sh) x k) ∧
  (sh = .d → x'.extractLsb' 64 32 = x.extractLsb' 64 32)

/-- The same for a floating-point shape. -/
def flaneResult (f : FSh) (lm : BitVec 12) (x x' : XReg) (g : (k : Nat) → BitVec (fshW f)) : Prop :=
  (∀ k < fshN f, laneV (fshW f) x' k = if laneOn (fshW f) lm k then g k else laneV (fshW f) x k) ∧
  (f = .f64 → x'.extractLsb' 64 32 = x.extractLsb' 64 32)

/-! ### Forms of one shape -/

/-- `mk` is a form of two registers whose lanes give `f`, its result readable after `L` cycles, with no flag. -/
def TwoRegForm (mk : Hdr → Sh → Reg → Reg → Reg → Instr) (L : Nat) (f : (w : Nat) → BitVec w → BitVec w → BitVec w) : Prop :=
  ∀ (s : State) (hd : Hdr) (sh : Sh) (d a b : Reg) (n : Nat) (h : Held), s.issuing hd [a, b] [d] n h →
    ∃ x', exec (mk hd sh d a b) s = .next (s.issued hd 1 n (h.write (s.cycOf n) L d x')) ∧
      laneResult sh h.ctx.lm (xget h.ctx.x d) x' fun k => f (shW sh) (laneV _ (xget h.ctx.x a) k) (laneV _ (xget h.ctx.x b) k)

/-- `mk` is an arithmetic form with a checking variant: where a written lane overflows by `ov`, the checking form raises IOVF with its result. -/
def CheckedForm (mk : Hdr → Sh → Bool → Reg → Reg → Reg → Instr) (L : Nat) (f : (w : Nat) → BitVec w → BitVec w → BitVec w)
    (ov : (w : Nat) → BitVec w → BitVec w → Bool) : Prop :=
  ∀ (s : State) (hd : Hdr) (sh : Sh) (ck : Bool) (d a b : Reg) (n : Nat) (h : Held), s.issuing hd [a, b] [d] n h →
    ∃ x' fl, exec (mk hd sh ck d a b) s = .next (s.issued hd 1 n ((h.write (s.cycOf n) L d x').flagAt (s.cycOf n + L) fl)) ∧
      laneResult sh h.ctx.lm (xget h.ctx.x d) x' (fun k => f (shW sh) (laneV _ (xget h.ctx.x a) k) (laneV _ (xget h.ctx.x b) k)) ∧
      fl = if ck && (List.range (shN sh)).any (fun k => laneOn (shW sh) h.ctx.lm k &&
        ov (shW sh) (laneV _ (xget h.ctx.x a) k) (laneV _ (xget h.ctx.x b) k)) then flIo else 0

/-- `mk` is a form of one register. -/
def OneRegForm (mk : Hdr → Sh → Reg → Reg → Instr) (f : (w : Nat) → BitVec w → BitVec w) : Prop :=
  ∀ (s : State) (hd : Hdr) (sh : Sh) (d a : Reg) (n : Nat) (h : Held), s.issuing hd [a] [d] n h →
    ∃ x', exec (mk hd sh d a) s = .next (s.issued hd 1 n (h.write (s.cycOf n) 8 d x')) ∧
      laneResult sh h.ctx.lm (xget h.ctx.x d) x' fun k => f (shW sh) (laneV _ (xget h.ctx.x a) k)

/-- `mk` is an immediate form: the second operand of each lane is the immediate, sign-extended and taken modulo the lane. -/
def ImmForm (mk : Hdr → Sh → Reg → Reg → BitVec 10 → Instr) (f : (w : Nat) → BitVec w → BitVec w → BitVec w) : Prop :=
  ∀ (s : State) (hd : Hdr) (sh : Sh) (d a : Reg) (imm : BitVec 10) (n : Nat) (h : Held), s.issuing hd [a] [d] n h →
    ∃ x', exec (mk hd sh d a imm) s = .next (s.issued hd 1 n (h.write (s.cycOf n) 8 d x')) ∧
      laneResult sh h.ctx.lm (xget h.ctx.x d) x' fun k => f (shW sh) (laneV _ (xget h.ctx.x a) k) (BitVec.setWidth _ (imm.signExtend 64))

/-- The state in which a variable-latency operation has started: PEND on its destination, the operation outstanding, its delivery to come (R147, R210). -/
def State.started (s : State) (hd : Hdr) (words n : Nat) (h' : Held) (d : Reg) (kind : OpKind) : State :=
  let t := s.issued hd words n { h' with ctx := h'.ctx.setPend d.toNat true }
  { t with
    ops := mapPut s.ops s.nextId { key := s.cur, launch := h'.ctx.launch, pos := .iu (n / 16), reg := d, kind },
    agenda := s.agenda ++ [.result s.nextId], nextId := s.nextId + 1 }

/-- `mk` is a form of two registers of variable latency. -/
def TwoRegVarForm (mk : Hdr → Sh → Reg → Reg → Reg → Instr) (f : (w : Nat) → BitVec w → BitVec w → BitVec w) : Prop :=
  ∀ (s : State) (hd : Hdr) (sh : Sh) (d a b : Reg) (n : Nat) (h : Held), s.issuing hd [a, b] [d] n h →
    ∃ v m, exec (mk hd sh d a b) s = .next (s.started hd 1 n h d (.value v m 0)) ∧
      ∀ x, laneResult sh h.ctx.lm x (mergeBytes m v x) fun k => f (shW sh) (laneV _ (xget h.ctx.x a) k) (laneV _ (xget h.ctx.x b) k)

/-! ### Floating point (R161, R172, R238) -/

/-- `fl` holds a flag exactly where some written lane raises it (R238). -/
def flagsOf (f : FSh) (lm : BitVec 12) (fl : Fl) (g : Nat → Fl) : Prop :=
  ∀ j < 6, fl.getLsbD j = (List.range (fshN f)).any fun k => laneOn (fshW f) lm k && (g k).getLsbD j

/-- `mk` is a floating-point form of two registers: latency `L`, each written lane `op` of its operands in the rounding mode of STAT, and its flags with it. -/
def FloatForm2 (mk : Hdr → FSh → Reg → Reg → Reg → Instr) (op : FFmt → Nat → Nat → Nat → Nat × Fl) : Prop :=
  ∀ (s : State) (hd : Hdr) (f : FSh) (d a b : Reg) (n : Nat) (h : Held), s.issuing hd [a, b] [d] n h → h.ctx.rm < 5 →
    let L := if f = .f64 then 20 else 16
    let r := fun k => op (fshF f) h.ctx.rm (laneV (fshW f) (xget h.ctx.x a) k).toNat (laneV (fshW f) (xget h.ctx.x b) k).toNat
    ∃ x' fl, exec (mk hd f d a b) s = .next (s.issued hd 1 n ((h.write (s.cycOf n) L d x').flagAt (s.cycOf n + L) fl)) ∧
      flaneResult f h.ctx.lm (xget h.ctx.x d) x' (fun k => BitVec.ofNat _ (r k).1) ∧ flagsOf f h.ctx.lm fl fun k => (r k).2

/-- The same for a form of one register and latency 8. -/
def FloatForm1 (mk : Hdr → FSh → Reg → Reg → Instr) (op : FFmt → Nat → Nat × Fl) : Prop :=
  ∀ (s : State) (hd : Hdr) (f : FSh) (d a : Reg) (n : Nat) (h : Held), s.issuing hd [a] [d] n h → h.ctx.rm < 5 →
    let r := fun k => op (fshF f) (laneV (fshW f) (xget h.ctx.x a) k).toNat
    ∃ x' fl, exec (mk hd f d a) s = .next (s.issued hd 1 n ((h.write (s.cycOf n) 8 d x').flagAt (s.cycOf n + 8) fl)) ∧
      flaneResult f h.ctx.lm (xget h.ctx.x d) x' (fun k => BitVec.ofNat _ (r k).1) ∧ flagsOf f h.ctx.lm fl fun k => (r k).2

/-- `i` has started a variable-latency operation that will deliver `r` in the written lanes of `d`, with its flags (R239). -/
def FloatStarts (s : State) (i : Instr) (hd : Hdr) (f : FSh) (n : Nat) (h : Held) (d : Reg) (r : Nat → Nat × Fl) : Prop :=
  ∃ v m fl, exec i s = .next (s.started hd 1 n h d (.value v m fl)) ∧
    (∀ x, flaneResult f h.ctx.lm x (mergeBytes m v x) fun k => BitVec.ofNat _ (r k).1) ∧ flagsOf f h.ctx.lm fl fun k => (r k).2

/-- The magnitude `k * 2 ^ q` that a code of a format stands for, sign bit clear (R161). -/
def magOf (f : FFmt) (c : Nat) : Nat × Int :=
  if c < 2 ^ f.mbits then (c, f.qmin) else (c % 2 ^ f.mbits + 2 ^ f.mbits, f.qmin + (c / 2 ^ f.mbits : Nat) - 1)
/-- A magnitude in units of `2 ^ q`, for `q` no above its last place. -/
def unitsOf (v : Nat × Int) (q : Int) : Nat := v.1 * 2 ^ (v.2 - q).toNat

/-! ### Traps (R368 to R372) -/

/-- The state in which the instruction of a context has raised a precise trap at its PC. -/
def State.trapped (s : State) (h : Held) (t : Trap) : State := ({ s with held := mapPut s.held s.cur h } : State).raiseTrap s.cur t h.ctx.pc

/-- `c'` is `c` as it enters its handler: what trap entry writes, and what it leaves (R370). -/
def entersHandler (c c' : Ctx) (t : Trap) (spc entry : Dword) (lineVa : Nat) : Prop :=
  c'.pc = entry ∧ c'.pred = 0x000F_FF01 ∧ c'.mode = (if c.mode = 2 then 2 else 1) ∧ c'.inTrap = true ∧ c'.nest = c.nest + 1 ∧
  c'.state = stReady ∧ c'.why = 0 ∧ c'.rm = c.rm ∧ c'.chk = c.chk ∧ c'.prio = c.prio ∧ c'.urgent = c.urgent ∧
  c'.owner = c.owner ∧ c'.link = c.link ∧ getF c'.wait 0 24 = getF c.wait 0 24 ∧
  xget c'.x 0 = (0 : BitVec 32) ++ BitVec.ofNat 64 lineVa ∧ xget c'.x 1 = (0 : BitVec 32) ++ BitVec.ofNat 64 (t.detail * 2 ^ 16 + t.code) ∧
  xget c'.x 2 = (0 : BitVec 32) ++ BitVec.ofNat 64 t.faddr ∧ xget c'.x 3 = (0 : BitVec 32) ++ spc ∧
  ∀ r : Reg, 4 ≤ r.toNat → xget c'.x r = xget c.x r

/-- The trap line at `pa` holds what trap entry saves of `c` (R102, R370). -/
def State.trapSaved (s : State) (pa : Nat) (c : Ctx) (t : Trap) (spc : Dword) : Prop :=
  s.readN pa 8 = spc.toNat ∧ s.readN (pa + 8) 4 = c.pred.toNat ∧ s.readN (pa + 0xC) 4 = (c.stat &&& ~~~0x1C#32).toNat ∧
  s.readN (pa + 0x10) 4 = t.detail * 2 ^ 16 + t.code ∧ s.readN (pa + 0x14) 4 = 0 ∧ s.readN (pa + 0x18) 8 = t.faddr ∧
  ∀ i : Fin 4, s.readN (pa + 0x20 + 12 * i) 12 = (xget c.x (BitVec.ofNat 3 i)).toNat

/-- A trap's fields fit the places the trap line has for them. -/
def Trap.fits (t : Trap) : Prop := t.code < 2 ^ 16 ∧ t.detail < 2 ^ 16 ∧ t.faddr < 2 ^ 64

/-! ### Memory accesses (R42, R198, R253) -/

/-- Address of byte `i` of an access. -/
def Access.byteAt (a : Access) (i : Nat) : Nat := (a.segs.flatMap fun g => rangeFrom g.1 g.2).getD i 0
/-- Whether a 12-byte size moves its byte `i` under a lane mask: the bytes of the lanes whose bit is 1. -/
def laneByte (sz : MSize) (lm : BitVec 12) (i : Nat) : Bool :=
  match sz with | .w3 => lm.getLsbD (i / 4) | .h6 => lm.getLsbD (i / 2) | _ => lm.getLsbD i
/-- The byte `i` of a register. -/
def xByte (x : XReg) (i : Nat) : Byte := x.extractLsb' (8 * i) 8

/-- What a load of a size leaves in a register that held `x`, from the bytes `b` it read: up to 8 bytes zero-extended into bytes 0 to 7, 12 bytes under the lane mask; the other bytes keep their values. -/
def loaded (sz : MSize) (lm : BitVec 12) (b : Nat → Byte) (x x' : XReg) : Prop :=
  ∀ i < 12, xByte x' i =
    if sizeBytes sz = 12 then (if laneByte sz lm i then b i else xByte x i)
    else if i < sizeBytes sz then b i else if i < 8 then 0 else xByte x i

/-- A store of a size writes byte `i` of its register (R253). -/
def storesByte (sz : MSize) (lm : BitVec 12) (i : Nat) : Bool := if sizeBytes sz = 12 then i < 12 && laneByte sz lm i else i < sizeBytes sz

/-- The checks of an instruction's access come out well (R42). -/
def State.passes (s : State) (i : Instr) (n : Nat) (h : Held) (d : DescN) (off : Dword) (bytes : Nat) (kind : AK) (a : Access) (sc : ScopeCode) : Prop :=
  ∃ l, s.access (s.issOf i 1 n h) d.toNat off bytes kind = .ok a sc l

/-- The state after a store of `v` has been posted: the context as `h'` leaves it, memory untouched, and for each byte stored a posted store that holds it (R74, R253). -/
def State.posted (s t : State) (hd : Hdr) (n : Nat) (h h' : Held) (a : Access) (sz : MSize) (v : XReg) (rel : Option ScopeCode) : Prop :=
  t.held = (s.issued hd 1 n h').held ∧ t.mem = s.mem ∧ t.ops = s.ops ∧ s.nextId ≤ t.nextId ∧
  (∀ k < s.nextId, mapFind t.stores k = mapFind s.stores k) ∧
  (∀ ad b, (∃ k p, s.nextId ≤ k ∧ mapFind t.stores k = some p ∧ (ad, b) ∈ p.bytes) ↔
    ∃ i < sizeBytes sz, storesByte sz h.ctx.lm i = true ∧ ad = a.byteAt i ∧ b = xByte v i) ∧
  ∀ k p, s.nextId ≤ k → mapFind t.stores k = some p → p.key = s.cur ∧ p.desc = a.desc ∧ p.va = a.va ∧ p.nt = (p.bytes.head?).any (fun c => a.ntAt c.1) ∧
    p.rel = (match rel with | some sc => some sc | none => (s.fenceOf s.cur).rel) ∧
    (if p.toCtx.isSome then Instr.contextLineStore k else Instr.storePerform k) ∈ t.agenda

/-- A context line that can take a delivery (R106). -/
def Ctx.takes (c : Ctx) : Prop := c.state ≠ stDone ∧ c.state ≠ stFaulted

/-- `c'` is `c` with the result of register `r` delivered: PEND cleared, and READY with WHY 0 where it waited for registers of which none it needs is still pending (R106). -/
def deliveredTo (needs : BitVec 8) (c c' : Ctx) (r : Reg) : Prop :=
  c'.pend r.toNat = false ∧ (∀ i < 24, i ≠ r.toNat → c'.wait.getLsbD i = c.wait.getLsbD i) ∧
  (∀ q : Reg, q ≠ r → xget c'.x q = xget c.x q) ∧ c'.pc = c.pc ∧ c'.owner = c.owner ∧ c'.link = c.link ∧
  (if (c.state = stWaiting ∨ c.state = stParked) ∧ c.why = whyReg ∧ (∀ q : Reg, needs.getLsbD q.toNat = true → c'.pend q.toNat = false) then c'.state = stReady ∧ c'.why = 0 else c'.state = c.state ∧ c'.why = c.why)

/-- A piece of HBM that its die may read at once: not poisoned, offline, claimed, nor a context line that a slot or a CL2 holds. -/
def State.readable (s : State) (die pa : Nat) : Prop :=
  (∃ t, s.region pa = .hbm t) ∧ s.offline pa = false ∧ s.isPoison (lineOf pa) = false ∧ s.claimed (lineOf pa) = false ∧
  s.l2Reads (lineOf pa) die = true ∧ mapFind s.held (pa / 128 * 128) = none
/-- A line of HBM that its die owns and may write at once. -/
def State.writable (s : State) (die pa : Nat) : Prop :=
  (∃ t, s.region pa = .hbm t) ∧ s.offline pa = false ∧ s.isPoison (lineOf pa) = false ∧ s.claimed (lineOf pa) = false ∧ s.l2Owns (lineOf pa) die = true

/-- The die holds no copy of a peer's line, so that an acquire at SYS scope drops none (R128). -/
def State.noPeerCopies (s : State) (die : Nat) : Prop := ∀ e ∈ s.l2, e.1 % 32 = die → ∀ j, s.region (e.1 / 32 * 128) ≠ .peer j

/-! ### Control flow -/

/-- The state in which a branch has issued with `h'` as the record of its context before PC moves, and PC at the target (R225 to R227). -/
def State.branched (s : State) (hd : Hdr) (n : Nat) (h' : Held) (target : Dword) : State :=
  { s with held := mapPut s.held s.cur ({ h' with ctx := { h'.ctx with pc := target } }.issued (s.cycOf n) hd.s) }

/-- `i` goes to `target`, writing PC + 4 to `link` if it has one; where the target is not canonical or not a multiple of 4 it traps with ALIGN and writes nothing. -/
def BranchForm (i : Hdr → Instr) (reads : List Reg) (link : Option Reg) (target : Ctx → Dword) : Prop :=
  ∀ (s : State) (hd : Hdr) (n : Nat) (h : Held), s.issuing hd reads link.toList n h →
    (canonical (target h.ctx).toNat = true ∧ (target h.ctx).toNat % 4 = 0 →
      exec (i hd) s = .next (s.branched hd n (match link with
        | some d => h.write (s.cycOf n) 8 d ((xget h.ctx.x d).extractLsb' 64 32 ++ (h.ctx.pc + 4))
        | none => h) (target h.ctx))) ∧
    (¬ (canonical (target h.ctx).toNat = true ∧ (target h.ctx).toNat % 4 = 0) →
      exec (i hd) s = .next (s.trapped h ⟨tcAlign, 16, (target h.ctx).toNat⟩))

/-- The instructions of a block stand at `va` and after it, each one that a replay may hold (R231). -/
def State.blockAt (s : State) (n : Nat) (h : Held) : Nat → List (Instr × Nat) → Prop
  | _, [] => True
  | va, (i, w) :: r => s.fetchAt s.cur h n va = .instr i w ∧ captureBad i = none ∧ s.blockAt n h (va + 4 * w) r

/-- Words of an instruction (R186). -/
def wordsOf (i : Instr) : Nat := match encode i with | some (_, some _) => 2 | _ => 1

/-! ### What an instruction names (R147) -/

/-- The register of a handle operand that names one (R201). -/
def hopNames : HOp → List Reg | .imm _ => [] | .reg x => [x]

/-- Registers of an engine command's tail (R203). -/
def tailNames (t : EngTail) : List Reg := if t.fe then [t.freg] else []

/-- The x registers an instruction reads or writes, by the assembly forms of its chapter; a WRS to a register with no writable field reads none, being ILLEGAL by its word. -/
def namesRegs : Instr → List Reg
  | .add _ _ _ d a b | .sub _ _ _ d a b | .mul _ _ _ d a b => [d, a, b]
  | .mulh _ _ d a b | .mulhu _ _ d a b | .div _ _ d a b | .divu _ _ d a b | .rem _ _ d a b | .remu _ _ d a b
  | .and _ _ d a b | .or _ _ d a b | .xor _ _ d a b | .shl _ _ d a b | .shr _ _ d a b | .sar _ _ d a b | .rol _ _ d a b
  | .min _ _ d a b | .max _ _ d a b | .minu _ _ d a b | .maxu _ _ d a b | .lshuf _ _ d a b => [d, a, b]
  | .abs _ _ d a | .clz _ _ d a | .popc _ _ d a | .brev _ _ d a | .mov _ _ d a | .lsplat _ _ d a => [d, a]
  | .movXdGn _ d _ | .movi _ d _ | .movh _ d _ | .call _ d _ => [d]
  | .movGnXa _ _ a => [a]
  | .addi _ _ d a _ | .andi _ _ d a _ | .ori _ _ d a _ | .xori _ _ d a _ | .shli _ _ d a _ | .shri _ _ d a _ | .sari _ _ d a _
  | .lget _ _ d a _ | .lset _ _ d a _ => [d, a]
  | .bfx _ _ d a _ _ => [d, a]
  | .bfi _ d a _ _ => [d, a]
  | .sel _ _ d a b _ _ => [d, a, b]
  | .cmp _ _ _ _ _ a b => [a, b]
  | .cmpi _ _ _ a _ => [a]
  | .jmp _ a | .ret _ a | .pmask _ a => [a]
  | .callr _ d a => [d, a]
  | .fadd _ _ d a b | .fsub _ _ d a b | .fmul _ _ d a b | .fmin _ _ d a b | .fmax _ _ d a b | .fdiv _ _ d a b => [d, a, b]
  | .fabs _ _ d a | .fneg _ _ d a | .fsqrt _ _ d a | .frcp _ _ d a | .frsq _ _ d a | .fexp2 _ _ d a | .flog2 _ _ d a
  | .fclass _ _ d a | .frnd _ _ d a => [d, a]
  | .fma _ _ d a b c | .fms _ _ d a b c | .fnma _ _ d a b c => [d, a, b, c]
  | .fcmp _ _ _ _ _ _ a b => [a, b]
  | .fcvt _ _ _ d a | .fcvti _ _ _ d a | .icvtf _ _ _ d a => [d, a]
  | .ld _ _ _ d a _ | .ldp _ _ _ d a _ | .ldnt _ _ _ d a _ | .st _ _ _ d a _ | .stp _ _ _ d a _ | .stnt _ _ _ d a _ => [d, a]
  | .lda _ _ _ _ d a _ | .stl _ _ _ _ d a _ => [d, a]
  | .atom _ _ _ _ _ d a b => [d, a, b]
  | .cas _ _ _ _ _ d a b | .atomfAdd _ _ _ _ _ d a b => [d, a, b]
  | .pref _ _ _ a _ => [a]
  | .send _ _ _ _ a _ b => [a, b]
  | .recv _ _ d _ => [d]
  | .spawn _ a b => [a, b, b + 1]
  | .spawnj _ _ d a b => [d, a, b]
  | .futw _ _ _ d a => [d, a]
  | .futr _ _ _ a b | .futf _ _ _ a b => [a, b]
  | .bara _ d _ => [d]
  | .barw _ a _ | .park _ a | .migr _ _ a => [a]
  | .self _ d => [d]
  | .talloc _ hd a => hopNames hd ++ [a]
  | .tfree _ hd | .tzero _ hd | .twait _ hd => hopNames hd
  | .tdesc _ d ha | .tstat _ d ha => hopNames ha ++ [d]
  | .tld _ _ hd a b | .tst _ _ hd a b => hopNames hd ++ [a, b]
  | .tmma _ _ hd ha hb | .tmmar _ _ hd ha hb => hopNames hd ++ hopNames ha ++ hopNames hb
  | .tadd _ hd ha hb | .tsub _ hd ha hb | .tmul _ hd ha hb | .tfma _ hd ha hb | .tmax _ hd ha hb | .tmin _ hd ha hb
  | .tscan _ hd ha hb | .taff _ hd ha hb | .tcomp _ hd ha hb => hopNames hd ++ hopNames ha ++ hopNames hb
  | .tabs _ hd ha | .texp _ hd ha | .trcp _ hd ha | .tcvt _ hd ha | .ttrn _ hd ha | .tred _ _ _ hd ha => hopNames hd ++ hopNames ha
  | .tscale _ hd ha b => hopNames hd ++ hopNames ha ++ [b]
  | .cpy _ d a b t | .redb _ _ _ d a b t | .convb _ _ _ d a b t | .gath _ d a b _ _ t => [d, a, b] ++ tailNames t
  | .cpys _ d a b t => [d, a, b, b + 1] ++ tailNames t
  | .rlcs _ a t => a :: tailNames t
  | .estatX _ d _ => [d]
  | .rlcq _ _ _ d a => [d, a]
  | .rlcx _ _ a b => [a, b]
  | .rds _ _ d => [d]
  | .wrs _ r a => if cregRo r then [] else [a]
  | .evict _ a => [a]
  | .tlbiVa _ d a b | .tlbiU _ d a b => [d, a, b]
  | .tlbiAs _ d b => [d, b]
  | .tlbiAll _ d => [d]
  | .cflush _ _ d a | .pinl _ _ d a | .unpinl _ _ d a => [d, a]
  | _ => []

/-- Instructions that round, and so need a rounding mode below 5 (R173). -/
def roundsInstr : Instr → Bool
  | .fadd .. | .fsub .. | .fmul .. | .fmin .. | .fmax .. | .fabs .. | .fneg .. | .fdiv .. | .fsqrt .. | .frcp .. | .frsq ..
  | .fexp2 .. | .flog2 .. | .fclass .. | .fma .. | .fms .. | .fnma .. | .fcmp .. | .fcvt .. | .fcvti .. | .icvtf .. | .frnd ..
  | .atomfAdd .. | .rlcs .. | .convb .. | .tmma .. | .tmmar .. | .tscan .. | .taff .. | .tcomp .. | .tcvt .. | .tscale ..
  | .tadd .. | .tsub .. | .tmul .. | .tfma .. | .texp .. | .trcp .. => true
  | .tred _ op _ _ _ => op = .sum
  | .redb _ _ fmt _ _ _ _ => (fmtF fmt).isSome
  | _ => false

/-- The registers of those whose value an instruction reads: all but a destination (R150). -/
def readsRegs (i : Instr) : List Reg :=
  match i with
  | .bfi _ d a _ _ => [a, d]
  | .movXdGn .. | .movi .. | .movh .. | .call .. | .recv .. | .bara .. | .self .. | .estatX .. | .rds .. => []
  | .tdesc _ _ ha | .tstat _ _ ha => hopNames ha
  | .callr _ _ a | .rlcq _ _ _ _ a => [a]
  | .add .. | .sub .. | .mul .. | .mulh .. | .mulhu .. | .div .. | .divu .. | .rem .. | .remu .. | .and .. | .or .. | .xor ..
  | .shl .. | .shr .. | .sar .. | .rol .. | .min .. | .max .. | .minu .. | .maxu .. | .lshuf .. | .abs .. | .clz .. | .popc ..
  | .brev .. | .mov .. | .lsplat .. | .addi .. | .andi .. | .ori .. | .xori .. | .shli .. | .shri .. | .sari .. | .lget .. | .lset ..
  | .bfx .. | .sel .. | .fadd .. | .fsub .. | .fmul .. | .fmin .. | .fmax .. | .fdiv .. | .fabs .. | .fneg .. | .fsqrt ..
  | .frcp .. | .frsq .. | .fexp2 .. | .flog2 .. | .fclass .. | .frnd .. | .fma .. | .fms .. | .fnma .. | .fcvt .. | .fcvti ..
  | .icvtf .. | .ld .. | .ldp .. | .ldnt .. | .lda .. | .atom .. | .atomfAdd .. | .futw .. | .tlbiVa .. | .tlbiU ..
  | .tlbiAs .. | .tlbiAll .. | .cflush .. | .pinl .. | .unpinl .. => (namesRegs i).drop 1
  | i => namesRegs i

/-- Instructions that APP mode may not issue, whatever their operands (R64, R76, R336, R337). -/
def supInstr : Instr → Bool
  | .tret .. | .evict .. | .tlbiVa .. | .tlbiAs .. | .tlbiAll .. | .tlbiU .. | .cflush .. | .pinl .. | .unpinl .. => true
  | _ => false

/-- The instruction whose words FADDR of ILLEGAL holds: in a replay the one captured, not staggered (R189, R232). -/
def Held.fetched (h : Held) (i : Instr) : Instr := match h.replay with | some r => ((r.block[r.idx]?).map (·.1)).getD i | none => i

/-! ### Tiles (R282 to R314) -/

/-- A handle that an instruction of the context may name: allocated and, for an APP context, of its own launch (R288, R289). -/
def State.mayName (s : State) (n : Nat) (h : Held) (m : Nat) : Prop :=
  (s.handle (n / 64) m).alloc = true ∧ (h.ctx.mode = 0 → (s.handle (n / 64) m).launch.toNat = h.ctx.launch)

/-- The state in which a tile instruction has issued and `o` stands last in the subqueue of its IU, with what the context gives it; at the head it begins to prepare (R289, R290). -/
def State.queued (s : State) (hd : Hdr) (n : Nat) (h : Held) (o : TileOp) : State :=
  let q := (s.te (n / 64)).sub (n / 16 % 4)
  let k := s.partOf s.cur
  let o' := { o with key := s.cur, part := k, asid := s.asidOf k h.ctx.launch, launch := h.ctx.launch, rm := h.ctx.rm, mode := h.ctx.mode, seq := s.nextId }
  { s.issued hd 2 n h with
    tes := mapPut s.tes (n / 64) ((s.te (n / 64)).setSub (n / 16 % 4) (q ++ [o'])), nextId := s.nextId + 1,
    agenda := if q = [] then s.agenda ++ [.tilePrepare (n / 64) (n / 16 % 4)] else s.agenda }

/-- `i` enters its subqueue as `o` where none of its operands is at fault; else it traps with TOPND, naming one operand at fault with its handle. -/
def TileEnters (s : State) (i : Instr) (hd : Hdr) (n : Nat) (h : Held) (ops : List (Nat × Nat)) (fault : Nat → Prop) (o : TileOp) : Prop :=
  ((∀ x ∈ ops, ¬ fault x.1) → exec i s = .next (s.queued hd n h o)) ∧
  ((∃ x ∈ ops, fault x.1) → ∃ x ∈ ops, fault x.1 ∧ exec i s = .next (({ s with tick := s.tick + 1 } : State).trapped h ⟨tcTopnd, x.1, x.2⟩))

/-- `mk` is a tile form of a destination and two sources that reads `reads` of them; `fault` says which operands are at fault, 0 for the destination. -/
def TileForm3 (mk : Hdr → HOp → HOp → HOp → Instr) (rounds : Bool) (op : TOp) (reads : Nat → Nat → Nat → List Nat)
    (fault : (d a b : TileHandle) → (hd ha hb : Nat) → Nat → Prop) : Prop :=
  ∀ (s : State) (hd : Hdr) (oD oA oB : HOp) (n : Nat) (h : Held), s.issuing hd (hopNames oD ++ hopNames oA ++ hopNames oB) [] n h →
    (rounds = true → h.ctx.rm < 5) →
    let D := hopVal h.ctx.x oD
    let A := hopVal h.ctx.x oA
    let B := hopVal h.ctx.x oB
    let t := fun m => s.handle (n / 64) m
    s.mayName n h D → s.mayName n h A → s.mayName n h B →
    TileEnters s (mk hd oD oA oB) hd n h [(0, D), (1, A), (2, B)] (fault (t D) (t A) (t B) D A B) (tileOp op (reads D A B) D A B)

/-- `mk` is a tile form of a destination and one source. -/
def TileForm2 (mk : Hdr → HOp → HOp → Instr) (rounds : Bool) (op : TOp) (fault : (d a : TileHandle) → (hd ha : Nat) → Nat → Prop) : Prop :=
  ∀ (s : State) (hd : Hdr) (oD oA : HOp) (n : Nat) (h : Held), s.issuing hd (hopNames oD ++ hopNames oA) [] n h →
    (rounds = true → h.ctx.rm < 5) →
    let D := hopVal h.ctx.x oD
    let A := hopVal h.ctx.x oA
    let t := fun m => s.handle (n / 64) m
    s.mayName n h D → s.mayName n h A →
    TileEnters s (mk hd oD oA) hd n h [(0, D), (1, A)] (fault (t D) (t A) D A) (tileOp op [A] D A A)

/-- Two tiles of one shape and format. -/
def TileHandle.like (a d : TileHandle) : Prop := a.fmt = d.fmt ∧ a.shp = d.shp
/-- Formats of the element-wise forms. -/
def eltFmts : List Fmt := [.fp64, .fp32, .fp16, .bf16]

/-- The stored code of element `k` of a tile whose elements take whole bytes. -/
def State.codeAt (s : State) (quad : Nat) (d : TileHandle) (k : Nat) : Nat := s.readN (d.addr quad + fmtBits d.fmt / 8 * k) (fmtBits d.fmt / 8)
/-- The bytes that a run writes to a tile hold the code `f k` at every element `k`. -/
def TileOut.holds (out : TileOut) (quad : Nat) (d : TileHandle) (f : Nat → Nat) : Prop :=
  let w := fmtBits d.fmt / 8
  out.bytes.map (·.1) = rangeFrom (d.addr quad) (w * d.width * d.width) ∧
  ∀ k < d.width * d.width, leToNat (((out.bytes.map (·.2)).drop (w * k)).take w) = f k
/-- A run of `o` writes its destination alone, element `k` as `f k` says, and raises the flags of all its elements. -/
def State.tileGives (s : State) (quad : Nat) (o : TileOp) (f : Nat → Nat × Fl) : Prop :=
  let d := s.handle quad o.hd
  ∃ out, s.tileOuts quad o = [out] ∧ out.handle = o.hd ∧ out.holds quad d (fun k => (f k).1) ∧
    ∀ j < 6, out.flags.getLsbD j = (List.range (d.width * d.width)).any fun k => (f k).2.getLsbD j

/-- Element `k` of a tile of a 32-bit format as it stands in scratch. -/
def State.elem32 (s : State) (quad : Nat) (d : TileHandle) (k : Nat) : BitVec 32 := BitVec.ofNat 32 (s.readN (d.addr quad + 4 * k) 4)

/-! ### Engine commands (R316 to R333) -/

/-- `i` names an engine command of the given operands: a limit it breaks traps with ECMD naming its register, a range that fails its check traps as that check says, a token still pending makes the context wait; else, with room in the queue and every earlier access performed, the command is queued with what `takes` says of it, and its token is PENDING (R317, R318). -/
def EngineIssue (s : State) (i : Instr) (hd : Hdr) (w n : Nat) (h : Held) (t : EngTail) (limit : Option Reg) (ranges : List ERange) (full : Prop)
    (takes : State → Cmd → Prop) : Prop :=
  let e := s.issOf i w n h
  let all : List ERange := ranges ++ (if t.fe then [⟨t.fdesc, (xget h.ctx.x t.freg).extractLsb' 0 64, 8, .atomic, [], 1, 1⟩] else [])
  (∀ r, limit = some r → exec i s = .next (s.trapped h ⟨23, r.toNat, 0⟩)) ∧
  (limit = none → ∀ b, all.findSome? (s.rangeBad e) = some b → exec i s = .next (s.trapped h b)) ∧
  (limit = none → all.findSome? (s.rangeBad e) = none →
    (h.ctx.tok t.tok.toNat = true → ∃ u, exec i s = .next u ∧ u.ctxAt s.cur = h.ctx.setState stWaiting whyTok ∧ u.mem = s.mem ∧ u.ces = s.ces ∧
      u.bdes = s.bdes ∧ u.rlcs = s.rlcs) ∧
    (h.ctx.tok t.tok.toNat = false → ¬ full → s.accessesOut s.cur = false →
      ∃ u c, exec i s = .next u ∧ u.held = (s.issued hd w n { h with ctx := h.ctx.startTok t.tok }).held ∧ u.mem = s.mem ∧ u.ops = s.ops ∧
        takes u c ∧ c.ins = i ∧ c.key = s.cur ∧ c.id = h.id ∧ c.part = s.partOf s.cur ∧ c.launch = h.ctx.launch ∧ c.asid = e.asid ∧ c.rm = h.ctx.rm ∧
        c.mode = h.ctx.mode ∧ c.pos = .iu (n / 16) ∧ c.tail = t))

/-- An engine of a cluster reaches bytes within one line of the module for a command: translated, admitted whatever the bytes at `wr` hold by then, held by nobody else and not by the host, not poisoned, the line owned by its die, which is up (R19, R85, R90, R320). -/
def State.engineReaches (s : State) (wr : Nat → Prop) (clu : Nat) (c : Cmd) (st : Bool) (va n : Nat) (l : Leaf) : Prop :=
  let line := lineOf (l.pa va)
  let die := clu / 16
  (c.mode ≠ 0 ∨ supHalf va = false) ∧ s.tcHit clu c.part c.asid va = some l ∧
  (∀ m, (∀ ad, ¬ wr ad → memRead m ad = memRead s.mem ad) → ({ s with mem := m } : State).pageFcode die c.part c.launch c.mode st l va n = 0) ∧
  s.heldFrom c.num line = false ∧ s.offModule line = false ∧ s.hostHas [line] = false ∧ s.isPoison line = false ∧
  s.l2Owns line die = true ∧ (s.dirE line).st = .own ∧ (s.dirE line).owner = die ∧ (s.die die).down = false

/-- The bytes of a line, from its first one. -/
def inLine (pa ad : Nat) : Prop := pa ≤ ad ∧ ad < pa + 128

/-- The issuer of a command stands still and can take the command's settlement, which needs no future (R106, R319). -/
def State.settles (s : State) (c : Cmd) (h : Held) : Prop :=
  mapFind s.held c.key = some h ∧ h.ctx.takes ∧ s.isMoving c.key = false ∧ c.tail.fe = false

/-- `c'` is `c` with a token settled: no longer PENDING, its fault bit as given, and READY where it waited for a token (R100, R106). -/
def settledTo (c c' : Ctx) (k : Tok) (fault : Bool) : Prop :=
  c'.tok k.toNat = false ∧ c'.tflt k.toNat = fault ∧ (∀ j : Tok, j ≠ k → c'.tok j.toNat = c.tok j.toNat ∧ c'.tflt j.toNat = c.tflt j.toNat) ∧
  c'.pc = c.pc ∧ (∃ f : Word, c'.pred = c.pred ||| f) ∧ c'.x = c.x ∧ c'.link = c.link ∧
  (if (c.state = stWaiting ∨ c.state = stParked) ∧ c.why = whyTok then c'.state = stReady ∧ c'.why = 0 else c'.state = c.state ∧ c'.why = c.why)

/-! ### Page walks (R51 to R55, R58) -/

/-- A table entry at an address can be read, and is `e`. -/
def State.entryIs (s : State) (pa e : Nat) : Prop := s.offline pa = false ∧ s.isPoison (lineOf pa) = false ∧ s.readN pa 8 = e

/-- Address of the entry for a VA in a table of a level. -/
def entryAt (va lv table : Nat) (g64 : Bool) : Nat := table + 8 * (if lv = 0 ∧ g64 = true then va / 2 ^ 16 % 32 else va / 2 ^ (12 + 9 * lv) % 512)

/-- A walk of a VA reaches the table of a level: every entry above is a valid, well-formed non-leaf entry; at level 0 the mark of a 64 KiB table. -/
inductive WalkReaches (s : State) (k : Nat) (p : Part) (asid va : Nat) : Nat → Nat → Bool → Prop
  | root (e : Nat) : s.entryIs (p.asTable + asid * 8) e → e % 2 = 1 → e / 2 % 2 ^ 11 = 0 → e / 2 ^ 52 = 0 → WalkReaches s k p asid va 4 (e / 2 ^ 12 % 2 ^ 40 * 4096) false
  | down (lv table : Nat) (g64 : Bool) (e : Nat) : WalkReaches s k p asid va (lv + 1) table g64 → s.tableOk k table = true →
      s.entryIs (entryAt va (lv + 1) table g64) e → e % 4 = 1 → e / 4 % 2 ^ 5 = 0 → e / 2 ^ 8 % 2 ^ 4 = 0 → e / 2 ^ 52 = 0 → (e / 2 ^ 7 % 2 = 1 → lv = 0) →
      WalkReaches s k p asid va lv (e / 2 ^ 12 % 2 ^ 40 * 4096) (decide (e / 2 ^ 7 % 2 = 1))

end Sys2Proof.Machine
end

