-- ==== Sys2Proof/Certificates/Slice0/Obligations.lean ====
section
/-! DEFINITION. The statements about the machine, for the provers. Each says which rules of spec/ it formalises. -/

open Sys2Proof Sys2Proof.Machine

/-! ### Integer and lane instructions (10_isa_integer_control.md) -/

/-- R209, R210, R214 to R216: results of the register integer forms, lane by lane, and that they change nothing else; ADD, SUB and MUL wrap, their checking forms raising IOVF exactly where a written lane overflows; the divisions are of variable latency, never trap, and their corner cases give the stated values. -/
def Obligations.IntegerResults : Prop :=
  (
  TwoRegForm .mulh 12 (fun w a b => BitVec.ofInt w (a.toInt * b.toInt / 2 ^ w)) ∧
  TwoRegForm .mulhu 12 (fun w a b => BitVec.ofNat w (a.toNat * b.toNat / 2 ^ w)) ∧
  TwoRegForm .and 8 (fun _ a b => a &&& b) ∧
  TwoRegForm .or 8 (fun _ a b => a ||| b) ∧
  TwoRegForm .xor 8 (fun _ a b => a ^^^ b) ∧
  TwoRegForm .shl 8 (fun w a b => a <<< (b.toNat % w)) ∧
  TwoRegForm .shr 8 (fun w a b => a >>> (b.toNat % w)) ∧
  TwoRegForm .sar 8 (fun w a b => a.sshiftRight (b.toNat % w)) ∧
  TwoRegForm .rol 8 (fun w a b => a.rotateLeft (b.toNat % w)) ∧
  TwoRegForm .min 8 (fun _ a b => if a.slt b then a else b) ∧
  TwoRegForm .max 8 (fun _ a b => if a.slt b then b else a) ∧
  TwoRegForm .minu 8 (fun _ a b => if a.ult b then a else b) ∧
  TwoRegForm .maxu 8 (fun _ a b => if a.ult b then b else a)) ∧
  (
  CheckedForm .add 8 (fun _ a b => a + b) (fun _ a b => a.saddOverflow b) ∧
  CheckedForm .sub 8 (fun _ a b => a - b) (fun _ a b => a.ssubOverflow b) ∧
  CheckedForm .mul 12 (fun _ a b => a * b) (fun _ a b => a.smulOverflow b)) ∧
  (
  OneRegForm .abs (fun _ a => if a.slt 0 then -a else a) ∧
  OneRegForm .clz (fun _ a => a.clz) ∧
  OneRegForm .popc (fun _ a => a.cpop) ∧
  OneRegForm .brev (fun _ a => a.reverse) ∧
  OneRegForm .mov (fun _ a => a)) ∧
  (
  TwoRegVarForm .div (fun w a b => if b = 0 then BitVec.allOnes w else a.sdiv b) ∧
  TwoRegVarForm .rem (fun _ a b => if b = 0 then a else a.srem b) ∧
  TwoRegVarForm .divu (fun w a b => if b = 0 then BitVec.allOnes w else a.udiv b) ∧
  TwoRegVarForm .remu (fun _ a b => if b = 0 then a else a.umod b))

/-- R218, R219: the immediate forms compute what their register counterparts compute with the immediate as the second operand; MOVI and MOVH write a constant, MOVH, of two words, leaving bits [31:0] and bytes 8 to 11. -/
def Obligations.ImmediateResults : Prop :=
  (
  ImmForm .addi (fun _ a b => a + b) ∧
  ImmForm .andi (fun _ a b => a &&& b) ∧
  ImmForm .ori (fun _ a b => a ||| b) ∧
  ImmForm .xori (fun _ a b => a ^^^ b) ∧
  ImmForm .shli (fun w a b => a <<< (b.toNat % w)) ∧
  ImmForm .shri (fun w a b => a >>> (b.toNat % w)) ∧
  ImmForm .sari (fun w a b => a.sshiftRight (b.toNat % w))) ∧
  (
  ∀ (s : State) (hd : Hdr) (d : Reg) (n : Nat) (h : Held), s.issuing hd [] [d] n h →
    (∀ imm : BitVec 16, ∃ x', exec (.movi hd d imm) s = .next (s.issued hd 1 n (h.write (s.cycOf n) 8 d x')) ∧
      x' = (xget h.ctx.x d).extractLsb' 64 32 ++ imm.signExtend 64) ∧
    (∀ imm : BitVec 32, ∃ x', exec (.movh hd d imm) s = .next (s.issued hd 2 n (h.write (s.cycOf n) 8 d x')) ∧
      x' = (xget h.ctx.x d).extractLsb' 64 32 ++ imm ++ (xget h.ctx.x d).extractLsb' 0 32))

/-- R220, R221, R222: LGET, LSET, LSHUF, LSPLAT; BFX and BFI, bytes 8 to 11 staying; SEL takes its lanes from one register or the other by a predicate. -/
def Obligations.LaneAndFieldResults : Prop :=
  (
  ∀ (s : State) (hd : Hdr) (sh : Sh) (d a b : Reg) (k : BitVec 4) (n : Nat) (h : Held), sh ≠ .d → k.toNat < shN sh →
    (s.issuing hd [a] [d] n h →
      (∃ x', exec (.lget hd sh d a k) s = .next (s.issued hd 1 n (h.write (s.cycOf n) 8 d x')) ∧
        x' = (xget h.ctx.x d).extractLsb' 64 32 ++ (laneV (shW sh) (xget h.ctx.x a) k.toNat).setWidth 64) ∧
      (∃ x', exec (.lset hd sh d a k) s = .next (s.issued hd 1 n (h.write (s.cycOf n) 8 d x')) ∧
        ∀ j < shN sh, laneV (shW sh) x' j =
          if j = k.toNat ∧ h.ctx.lm.getLsbD j then laneV (shW sh) (xget h.ctx.x a) 0 else laneV (shW sh) (xget h.ctx.x d) j) ∧
      (∃ x', exec (.lsplat hd sh d a) s = .next (s.issued hd 1 n (h.write (s.cycOf n) 8 d x')) ∧
        laneResult sh h.ctx.lm (xget h.ctx.x d) x' fun _ => laneV (shW sh) (xget h.ctx.x a) 0)) ∧
    (s.issuing hd [a, b] [d] n h →
      ∃ x', exec (.lshuf hd sh d a b) s = .next (s.issued hd 1 n (h.write (s.cycOf n) 8 d x')) ∧
        laneResult sh h.ctx.lm (xget h.ctx.x d) x' fun j =>
          let i := (laneV (shW sh) (xget h.ctx.x b) j).toNat
          if i < shN sh then laneV (shW sh) (xget h.ctx.x a) i else 0)) ∧
  (
  ∀ (s : State) (hd : Hdr) (d a : Reg) (pos lenm1 : BitVec 6) (n : Nat) (h : Held), pos.toNat + lenm1.toNat + 1 ≤ 64 →
    (∀ sx : Bool, s.issuing hd [a] [d] n h →
      ∃ x', exec (.bfx hd sx d a pos lenm1) s = .next (s.issued hd 1 n (h.write (s.cycOf n) 8 d x')) ∧
        x'.extractLsb' 64 32 = (xget h.ctx.x d).extractLsb' 64 32 ∧
        ∀ j < 64, x'.getLsbD j =
          if j ≤ lenm1.toNat then (xget h.ctx.x a).getLsbD (pos.toNat + j) else sx && (xget h.ctx.x a).getLsbD (pos.toNat + lenm1.toNat)) ∧
    (s.issuing hd [a, d] [d] n h →
      ∃ x', exec (.bfi hd d a pos lenm1) s = .next (s.issued hd 1 n (h.write (s.cycOf n) 8 d x')) ∧
        ∀ j < 96, x'.getLsbD j =
          if pos.toNat ≤ j ∧ j ≤ pos.toNat + lenm1.toNat then (xget h.ctx.x a).getLsbD (j - pos.toNat) else (xget h.ctx.x d).getLsbD j)) ∧
  (
  ∀ (s : State) (hd : Hdr) (sh : Sh) (d a b : Reg) (gn : Bool) (p : Pred) (n : Nat) (h : Held), s.issuing hd [a, b] [d] n h →
    ∃ x', exec (.sel hd sh d a b gn p) s = .next (s.issued hd 1 n (h.write (s.cycOf n) 8 d x')) ∧
      laneResult sh h.ctx.lm (xget h.ctx.x d) x' fun k => laneV _ (xget h.ctx.x (if xor (h.ctx.p p) gn then a else b)) k)

/-- R217: in every mode, MOV gn, xa writes bytes 0 to 7 of xa to the register gn of the issuing IU, and MOV xd, gn reads it into bytes 0 to 7 of xd; as R154 has it, a read at 8 or more cycles after every write returns the value last written, and an earlier one that value or one that a write of the last 7 cycles replaced; MOV x2, g5 is the word 0x0002_1421. -/
def Obligations.SharedRegisterMoves : Prop :=
  (∀ v : Nat, decodeWords 0x0002_1421 v = .ok (.movXdGn ⟨0, false, 0⟩ 2 5)) ∧
  ∀ (s : State) (hd : Hdr) (r : Reg) (g : BitVec 3) (n : Nat) (h : Held),
    (s.issuing hd [r] [] n h →
      ∃ old, exec (.movGnXa hd g r) s =
          .next { s.issued hd 1 n h with gregs := mapPut s.gregs (n / 16 * 8 + g.toNat) ⟨(xget h.ctx.x r).extractLsb' 0 64, old⟩ } ∧
        ∀ e, e ∈ old ↔ e = (s.cycOf n, (s.g (n / 16) g).val) ∨ (e ∈ (s.g (n / 16) g).old ∧ s.cycOf n < e.1 + 8)) ∧
    (s.issuing hd [] [r] n h →
      ∃ v, exec (.movXdGn hd r g) s =
          .next { s.issued hd 1 n (h.write (s.cycOf n) 8 r ((xget h.ctx.x r).extractLsb' 64 32 ++ v)) with tick := s.tick + 1 } ∧
        (v = (s.g (n / 16) g).val ∨ ∃ e ∈ (s.g (n / 16) g).old, s.cycOf n < e.1 + 8 ∧ v = e.2) ∧
        ((∀ e ∈ (s.g (n / 16) g).old, e.1 + 8 ≤ s.cycOf n) → v = (s.g (n / 16) g).val))

/-- R195, R223, R224: CMP and CMPI write one predicate and nothing else; with no active lane ALL gives 1 and ANY gives 0. -/
def Obligations.ComparisonResults : Prop :=
  let holds : (w : Nat) → Cond → BitVec w → BitVec w → Bool := fun _ cc a b =>
    match cc with
    | .eq => a == b | .ne => a != b | .lt => a.slt b | .ge => b.sle a | .ltu => a.ult b | .geu => b.ule a
    | .gt => b.slt a | .le => a.sle b | .gtu => b.ult a | .leu => a.ule b
  (∀ (s : State) (hd : Hdr) (sh : Sh) (any : Bool) (cc : Cond) (pd : Pred) (a b : Reg) (n : Nat) (h : Held), s.issuing hd [a, b] [] n h →
    let on := (List.range (shN sh)).filter (laneOn (shW sh) h.ctx.lm)
    let test := fun k => holds _ cc (laneV (shW sh) (xget h.ctx.x a) k) (laneV (shW sh) (xget h.ctx.x b) k)
    exec (.cmp hd sh any cc pd a b) s =
      .next (s.issued hd 1 n { h with ctx := h.ctx.setP pd (if any then on.any test else on.all test) })) ∧
  (∀ (s : State) (hd : Hdr) (cc : Cond) (pd : Pred) (a : Reg) (imm : BitVec 10) (n : Nat) (h : Held), s.issuing hd [a] [] n h →
    exec (.cmpi hd cc pd a imm) s =
      .next (s.issued hd 1 n { h with ctx := h.ctx.setP pd (holds 64 cc ((xget h.ctx.x a).extractLsb' 0 64) (imm.signExtend 64)) }))

/-- R97, R222, R228, R229: predicate logic, a write to p0 being ignored and every other bit of PRED keeping its value; p0 reads 1; PMASK exchanges PRED and the low 64 bits of a register as one step. -/
def Obligations.PredicateResults : Prop :=
  (
  (∀ (s : State) (hd : Hdr) (pd pa pb : Pred) (n : Nat) (h : Held), s.issuing hd [] [] n h →
    exec (.pand hd pd pa pb) s = .next (s.issued hd 1 n { h with ctx := h.ctx.setP pd (h.ctx.p pa && h.ctx.p pb) }) ∧
    exec (.por hd pd pa pb) s = .next (s.issued hd 1 n { h with ctx := h.ctx.setP pd (h.ctx.p pa || h.ctx.p pb) }) ∧
    exec (.pxor hd pd pa pb) s = .next (s.issued hd 1 n { h with ctx := h.ctx.setP pd (xor (h.ctx.p pa) (h.ctx.p pb)) }) ∧
    exec (.pnot hd pd pa) s = .next (s.issued hd 1 n { h with ctx := h.ctx.setP pd (!h.ctx.p pa) })) ∧
  (∀ (c : Ctx) (pd : Pred) (v : Bool) (k : Nat), (c.setP pd v).pred.getLsbD k = if pd ≠ 0 ∧ k = pd.toNat then v else c.pred.getLsbD k) ∧
  (∀ (c : Ctx) (pd : Pred) (v : Bool), c.setP pd v = { c with pred := (c.setP pd v).pred })) ∧
  (
  ∀ c : Ctx, c.p 0 = true) ∧
  (
  ∀ (s : State) (hd : Hdr) (a : Reg) (n : Nat) (h : Held), s.issuing hd [a] [a] n h →
    ∃ x' p', exec (.pmask hd a) s = .next (s.issued hd 1 n ({ h with ctx := { h.ctx with pred := p' } }.write (s.cycOf n) 8 a x')) ∧
      x'.extractLsb' 64 32 = (xget h.ctx.x a).extractLsb' 64 32 ∧
      (∀ k < 64, x'.getLsbD k = (k == 0 || (decide (k < 27) && h.ctx.pred.getLsbD k))) ∧
      (∀ k < 32, p'.getLsbD k = (k == 0 || (decide (k < 27) && (xget h.ctx.x a).getLsbD k))))

/-! ### Control flow and replay (10_isa_integer_control.md) -/

/-- R225, R226, R227: branches, calls and returns; a bad target traps before any effect. -/
def Obligations.ControlFlowResults : Prop :=
  (∀ off : BitVec 19, BranchForm (fun hd => .br hd off) [] none fun c => c.pc + 4 * off.signExtend 64) ∧
  (∀ (d : Reg) (off : BitVec 16), BranchForm (fun hd => .call hd d off) [] (some d) fun c => c.pc + 4 * off.signExtend 64) ∧
  (∀ a : Reg, BranchForm (fun hd => .jmp hd a) [a] none fun c => (xget c.x a).extractLsb' 0 64) ∧
  (∀ d a : Reg, BranchForm (fun hd => .callr hd d a) [a] (some d) fun c => (xget c.x a).extractLsb' 0 64) ∧
  (∀ a : Reg, BranchForm (fun hd => .ret hd a) [a] none fun c => (xget c.x a).extractLsb' 0 64)

/-- R235: the words of NOP, YIELD and END, and that NOP has no effect besides its S. -/
def Obligations.NopYieldEndWords : Prop :=
  (∀ hd : Hdr, hdrWf hd = true →
    let w := fun k : Nat => hd.s.toNat * 2 ^ 29 + hd.gn.toNat * 2 ^ 28 + hd.gp.toNat * 2 ^ 25 + 0x15 * 2 ^ 19 + k
    (∀ v : Nat, decodeWords (w 0) v = .ok (.nop hd) ∧ decodeWords (w 1) v = .ok (.yield hd) ∧ decodeWords (w 2) v = .ok (.endCtx hd))) ∧
  (∀ v : Nat, decodeWords 0x00A8_0000 v = .ok (.nop ⟨0, false, 0⟩) ∧ decodeWords 0x00A8_0001 v = .ok (.yield ⟨0, false, 0⟩) ∧
    decodeWords 0x00A8_0002 v = .ok (.endCtx ⟨0, false, 0⟩)) ∧
  (∀ (s : State) (hd : Hdr) (n : Nat) (h : Held), s.issuing hd [] [] n h → exec (.nop hd) s = .next (s.issued hd 1 n h))

/-- R230 to R233: REPF captures the block and starts its replay, or traps at the first instruction that fails with none issued; a replay issues the block in order, again for each replay with its fields staggered, and ends with PC after the block. -/
def Obligations.ReplayResults : Prop :=
  (
  ∀ (s : State) (hd : Hdr) (reps : BitVec 6) (hs rs : BitVec 3) (len : BitVec 4) (n : Nat) (h : Held), s.issuing hd [] [] n h → h.replay = none →
    (∀ block : List (Instr × Nat), block.length = len.toNat + 1 → s.blockAt n h (h.ctx.pc + 4).toNat block →
      exec (.repf hd reps hs rs len) s =
        let t := s.issued hd 1 n h
        .next { t with held := mapUpd t.held s.cur h fun x =>
          { x with replay := some { block, rep := 0, idx := 0, reps := reps.toNat + 1, hstep := hs.toNat, rstep := rs.toNat,
                                    endPc := h.ctx.pc + 4 + BitVec.ofNat 64 (4 * (block.map (·.2)).sum) } } }) ∧
    (∀ (pre : List (Instr × Nat)) (t : Trap), pre.length ≤ len.toNat → s.blockAt n h (h.ctx.pc + 4).toNat pre →
      let va := (h.ctx.pc + 4).toNat + 4 * (pre.map (·.2)).sum
      (s.fetchAt s.cur h n va = .trap t va ∨ ∃ i w, s.fetchAt s.cur h n va = .instr i w ∧ captureBad i = some t) →
      exec (.repf hd reps hs rs len) s = .next ((s.issued hd 1 n h).raiseTrap s.cur t (BitVec.ofNat 64 va)))) ∧
  (
  ∀ (s : State) (key n w : Nat) (h : Held) (r : Replay) (i : Instr), h.replay = some r → r.block[r.idx]? = some (i, w) →
    s.nextInstr key h n = .instr (stagger (r.rep * r.rstep) (r.rep * r.hstep) i) w ∧
    (h.advance w).replay =
      (if r.idx + 1 < r.block.length then some { r with idx := r.idx + 1 }
       else if r.rep + 1 < r.reps then some { r with idx := 0, rep := r.rep + 1 } else none) ∧
    (h.advance w).ctx.pc =
      (if r.idx + 1 < r.block.length then h.ctx.pc + BitVec.ofNat 64 (4 * w)
       else if r.rep + 1 < r.reps then r.endPc - BitVec.ofNat 64 (4 * (r.block.map (·.2)).sum) else r.endPc))

/-! ### The issue attempt, for every instruction (07_execution_model.md, 09_encoding_and_assembly.md) -/

/-- R187: GN:GP = 0 is no guard, any other value but 0b1000 guards by pGP XOR GN, p0 reading 1; 0b1000 is refused; an instruction whose guard does not hold passes PC by its words, sets NEXT from its S and has no other effect, whatever registers it names and whatever the rounding mode. -/
def Obligations.GuardedOutInstructions : Prop :=
  (∀ (s : State) (i : Instr) (hd : Hdr) (n : Nat) (h : Held), instrHdr i = some hd → s.readyAt n h → guardHolds hd h.ctx = false →
    exec i s = .next (s.issued hd (wordsOf i) n h)) ∧
  (∀ c : Ctx, guardHolds ⟨0, false, 0⟩ c = true ∧ ∀ (st gp : BitVec 3) (gn : Bool), gp ≠ 0 → guardHolds ⟨st, gn, gp⟩ c = (c.pred.getLsbD gp.toNat ^^ gn)) ∧
  (∀ w v : Nat, w / 2 ^ 25 % 2 ^ 4 = 8 → ∃ d, decodeWords w v = .error (.illegal d))

/-- R147, R150, R173, R238: an instruction that names a register with PEND set does not issue, the context waits with WHY = 1, its PC at the instruction, for the registers that the instruction names; one that rounds traps with ILLEGAL, detail 4, while RM holds 5, 6 or 7; a register read too early raises STALLUNDER with its index under CHK or FORCE, the lowest index where there are several (the model's choice, log 46); otherwise MOV, for one, reads the value last written or one that a write still in flight has replaced. That FADDR of the ILLEGAL trap holds the words of the instruction, in a replay those captured, is the model's choice (log 47). -/
def Obligations.RegisterHazards : Prop :=
  (
  (
  ∀ (s : State) (i : Instr) (hd : Hdr) (n : Nat) (h : Held), instrHdr i = some hd → s.readyAt n h → guardHolds hd h.ctx = true →
    (roundsInstr i = true → h.ctx.rm < 5) → (∃ r ∈ namesRegs i, h.ctx.pend r.toNat = true) →
    ∃ t, exec i s = .next t ∧ t.ctxAt s.cur = h.ctx.setState stWaiting whyReg ∧ t.mem = s.mem ∧ t.ops = s.ops ∧
      (s.isLive s.cur = true → ∀ r : Reg, (t.needsOf s.cur).getLsbD r.toNat = true ↔ r ∈ namesRegs i) ∧
      ∀ k, k ≠ s.cur → mapFind t.held k = mapFind s.held k) ∧
  (
  ∀ (s : State) (i : Instr) (hd : Hdr) (n : Nat) (h : Held), instrHdr i = some hd → roundsInstr i = true → s.readyAt n h →
    guardHolds hd h.ctx = true → 5 ≤ h.ctx.rm → exec i s = .next (s.trapped h ⟨tcIllegal, 4, faultWords (h.fetched i)⟩))) ∧
  (
  ∀ (s : State) (i : Instr) (hd : Hdr) (n : Nat) (h : Held), instrHdr i = some hd → s.readyAt n h → guardHolds hd h.ctx = true →
    (roundsInstr i = true → h.ctx.rm < 5) → (∀ r ∈ namesRegs i, h.ctx.pend r.toNat = false) →
    ((h.ctx.chk = true ∨ s.force (s.partOf s.cur) = true) →
      ∀ r ∈ readsRegs i, s.cycOf n < h.rdy[r.toNat]'r.isLt → (∀ q ∈ readsRegs i, s.cycOf n < h.rdy[q.toNat]'q.isLt → r.toNat ≤ q.toNat) →
      exec i s = .next (s.trapped h ⟨tcStall, r.toNat, 0⟩)) ∧
    (h.ctx.chk = false → s.force (s.partOf s.cur) = false → ∀ (sh : Sh) (d a : Reg), i = .mov hd sh d a →
      ∃ x' v k, exec i s = .next { s.issued hd 1 n (h.write (s.cycOf n) 8 d x') with tick := k } ∧
        laneResult sh h.ctx.lm (xget h.ctx.x d) x' (fun k => laneV _ v k) ∧
        (v = xget h.ctx.x a ∨ ∃ e ∈ h.old[a.toNat]'a.isLt, s.cycOf n < e.1 ∧ v = e.2)))

/-- R64, R76, R189, R334, R336, R337: instructions that a mode may not issue raise PERM with detail 16 and have no other effect; a pattern that names no instruction raises ILLEGAL with its detail and its words, whatever its guard. -/
def Obligations.PrivilegeAndPatternTraps : Prop :=
  (
  ∀ (s : State) (hd : Hdr) (n : Nat) (h : Held),
    (∀ i, instrHdr i = some hd → supInstr i = true → s.issuing hd (readsRegs i) (namesRegs i) n h → h.ctx.mode = 0 →
      exec i s = .next (s.trapped h ⟨tcPerm, 16, 0⟩)) ∧
    (∀ r d, s.issuing hd [] [d] n h → h.ctx.mode < 2 →
      (r = .wdog ∨ h.ctx.mode = 0 ∧ r ∉ [Creg.reft, .cyc, .ncy, .freq, .partid]) → exec (.rds hd r d) s = .next (s.trapped h ⟨tcPerm, 16, 0⟩)) ∧
    (∀ r a, s.issuing hd [a] [] n h → r ∉ [Creg.reft, .cyc, .ncy, .partid] → (r = .wdog ∧ h.ctx.mode < 2 ∨ h.ctx.mode = 0) →
      exec (.wrs hd r a) s = .next (s.trapped h ⟨tcPerm, 16, 0⟩))) ∧
  (
  ∀ (s : State) (w0 w1 : Word) (detail n : Nat) (h : Held), mapFind s.held s.cur = some h → h.place = .slot n → h.ctx.state = stReady →
    exec (.unassignedWordPattern w0 w1 detail) s = .next (s.raiseTrap s.cur ⟨tcIllegal, detail, w0.toNat + w1.toNat * 2 ^ 32⟩ h.ctx.pc))

/-! ### The end of a context, traps and returns (10_isa_integer_control.md, 16_traps_preemption.md) -/

/-- R19, R85, R104, R141, R236, R237: YIELD with no READY line for its slot acts as NOP; with one, that line takes the slot and the context enters CL2 as READY, past the YIELD. END waits while a result is outstanding, and is passed over while the home of its record or of its line is held or the host has one of them; else the context is DONE in its home memory, LIVE of its team record is one less, and its slot is free. -/
def Obligations.YieldAndEndResults : Prop :=
  (
  ∀ (s : State) (hd : Hdr) (n : Nat) (h : Held), s.issuing hd [] [] n h →
    let t := s.issued hd 1 n h
    let fits := fun x : Nat × Held => (t.slotsOf (n / 128) x.1 x.2).contains n && !t.faultWaits x.1
    ((t.readyLines (n / 128)).find? fits = none → exec (.yield hd) s = .next t) ∧
    (∀ x, (t.readyLines (n / 128)).find? fits = some x → mapFind s.held x.1 = some x.2 → x.1 ≠ s.cur → x.1 % 128 = 0 → t.fillBad x.1 = none →
      s.isM (n / 2048) = false → (s.cl2Set (n / 128) s.cur).length < 8 →
      ∃ t', exec (.yield hd) s = .next t' ∧
        (mapFind t'.held x.1).map (fun y => (y.place, y.ctx)) = some (.slot n, x.2.ctx) ∧
        (mapFind t'.held s.cur).map (fun y => (y.place, y.ctx)) = some (.cl2 (n / 128), (h.advance 1).settled.ctx) ∧
        ∀ a, memRead t'.mem a = memRead s.mem a)) ∧
  (
  ∀ (s : State) (hd : Hdr) (n : Nat) (h : Held), s.issuing hd [] [] n h →
    (h.ctx.pendAll ≠ 0 → ∃ t, exec (.endCtx hd) s = .next t ∧ t.ctxAt s.cur = h.ctx.setState stWaiting whyReg ∧ t.mem = s.mem) ∧
    (h.ctx.pendAll = 0 → (s.retireHeld s.cur h.ctx = true ∨ s.hostHas (s.retireLines s.cur h.ctx) = true) →
      exec (.endCtx hd) s = .next (s.snoopHost (s.retireLines s.cur h.ctx))) ∧
    (h.ctx.pendAll = 0 → s.retireHeld s.cur h.ctx = false → s.hostHas (s.retireLines s.cur h.ctx) = false → memSound s → mapWf s.held = true → mapWf s.live = true →
      ∀ tp, s.teamPa (some (n / 128)) (s.partOf s.cur) (s.asidOf (s.partOf s.cur) h.ctx.launch) h.ctx.link = some tp →
      (tp + 0x18 ≤ s.cur ∨ s.cur + 128 ≤ tp + 0x14) →
      ∃ t, exec (.endCtx hd) s = .next t ∧ mapFind t.held s.cur = none ∧ mapFind t.live s.cur = none ∧
        ctxOfBytes (memReadList t.mem s.cur 128) = (h.advance 1).settled.ctx.setState stDone 0 ∧
        t.readN (tp + 0x14) 4 = (s.readN (tp + 0x14) 4 + 2 ^ 32 - 1) % 2 ^ 32 ∧
        (∀ a, (a < s.cur ∨ s.cur + 128 ≤ a) → (a < tp + 0x14 ∨ tp + 0x18 ≤ a) → memRead t.mem a = memRead s.mem a) ∧
        ∀ k, k ≠ s.cur → mapFind t.held k = mapFind s.held k))

/-- R370, R372, R373: a trap that a context raises makes it TRAPPED; it enters its handler at once where nothing is left to wait for, else TRAP_ENTRY is to come; a cause that finds it TRAPPED is held. With NEST = 7, or with no handler entry, the context becomes FAULTED in its home memory with its cause in the trap line, and its launch counts it. -/
def Obligations.TrapDetectionAndTerminalFaults : Prop :=
  (
  ∀ (s : State) (key n : Nat) (h : Held) (t : Trap) (spc : Dword), mapFind s.held key = some h → h.place = .slot n →
    (h.ctx.state ≠ stTrapped → mapFind s.traps key = none →
      ∃ u : State, u.ctxAt key = (s.ctxAt key).setState stTrapped 0 ∧ mapFind u.traps key = some ⟨some (t, spc), []⟩ ∧ u.mem = s.mem ∧
        (mapFind u.held key).map Held.replay = some none ∧
        (u.entryReady key = true → .next (s.raiseTrap key t spc) = exec (.trapEntry key) u) ∧
        (u.entryReady key = false → s.raiseTrap key t spc = (u.snoopHost (u.entryLines key)).emit (.trapEntry key))) ∧
    (h.ctx.state = stTrapped →
      ∃ q, (s.raiseTrap key t spc).traps = mapPut s.traps key q ∧ (t ∈ q.nested ∨ (q.entering).any (·.1 = t)) ∧
        (s.raiseTrap key t spc).held = s.held ∧ (s.raiseTrap key t spc).mem = s.mem)) ∧
  (
  ∀ (s : State) (key n pa tp : Nat) (h : Held) (t : Trap) (spc : Dword) (l : Launch), mapFind s.held key = some h → h.place = .slot n →
    h.ctx.state = stTrapped → mapFind s.traps key = some ⟨some (t, spc), []⟩ → s.entryReady key = true → s.trapLine key h.ctx = some pa →
    (h.ctx.nest = 7 ∨ s.handlerEntry key h.ctx = 0) → t.fits → memSound s → mapWf s.held = true → mapWf s.live = true →
    s.launch (s.partOf key) h.ctx.launch = some l →
    (s.tcHit (n / 128) (s.partOf key) (s.asidOf (s.partOf key) h.ctx.launch) h.ctx.link.toNat).map (·.pa h.ctx.link.toNat) = some tp →
    (pa + 0x20 ≤ key ∨ key + 128 ≤ pa + 0x10) → (tp + 0x18 ≤ key ∨ key + 128 ≤ tp + 0x14) → (tp + 0x18 ≤ pa + 0x10 ∨ pa + 0x20 ≤ tp + 0x14) →
    ∃ t', exec (.trapEntry key) s = .next t' ∧ mapFind t'.held key = none ∧ mapFind t'.live key = none ∧
      (ctxOfBytes (memReadList t'.mem key 128)).state = stFaulted ∧ (ctxOfBytes (memReadList t'.mem key 128)).inTrap = false ∧
      (ctxOfBytes (memReadList t'.mem key 128)).x = h.ctx.x ∧ (ctxOfBytes (memReadList t'.mem key 128)).pc = h.ctx.pc ∧
      t'.readN (pa + 0x10) 4 = t.detail * 2 ^ 16 + t.code ∧ t'.readN (pa + 0x18) 8 = t.faddr ∧
      t'.readN (tp + 0x14) 4 = (s.readN (tp + 0x14) 4 + 2 ^ 32 - 1) % 2 ^ 32 ∧
      ∃ l', t'.launch (s.partOf key) h.ctx.launch = some l' ∧ l'.nfault = l.nfault + 1 ∧ l'.ffirst = (if l.nfault = 0 then h.id else l.ffirst))

/-- R99, R102, R370: TRAP_ENTRY saves the context into its trap line and starts the handler at TRAPVEC.ENTRY with bits [1:0] zero; nothing else of memory and of other contexts changes. -/
def Obligations.TrapEntrySavesAndEnters : Prop :=
  (
  ∀ (s : State) (key n pa : Nat) (h : Held) (t : Trap) (spc : Dword), mapFind s.held key = some h → h.place = .slot n →
    h.ctx.state = stTrapped → mapFind s.traps key = some ⟨some (t, spc), []⟩ → s.entryReady key = true → s.trapLine key h.ctx = some pa →
    h.ctx.nest ≠ 7 → s.handlerEntry key h.ctx ≠ 0 → t.fits → memSound s →
    ∃ t', exec (.trapEntry key) s = .next t' ∧
      entersHandler h.settled.ctx (t'.ctxAt key) t spc (s.handlerEntry key h.ctx) (h.id + 0x80) ∧
      t'.trapSaved pa h.settled.ctx t spc ∧
      (∀ a, a < pa ∨ pa + 80 ≤ a → memRead t'.mem a = memRead s.mem a) ∧
      (∀ k, k ≠ key → mapFind t'.held k = mapFind s.held k) ∧ t'.traps = mapErase s.traps key ∧
      t'.ops = s.ops ∧ t'.handles = s.handles ∧ t'.gregs = s.gregs ∧ t'.parts = s.parts) ∧
  (
  ∀ (s : State) (key : Nat) (c : Ctx) (p : Part), c.mode ≠ 2 → s.part (s.partOf key) = some p →
    (s.handlerEntry key c).extractLsb' 2 62 = p.trapvec.extractLsb' 2 62 ∧ (s.handlerEntry key c).extractLsb' 0 2 = 0)

/-- R336, R337: TRAP issues and then traps at the following boundary, SPC at the next instruction. TRET restores what trap entry saved, waiting for a walk where the page of its trap line is not cached; outside a handler it raises ILLEGAL with detail 6, on a saved STAT it may not restore STATFMT, and a second STATFMT ends the context. -/
def Obligations.TrapAndReturnResults : Prop :=
  (
  ∀ (s : State) (hd : Hdr) (code : BitVec 8) (n : Nat) (h : Held), s.issuing hd [] [] n h →
    exec (.trap hd code) s = .next ((s.issued hd 1 n h).raiseTrap s.cur ⟨14, code.toNat, 0⟩ (h.advance 1).ctx.pc)) ∧
  (
  ∀ (s : State) (hd : Hdr) (n : Nat) (h : Held), s.issuing hd [] [] n h → h.ctx.mode ≠ 0 →
    (h.ctx.inTrap = false → exec (.tret hd) s = .next (s.trapped h ⟨1, 6, 0⟩)) ∧
    (h.ctx.inTrap = true → s.tcHit (n / 128) (s.partOf s.cur) (s.asidOf (s.partOf s.cur) h.ctx.launch) (h.id + 0x80) = none →
      ∃ t, exec (.tret hd) s = .next t ∧ t.ctxAt s.cur = h.ctx.setState stWaiting whyReg ∧ t.mem = s.mem ∧
        ∃ w ∈ t.walks, ∃ x ∈ w.2.waiters, x.key = s.cur ∧ x.va = h.id + 0x80) ∧
    (∀ l pa, h.ctx.inTrap = true → s.tcHit (n / 128) (s.partOf s.cur) (s.asidOf (s.partOf s.cur) h.ctx.launch) (h.id + 0x80) = some l →
      pa = l.pa (h.id + 0x80) → s.badPiece (pa, 128) = none →
      s.priorOverlap s.cur s.nextId [(pa, 128)] = false → s.accessBefore s.cur (s.fenceOf s.cur).after = false → s.claimed (lineOf pa) = false →
      let st : Word := BitVec.ofNat 32 (s.readN (pa + 0xC) 4)
      let bad := st.extractLsb' 16 16 ≠ 0 ∨ getF st 0 2 = 3 ∨ h.ctx.mode < getF st 0 2 ∨ 5 ≤ getF st 5 3
      (bad → s.readN (pa + 0x10) 2 = 15 → s.retireHeld s.cur h.ctx = false → s.hostHas (lineOf pa :: s.retireLines s.cur h.ctx) = false → exec (.tret hd) s =
        .next (({ s with held := mapPut s.held s.cur h } : State).moveToFaulted s.cur ⟨15, 0, 0⟩ (some pa))) ∧
      (bad → s.readN (pa + 0x10) 2 ≠ 15 → exec (.tret hd) s = .next (s.trapped h ⟨15, 0, 0⟩)) ∧
      (¬ bad → ∃ c', exec (.tret hd) s = .next { s with held := mapPut s.held s.cur ({ h with ctx := c' }.issued (s.cycOf n) hd.s) } ∧
        c'.pc = BitVec.ofNat 64 (s.readN pa 8 / 4 * 4) ∧
        (∀ k < 27, c'.pred.getLsbD k = (k == 0 || (s.readN (pa + 8) 4).testBit k)) ∧
        (∀ k < 16, ¬ (2 ≤ k ∧ k ≤ 4) → c'.stat.getLsbD k = st.getLsbD k) ∧ c'.state = stReady ∧
        (∀ r : Reg, xget c'.x r = if r.toNat < 4 then BitVec.ofNat 96 (s.readN (pa + 0x20 + 12 * r.toNat) 12) else xget h.ctx.x r) ∧
        c'.wait = h.ctx.wait ∧ c'.owner = h.ctx.owner ∧ c'.link = h.ctx.link)))

/-! ### Control registers (14_isa_engines_refinement_system.md) -/

/-- R29, R73, R155, R156, R334, R335, R401: RDS reads the register named, where the mode may read it; WRS of a register with no writable field is ILLEGAL by its word, of a value that sets a reserved bit or breaks a limit ILLEGAL with detail 6, else the register of the partition takes the value; a register write of the part takes effect on its partition, or clears the bits named in an engine's ERRCNT. That FADDR of the ILLEGAL trap holds the instruction's words is the model's choice (log 47). -/
def Obligations.ControlRegisterResults : Prop :=
  (
  ∀ (s : State) (hd : Hdr) (d : Reg) (n : Nat) (h : Held) (p : Part), s.issuing hd [] [d] n h → s.part (s.partOf s.cur) = some p →
    let reads := fun (r : Creg) (v : Dword) =>
      exec (.rds hd r d) s = .next (s.issued hd 1 n (h.write (s.cycOf n) 8 d ((xget h.ctx.x d).extractLsb' 64 32 ++ v)))
    (1 ≤ h.ctx.mode → reads .cl1lim p.cl1lim ∧ reads .rsvslot p.rsvslot ∧ reads .lease p.lease ∧ reads .chkstall p.chkstall ∧
      reads .scopemissen p.scopemissen ∧ reads .ctxpool p.ctxpool ∧ reads .trapvec p.trapvec) ∧
    (h.ctx.mode = 2 → reads .wdog p.wdog) ∧
    reads .reft (BitVec.ofNat 64 s.reft) ∧ reads .cyc (BitVec.ofNat 64 (s.cycOf n)) ∧ reads .ncy (BitVec.ofNat 64 (s.reft * 9 / 5)) ∧
    (∃ v, reads .freq v ∧ (p.freqReq < 256 → getF v 8 8 = p.freqReq)) ∧
    ∃ v, reads .partid v ∧ (s.partOf s.cur < 256 → getF v 0 8 = s.partOf s.cur)) ∧
  (
  ∀ (s : State) (hd : Hdr) (r : Creg) (a : Reg) (n : Nat) (h : Held) (p : Part), s.part (s.partOf s.cur) = some p →
    let v := (xget h.ctx.x a).extractLsb' 0 64
    let ok := match r with
      | .cl1lim => 1 ≤ v.toNat ∧ v.toNat ≤ 16
      | .rsvslot | .chkstall | .scopemissen => v.toNat ≤ 1
      | .lease => 64 ≤ v.toNat ∧ v.toNat ≤ 8192
      | .ctxpool => getF v 1 7 = 0
      | .trapvec => v.toNat % 4 = 0 ∧ canonical v.toNat = true
      | .freq => v.toNat < 2 ^ 24 ∧ 12 ≤ getF v 8 8 ∧ getF v 8 8 ≤ 36
      | .wdog => v.toNat < 2 ^ 33
      | _ => False
    (r ∈ [Creg.reft, .cyc, .ncy, .partid] → s.issuing hd [] [] n h →
      exec (.wrs hd r a) s = .next (s.trapped h ⟨1, 4, faultWords (h.fetched (.wrs hd r a))⟩)) ∧
    (r ∉ [Creg.reft, .cyc, .ncy, .partid] → s.issuing hd [a] [] n h → (h.ctx.mode = 2 ∨ h.ctx.mode = 1 ∧ r ≠ .wdog) →
      (¬ ok → exec (.wrs hd r a) s = .next (s.trapped h ⟨1, 6, faultWords (h.fetched (.wrs hd r a))⟩)) ∧
      (ok → ∃ t p', exec (.wrs hd r a) s = .next t ∧ t.part (s.partOf s.cur) = some p' ∧ t.mem = s.mem ∧
        p'.cl1lim = (if r = .cl1lim then v else p.cl1lim) ∧ p'.rsvslot = (if r = .rsvslot then v else p.rsvslot) ∧
        p'.lease = (if r = .lease then v else p.lease) ∧ p'.chkstall = (if r = .chkstall then v else p.chkstall) ∧
        p'.scopemissen = (if r = .scopemissen then v else p.scopemissen) ∧ p'.ctxpool = (if r = .ctxpool then v else p.ctxpool) ∧
        p'.trapvec = (if r = .trapvec then v else p.trapvec) ∧ p'.freqReq = (if r = .freq then getF v 8 8 else p.freqReq) ∧
        p'.wdog = (if r = .wdog then v else p.wdog) ∧ p'.launches = p.launches ∧ p'.towers = p.towers ∧ p'.roles = p.roles ∧
        t.ctxAt s.cur = (h.advance 1).ctx))) ∧
  (
  (∀ (s : State) (k : Nat) (v : Dword) (p : Part), s.part k = some p →
    (1 ≤ v.toNat ∧ v.toNat ≤ 16 → ∃ t p', exec (.cl1limWrite k v) s = .next t ∧ t.part k = some p' ∧ p'.cl1lim = v ∧
      ∀ key n h, mapFind s.held key = some h → h.place = .slot n → s.partOf key = k → mapWf s.held = true → h.ctx.mode ≠ 2 → s.isM (n / 2048) = false → p'.slotOk (n % 16) h.ctx.urgent = false →
        (mapFind t.held key).map Held.evictReq = some true) ∧
    (v.toNat ≤ 1 → ∃ t p', exec (.rsvslotWrite k v) s = .next t ∧ t.part k = some p' ∧ p'.rsvslot = v) ∧
    (64 ≤ v.toNat ∧ v.toNat ≤ 8192 → ∃ t p', exec (.leaseWrite k v) s = .next t ∧ t.part k = some p' ∧ p'.lease = v ∧ t.l1 = s.l1 ∧ t.l2 = s.l2) ∧
    (v.toNat < 2 ^ 24 → 12 ≤ getF v 8 8 ∧ getF v 8 8 ≤ 36 → ∃ t p', exec (.freqWrite k v) s = .next t ∧ t.part k = some p' ∧ p'.freqReq = getF v 8 8) ∧
    (v.toNat < 2 ^ 33 → ∃ t p', exec (.wdogWrite k v) s = .next t ∧ t.part k = some p' ∧ p'.wdog = v ∧ p'.wdogAt = s.now ∧
      (v.getLsbD 32 = true → Instr.watchdogExpiry k ∈ t.agenda))) ∧
  ∀ (s : State) (k : Nat) (v : Dword), ∃ t, exec (.errcntWrite k v) s = .next t ∧ (t.bde k).errcnt = (s.bde k).errcnt &&& ~~~v ∧
    ∀ j, j ≠ k → t.bde j = s.bde j)

/-! ### Floating point (08_number_formats.md, 11_isa_short_vector_fp.md) -/

/-- R238, R239, R241 to R244: the fixed-latency arithmetic: exact operations rounded once, minimum and maximum, signs, classes, the fused forms; division, roots, reciprocals, exponential and logarithm start with PEND set and will deliver their rounded values. -/
def Obligations.FloatArithmeticResults : Prop :=
  (
  (
  let exact := fun (op : Nat → FVal → FVal → FVal × Fl) (f : FFmt) (rm a b : Nat) =>
    let r := op rm (fDecode f a) (fDecode f b)
    ((fEncode f rm r.1).1, (fEncode f rm r.1).2 ||| r.2)
  let pick := fun (first : FVal → FVal → Bool) (f : FFmt) (_ a b : Nat) =>
    let x := fDecode f a
    let y := fDecode f b
    (if x.isNan && y.isNan then f.nan else if x.isNan then b else if y.isNan then a else if first x y then a else if first y x then b else a,
      if x.isSig || y.isSig then flNv else 0)
  let below := fun x y : FVal => decide (fvCmp x y = -1) || (x.isZero && y.isZero && x.neg && !y.neg)
  let sign := fun (g : Nat → Nat → Nat) (f : FFmt) (a : Nat) =>
    match fDecode f a with
    | .nan sig => (f.nan, if sig then flNv else 0)
    | _ => (g (2 ^ (f.ebits + f.mbits)) a, 0)
  FloatForm2 .fadd (exact fvAdd) ∧ FloatForm2 .fsub (exact fun rm x y => fvAdd rm x y.negate) ∧ FloatForm2 .fmul (exact fun _ => fvMul) ∧
  FloatForm2 .fmin (pick below) ∧ FloatForm2 .fmax (pick fun x y => below y x) ∧
  FloatForm1 .fabs (sign fun top a => a % top) ∧ FloatForm1 .fneg (sign fun top a => if a < top then a + top else a - top) ∧
  FloatForm1 .fclass (fun f a => (fclassOf f a, 0))) ∧
  (
  ∀ (s : State) (hd : Hdr) (f : FSh) (d a b c : Reg) (n : Nat) (h : Held), s.issuing hd [a, b, c] [d] n h → h.ctx.rm < 5 →
    let L := if f = .f64 then 20 else 16
    let v := fun (r : Reg) (k : Nat) => fDecode (fshF f) (laneV (fshW f) (xget h.ctx.x r) k).toNat
    let gives := fun (i : Instr) (val : Nat → FVal × Fl) =>
      ∃ x' fl, exec i s = .next (s.issued hd 1 n ((h.write (s.cycOf n) L d x').flagAt (s.cycOf n + L) fl)) ∧
        flaneResult f h.ctx.lm (xget h.ctx.x d) x' (fun k => BitVec.ofNat _ (fEncode (fshF f) h.ctx.rm (val k).1).1) ∧
        flagsOf f h.ctx.lm fl fun k => (fEncode (fshF f) h.ctx.rm (val k).1).2 ||| (val k).2
    gives (.fma hd f d a b c) (fun k => fvFma h.ctx.rm (v a k) (v b k) (v c k)) ∧
    gives (.fms hd f d a b c) (fun k => fvFma h.ctx.rm (v a k) (v b k) (v c k).negate) ∧
    gives (.fnma hd f d a b c) (fun k => fvFma h.ctx.rm (v a k).negate (v b k) (v c k)))) ∧
  (
  ∀ (s : State) (hd : Hdr) (f : FSh) (d a b : Reg) (n : Nat) (h : Held), h.ctx.rm < 5 →
    let v := fun (r : Reg) (k : Nat) => fDecode (fshF f) (laneV (fshW f) (xget h.ctx.x r) k).toNat
    let one := FVal.fin false 1 0
    let rounds := fun x : Approx => ((fEncode (fshF f) h.ctx.rm x.1 x.2.1).1, (fEncode (fshF f) h.ctx.rm x.1 x.2.1).2 ||| x.2.2)
    (s.issuing hd [a, b] [d] n h → FloatStarts s (.fdiv hd f d a b) hd f n h d fun k => rounds (fvDiv (v a k) (v b k))) ∧
    (s.issuing hd [a] [d] n h →
      FloatStarts s (.fsqrt hd f d a) hd f n h d (fun k => rounds (fvSqrt (v a k))) ∧
      FloatStarts s (.frcp hd f d a) hd f n h d (fun k => rounds (fvDiv one (v a k))) ∧
      FloatStarts s (.frsq hd f d a) hd f n h d (fun k => rounds (fvRsqrt (v a k))) ∧
      FloatStarts s (.fexp2 hd f d a) hd f n h d (fun k => rounds (fvExp2 (v a k))) ∧
      FloatStarts s (.flog2 hd f d a) hd f n h d (fun k => rounds (fvLog2 (v a k)))))

/-- R245 to R249: FCMP writes one predicate over the active lanes, FINV for a signalling NaN, under .S for any NaN; conversions of the lanes both formats have, and rounding to an integral value, the other lanes keeping their values. -/
def Obligations.ComparisonAndConversionResults : Prop :=
  (
  ∀ (s : State) (hd : Hdr) (f : FSh) (cc : FCond) (any sig : Bool) (pd : Pred) (a b : Reg) (n : Nat) (h : Held),
    s.issuing hd [a, b] [] n h → h.ctx.rm < 5 →
    let v := fun (r : Reg) (k : Nat) => fDecode (fshF f) (laneV (fshW f) (xget h.ctx.x r) k).toNat
    let on := (List.range (fshN f)).filter (laneOn (fshW f) h.ctx.lm)
    let un := fun k => (v a k).isNan || (v b k).isNan
    let c := fun k => fvCmp (v a k) (v b k)
    let holds := fun k => match cc with
      | .eq => !un k && c k == 0 | .ne => un k || c k != 0 | .lt => !un k && c k == -1 | .le => !un k && c k != 1
      | .gt => !un k && c k == 1 | .ge => !un k && c k != -1 | .un => un k | .ord => !un k
    let inv := on.any fun k => (v a k).isSig || (v b k).isSig || (sig && un k)
    exec (.fcmp hd f cc any sig pd a b) s =
      .next (s.issued hd 1 n (({ h with ctx := h.ctx.setP pd (if any then on.any holds else on.all holds) } : Held).flagAt (s.cycOf n + 8)
        (if inv then flNv else 0)))) ∧
  (
  ∀ (s : State) (hd : Hdr) (dst src : Fmt) (d a : Reg) (n : Nat) (h : Held), s.issuing hd [a] [d] n h → h.ctx.rm < 5 →
    let gives := fun (i : Instr) (dst src : Fmt) (f : Nat → Nat → Nat × Fl) =>
      let w := fmtBits dst
      let lanes := fun g : Fmt => if g = .fp64 then 1 else 96 / fmtBits g
      let L := if dst = .fp64 ∨ src = .fp64 then 20 else 16
      let on := fun k => decide (k < lanes src ∧ k < lanes dst) && (w == 64 || h.ctx.lm.getLsbD (if w = 4 then k / 2 else k))
      let r := fun k => f h.ctx.rm (laneV (fmtBits src) (xget h.ctx.x a) k).toNat
      ∃ x' fl, exec i s = .next (s.issued hd 1 n ((h.write (s.cycOf n) L d x').flagAt (s.cycOf n + L) fl)) ∧
        (∀ k < lanes dst, laneV w x' k = if on k then BitVec.ofNat w (r k).1 else laneV w (xget h.ctx.x d) k) ∧
        (dst = .fp64 → x'.extractLsb' 64 32 = (xget h.ctx.x d).extractLsb' 64 32) ∧
        ∀ j < 6, fl.getLsbD j = (List.range (lanes dst)).any fun k => on k && (r k).2.getLsbD j
    gives (.fcvt hd dst src d a) dst src (convElem dst src) ∧ gives (.fcvti hd dst src d a) dst src (convElem dst src) ∧
    gives (.icvtf hd dst src d a) dst src (convElem dst src) ∧
    ∀ g, fmtF dst = some g → gives (.frnd hd dst d a) dst dst (fpIntegral g))

/-- R161, R162, R172, R175, R241, R244: a datum that is no NaN is its own encoding in every rounding mode, without a flag, a NaN becomes the canonical one; else the magnitude lies between two neighbours in the format, and each mode takes the one that R172 says, for either sign: to nearest the closer, a tie going to the even code or away from zero, the directed modes by the sign; FINX exactly where the value changes, FUNF where it changes among the subnormals; past the largest finite magnitude each mode gives the infinity or that magnitude, with FOVF, a format without an infinity the magnitude always. Before its rounding the arithmetic is exact: sums, products and fused forms equal those of the values they are given, an exact zero sum being +0, or -0 under RDN; a quotient, a square root and its reciprocal are cut off after at least 63 places, with a mark where something was cut; invalid operations, infinities and divisions by zero give the stated values and flags; conversion to an integer rounds in the mode, saturating with FINV, of an integer to a narrower one saturates with IOVF. -/
def Obligations.RoundingResults : Prop :=
  (
  ∀ f ∈ [ffp64, ffp32, ffp16, fbf16, fe4m3, fe5m2], ∀ rm < 5, ∀ c < 2 ^ f.width,
    fEncode f rm (fDecode f c) = match fDecode f c with | .nan sig => (f.nan, if sig then flNv else 0) | _ => (c, 0)) ∧
  (
  ∀ f ∈ [ffp64, ffp32, ffp16, fbf16, fe4m3, fe5m2], ∀ (m : Nat) (e : Int), m ≠ 0 →
    let z := (fRound f 1 false m e false).1
    let q := min e f.qmin
    let x := unitsOf (m, e) q
    let lo := unitsOf (magOf f z) q
    let hi := unitsOf (magOf f (z + 1)) q
    let up : Nat → Bool → Bool := fun rm neg => match rm with
      | 0 => decide (lo + hi < 2 * x ∨ (2 * x = lo + hi ∧ z % 2 = 1)) | 1 => false
      | 2 => decide (x ≠ lo) && !neg | 3 => decide (x ≠ lo) && neg | _ => decide (lo + hi ≤ 2 * x)
    let sgn := fun neg : Bool => if neg then 2 ^ (f.ebits + f.mbits) else 0
    lo ≤ x ∧
    (z + 1 < f.top → x < hi ∧ ∀ rm < 5, ∀ neg : Bool,
      (fRound f rm neg m e false).1 = sgn neg + (if up rm neg then z + 1 else z) ∧
      (fRound f rm neg m e false).2.getLsbD 0 = decide (x ≠ lo) ∧ (fRound f rm neg m e false).2.getLsbD 2 = false ∧
      (2 ^ f.mbits ≤ z → (fRound f rm neg m e false).2.getLsbD 1 = false) ∧
      (z + 1 < 2 ^ f.mbits → (fRound f rm neg m e false).2.getLsbD 1 = decide (x ≠ lo))) ∧
    (f.top ≤ z + 1 → z + 1 = f.top ∧ ∀ rm < 5, ∀ neg : Bool,
      fRound f rm neg m e false =
        if hi ≤ x ∨ up rm neg = true then
          (sgn neg + (if f.inf = true ∧ (rm = 0 ∨ rm = 4 ∨ rm = 2 ∧ neg = false ∨ rm = 3 ∧ neg = true) then f.top else f.top - 1), flOf ||| flNx)
        else (sgn neg + z, if x = lo then 0 else flNx))) ∧
  let val := fun (n : Bool) (m : Nat) (e q : Int) => (if n then -(unitsOf (m, e) q : Int) else (unitsOf (m, e) q : Int))
  let is := fun (v : FVal) (k q : Int) => ∃ m e, q ≤ e ∧ m ≠ 0 ∧ v = .fin (decide (k < 0)) m e ∧ unitsOf (m, e) q = k.natAbs
  (
  ∀ (rm : Nat) (n n' n'' : Bool) (m m' m'' : Nat) (e e' e'' : Int), m ≠ 0 → m' ≠ 0 → m'' ≠ 0 →
    let a := FVal.fin n m e
    let b := FVal.fin n' m' e'
    let c := FVal.fin n'' m'' e''
    let q := min e e'
    let s := val n m e q + val n' m' e' q
    let p := min (e + e') e''
    let f := val (xor n n') (m * m') (e + e') p + val n'' m'' e'' p
    (s ≠ 0 → (fvAdd rm a b).2 = 0 ∧ is (fvAdd rm a b).1 s q) ∧ (s = 0 → fvAdd rm a b = (.zero (decide (rm = 3)), 0)) ∧
    (fvMul a b).2 = 0 ∧ is (fvMul a b).1 (val n m e e * val n' m' e' e') (e + e') ∧
    (f ≠ 0 → (fvFma rm a b c).2 = 0 ∧ is (fvFma rm a b c).1 f p) ∧ (f = 0 → fvFma rm a b c = (.zero (decide (rm = 3)), 0)) ∧
    (∃ k x st, fvDiv a b = (.fin (xor n n') k x, st, 0) ∧ 2 ^ 63 ≤ k ∧ x + e' ≤ e ∧ k * m' ≤ m * 2 ^ (e - e' - x).toNat ∧
      m * 2 ^ (e - e' - x).toNat < (k + 1) * m' ∧ (st = true ↔ k * m' ≠ m * 2 ^ (e - e' - x).toNat)) ∧
    (∃ r x st, fvSqrt (.fin false m e) = (.fin false r x, st, 0) ∧ 2 ^ 63 ≤ r ∧ 2 * x ≤ e ∧ r * r ≤ m * 2 ^ (e - 2 * x).toNat ∧
      m * 2 ^ (e - 2 * x).toNat < (r + 1) * (r + 1) ∧ (st = true ↔ r * r ≠ m * 2 ^ (e - 2 * x).toNat)) ∧
    (∃ r x st, fvRsqrt (.fin false m e) = (.fin false r x, st, 0) ∧ 2 ^ 63 ≤ r ∧ 2 * x + e ≤ 0 ∧ r * r * m ≤ 2 ^ (-(2 * x + e)).toNat ∧
      2 ^ (-(2 * x + e)).toNat < (r + 1) * (r + 1) * m ∧ (st = true ↔ r * r * m ≠ 2 ^ (-(2 * x + e)).toNat)) ∧
    fvSqrt (.fin true m e) = (.nan false, false, flNv) ∧ fvRsqrt (.fin true m e) = (.nan false, false, flNv) ∧ fvLog2 (.fin true m e) = (.nan false, false, flNv)) ∧
  (
  ∀ (rm : Nat) (n n' : Bool) (v : FVal), v.isNan = false →
    (fvAdd rm (.zero n) (.zero n') = (.zero (if n = n' then n else decide (rm = 3)), 0)) ∧
    (v.isZero = false → fvAdd rm (.zero n) v = (v, 0) ∧ fvAdd rm v (.zero n) = (v, 0)) ∧
    fvAdd rm (.inf n) (.inf (!n)) = (.nan false, flNv) ∧ fvMul (.inf n) (.zero n') = (.nan false, flNv) ∧ fvMul (.zero n') (.inf n) = (.nan false, flNv) ∧
    fvDiv (.inf n) (.inf n') = (.nan false, false, flNv) ∧ fvDiv (.zero n) (.zero n') = (.nan false, false, flNv) ∧
    (v.isInf = false → fvAdd rm (.inf n) v = (.inf n, 0) ∧ fvAdd rm v (.inf n) = (.inf n, 0) ∧ fvDiv (.inf n) v = (.inf (n != v.neg), false, 0) ∧
      fvDiv v (.inf n) = (.zero (v.neg != n), false, 0)) ∧
    (v.isZero = false → fvMul (.inf n) v = (.inf (n != v.neg), 0) ∧ fvMul v (.inf n) = (.inf (v.neg != n), 0)) ∧
    (v.isInf = false → fvMul (.zero n) v = (.zero (n != v.neg), 0) ∧ fvMul v (.zero n) = (.zero (v.neg != n), 0)) ∧
    (v.isZero = false → v.isInf = false → fvDiv v (.zero n) = (.inf (v.neg != n), false, flDz) ∧ fvDiv (.zero n) v = (.zero (n != v.neg), false, 0)) ∧
    fvRsqrt (.zero n) = (.inf n, false, flDz) ∧ fvSqrt (.zero n) = (.zero n, false, 0) ∧ fvLog2 (.zero n) = (.inf true, false, flDz) ∧
    ∀ (sg : Bool) (u : FVal), let fl : Fl := if sg || u.isSig then flNv else 0
      fvAdd rm (.nan sg) u = (.nan false, fl) ∧ fvAdd rm u (.nan sg) = (.nan false, fl) ∧ fvMul (.nan sg) u = (.nan false, fl) ∧
      fvMul u (.nan sg) = (.nan false, fl) ∧ fvDiv (.nan sg) u = (.nan false, false, fl) ∧ fvDiv u (.nan sg) = (.nan false, false, fl)) ∧
  (
  ∀ (dst src : Fmt) (g : FFmt) (sg : Bool) (w rm c : Nat), fmtF src = some g → fmtI dst = some (sg, w) → rm < 5 → c < 2 ^ g.width →
    let lo : Int := if sg then -(2 ^ (w - 1) : Nat) else 0
    let hi : Int := if sg then (2 ^ (w - 1) : Nat) - 1 else (2 ^ w : Nat) - 1
    match fDecode g c with
    | .nan _ => convElem dst src rm c = (0, flNv)
    | .inf n => convElem dst src rm c = (((if n then lo else hi) % (2 ^ w : Nat)).toNat, flNv)
    | .zero _ => convElem dst src rm c = (0, 0)
    | .fin n m e =>
      let d := 2 ^ (-e).toNat
      let z := m * 2 ^ e.toNat / d
      let r := m * 2 ^ e.toNat % d
      let up : Bool := match rm with
        | 0 => decide (d < 2 * r ∨ (2 * r = d ∧ z % 2 = 1)) | 1 => false | 2 => decide (r ≠ 0) && !n | 3 => decide (r ≠ 0) && n | _ => decide (r ≠ 0 ∧ d ≤ 2 * r)
      let k : Int := (if up then z + 1 else z : Nat)
      let i := if n then -k else k
      (i < lo → convElem dst src rm c = ((lo % (2 ^ w : Nat)).toNat, flNv)) ∧ (hi < i → convElem dst src rm c = ((hi % (2 ^ w : Nat)).toNat, flNv)) ∧
      (lo ≤ i → i ≤ hi → convElem dst src rm c = ((i % (2 ^ w : Nat)).toNat, if r = 0 then 0 else flNx))) ∧
  (
  ∀ (dst src : Fmt) (g g' : FFmt) (rm c : Nat), fmtF dst = some g → fmtF src = some g' → convElem dst src rm c = fEncode g rm (fDecode g' c)) ∧
  (
  ∀ (dst src : Fmt) (sg sg' : Bool) (w w' rm c : Nat), fmtI src = some (sg', w') → c < 2 ^ w' →
    let i : Int := if sg' ∧ 2 ^ (w' - 1) ≤ c then (c : Int) - (2 ^ w' : Nat) else c
    (∀ g, fmtF dst = some g → convElem dst src rm c = if i = 0 then (0, 0) else fRound g rm (decide (i < 0)) i.natAbs 0 false) ∧
    (fmtI dst = some (sg, w) →
      let lo : Int := if sg then -(2 ^ (w - 1) : Nat) else 0
      let hi : Int := if sg then (2 ^ (w - 1) : Nat) - 1 else (2 ^ w : Nat) - 1
      convElem dst src rm c = (((if i < lo then lo else if hi < i then hi else i) % (2 ^ w : Nat)).toNat, if i < lo ∨ hi < i then flIo else 0)))

/-! ### Memory (02_address_spaces.md, 12_isa_memory_tasks.md) -/

/-- R25, R27, R29, R35, R38, R40, R42, R43, R45 to R49, R57, R62, R112, R141, R380, R398: the checks of a data access in their order, for a context outside the handler window: its descriptor, that descriptor's permission and range, alignment, the half, the translation, the page, the physical address and its region, the firewall, a freeze, a team record; an access that passes them all, of every kind and mode, and one that migrates its context; one that crosses a line has its pieces checked in order. That FADDR is the VA of the whole access, that an APP write of the address-space table is PERM, and that these checks have this order are the model's choices (logs 11, 26). -/
def Obligations.DataAccessChecks : Prop :=
  ∀ (s : State) (e : Iss) (d : Nat) (off : Dword) (n : Nat) (kind : AK), e.h.ctx.window = false → (n = 1 ∨ n = 2 ∨ n = 4 ∨ n = 8 ∨ n = 12) →
    let de := e.desc s d
    let va := (de.base + off).toNat
    let mode := e.h.ctx.mode
    let res := s.access e d off n kind
    let rd := kind = .load ∨ kind = .acq
    let wr := kind = .store ∨ kind = .rel
    let plain := kind = .load ∨ kind = .store
    let aligned := plain ∨ va % (if n = 12 then 16 else n) = 0
    let page := fun l : Leaf =>
      if l.bits.getLsbD 61 then mode ≠ 0 ∧ kind ≠ .atomic
      else (¬ wr → l.bits.getLsbD 2 = true) ∧ (¬ rd → l.bits.getLsbD 3 = true) ∧ (mode = 0 → l.bits.getLsbD 5 = true)
    let there := fun pa : Nat => match s.region pa with
      | .hbm t => s.partOfTower t = some e.part | .nm t => s.partOfTower t = some e.part
      | .bde m => s.partOfTower (m / 2) = some e.part | .alias_ q _ _ => s.partOfTower (q / 4) = some e.part
      | .host => True | .none_ => False
      | .peer j => ∃ p q, s.part e.part = some p ∧ p.routes.getD j none = some q ∧ (s.port q).up = true
    let onTable := fun pa k : Nat => mode = 0 ∧ ¬ rd ∧ ∃ p, s.part e.part = some p ∧ p.asTable < pa + k ∧ pa < p.asTable + 0x8000
    let frozen := fun pa : Nat => ∃ p f l, s.part e.part = some p ∧ p.freeze = some f ∧ mapFind p.launches e.h.ctx.launch = some l ∧ l.urgent = true ∧
      mapRow pa ≤ 3 ∧ mapRow pa ≠ 2 ∧ ¬ ∃ r ∈ f.keep, r.1 ≤ pa ∧ pa < r.1 + r.2
    let walled := fun pa : Nat => mode = 2 ∧ s.fwAdmits e.die pa = false
    let free := fun pa k : Nat => there pa ∧ ¬ onTable pa k ∧ ¬ walled pa ∧ ¬ frozen pa ∧ (¬ rd → s.hitsTeam e.part pa k = false)
    let moves := fun (l : Leaf) (pa t : Nat) => mode = 0 ∧ l.bits.getLsbD 59 = true ∧ (if getF l.bits 56 3 = 0 then s.homeTower pa = some t else getF l.bits 56 3 = t + 1) ∧
      t ≠ e.die / 4 ∧ s.partOfTower t = some e.part ∧ ∃ j < 4, s.isC (4 * t + j) = true
    (de.usable = false → res = .trap ⟨3, d, off.toNat⟩) ∧
    (de.usable = true → de.permits kind = false → res = .trap ⟨4, d, off.toNat⟩) ∧
    (de.usable = true → de.permits kind = true → de.limit.toNat < off.toNat + n → res = .trap ⟨5, d, off.toNat⟩) ∧
    (de.usable = true → de.permits kind = true → off.toNat + n ≤ de.limit.toNat →
      (¬ aligned → res = .trap ⟨6, d, va⟩) ∧
      (aligned → mode = 0 → supHalf va = true → res = .trap ⟨4, d, va⟩) ∧
      (aligned → (mode ≠ 0 ∨ supHalf va = false) →
        (s.tcHit e.clu e.part e.asid va = none → res = .miss va va) ∧
        ∀ l, s.tcHit e.clu e.part e.asid va = some l →
          (¬ page l → res = .trap ⟨4, d, va⟩) ∧
          (page l → va % 128 + n ≤ 128 →
            let pa := l.pa va
            let fits := match s.region pa with
              | .bde _ => mode ≠ 0 ∧ plain ∧ n = 8 ∧ pa % 8 = 0
              | .alias_ q u o =>
                (match decWindow o with
                | none => plain
                | some (g, el, f) => let hd := s.handle (32 * q + u) g
                  kind = .load ∧ pa % (fmtBits f / 8) = 0 ∧ el * (fmtBits f / 8) + n ≤ hd.count * (fmtBits f / 8) ∧
                    s.handleState (32 * q + u) g ≠ 0 ∧ s.handleState (32 * q + u) g ≠ 3)
              | _ => True
            let code := match s.region pa with | .bde _ => if mode = 0 ∨ ¬ plain then 4 else 6 | _ => 10
            (¬ there pa → res = .trap ⟨7, d, va⟩) ∧
            (there pa → onTable pa n → res = .trap ⟨4, d, va⟩) ∧
            (there pa → ¬ onTable pa n → ¬ fits → res = .trap ⟨code, d, va⟩) ∧
            (there pa → ¬ onTable pa n → fits → walled pa → res = .trap ⟨4, 17, va⟩) ∧
            (there pa → ¬ onTable pa n → fits → ¬ walled pa → frozen pa → res = .trap ⟨28, d, va⟩) ∧
            (there pa → ¬ onTable pa n → fits → ¬ walled pa → ¬ frozen pa → ¬ rd → s.hitsTeam e.part pa n = true → res = .trap ⟨4, d, va⟩) ∧
            (free pa n → fits →
              (∀ t, moves l pa t → res = .migrate t) ∧
              ((∀ t, ¬ moves l pa t) → res =
                .ok { part := e.part, asid := e.asid, desc := d, va, segs := [(pa, n)], pages := [l], nt := false, busy := s.meetsBusy pa n } de.scope l))) ∧
          (page l → 128 < va % 128 + n →
            let n0 := 128 - va % 128
            (s.tcHit e.clu e.part e.asid (va + n0) = none → res = .miss (va + n0) va) ∧
            ∀ l', s.tcHit e.clu e.part e.asid (va + n0) = some l' →
              (¬ page l' → res = .trap ⟨4, d, va⟩) ∧
              (page l' → (∃ t, s.region (l.pa va) = .hbm t) → (∃ t, s.region (l'.pa (va + n0)) = .hbm t) →
                free (l.pa va) n0 → free (l'.pa (va + n0)) (n - n0) → (mode ≠ 0 ∨ (l.bits.getLsbD 59 = false ∧ l'.bits.getLsbD 59 = false)) →
                res = .ok { part := e.part, asid := e.asid, desc := d, va, segs := [(l.pa va, n0), (l'.pa (va + n0), n - n0)], pages := [l, l'], nt := false, busy := false } de.scope l))))

/-- R42, R252 to R256, R258 to R262: loads and atomics whose checks pass start with PEND on xd; LDP advances its base register, LDNT is non-temporal and LDA an acquire; a failed check raises its trap with no effect. -/
def Obligations.LoadsAndAtomicsStart : Prop :=
  (
  ∀ (s : State) (hd : Hdr) (sz : MSize) (dn : DescN) (d a : Reg) (imm : BitVec 6) (n : Nat) (h : Held),
    let base := (xget h.ctx.x a).extractLsb' 0 64
    let off := base + 4 * imm.signExtend 64
    (s.issuing hd [a] [d] n h →
      (∀ acc sc, s.passes (.ld hd sz dn d a imm) n h dn off (sizeBytes sz) .load acc sc →
        exec (.ld hd sz dn d a imm) s = .next (s.started hd 1 n h d (.load acc sz h.ctx.lm none []))) ∧
      (∀ acc sc, s.passes (.ldnt hd sz dn d a imm) n h dn off (sizeBytes sz) .load acc sc →
        exec (.ldnt hd sz dn d a imm) s = .next (s.started hd 1 n h d (.load { acc with nt := true } sz h.ctx.lm none []))) ∧
      (∀ (code : ScopeCode) (i3 : BitVec 3) acc sc,
        s.passes (.lda hd sz dn code d a i3) n h dn (base + 4 * i3.setWidth 64) (sizeBytes sz) .acq acc sc →
        exec (.lda hd sz dn code d a i3) s = .next (s.started hd 1 n h d (.load acc sz h.ctx.lm (some (if code = 0 then sc else code)) []))) ∧
      (∀ t, s.access (s.issOf (.ld hd sz dn d a imm) 1 n h) dn.toNat off (sizeBytes sz) .load = .trap t → ¬ (t.code = 4 ∧ t.detail = 17) →
        exec (.ld hd sz dn d a imm) s = .next (s.trapped h t))) ∧
    (s.issuing hd [a] [d, a] n h → ∀ acc sc, s.passes (.ldp hd sz dn d a imm) n h dn base (sizeBytes sz) .load acc sc →
      exec (.ldp hd sz dn d a imm) s =
        .next (s.started hd 1 n (h.write (s.cycOf n) 8 a ((xget h.ctx.x a).extractLsb' 64 32 ++ off)) d (.load acc sz h.ctx.lm none [])))) ∧
  (
  ∀ (s : State) (hd : Hdr) (dw ar : Bool) (dn : DescN) (d a b : Reg) (n : Nat) (h : Held),
    let off := (xget h.ctx.x a).extractLsb' 0 64
    let vb := (xget h.ctx.x b).extractLsb' 0 64
    let w := if dw then 8 else 4
    let f := s.fenceOf s.cur
    let kind := fun (acc : Access) (o : Rmw) (sc : ScopeCode) =>
      OpKind.rmw acc o w vb (if ar then some sc else none) (if ar then some sc else f.rel) (if ar then s.nextId else f.after)
    (∀ op acc sc, s.issuing hd [a, b] [d] n h → s.passes (.atom hd op dw ar dn d a b) n h dn off w .atomic acc sc →
      exec (.atom hd op dw ar dn d a b) s = .next (s.started hd 1 n h d (kind acc (.op op) sc))) ∧
    (∀ (code : ScopeCode) acc sc, s.issuing hd [a, b, d] [d] n h → s.passes (.cas hd dw ar code dn d a b) n h dn off w .atomic acc sc →
      exec (.cas hd dw ar code dn d a b) s =
        .next (s.started hd 1 n h d (kind acc (.cas ((xget h.ctx.x d).extractLsb' 0 64)) (if code = 0 then sc else code)))) ∧
    (∀ (code : ScopeCode) acc sc, s.issuing hd [a, b] [d] n h → h.ctx.rm < 5 →
      s.passes (.atomfAdd hd dw ar code dn d a b) n h dn off w .atomic acc sc →
      exec (.atomfAdd hd dw ar code dn d a b) s = .next (s.started hd 1 n h d (kind acc (.fadd dw h.ctx.rm) (if code = 0 then sc else code)))))

/-- R74, R252 to R256: stores whose checks pass are posted with the register's bytes and touch no memory yet; STP advances its base register, STNT is non-temporal, STL a release. -/
def Obligations.StoresPost : Prop :=
  ∀ (s : State) (hd : Hdr) (sz : MSize) (dn : DescN) (x a : Reg) (imm : BitVec 6) (n : Nat) (h : Held), (∀ k, s.nextId ≤ k → mapFind s.stores k = none) →
    let base := (xget h.ctx.x a).extractLsb' 0 64
    let off := base + 4 * imm.signExtend 64
    (s.issuing hd [a, x] [] n h →
      (∀ acc sc, s.passes (.st hd sz dn x a imm) n h dn off (sizeBytes sz) .store acc sc →
        ∃ t, exec (.st hd sz dn x a imm) s = .next t ∧ s.posted t hd n h h acc sz (xget h.ctx.x x) none) ∧
      (∀ acc sc, s.passes (.stnt hd sz dn x a imm) n h dn off (sizeBytes sz) .store acc sc →
        ∃ t, exec (.stnt hd sz dn x a imm) s = .next t ∧ s.posted t hd n h h { acc with nt := true } sz (xget h.ctx.x x) none) ∧
      (∀ (code : ScopeCode) (i3 : BitVec 3) acc sc,
        s.passes (.stl hd sz dn code x a i3) n h dn (base + 4 * i3.setWidth 64) (sizeBytes sz) .rel acc sc →
        ∃ t, exec (.stl hd sz dn code x a i3) s = .next t ∧ s.posted t hd n h h acc sz (xget h.ctx.x x) (some (if code = 0 then sc else code)))) ∧
    (s.issuing hd [a, x] [a] n h → ∀ acc sc, s.passes (.stp hd sz dn x a imm) n h dn base (sizeBytes sz) .store acc sc →
      ∃ t, exec (.stp hd sz dn x a imm) s = .next t ∧
        s.posted t hd n h (h.write (s.cycOf n) 8 a ((xget h.ctx.x a).extractLsb' 64 32 ++ off)) acc sz (xget h.ctx.x x) none)

/-- R43, R74, R106, R118, R119, R123, R253: a load whose line its die holds delivers the bytes of memory, clears PEND and wakes a context that waits for registers it needs no longer; one that crosses a line reads its two pieces as two accesses, in either order, and delivers with the second; a posted store to a line its die owns writes its bytes and no other, takes the stamp of its release, and is done. -/
def Obligations.LoadsAndStoresComplete : Prop :=
  (
  ∀ (s : State) (k : Nat) (o : Op) (a : Access) (sz : MSize) (lm : BitVec 12) (got : SMap (List Byte × List Stamp)) (h : Held), mapFind s.ops k = some o →
    o.kind = .load a sz lm none got →
    mapFind s.held o.key = some h → h.ctx.takes → s.isMoving o.key = false → s.priorOverlap o.key k a.segs = false → (s.fenceOf o.key).acq = none →
    (a.segs.map (·.2)).sum = sizeBytes sz → (∀ g ∈ a.segs, g.1 % 128 + g.2 ≤ 128 ∧ s.readable o.pos.die? g.1) →
    let c := s.ctxAt o.key
    let delivers := fun b : Nat → Byte => ∃ t, exec (.result k) s = .next t ∧ deliveredTo (s.needsOf o.key) c (t.ctxAt o.key) o.reg ∧ (t.ctxAt o.key).pred = c.pred ∧
      loaded sz lm b (xget c.x o.reg) (xget (t.ctxAt o.key).x o.reg) ∧
      t.mem = s.mem ∧ t.ops = mapErase s.ops k ∧ ∀ j, j ≠ o.key → mapFind t.held j = mapFind s.held j
    (∀ g, a.segs = [g] → got = [] → delivers fun i => memRead s.mem (a.byteAt i)) ∧
    (∀ g0 g1, a.segs = [g0, g1] → got = [] →
      ∃ t sts, ∃ i : Fin 2, exec (.result k) s = .next t ∧ t.mem = s.mem ∧ t.held = s.held ∧
        let g := if i = 0 then g0 else g1
        t.ops = mapPut s.ops k { o with kind := .load a sz lm none [(i, (memReadList s.mem g.1 g.2, sts))] }) ∧
    (∀ g0 g1 bs sts, a.segs = [g0, g1] →
      (got = [(0, (bs, sts))] → bs.length = g0.2 → delivers fun i => if i < g0.2 then bs.getD i 0 else memRead s.mem (a.byteAt i)) ∧
      (got = [(1, (bs, sts))] → bs.length = g1.2 → delivers fun i => if i < g0.2 then memRead s.mem (a.byteAt i) else bs.getD (i - g0.2) 0))) ∧
  (
  ∀ (s : State) (k pa : Nat) (b0 : Byte) (r : List (Nat × Byte)) (p : PStore), mapFind s.stores k = some p → p.bytes = (pa, b0) :: r →
    (∀ c ∈ r, lineOf c.1 = lineOf pa) → (p.bytes.map (·.1)).Nodup → memSound s → s.writable p.pos.die? pa →
    s.priorOverlap p.key k (p.bytes.map fun c => (c.1, 1)) = false → s.accessBefore p.key p.after = false →
    ∃ t, exec (.storePerform k) s = .next t ∧ t.stores = mapErase s.stores k ∧ t.held = s.held ∧ t.ops = s.ops ∧
      (∀ c ∈ p.bytes, memRead t.mem c.1 = c.2) ∧ (∀ ad, (∀ c ∈ p.bytes, c.1 ≠ ad) → memRead t.mem ad = memRead s.mem ad) ∧
      (∀ sc, p.rel = some sc → t.stamp (lineOf pa) = ⟨sc, some (.ctx p.key, p.pos)⟩) ∧
      ∀ l, l ≠ lineOf pa → t.stamp l = s.stamp l)

/-- R118, R259, R260, R261: an atomic at a line its die owns is one read and one write; xd takes the old value, a failed CAS writes nothing, every other byte of memory keeps its value. -/
def Obligations.AtomicPerforms : Prop :=
  ∀ (s : State) (k pa w : Nat) (o : Op) (a : Access) (r : Rmw) (b : Dword) (rel : Option ScopeCode) (after : Nat) (h : Held),
    mapFind s.ops k = some o → o.kind = .rmw a r w b none rel after → a.segs = [(pa, w)] → (w = 4 ∨ w = 8) → pa % w = 0 →
    mapFind s.held o.key = some h → h.ctx.takes → s.isMoving o.key = false → memSound s → s.writable o.pos.die? pa →
    s.priorOverlap o.key k a.segs = false → s.accessBefore o.key after = false → (s.fenceOf o.key).acq = none → s.hostHas [lineOf pa] = false →
    let old := s.readN pa w
    let wide := BitVec.ofNat (8 * w)
    let ob := wide old
    let vb := wide b.toNat
    let new : Option (BitVec (8 * w)) := match r with
      | .op .add => some (ob + vb) | .op .and => some (ob &&& vb) | .op .or => some (ob ||| vb) | .op .xor => some (ob ^^^ vb)
      | .op .min => some (if ob.slt vb then ob else vb) | .op .max => some (if ob.slt vb then vb else ob)
      | .op .minu => some (if ob.ult vb then ob else vb) | .op .maxu => some (if ob.ult vb then vb else ob)
      | .op .xchg => some vb
      | .cas c => if ob = wide c.toNat then some vb else none
      | .fadd dw rm =>
        let f := if dw then ffp64 else ffp32
        some (wide (fEncode f rm (fvAdd rm (fDecode f old) (fDecode f (b.toNat % 2 ^ (8 * w)))).1).1)
    (∀ dw rm, r = .fadd dw rm → w = if dw then 8 else 4) →
    ∃ t, exec (.result k) s = .next t ∧ deliveredTo (s.needsOf o.key) h.ctx (t.ctxAt o.key) o.reg ∧
      xget (t.ctxAt o.key).x o.reg = (xget h.ctx.x o.reg).extractLsb' 64 32 ++ BitVec.ofNat 64 old ∧
      t.readN pa w = (match new with | some v => v.toNat | none => old) ∧
      (∀ ad, (ad < pa ∨ pa + w ≤ ad) → memRead t.mem ad = memRead s.mem ad) ∧
      (rel = none → t.stamps = s.stamps) ∧ t.ops = mapErase s.ops k

/-- R29, R91 to R94, R106, R389: a result that read poison, an offline home's answer to a store, and an access to a peer that has had no response for 2 ms end in POISON at the context's next boundary; a corrected error is counted, an uncorrectable one poisons its line; a memory side that goes down holds lines that a recall finds no data for, so that they are poisoned; a die that rejoins has a new incarnation, every home having purged it: its sharer bit is gone, and a line it owned is poisoned. -/
def Obligations.PoisonAndErrorResults : Prop :=
  (
  ∀ (s : State) (k : Nat),
    (∀ o h line off, mapFind s.ops k = some o → mapFind s.held o.key = some h → h.ctx.takes → s.isMoving o.key = false →
      (s.fenceOf o.key).acq = none → o.kind.segs.findSome? s.badPiece = some (line, off) →
      ∃ u : State, exec (.poisonedResult k) s = .next (u.raiseTrap o.key ⟨11, o.reg.toNat + (if off then 2 ^ 15 else 0), line * 128⟩ h.ctx.pc) ∧
        u.ctxAt o.key = (s.ctxAt o.key).setPend o.reg.toNat false ∧ u.mem = s.mem ∧ u.ops = mapErase s.ops k) ∧
    (∀ p pa b r h, mapFind s.stores k = some p → p.bytes = (pa, b) :: r → mapFind s.held p.key = some h → h.ctx.takes → s.isMoving p.key = false →
      exec (.storeAnswer k) s = .next (({ s with stores := mapErase s.stores k } : State).raiseTrap p.key ⟨11, 0xFF + 2 ^ 15, pa / 128 * 128⟩ h.ctx.pc)) ∧
    (∀ o g j, mapFind s.ops k = some o → o.kind.segs = [g] → s.region g.1 = .peer j → (∀ t0, mapFind s.sent k = some t0 → s.now < t0 + 2_000_000 * Config.ticksPerNs) →
      exec (.peerTimeout k) s = .next (s.emitOnce (.peerTimeout k))) ∧
    (∀ o h g j t0, mapFind s.ops k = some o → mapFind s.held o.key = some h → h.ctx.takes → s.isMoving o.key = false →
      (s.fenceOf o.key).acq = none → o.kind.segs = [g] → s.region g.1 = .peer j → mapFind s.sent k = some t0 → t0 + 2_000_000 * Config.ticksPerNs ≤ s.now →
      ∃ u : State, exec (.peerTimeout k) s = .next (u.raiseTrap o.key ⟨11, o.reg.toNat + 2 ^ 15, g.1 / 128 * 128⟩ h.ctx.pc) ∧
        u.ctxAt o.key = (s.ctxAt o.key).setPend o.reg.toNat false ∧ u.mem = s.mem)) ∧
  (
  (∀ (s : State) (pa t : Nat), s.region pa = .hbm t →
    ∃ u, exec (.eccCorrected pa) s = .next u ∧ (u.die (4 * t)).corrected = (s.die (4 * t)).corrected + 1 ∧ u.mem = s.mem ∧ u.poison = s.poison ∧
      let n := 2 * t + pa % 2 ^ 37 / 2 ^ 36
      (u.bde n).errcnt = (s.bde n).errcnt.extractLsb' 32 32 ++ ((s.bde n).errcnt.extractLsb' 0 32 + 1#32)) ∧
  (∀ (s : State) (pa : Nat), ∃ u, exec (.uncorrectableError pa) s = .next u ∧ u.isPoison (pa / 128) = true ∧ (∀ l, l ≠ pa / 128 → u.isPoison l = s.isPoison l) ∧ u.mem = s.mem ∧
    u.held = s.held) ∧
  (∀ (s : State) (die : Nat), die < 24 → mapWf s.dir = true → mapWf s.l2 = true →
    ∃ u v, exec (.memorySideDown die) s = .next u ∧ (u.die die).down = true ∧ exec (.rejoin die) s = .next v ∧ (v.die die).down = false ∧
      (v.die die).incarn = (s.die die).incarn + 1 ∧ u.mem = s.mem ∧ v.mem = s.mem ∧
      (∀ l, (s.dirE l).st = .shd → ∀ j < 24, (v.dirE l).sharers.getLsbD j = ((s.dirE l).sharers.getLsbD j && decide (j ≠ die))) ∧
      (∀ l, (s.dirE l).st = .own → (s.dirE l).owner = die →
        (Instr.puto l die ∉ s.agenda → (u.cancelLine l).isPoison l = true) ∧ v.isPoison l = true ∧ (v.dirE l).st = .unc) ∧
      (∀ l, s.l2Reads l die = true → v.l2Line l die = none) ∧
      (die % 4 = 0 → ∀ n, n / 2 = die / 4 → (u.bde n).live = false ∧ (v.bde n).live = true)))

/-- R35, R36, R123: a store to a primary line is performed at its holder, or in memory where it has none, where the line is PARKED, DONE or FAULTED: bytes from 0x20 on become those stored, a READY STATE makes a PARKED line READY, nothing revives a DONE or FAULTED one, and the line takes the stamp of a release; any other line refuses it with PERM at the store. -/
def Obligations.ContextLineStores : Prop :=
  ∀ (s : State) (k key : Nat) (p : PStore), mapFind s.stores k = some p → p.toCtx = some key → key % 128 = 0 →
    s.isMoving key = false → s.isMoving p.key = false → s.accessBefore p.key p.after = false →
    s.priorOverlap p.key k (p.bytes.map fun c => (c.1, 1)) = false → (∀ c ∈ p.bytes, key ≤ c.1 ∧ c.1 < key + 128) → (p.bytes.map (·.1)).Nodup →
    s.offline key = false → s.homeHeld key = false → memSound s →
    let c := s.ctxAt key
    (c.state = stParked ∨ c.state = stDone ∨ c.state = stFaulted →
      ∃ t, exec (.contextLineStore k) s = .next t ∧ t.ctxAt key = ctxStore c key p.bytes ∧ t.stores = mapErase s.stores k ∧
        (∀ x ∈ p.bytes, key + 0x20 ≤ x.1 → (ctxBytes (t.ctxAt key)).getD (x.1 - key) 0 = x.2) ∧
        (∀ j < 128, 0x20 ≤ j → (∀ x ∈ p.bytes, x.1 ≠ key + j) → (ctxBytes (t.ctxAt key)).getD j 0 = (ctxBytes c).getD j 0) ∧
        (c.state ≠ stParked → (t.ctxAt key).state = c.state ∧ (t.ctxAt key).why = c.why) ∧
        ((t.ctxAt key).state = c.state ∨ (t.ctxAt key).state = stReady) ∧
        (∀ sc, p.rel = some sc → t.stamp (key / 128) = ⟨sc, some (.ctx p.key, p.pos)⟩) ∧
        ∀ ad, (ad < key ∨ key + 128 ≤ ad) → memRead t.mem ad = memRead s.mem ad) ∧
    (c.state ≠ stParked → c.takes → (s.ctxAt p.key).takes → p.undo = none →
      exec (.contextLineStore k) s = .next (({ s with stores := mapErase s.stores k } : State).raiseTrap p.key ⟨4, p.desc, p.va⟩ p.pc))

/-- R120, R125, R126, R128, R134, R251, R257: a release fence orders what follows, and a later write is passed over until every access before it is performed; an acquire fence waits for the loads issued since the last fence, holding later accesses, and then checks the stamps that they read, at SYS scope dropping copies of peer lines; a full one does both and holds later accesses until every earlier write is performed; an acquire outstanding, a store that waited on a BUSY handle among them, holds later accesses too; PREF writes no register, one that misses waits for its walk behind the context's back, and is dropped without a trap where a check fails, but for urgent work that meets memory a freeze copies (R380). -/
def Obligations.FenceAndPrefetch : Prop :=
  (∀ (s : State) (hd : Hdr) (kind : FenceKind) (sc : ScopeCode) (n : Nat) (h : Held), s.issuing hd [] [] n h →
    let f := s.fenceOf s.cur
    let pos := Pos.iu (n / 16)
    let rel := kind ≠ .acq
    let out := s.ops.any fun o => o.2.key = s.cur && o.2.kind.isLoad && decide (f.since ≤ o.1 ∧ o.1 < s.nextId)
    let after := fun (loads : SMap (Stamp × Nat)) acq => (⟨loads, s.nextId, if rel then some sc else none, if rel then s.nextId else f.after, acq,
      if kind = .full then s.nextId else f.full⟩ : FenceSt)
    let leaves := fun g : FenceSt => exec (.fence hd kind sc) s = .next { s.issued hd 1 n h with fences := mapPut s.fences s.cur g, nextId := s.nextId + 1 }
    (kind = .rel → leaves (after [] none)) ∧
    (kind ≠ .rel → out = true → leaves (after f.loads (some (f.since, s.nextId, sc, pos)))) ∧
    (kind ≠ .rel → out = false → (sc = 7 → s.noPeerCopies (n / 2048)) → (∀ l ∈ f.loads, l.1 < 2 * s.nextId) →
      ((∀ l ∈ f.loads, stampOk l.2.1 sc s.cur pos = true) → leaves (after [] none)) ∧
      ∀ l st va p, f.loads.find? (fun x => !stampOk x.2.1 sc s.cur pos) = some (l, st, va) → s.part (s.partOf s.cur) = some p →
        ∃ u : State, u.ctxAt s.cur = (h.advance 1).ctx.orSmiss ∧ u.mem = s.mem ∧ u.fenceOf s.cur = after [] none ∧ exec (.fence hd kind sc) s =
          .next (if p.scopemissen.getLsbD 0 then u.raiseTrap s.cur ⟨13, st.scope.toNat + 8 * sc.toNat, va⟩ (h.advance 1).ctx.pc else u))) ∧
  (∀ (s : State) (hd : Hdr) (kind : FenceKind) (n : Nat) (h : Held), s.issuing hd [] [] n h → kind ≠ .rel → n / 2048 < 24 → mapWf s.l2 = true →
    (s.fenceOf s.cur).loads = [] → s.loadsOut s.cur = false →
    ∃ t, exec (.fence hd kind 7) s = .next t ∧ ∀ line j, s.region (line * 128) = .peer j → t.l2Reads line (n / 2048) = false) ∧
  (∀ (s : State) (k n : Nat) (f : FenceSt) (h : Held) (i : Instr), mapFind s.fences k = some f → guardOf i h.ctx = true →
    let stored := fun m => ∃ p ∈ s.stores, p.2.key = k ∧ p.1 < m
    (touchesMem i = true → (∃ w, f.acq = some w) ∨ stored f.full ∨ (∃ p ∈ s.ops, p.2.key = k ∧ p.1 < f.full ∧ p.2.kind.isRmw = true) ∨
      (∃ p ∈ s.ops, p.2.key = k ∧ p.2.kind.isAcq = true) ∨ (∃ p ∈ s.stores, p.2.key = k ∧ p.2.busy = true) → s.blocked k n h i = true) ∧
    (writesMem i = true → stored f.after ∨ (∃ p ∈ s.ops, p.2.key = k ∧ p.1 < f.after ∧ p.2.kind.isLoad = true) → s.blocked k n h i = true)) ∧
  (∀ (s : State) (hd : Hdr) (l2 : Bool) (dn : DescN) (a : Reg) (imm : BitVec 6) (n : Nat) (h : Held), s.issuing hd [a] [] n h →
    let off := (xget h.ctx.x a).extractLsb' 0 64 + 4 * imm.signExtend 64
    let acc := s.access (s.issOf (.pref hd l2 dn a imm) 1 n h) dn.toNat off 1 .load false
    (∀ t, acc = .trap t → t.code ≠ 28 → exec (.pref hd l2 dn a imm) s = .next (s.issued hd 1 n h)) ∧
    (∀ t l, acc = .trap t → t.code = 28 → s.tcHit (n / 128) (s.partOf s.cur) (s.asidOf (s.partOf s.cur) h.ctx.launch) t.faddr = some l →
      let fetched := ∃ j, s.region (l.pa t.faddr) = .hbm j ∨ s.region (l.pa t.faddr) = .nm j
      (l.ctx = false → fetched → exec (.pref hd l2 dn a imm) s = .next (s.trapped h t)) ∧
      (l.ctx = true ∨ ¬ fetched → exec (.pref hd l2 dn a imm) s = .next (s.issued hd 1 n h))) ∧
    (∀ va fva, acc = .miss va fva → ∃ u w x, exec (.pref hd l2 dn a imm) s = .next u ∧ u.held = (s.issued hd 1 n h).held ∧ u.mem = s.mem ∧ w ∈ u.walks ∧ x ∈ w.2.waiters ∧
      x.va = va ∧ x.op = some s.nextId ∧ mapFind u.ops s.nextId = some ⟨s.cur, h.ctx.launch, .iu (n / 16), 0,
        .prefVa (s.partOf s.cur) (s.asidOf (s.partOf s.cur) h.ctx.launch) dn.toNat va h.ctx.mode l2⟩) ∧
    (∀ x sc l pa m t, acc = .ok x sc l → x.segs = [(pa, m)] → x.ctxp = false → s.region pa = .hbm t →
      exec (.pref hd l2 dn a imm) s =
        .next { s.issued hd 1 n h with
                ops := mapPut s.ops s.nextId { key := s.cur, launch := h.ctx.launch, pos := .iu (n / 16), reg := 0, kind := .pref x (!l2 && !(x.ntAt pa)) },
                agenda := s.agenda ++ [.result s.nextId], nextId := s.nextId + 1 }))

/-! ### Messages (12_isa_memory_tasks.md, 05_context_storage.md) -/

/-- R34, R62, R107, R263, R265: SEND puts a message on its way, waiting where its target's page is still to be walked and trapping with CTXID where no context has that identifier; the message is delivered, refused or finds its target dead, the status sets the two predicates; RECV takes the lowest full register of its mask or parks. -/
def Obligations.MessageResults : Prop :=
  (∀ (s : State) (hd : Hdr) (sc : ScopeCode) (pd pe : Pred) (a j b : Reg) (n : Nat) (h : Held), s.issuing hd [a, b] [] n h →
    let id := ((xget h.ctx.x a).extractLsb' 0 64).toNat
    let page := s.tcHit (n / 128) (s.partOf s.cur) (s.asidOf (s.partOf s.cur) h.ctx.launch) id
    let named := canonical id = true ∧ id % 256 = 0
    (¬ named ∨ (∃ l, page = some l ∧ l.ctx = false) → exec (.send hd sc pd pe a j b) s = .next (s.trapped h ⟨12, 0, id⟩)) ∧
    (named → ∀ l, page = some l → l.ctx = true → exec (.send hd sc pd pe a j b) s =
      .next { s.issued hd 1 n h with
              sends := mapPut s.sends s.nextId { key := s.cur, part := s.partOf s.cur, asid := s.asidOf (s.partOf s.cur) h.ctx.launch, va := id, pos := .iu (n / 16), scope := sc, pd, pe, target := l.pa id, j, data := xget h.ctx.x b, status := none },
              agenda := s.agenda ++ [.message s.nextId], nextId := s.nextId + 1 }) ∧
    (named → page = none → ∃ t, exec (.send hd sc pd pe a j b) s = .next t ∧ t.ctxAt s.cur = h.ctx.setState stWaiting whyReg ∧ t.mem = s.mem ∧
      t.sends = s.sends ∧ ∃ w ∈ t.walks, ∃ x ∈ w.2.waiters, x.key = s.cur ∧ x.va = id ∧ x.ctxid = true)) ∧
  (∀ (s : State) (k : Nat) (o : SendOp) (h : Held), mapFind s.sends k = some o → o.status = none → mapFind s.held o.target = some h →
    s.isMoving o.target = false → s.offline o.target = false →
    ∃ t st, exec (.message k) s = .next t ∧ t.sends = mapPut s.sends k { o with status := some st } ∧ Instr.sendStatus k ∈ t.agenda ∧ t.mem = s.mem ∧
      (st = .dead ↔ ¬ h.ctx.takes) ∧ (st = .full ↔ h.ctx.takes ∧ (h.ctx.full o.j.toNat = true ∨ h.ctx.pend o.j.toNat = true)) ∧
      (st ≠ .delivered → t.ctxAt o.target = s.ctxAt o.target) ∧
      (st = .delivered → xget (t.ctxAt o.target).x o.j = o.data ∧ (t.ctxAt o.target).full o.j.toNat = true ∧
        (∀ q : Reg, q ≠ o.j → xget (t.ctxAt o.target).x q = xget h.ctx.x q) ∧
        (if h.ctx.state = stParked ∧ h.ctx.why = whyRecv then (t.ctxAt o.target).state = stReady ∧ (t.ctxAt o.target).why = 0
         else (t.ctxAt o.target).state = h.ctx.state ∧ (t.ctxAt o.target).why = h.ctx.why))) ∧
  (∀ (s : State) (k : Nat) (o : SendOp) (st : SendSt) (h : Held), mapFind s.sends k = some o → o.status = some st → mapFind s.held o.key = some h →
    h.ctx.takes → s.isMoving o.key = false → (o.pd ≠ o.pe ∨ o.pd = 0) →
    ∃ t, exec (.sendStatus k) s = .next t ∧ t.sends = mapErase s.sends k ∧
      (o.pd ≠ 0 → (t.ctxAt o.key).p o.pd = decide (st = .delivered)) ∧ (o.pe ≠ 0 → (t.ctxAt o.key).p o.pe = decide (st = .dead)) ∧
      (t.ctxAt o.key).x = h.ctx.x ∧ (t.ctxAt o.key).pc = h.ctx.pc ∧ (t.ctxAt o.key).state = h.ctx.state) ∧
  (∀ (s : State) (hd : Hdr) (sc : ScopeCode) (d : Reg) (mask : BitVec 8) (n : Nat) (h : Held), s.issuing hd [] [d] n h →
    ((∀ i < 8, ¬ (mask.getLsbD i = true ∧ h.ctx.full i = true)) →
      ∃ t, exec (.recv hd sc d mask) s = .next t ∧ t.ctxAt s.cur = h.ctx.setState stParked whyRecv ∧ t.mem = s.mem) ∧
    (∀ i < 8, mask.getLsbD i = true → h.ctx.full i = true → (∀ j < i, ¬ (mask.getLsbD j = true ∧ h.ctx.full j = true)) →
      (sc = 7 → s.noPeerCopies (n / 2048)) →
      stampOk (mapGet s.tags (s.cur * 8 + i) stampNone) sc s.cur (.iu (n / 16)) = true →
      exec (.recv hd sc d mask) s = .next { s.issued hd 1 n (({ h with ctx := h.ctx.setFull i false } : Held).write (s.cycOf n) 8 d
        ((xget h.ctx.x d).extractLsb' 64 32 ++ BitVec.ofNat 64 i)) with tags := mapErase s.tags (s.cur * 8 + i) }))

/-! ### Tasks, futures, barriers (12_isa_memory_tasks.md, 15_scheduling.md) -/

/-- R267 to R270, R352 to R357: SPAWN pushes its task onto the deque of its IU, SPAWNJ after the join word is EMPTY again; an IU whose CTXPOOL.EN is 0 gives none; sixteen tasks stay on chip, the oldest going to the overflow area and coming back from it; the owner pops its own end, at every sixteenth pop the far end; a thief asks its quad first and takes the victim's far-end task. That entry i of an overflow area is its i-th oldest task is the model's choice (log 42), so is that a join word with waiters raises FUTBUSY before a malformed one FUTFMT (log 53). -/
def Obligations.TaskResults : Prop :=
  (∀ (s : State) (hd : Hdr) (a b : Reg) (n : Nat) (h : Held), s.issuing hd [a, b, b + 1] [] n h →
    let entry := (xget h.ctx.x a).extractLsb' 0 64
    let k := s.partOf s.cur
    let asid := s.asidOf k h.ctx.launch
    let task := fun (tp : Nat) (arg1 : XReg) => (Task.mk entry (xget h.ctx.x b) arg1 h.ctx.link h.ctx.launch h.ctx.level ((memRead s.mem (tp + 0xF)).toNat % 8)
      (BitVec.ofNat 8 (h.ctx.mode + h.ctx.chk.toNat * 4 + h.ctx.rm * 8 + h.ctx.prio * 64)) (s.readN (tp + 0x10) 4))
    (¬ (canonical entry.toNat = true ∧ entry.toNat % 4 = 0) → exec (.spawn hd a b) s = .next (s.trapped h ⟨6, 16, entry.toNat⟩)) ∧
    (canonical entry.toNat = true ∧ entry.toNat % 4 = 0 →
      let u := s.iu (n / 16)
      (∀ l, s.tcHit (n / 128) k asid h.ctx.link.toNat = some l → s.homeHeld (l.pa h.ctx.link.toNat) = false → 16 ≤ u.deque.length → (2048 ≤ u.spilled ∨ s.dqEntry k (n / 16) u.spilled = none) →
        exec (.spawn hd a b) s = .next (s.trapped h ⟨24, 0, 0⟩)) ∧
      (∀ l rest x r g, s.tcHit (n / 128) k asid h.ctx.link.toNat = some l → s.homeHeld (l.pa h.ctx.link.toNat) = false → s.discards k h.ctx.launch = false → u.deque = rest ++ [x] → u.deque.length = 16 →
        u.spilled < 2048 → s.dqEntry k (n / 16) u.spilled = some (r, g) → (r + 32 ≤ g ∨ g + 16 ≤ r) → memSound s →
        ∃ t, exec (.spawn hd a b) s = .next t ∧ (t.iu (n / 16)).deque = task (l.pa h.ctx.link.toNat) (xget h.ctx.x (b + 1)) :: rest ∧
          (t.iu (n / 16)).spilled = u.spilled + 1 ∧ t.readN r 8 = x.entry.toNat ∧ t.readN (r + 8) 12 = x.arg0.toNat ∧ t.readN (r + 20) 12 = x.arg1.toNat ∧
          t.readN g 8 = x.link.toNat ∧ t.readN (g + 8) 2 = x.launch % 2 ^ 16 ∧ t.readN (g + 10) 1 = x.level % 8 + x.dom % 8 * 16 ∧
          t.readN (g + 11) 1 = x.sst.toNat ∧ t.readN (g + 12) 4 = x.domid % 2 ^ 32 ∧
          ∀ ad, (ad < r ∨ r + 32 ≤ ad) → (ad < g ∨ g + 16 ≤ ad) → memRead t.mem ad = memRead s.mem ad) ∧
      (u.deque.length < 16 → s.discards k h.ctx.launch = false → ∀ l, s.tcHit (n / 128) k asid h.ctx.link.toNat = some l → s.homeHeld (l.pa h.ctx.link.toNat) = false →
        (∃ t, exec (.spawn hd a b) s = .next t ∧
          (t.iu (n / 16)).deque = task (l.pa h.ctx.link.toNat) (xget h.ctx.x (b + 1)) :: (s.iu (n / 16)).deque ∧
          t.ctxAt s.cur = (h.advance 1).ctx ∧ t.mem = s.mem ∧ ∀ j, j ≠ n / 16 → t.iu j = s.iu j) ∧
        (∀ (dn : DescN) (d : Reg) acc sc pa w, s.issuing hd [a, b, d] [] n h →
          s.passes (.spawnj hd dn d a b) n h dn ((xget h.ctx.x d).extractLsb' 0 64) 8 .atomic acc sc → acc.segs = [(pa, 8)] → pa % 8 = 0 →
          s.homeWord (s.issOf (.spawnj hd dn d a b) 1 n h) pa 8 = .val w → memSound s → pa / 128 ≠ l.pa h.ctx.link.toNat / 128 →
          l.pa h.ctx.link.toNat % 128 = 0 →
          (futSt w ≠ 1 → futBad w = true → exec (.spawnj hd dn d a b) s = .next (s.trapped h ⟨26, dn.toNat, acc.va⟩)) ∧
          (futSt w = 1 → exec (.spawnj hd dn d a b) s = .next (s.trapped h ⟨25, dn.toNat, acc.va⟩)) ∧
          (futBad w = false → futSt w ≠ 1 → ∃ t, exec (.spawnj hd dn d a b) s = .next t ∧ t.readN pa 8 = 0 ∧
            (t.iu (n / 16)).deque = task (l.pa h.ctx.link.toNat) (BitVec.ofNat 32 dn.toNat ++ (xget h.ctx.x d).extractLsb' 0 64) :: (s.iu (n / 16)).deque ∧
            ∀ ad, (ad < pa ∨ pa + 8 ≤ ad) → memRead t.mem ad = memRead s.mem ad))))) ∧
  (∀ (s : State) (iu k m : Nat) (p : Part) (x : Task) (r : List Task), s.partOfTower (iu / 512) = some k → s.part k = some p →
    (∀ q ∈ p.poolWait, q.iu ≠ iu) → s.poolOn iu = true → s.taskSlot iu (decide (x.sst.toNat / 64 = 3)) = some m →
    s.resumes k x.launch = true →
    ∀ left spilled, ((s.iu iu).spilled = 0 ∧ spilled = 0 ∧ left = r ∧ ((s.iu iu).deque = x :: r ∧ (((s.iu iu).pops + 1) % 16 ≠ 0 ∨ r = []) ∨
        (s.iu iu).deque = r ++ [x] ∧ r ≠ [] ∧ ((s.iu iu).pops + 1) % 16 = 0) ∨
      (s.iu iu).spilled = spilled + 1 ∧ (s.iu iu).deque = x :: r ∧ ((s.iu iu).pops + 1) % 16 ≠ 0 ∧ r.length < 16 ∧ ∃ y, s.dqRead k iu spilled = some y ∧ left = r ++ [y]) →
    ∃ t p', exec (.dequePop iu) s = .next t ∧ (t.iu iu).deque = left ∧ (t.iu iu).spilled = spilled ∧ (t.iu iu).pops = (s.iu iu).pops + 1 ∧
      (t.iu iu).heldSlots = (s.iu iu).heldSlots ++ [m % 16] ∧ t.mem = s.mem ∧ t.part k = some p' ∧ p'.poolWait = p.poolWait ++ [⟨x.launch, 0, some x, iu, false, some (m % 16), none, false⟩] ∧ Instr.poolAllocate k ∈ t.agenda) ∧
  (∀ (s : State) (iu k m : Nat), s.partOfTower (iu / 512) = some k → s.idle iu = some m → (s.iu iu).askAt ≤ s.now → (s.iu iu).asked = [] →
    ∃ t v, exec (.stealRound iu) s = .next t ∧ v / 4 = iu / 4 ∧ v ≠ iu ∧ (t.iu iu).asked = [v] ∧ (t.iu iu).heldSlots = (s.iu iu).heldSlots ++ [m % 16] ∧
      (t.iu iu).askSlot = some (m % 16) ∧ Instr.stealRequest v iu ∈ t.agenda) ∧
  (∀ (s : State) (iu : Nat), s.poolOn iu = true → s.idle iu = none → ∃ t, exec (.stealRound iu) s = .next t ∧ t.mem = s.mem ∧ t.held = s.held ∧ Instr.stealRound iu ∈ t.agenda) ∧
  (∀ (s : State) (v th : Nat), v ≠ th →
    let k := (s.partOfTower (v / 512)).getD 0
    (∀ r x, s.poolOn v = true → (s.iu v).spilled = 0 → (s.iu v).deque = r ++ [x] → s.mayTake v th x = true →
      ∃ t, exec (.stealRequest v th) s = .next t ∧ (t.iu v).deque = r ∧ (t.iu th).answer = some (some x) ∧ Instr.stealAnswer th ∈ t.agenda) ∧
    (∀ m x, s.poolOn v = true → (s.iu v).spilled = m + 1 → s.dqRead k v 0 = some x → s.mayTake v th x = true →
      ∃ t, exec (.stealRequest v th) s = .next t ∧ (t.iu v).deque = (s.iu v).deque ∧ (t.iu v).spilled = m ∧ (t.iu th).answer = some (some x) ∧
        Instr.stealAnswer th ∈ t.agenda) ∧
    ((s.poolOn v = false ∨ ∀ x, s.dqFar k v = some x → s.mayTake v th x = false) →
      ∃ t, exec (.stealRequest v th) s = .next t ∧ (t.iu v).deque = (s.iu v).deque ∧ (t.iu th).answer = some none ∧ Instr.stealAnswer th ∈ t.agenda)) ∧
  (∀ (s : State) (th k : Nat) (p : Part), s.partOfTower (th / 512) = some k → s.part k = some p →
    (∀ x, (s.iu th).answer = some (some x) → ∃ t p', exec (.stealAnswer th) s = .next t ∧ (t.iu th).answer = none ∧ (t.iu th).asked = [] ∧
      (t.iu th).askSlot = none ∧ t.part k = some p' ∧ p'.poolWait = p.poolWait ++ [⟨x.launch, 0, some x, th, true, (s.iu th).askSlot, none, false⟩] ∧
      Instr.stealRound th ∈ t.agenda) ∧
    ((s.iu th).answer = some none → ∃ t, exec (.stealAnswer th) s = .next t ∧ (t.iu th).answer = none ∧ (t.iu th).askSlot = none ∧ (∀ j ∈ (t.iu th).heldSlots, (s.iu th).askSlot ≠ some j) ∧
      Instr.stealRound th ∈ t.agenda))

/-- R271 to R275: FUTW reads a resolved word, else becomes its newest waiter and parks; FUTR and FUTF resolve once, DOUBLE meeting a second resolution and FUTFMT a malformed word; the walk gives each waiter the word and wakes it. That DOUBLE goes before FUTFMT is the model's choice (log 53), so is the address space that a waiting word keeps for the walk (log 54). -/
def Obligations.FutureResults : Prop :=
  (∀ (s : State) (hd : Hdr) (dn : DescN) (code : ScopeCode) (d a : Reg) (n pa w : Nat) (h : Held) (acc : Access) (sc : ScopeCode),
    s.issuing hd [a] [d] n h → h.ctx.pendAll = 0 → s.passes (.futw hd dn code d a) n h dn ((xget h.ctx.x a).extractLsb' 0 64) 8 .atomic acc sc →
    acc.segs = [(pa, 8)] → s.homeWord (s.issOf (.futw hd dn code d a) 1 n h) pa 8 = .val w →
    (futBad w = true → exec (.futw hd dn code d a) s = .next (s.trapped h ⟨26, dn.toNat, acc.va⟩)) ∧
    (futBad w = false → 2 ≤ futSt w →
      let sc' := if code = 0 then sc else code
      (sc' = 7 → s.noPeerCopies (n / 2048)) → stampOk (s.stamp (pa / 128)) sc' s.cur (.iu (n / 16)) = true →
      exec (.futw hd dn code d a) s = .next (s.started hd 1 n h d (.fut ((0 : BitVec 32) ++ BitVec.ofNat 64 w)))) ∧
    (futBad w = false → futSt w < 2 → memSound s →
      ∃ t, exec (.futw hd dn code d a) s = .next t ∧ (t.ctxAt s.cur).state = stParked ∧ (t.ctxAt s.cur).why = whyFut ∧ (t.ctxAt s.cur).pc = h.ctx.pc ∧
        (t.ctxAt s.cur).pend d.toNat = true ∧ xget (t.ctxAt s.cur).x d = (xget h.ctx.x d).extractLsb' 64 32 ++ BitVec.ofNat 64 w ∧
        t.readN pa 8 = 2 ^ 62 + d.toNat * 2 ^ 59 + h.id % 2 ^ 57 / 256 * 256 ∧
        ∀ ad, (ad < pa ∨ pa + 8 ≤ ad) → memRead t.mem ad = memRead s.mem ad)) ∧
  (∀ (s : State) (hd : Hdr) (dn : DescN) (code : ScopeCode) (a b : Reg) (n pa w : Nat) (h : Held), s.issuing hd [a, b] [] n h → memSound s →
    let vb := ((xget h.ctx.x b).extractLsb' 0 64).toNat
    ∀ i new, (i = Instr.futr hd dn code a b ∧ new = 2 ^ 63 + vb % 2 ^ 62 ∨ i = Instr.futf hd dn code a b ∧ new = 3 * 2 ^ 62 + vb % 2 ^ 32) →
    ∀ acc sc, s.passes i n h dn ((xget h.ctx.x a).extractLsb' 0 64) 8 .atomic acc sc → acc.segs = [(pa, 8)] →
    s.homeWord (s.issOf i 1 n h) pa 8 = .val w →
    (futSt w < 2 → futBad w = true → exec i s = .next (s.trapped h ⟨26, dn.toNat, acc.va⟩)) ∧
    (2 ≤ futSt w → exec i s = .next (s.trapped h ⟨27, dn.toNat, acc.va⟩)) ∧
    (futBad w = false → futSt w < 2 →
      ∃ t, exec i s = .next t ∧ t.ctxAt s.cur = ((h.advance 1).landed (t.cycOf n)).ctx ∧ t.readN pa 8 = new ∧
        (∀ ad, (ad < pa ∨ pa + 8 ≤ ad) → memRead t.mem ad = memRead s.mem ad) ∧
        (w = 0 → t.futs = s.futs) ∧
        (w ≠ 0 → t.futs = mapPut s.futs s.nextId ⟨s.partOf s.cur, s.asidOf (s.partOf s.cur) h.ctx.launch, acc.va, BitVec.ofNat 64 new, BitVec.ofNat 64 w⟩ ∧ Instr.futureWalk s.nextId ∈ t.agenda))) ∧
  (∀ (s : State) (k : Nat) (f : FutWalk), mapFind s.futs k = some f →
    (f.link = 0 → exec (.futureWalk k) s = .next { s with futs := mapErase s.futs k }) ∧
    (∀ key h, f.link ≠ 0 → futSt f.link.toNat = 1 → futBad f.link.toNat = false → s.ctxLine none f.part f.asid (futId f.link.toNat) = some key →
      mapFind s.held key = some h → s.isMoving key = false → s.isLive key = true → h.ctx.state = stParked → h.ctx.why = whyFut →
      h.ctx.pend (futReg f.link.toNat).toNat = true →
      let d := futReg f.link.toNat
      ∃ t, exec (.futureWalk k) s = .next t ∧ (t.ctxAt key).state = stReady ∧ (t.ctxAt key).why = 0 ∧ (t.ctxAt key).pend d.toNat = false ∧
        xget (t.ctxAt key).x d = (xget h.ctx.x d).extractLsb' 64 32 ++ f.word ∧ (∀ q, q ≠ d → xget (t.ctxAt key).x q = xget h.ctx.x q) ∧
        t.futs = mapPut s.futs k { f with link := (xget h.ctx.x d).extractLsb' 0 64 } ∧ Instr.futureWalk k ∈ t.agenda ∧ t.mem = s.mem) ∧
    (∀ key, f.link ≠ 0 → s.ctxLine none f.part f.asid (futId f.link.toNat) = some key → s.isMoving key = false →
      (s.isLive key = false ∨ (s.ctxAt key).pend (futReg f.link.toNat).toNat = false) →
      ∃ t, exec (.futureWalk k) s = .next t ∧ t.futs = mapErase s.futs k ∧ t.mem = s.mem ∧ t.held = s.held))

/-- R133, R142, R276 to R280: BARA and BAR arrive, the last arrival opening the barrier and waking the members parked at it; BARW issues once the phase has moved; leaving an open barrier is an acquire at the level's SCOPE; each raises FROZEN where urgent work finds the barrier outside the KEEP ranges (R380; detail 0 is the model's choice, log 35); PARK waits for its deadline; MIGR leaves for the address's tower. -/
def Obligations.BarrierParkAndMigrResults : Prop :=
  (∀ (s : State) (hd : Hdr) (d a : Reg) (b : BitVec 2) (n pa v : Nat) (l : Leaf) (h : Held), memSound s →
    let k := s.partOf s.cur
    let asid := s.asidOf k h.ctx.launch
    let va := h.ctx.link.toNat + 0x40 + 16 * b.toNat
    let expect := s.readN pa 4
    let arrived := s.readN (pa + 4) 4
    let phase := s.readN (pa + 8) 4
    s.tcHit (n / 128) k asid va = some l → pa = l.pa va → s.homeHeld pa = false →
    let last := expect ≤ arrived + 1
    let counted := fun base t : State => t.readN (pa + 4) 4 = (if last then 0 else arrived + 1) ∧
      t.readN (pa + 8) 4 = (if last then (phase + 1) % 2 ^ 32 else phase) ∧ t.readN pa 4 = expect ∧
      (∀ ad, (ad < pa + 4 ∨ pa + 12 ≤ ad) → memRead t.mem ad = memRead s.mem ad) ∧
      (last → let u : State := { base with mem := t.mem, poison := t.poison, now := t.now }
        ∀ m ∈ u.members k h.ctx.launch h.ctx.link, (u.ctxAt m).state = stParked → (u.ctxAt m).why = whyBar →
        u.parkedAt m b.toNat = true → Instr.barrierWake m h.ctx.link.toNat b.toNat ∈ t.agenda)
    let frozen := s.frozenAt k h.ctx.launch pa
    let refused := fun i : Instr => exec i s = .next (s.trapped h ⟨28, 0, va⟩)
    (frozen = true → (s.issuing hd [] [] n h → refused (.bar hd b)) ∧ (s.issuing hd [] [d] n h → refused (.bara hd d b)) ∧ (s.issuing hd [a] [] n h → refused (.barw hd a b))) ∧
    (s.issuing hd [] [d] n h → s.homeWord (s.issOf (.bara hd d b) 1 n h) pa 16 = .val v → frozen = false →
      ∃ t, exec (.bara hd d b) s = .next t ∧ counted s t ∧ t.ctxAt s.cur = ((h.advance 1).landed (t.cycOf n)).ctx.setPend d.toNat true ∧
        mapFind t.ops s.nextId = some { key := s.cur, launch := h.ctx.launch, pos := .iu (n / 16), reg := d,
                                        kind := .value (BitVec.ofNat 96 phase) 0x0FF 0 }) ∧
    let quiet := ∀ p, s.part k = some p → p.scopemissen.getLsbD 0 = false
    let seen := fun t : State => stampOk (s.stamp (pa / 128)) (t.levelScope k asid h.ctx.link) s.cur (.iu (n / 16))
    (s.issuing hd [] [] n h → s.homeWord (s.issOf (.bar hd b) 1 n h) pa 16 = .val v → frozen = false → quiet →
      ∃ t, exec (.bar hd b) s = .next t ∧ counted (s.issued hd 1 n h) t ∧
        let c := ((h.advance 1).landed (t.cycOf n)).ctx
        t.ctxAt s.cur = if last then (if seen t then c else c.orSmiss) else c.setState stParked whyBar) ∧
    (s.issuing hd [a] [] n h → s.homeWord (s.issOf (.barw hd a b) 1 n h) pa 16 = .val v → frozen = false → quiet →
      ∃ t, exec (.barw hd a b) s = .next t ∧ t.mem = s.mem ∧
        t.ctxAt s.cur = if phase = (xget h.ctx.x a).toNat % 2 ^ 32 then h.ctx.setState stParked whyBar
          else if seen t then (h.advance 1).ctx else (h.advance 1).ctx.orSmiss)) ∧
  (∀ (s : State) (key link b : Nat) (h : Held), mapFind s.held key = some h → s.isMoving key = false →
    let c := s.ctxAt key
    let k := s.partOf key
    let wakes := s.isLive key && c.link.toNat = link && c.state = stParked && c.why = whyBar && s.parkedAt key b
    let missed := (∀ o a m, instrOf (s.wordAt key c.pc.toNat) 0 = .barw o a m → m.toNat ≠ b) ∧
      ∃ pa, s.vaToPa k (s.asidOf k c.launch) (link + 0x40 + 16 * (b % 4)) = some pa ∧
        stampOk (s.stamp (pa / 128)) (s.levelScope k (s.asidOf k c.launch) c.link) key (s.posOf key) = false
    (wakes = false → exec (.barrierWake key link b) s = .next s) ∧
    (wakes = true → (∀ p, s.part k = some p → p.scopemissen.getLsbD 0 = false) → ∃ t, exec (.barrierWake key link b) s = .next t ∧ t.mem = s.mem ∧
      (¬ missed → t.ctxAt key = c.setState stReady 0) ∧ (missed → t.ctxAt key = (c.setState stReady 0).orSmiss))) ∧
  (∀ (s : State) (hd : Hdr) (a : Reg) (n : Nat) (h : Held), s.issuing hd [a] [] n h →
    let T := ((xget h.ctx.x a).extractLsb' 0 64).toNat
    (T = 0 → ∃ t, exec (.park hd a) s = .next t ∧ t.ctxAt s.cur = h.ctx.setState stParked whyPark) ∧
    (T ≠ 0 → T ≤ s.reft → exec (.park hd a) s = .next (s.issued hd 1 n h)) ∧
    (s.reft < T → ∃ t, exec (.park hd a) s = .next t ∧ t.ctxAt s.cur = h.ctx.setState stParked whyTimer ∧ mapFind t.timers s.cur = some T ∧
      Instr.timerWake s.cur ∈ t.agenda)) ∧
  (∀ (s : State) (key T : Nat) (h : Held), mapFind s.held key = some h → mapFind s.timers key = some T → s.isMoving key = false →
    s.resumes (s.partOf key) h.ctx.launch = true →
    (s.reft < T → exec (.timerWake key) s = .next (s.emit (.timerWake key))) ∧
    (T ≤ s.reft → ∃ t, exec (.timerWake key) s = .next t ∧ t.timers = mapErase s.timers key ∧
      t.ctxAt key = if h.ctx.state = stParked ∧ h.ctx.why = whyTimer then (s.ctxAt key).setState stReady 0 else s.ctxAt key)) ∧
  (∀ (s : State) (hd : Hdr) (dn : DescN) (a : Reg) (n : Nat) (h : Held), s.issuing hd [a] [] n h →
    ∀ acc sc l, s.access (s.issOf (.migr hd dn a) 1 n h) dn.toNat ((xget h.ctx.x a).extractLsb' 0 64) 1 .load false = .ok acc sc l →
    let home := if l.hov ≠ 0 then some (l.hov - 1) else s.homeTower (l.pa acc.va)
    ((∀ t, home = some t → t = n / 2048 / 4 ∨ s.towerHasC (s.partOf s.cur) t = false) → exec (.migr hd dn a) s = .next (s.issued hd 1 n h)) ∧
    (∀ t lv, home = some t → t ≠ n / 2048 / 4 → s.towerHasC (s.partOf s.cur) t = true → mapFind s.live s.cur = some lv →
      ∃ u, exec (.migr hd dn a) s = .next u ∧ u.ctxAt s.cur = h.ctx.setState stParked whyMigr ∧
        mapFind u.live s.cur = some { lv with migr := some t } ∧ Instr.migration s.cur ∈ u.agenda))

/-- R281: SELF writes the context's identifier to bytes 0 to 7 of xd and the number of the issuing IU to bytes 8 to 11, readable 8 cycles later, and changes nothing else; its word is that of R200. -/
def Obligations.SelfResult : Prop :=
  (∀ (d : Reg) (v : Nat), decodeWords (0x2F * 2 ^ 19 + d.toNat * 2 ^ 16 + 5 * 2 ^ 7) v = .ok (.self ⟨0, false, 0⟩ d)) ∧
  (∀ (s : State) (hd : Hdr) (d : Reg) (n : Nat) (h : Held), s.issuing hd [] [d] n h → ∃ x',
    exec (.self hd d) s = .next (s.issued hd 1 n (h.write (s.cycOf n) 8 d x')) ∧
    x'.extractLsb' 0 64 = BitVec.ofNat 64 h.id ∧ x'.extractLsb' 64 32 = BitVec.ofNat 32 (n / 16))

/-! ### Tiles (13_isa_tile_engine.md) -/

/-- R283, R284, R286, R288, R289, R295 to R298: TALLOC takes the lowest aligned free quarters and resets the descriptor, or traps in the order of R289; TFREE frees; TDESC and TSTAT deliver the descriptor; TWAIT moves FLAGS to PRED and traps with TFAULT on a FAULT handle. Which operand a TOPND of TALLOC names is the model's choice (log 31). -/
def Obligations.TileHandleResults : Prop :=
  (∀ (s : State) (hd : Hdr) (o : HOp) (a : Reg) (n : Nat) (h : Held), s.issuing hd (hopNames o ++ [a]) [] n h →
    let m := hopVal h.ctx.x o
    let v := (xget h.ctx.x a).extractLsb' 0 64
    let f := decFmt (getF v 0 4)
    let bad := getF v 6 58 ≠ 0 ∨ getF v 0 4 = 15 ∨ (v.getLsbD 5 = true ∧ (v.getLsbD 4 = false ∨ f ∉ [Fmt.e4m3, Fmt.e5m2, Fmt.vb8]))
    let q := max 1 (((if v.getLsbD 4 then 1024 else 256) * fmtBits f / 8 + 511) / 512)
    let fits := fun b : Nat => b % q = 0 ∧ b + q ≤ 4096 ∧
      ∀ e ∈ s.handles, e.1 / 1024 = n / 64 → e.2.alloc = true → e.2.baseq.toNat + e.2.quarters ≤ b ∨ b + q ≤ e.2.baseq.toNat
    let used := s.chargedQuarters (n / 64) h.ctx.launch h.ctx.link.toNat
    let quota := fun l : Leaf => 4 * s.readN (l.pa h.ctx.link.toNat + 0x1C) 2
    let team := s.tcHit (n / 128) (s.partOf s.cur) (s.asidOf (s.partOf s.cur) h.ctx.launch) h.ctx.link.toNat
    let admitted := h.ctx.mode = 0 → ∃ l, team = some l ∧ used + q ≤ quota l
    ((s.handle (n / 64) m).alloc = true → exec (.talloc hd o a) s = .next (s.trapped h ⟨16, 0, m⟩)) ∧
    ((s.handle (n / 64) m).alloc = false →
      (bad → exec (.talloc hd o a) s = .next (s.trapped h ⟨18, 1, m⟩)) ∧
      (¬ bad → ∀ l, h.ctx.mode = 0 → team = some l → quota l < used + q → exec (.talloc hd o a) s = .next (s.trapped h ⟨20, 0, 0⟩)) ∧
      (¬ bad → admitted → (∀ b, ¬ fits b) → exec (.talloc hd o a) s = .next (s.trapped h ⟨21, 0, 0⟩)) ∧
      (¬ bad → admitted → ∀ b, fits b → (∀ c < b, ¬ fits c) →
        ∃ d, exec (.talloc hd o a) s = .next { s.issued hd 2 n h with handles := mapPut s.handles (hKey (n / 64) m) d } ∧
          d.alloc = true ∧ d.baseq.toNat = b ∧ d.fmt = f ∧ d.shp = v.getLsbD 4 ∧ d.blk = v.getLsbD 5 ∧ d.launch.toNat = h.ctx.launch ∧
          d.level.toNat = h.ctx.level ∧ d.team = h.ctx.link.toNat ∧ d.charged = decide (h.ctx.mode = 0) ∧ d.fcode = 0 ∧ d.mark = false ∧
          d.flags = 0 ∧ d.esc = 0 ∧ (∀ j : Fin 4, d.scales[j] = 0x7F)))) ∧
  (∀ (s : State) (hd : Hdr) (o : HOp) (n : Nat) (h : Held), s.issuing hd (hopNames o) [] n h →
    let m := hopVal h.ctx.x o
    let d := s.handle (n / 64) m
    let st := s.handleState (n / 64) m
    let free := { s.issued hd 2 n h with handles := mapErase s.handles (hKey (n / 64) m) }
    let moved := { s.issued hd 2 n (h.flagAt (s.cycOf n + 8) d.flags) with handles := mapPut s.handles (hKey (n / 64) m) { d with flags := 0 } }
    (st = 0 → exec (.tfree hd o) s = .next (({ s with tick := s.tick + 1 } : State).trapped h ⟨16, 0, m⟩) ∧
      exec (.twait hd o) s = .next (({ s with tick := s.tick + 1 } : State).trapped h ⟨16, 1, m⟩)) ∧
    (st ≠ 0 → h.ctx.mode = 0 → d.launch.toNat ≠ h.ctx.launch →
      exec (.tfree hd o) s = .next (({ s with tick := s.tick + 1 } : State).trapped h ⟨17, 0, m⟩)) ∧
    (s.mayName n h m → (st = 1 ∨ st = 3) → exec (.tfree hd o) s = .next free) ∧
    (s.mayName n h m → st = 1 → exec (.twait hd o) s = .next moved) ∧
    (s.mayName n h m → st = 3 → exec (.twait hd o) s = .next (moved.raiseTrap s.cur ⟨22, d.fcode.toNat, m⟩ (h.advance 2).ctx.pc))) ∧
  (∀ (s : State) (hd : Hdr) (d : Reg) (o : HOp) (n : Nat) (h : Held), s.issuing hd (hopNames o) [d] n h →
    exec (.tdesc hd d o) s = .next (s.started hd 2 n h d (.tile (n / 64) (hopVal h.ctx.x o) false)) ∧
    exec (.tstat hd d o) s = .next (s.started hd 2 n h d (.tile (n / 64) (hopVal h.ctx.x o) true))) ∧
  (∀ (s : State) (k quad m : Nat) (stat : Bool) (o : Op) (h : Held), mapFind s.ops k = some o → o.kind = .tile quad m stat →
    mapFind s.held o.key = some h → h.ctx.takes → s.isMoving o.key = false →
    let d := s.handle quad m
    let st := s.handleState quad m
    ∃ t, exec (.result k) s = .next t ∧ deliveredTo (s.needsOf o.key) h.ctx (t.ctxAt o.key) o.reg ∧ t.mem = s.mem ∧ t.handles = s.handles ∧
      let x := xget (t.ctxAt o.key).x o.reg
      (stat = true → x.extractLsb' 64 32 = (xget h.ctx.x o.reg).extractLsb' 64 32 ∧ (x.extractLsb' 0 2).toNat = st ∧ x.extractLsb' 2 6 = 0 ∧
        x.extractLsb' 8 8 = d.fcode ∧ x.extractLsb' 16 4 = 0 ∧ x.extractLsb' 20 6 = d.flags ∧ x.extractLsb' 26 6 = 0 ∧
        x.extractLsb' 32 32 = (s.te quad).rotstep) ∧
      (stat = false → st = 0 → x = 0) ∧
      (stat = false → st ≠ 0 → x.extractLsb' 0 2 = 0 ∧ x.getLsbD 2 = d.shp ∧ x.getLsbD 3 = d.blk ∧ (x.extractLsb' 4 4).toNat = fmtCode d.fmt ∧
        x.extractLsb' 8 12 = d.baseq ∧ x.extractLsb' 20 6 = d.flags ∧ x.extractLsb' 26 4 = d.esc ∧ (x.extractLsb' 30 2).toNat = st ∧
        x.extractLsb' 32 8 = d.fcode ∧ x.extractLsb' 40 5 = 0 ∧ x.extractLsb' 45 3 = d.level ∧ x.extractLsb' 48 16 = d.launch ∧
        ∀ j : Fin 4, x.extractLsb' (64 + 8 * j) 8 = d.scales[j]))

/-- R289, R290, R299 to R314: a tile operation whose handles it may name enters its subqueue where formats and shapes allow it, else it traps with TOPND, naming an operand at fault; a named handle that is FREE raises HSTATE, one of another launch HOWNER. Which operands a broken condition puts at fault, and that the trap names any of them, are the model's choices (log 31). -/
def Obligations.TileOperationsEnter : Prop :=
  let ok := fun (int : Bool) (f : Fmt) => f ∈ eltFmts ∨ (int = true ∧ f = .int32)
  let elt := fun (int : Bool) (d a b : TileHandle) (_ _ _ : Nat) (i : Nat) => match i with
    | 0 => ¬ ok int d.fmt ∨ ¬ a.like d ∨ ¬ b.like d | 1 => ¬ ok int a.fmt ∨ ¬ a.like d | _ => ¬ ok int b.fmt ∨ ¬ b.like d
  let elt1 := fun (int : Bool) (d a : TileHandle) (_ _ : Nat) (i : Nat) => ¬ a.like d ∨ match i with | 0 => ¬ ok int d.fmt | _ => ¬ ok int a.fmt
  let two := fun _ A B : Nat => [A, B]
  let three := fun D A B : Nat => [D, A, B]
  let pair := fun (fd fa fb : Fmt) =>
    (fd = .aff32 ∧ ((fa ∈ [Fmt.e4m3, .e5m2, .vb8] ∧ fb ∈ [Fmt.e4m3, .e5m2, .vb8]) ∨ (fa = fb ∧ fa ∈ [Fmt.fp32, .bfx2, .fp16, .bf16]))) ∨
    (fd = .int32 ∧ ((fa ∈ [Fmt.int8, .uint8] ∧ fb ∈ [Fmt.int8, .uint8]) ∨ (fa ∈ [Fmt.int4, .uint4] ∧ fb ∈ [Fmt.int4, .uint4]) ∨
      (fa = fb ∧ fa ∈ [Fmt.int32, .int16]))) ∨
    (fd = .fp64 ∧ fa = .fp64 ∧ fb = .fp64)
  let product := fun (d a b : TileHandle) (D A B : Nat) (i : Nat) =>
    let some_ := ∃ f, pair f a.fmt b.fmt
    match i with
    | 0 => d.shp ≠ a.shp ∨ d.shp ≠ b.shp ∨ D = A ∨ D = B ∨ (some_ ∧ ¬ pair d.fmt a.fmt b.fmt)
    | 1 => d.shp ≠ a.shp ∨ D = A ∨ ¬ some_
    | _ => d.shp ≠ b.shp ∨ D = B ∨ ¬ some_
  let affine := fun (fd fb : Fmt) (same : Nat → Nat → Nat → Nat → Prop) (d a b : TileHandle) (D A B : Nat) (i : Nat) => same D A B i ∨ match i with
    | 0 => d.fmt ≠ fd ∨ a.shp ≠ d.shp ∨ b.shp ≠ d.shp | 1 => a.fmt ≠ .aff32 ∨ a.shp ≠ d.shp | _ => b.fmt ≠ fb ∨ b.shp ≠ d.shp
  TileForm3 .tadd true (.elt 0) two (elt true) ∧ TileForm3 .tsub true (.elt 1) two (elt true) ∧ TileForm3 .tmul true (.elt 2) two (elt true) ∧
  TileForm3 .tfma true (.elt 3) three (elt false) ∧ TileForm3 .tmax false (.elt 4) two (elt true) ∧ TileForm3 .tmin false (.elt 5) two (elt true) ∧
  TileForm2 .tabs false (.elt 6) (elt1 true) ∧ TileForm2 .texp true (.elt 7) (elt1 false) ∧ TileForm2 .trcp true (.elt 8) (elt1 false) ∧
  TileForm2 .tcvt true .cvt (fun d a D A _ => D = A ∨ a.shp ≠ d.shp) ∧
  TileForm2 .ttrn false .trn (fun d a _ _ _ => ¬ a.like d ∨ a.blk ≠ d.blk) ∧
  (∀ op col, TileForm2 (fun hd => .tred hd op col) (op = .sum) (.red op col) (elt1 true)) ∧
  TileForm3 .tscan true .scan two (affine .aff32 .aff32 fun D A B i => (B = A ∧ i ≠ 0) ∨ (B = D ∧ i ≠ 1)) ∧
  TileForm3 .taff true .aff two (affine .fp32 .fp32 fun D A _ i => D = A ∧ i ≠ 2) ∧
  TileForm3 .tcomp true .comp two (affine .aff32 .aff32 fun _ _ _ _ => False) ∧
  TileForm3 (fun hd => .tmma hd false) true (.mma false false) three product ∧
  TileForm3 (fun hd => .tmmar hd false) true (.mma false true) three product ∧
  (∀ (s : State) (hd : Hdr) (oD oA oB : HOp) (n : Nat) (h : Held), s.issuing hd (hopNames oD ++ hopNames oA ++ hopNames oB) [] n h → h.ctx.rm < 5 →
    let D := hopVal h.ctx.x oD
    let A := hopVal h.ctx.x oA
    let B := hopVal h.ctx.x oB
    let t := fun m => s.handle (n / 64) m
    let below := n / 2048 % 4 ≠ 0 ∧ s.isM (n / 2048 - 1) = true
    s.mayName n h D → s.mayName n h A → s.mayName n h B → (∀ i < 3, ¬ product (t D) (t A) (t B) D A B i) →
    (below → exec (.tmma hd true oD oA oB) s = .next (s.queued hd n h (tileOp (.mma true false) [D, A, B] D A B)) ∧
      exec (.tmmar hd true oD oA oB) s = .next (s.queued hd n h (tileOp (.mma true true) [D, A, B] D A B))) ∧
    (¬ below → exec (.tmma hd true oD oA oB) s = .next (s.trapped h ⟨19, 0, 0⟩) ∧
      exec (.tmmar hd true oD oA oB) s = .next (s.trapped h ⟨19, 0, 0⟩))) ∧
  (∀ (s : State) (hd : Hdr) (oD oA : HOp) (b : Reg) (n : Nat) (h : Held), s.issuing hd (hopNames oD ++ hopNames oA ++ [b]) [] n h → h.ctx.rm < 5 →
    let D := hopVal h.ctx.x oD
    let A := hopVal h.ctx.x oA
    s.mayName n h D → s.mayName n h A →
    TileEnters s (.tscale hd oD oA b) hd n h [(0, D), (1, A)] (elt1 true (s.handle (n / 64) D) (s.handle (n / 64) A) D A)
      { tileOp (.elt 9) [A] D A A with scalar := (xget h.ctx.x b).extractLsb' 0 64 }) ∧
  (∀ (s : State) (hd : Hdr) (o : HOp) (n : Nat) (h : Held), s.issuing hd (hopNames o) [] n h →
    let m := hopVal h.ctx.x o
    (s.mayName n h m → exec (.tzero hd o) s = .next (s.queued hd n h (tileOp .zero [] m m m))) ∧
    (s.handleState (n / 64) m = 0 → exec (.tzero hd o) s = .next (({ s with tick := s.tick + 1 } : State).trapped h ⟨16, 0, m⟩)) ∧
    (s.handleState (n / 64) m ≠ 0 → ¬ s.mayName n h m → exec (.tzero hd o) s = .next (({ s with tick := s.tick + 1 } : State).trapped h ⟨17, 0, m⟩))) ∧
  (∀ (s : State) (hd : Hdr) (dn : DescN) (o : HOp) (a b : Reg) (n : Nat) (h : Held), s.issuing hd (hopNames o ++ [a, b]) [] n h →
    let m := hopVal h.ctx.x o
    let d := s.handle (n / 64) m
    let off := (xget h.ctx.x a).extractLsb' 0 64
    let stride := ((xget h.ctx.x b).extractLsb' 0 64).toNat
    let row := d.bytes / d.width
    let len := if stride = 0 then d.bytes + (if d.fmt ∈ [Fmt.e4m3, .e5m2, .vb8] then 8 else 0) else (d.width - 1) * stride + row
    let badLd := stride ≠ 0 ∧ d.fmt ∈ [Fmt.e4m3, .e5m2, .vb8]
    let badSt := stride ≠ 0 ∧ (d.fmt ∈ [Fmt.e4m3, .e5m2, .vb8] ∨ stride < row)
    let check := fun (i : Instr) (k : AK) => s.preCheck (s.issOf i 2 n h) dn.toNat off len k
    s.mayName n h m →
    (badLd → exec (.tld hd dn o a b) s = .next (s.trapped h ⟨18, 0, m⟩)) ∧
    (badSt → exec (.tst hd dn o a b) s = .next (s.trapped h ⟨18, 0, m⟩)) ∧
    (¬ badLd → (∀ t, check (.tld hd dn o a b) .load = .error t → exec (.tld hd dn o a b) s = .next (s.trapped h t)) ∧
      ∀ va, check (.tld hd dn o a b) .load = .ok va →
        exec (.tld hd dn o a b) s = .next (s.queued hd n h { tileOp .ld [] m m m with va, stride, len })) ∧
    (¬ badSt → (∀ t, check (.tst hd dn o a b) .store = .error t → exec (.tst hd dn o a b) s = .next (s.trapped h t)) ∧
      ∀ va, check (.tst hd dn o a b) .store = .ok va →
        exec (.tst hd dn o a b) s = .next (s.queued hd n h { tileOp .st [m] m m m with va, stride, len })))

/-- R45, R287, R290 to R292, R299, R306, R307, R310: the head of a subqueue prepares; the next startable head after the pointer starts, and a fault met in prepare, a FAULT operand or a poisoned one decides that it commits nothing (that the first of these comes before PROPAGATED is the model's choice, log 27); a commit writes what its run computed, and waits while a role change holds the home of a line it stores to; for tiles of a 32-bit integer format the element-wise forms wrap, a transposition exchanges row and column, TZERO gives zero. -/
def Obligations.TileEngineSteps : Prop :=
  (
  (∀ (s : State) (quad iu : Nat) (o : TileOp) (r : List TileOp), iu < 4 → (s.te quad).sub iu = o :: r → o.prep = false → s.halted o.part o.launch = false →
    (o.op ≠ .ld → o.op ≠ .st →
      ∃ t, exec (.tilePrepare quad iu) s = .next t ∧ (t.te quad).sub iu = { o with prep := true, since := s.now } :: r ∧
        Instr.tileStart quad ∈ t.agenda ∧ t.mem = s.mem ∧ t.handles = s.handles) ∧
    (∀ va m l, (o.op = .ld ∨ o.op = .st) → o.ranges (s.handle quad o.hd) = [(va, m)] → s.tcHit (quad / 2) o.part o.asid va = some l →
      s.accessBefore o.key o.seq = false →
      let c := s.pieceFcode (quad / 32) o (o.op = .st) l va m
      (c ≠ 0 → ∃ t, exec (.tilePrepare quad iu) s = .next t ∧ (t.te quad).sub iu = { o with prep := true, since := s.now, fault := c } :: r ∧
        t.mem = s.mem ∧ t.handles = s.handles) ∧
      (c = 0 → o.op = .ld → (∀ x ∈ segLines [(l.pa va, m)], s.lineBusy [x] = false ∧ s.claimed x = false ∧ s.l2Reads x (quad / 32) = true ∧ s.offModule x = false) →
        ∃ t, exec (.tilePrepare quad iu) s = .next t ∧
          (t.te quad).sub iu = { o with prep := true, since := s.now, segs := [(l.pa va, m)], data := memReadList s.mem (l.pa va) m } :: r ∧
          t.mem = s.mem ∧ t.handles = s.handles))) ∧
  (∀ (s : State) (quad i : Nat) (o : TileOp) (r : List TileOp), i < 4 →
    let te := s.te quad
    let iu := (te.ptr + 1 + i) % 4
    te.sub iu = o :: r → s.startable quad o = true → o.isRot = false → (∀ j < i, ∀ p q, te.sub ((te.ptr + 1 + j) % 4) = p :: q → s.startable quad p = false) →
    ∃ t run, exec (.tileStart quad) s = .next t ∧ (t.te quad).ptr = iu ∧ (t.te quad).sub iu = r ∧ (t.te quad).run = te.run ++ [run] ∧
      (∀ j < 4, j ≠ iu → (t.te quad).sub j = te.sub j) ∧ Instr.tileCommit quad ∈ t.agenda ∧ t.mem = s.mem ∧ t.handles = s.handles ∧ run.op = o ∧
      let marked := ∃ m ∈ o.reads, (s.handle quad m).mark = true
      (o.fault ≠ 0 → run.fault = o.fault) ∧ (o.fault = 0 → marked → run.fault = 7) ∧
      (o.fault = 0 → ¬ marked → s.runPoison quad o = true → run.fault = 6) ∧ (o.fault = 0 → ¬ marked → s.runPoison quad o = false → run.fault = 0) ∧
      (run.fault ≠ 0 → run.outs = [] ∧ run.mem = [])) ∧
  (∀ (s : State) (quad : Nat) (r : TileRun) (rest : List TileRun), (s.te quad).run = r :: rest → r.op.op = .st → (∃ c ∈ r.mem, s.homeHeld (c.1 / 128 * 128) = true) →
    exec (.tileCommit quad) s = .next (s.emit (.tileCommit quad))) ∧
  (∀ (s : State) (quad : Nat) (r : TileRun) (rest : List TileRun), (s.te quad).run = r :: rest → r.op.op ≠ .st → r.mem = [] → memSound s →
    (r.fault ≠ 0 → ∃ t, exec (.tileCommit quad) s = .next t ∧ (t.te quad).run = rest ∧ t.mem = s.mem ∧
      (t.handle quad r.op.hd).mark = true ∧ (t.handle quad r.op.hd).fcode = BitVec.ofNat 8 r.fault ∧
      (t.handle quad r.op.hd).flags = (s.handle quad r.op.hd).flags ∧ (t.handle quad r.op.hd).scales = (s.handle quad r.op.hd).scales ∧
      ∀ m, m ≠ hKey quad r.op.hd → mapFind t.handles m = mapFind s.handles m) ∧
    (∀ w, r.fault = 0 → r.outs = [w] → w.handle = r.op.hd → (w.bytes.map (·.1)).Nodup →
      ∃ t, exec (.tileCommit quad) s = .next t ∧ (t.te quad).run = rest ∧
        (∀ c ∈ w.bytes, memRead t.mem c.1 = c.2) ∧ (∀ a, (∀ c ∈ w.bytes, c.1 ≠ a) → memRead t.mem a = memRead s.mem a) ∧
        (t.handle quad w.handle).scales = w.scales ∧ (t.handle quad w.handle).esc = w.esc ∧
        (t.handle quad w.handle).flags = (s.handle quad w.handle).flags ||| w.flags ∧
        (t.handle quad w.handle).mark = (if r.op.op = .zero ∨ r.op.op = .ld then false else (s.handle quad w.handle).mark) ∧
        (t.handle quad w.handle).fcode = (if r.op.op = .zero ∨ r.op.op = .ld then 0 else (s.handle quad w.handle).fcode) ∧
        (t.te quad).rotstep = (s.te quad).rotstep + (match r.op.op with | .mma _ true => 1 | _ => 0) ∧
        ∀ m, m ≠ hKey quad w.handle → mapFind t.handles m = mapFind s.handles m)) ∧
  (∀ (s : State) (quad iu : Nat) (o : TileOp) (r : List TileOp), iu < 4 → (s.te quad).sub iu = o :: r → (∀ j < 4, j ≠ iu → (s.te quad).sub j = []) →
    o.isRot = true → o.prep = true → s.halted o.part o.launch = false → o.since + 65536 * Config.ticksPerNs ≤ s.now → (s.te quad).run = [] →
    (∀ p ∈ r, o.seq ≤ p.seq) →
    ∃ t, exec (.rottime quad) s = .next t ∧ (t.te quad).sub iu = r ∧ (t.handle quad o.hd).mark = true ∧ (t.handle quad o.hd).fcode = 8 ∧ t.mem = s.mem)) ∧
  (
  ∀ (s : State) (quad : Nat) (o : TileOp), s.stores = [] →
    let d := s.handle quad o.hd
    d.fmt = .int32 → (s.handle quad o.ha).like d → (s.handle quad o.hb).like d →
    let w := d.width
    let a := s.elem32 quad (s.handle quad o.ha)
    let b := s.elem32 quad (s.handle quad o.hb)
    let gives := fun f : Nat → BitVec 32 => ∃ out, s.tileOuts quad o = [out] ∧ out.handle = o.hd ∧ out.flags = 0 ∧
      out.bytes.map (·.1) = rangeFrom (d.addr quad) (4 * (w * w)) ∧
      ∀ k < w * w, BitVec.ofNat 32 (leToNat (((out.bytes.map (·.2)).drop (4 * k)).take 4)) = f k
    (o.op = .elt 0 → gives fun k => a k + b k) ∧ (o.op = .elt 1 → gives fun k => a k - b k) ∧ (o.op = .elt 2 → gives fun k => a k * b k) ∧
    (o.op = .elt 4 → gives fun k => if (a k).slt (b k) then b k else a k) ∧ (o.op = .elt 5 → gives fun k => if (a k).slt (b k) then a k else b k) ∧
    (o.op = .elt 6 → gives fun k => if (a k).slt 0 then -(a k) else a k) ∧ (o.op = .elt 9 → gives fun k => a k * o.scalar.extractLsb' 0 32) ∧
    (o.op = .trn → gives fun k => a (k % w * w + k / w)) ∧ (o.op = .zero → gives fun _ => 0))

/-- R176 to R181, R242, R307, R309 to R314: what the floating-point operations of a tile engine compute, element by element and with the flags of all elements: the element-wise forms round the exact result once; a conversion rounds each element; a reduction takes its elements in increasing index, 16-bit formats in FP32; a product accumulates by fused steps in FP32 or FP64, in FP16 and BF16 by groups of eight exact products; an affine map is applied and composed as R177 and R179 say, and TSCAN composes the prefixes of each row in the network of R178 and leaves the new carry. -/
def Obligations.FloatingTileResults : Prop :=
  ∀ (s : State) (quad : Nat) (o : TileOp), s.stores = [] → o.rm < 5 →
    let d := s.handle quad o.hd
    let a := s.handle quad o.ha
    let b := s.handle quad o.hb
    let w := d.width
    let x := s.codeAt quad a
    let y := s.codeAt quad b
    let z := s.codeAt quad d
    let round := fun (g : FFmt) (q : FVal × Fl) => ((fEncode g o.rm q.1).1, (fEncode g o.rm q.1).2 ||| q.2)
    let chain := fun (l : List Nat) (start : Nat × Fl) (f : Nat → Nat → Nat × Fl) => l.foldl (fun acc j => ((f acc.1 j).1, acc.2 ||| (f acc.1 j).2)) start
    let compose := fun (p q : Nat × Nat) =>
      let ex := fvMul (fDecode ffp32 p.1) (fDecode ffp32 q.1)
      let gain : Nat × Fl :=
        if p.1 = 0 ∨ (q.1 = 0 ∧ (fDecode ffp32 p.1).isNan = false ∧ (fDecode ffp32 p.1).isInf = false) then (0, 0)
        else if (round ffp32 ex).1 % 2 ^ 31 < 2 ^ 23 then (0, match ex.1 with | .fin _ _ _ => (round ffp32 ex).2 ||| flUf | _ => (round ffp32 ex).2)
        else round ffp32 ex
      let off : Nat × Fl := if p.1 = 0 then (p.2, 0) else round ffp32 (fvFma o.rm (fDecode ffp32 p.1) (fDecode ffp32 q.2) (fDecode ffp32 p.2))
      ((gain.1, off.1), gain.2 ||| off.2)
    let pairOf := fun c : Nat => (c / 2 ^ 32, c % 2 ^ 32)
    let codeOf := fun p : Nat × Nat => p.1 * 2 ^ 32 + p.2
    (
    ∀ g, fmtF d.fmt = some g → d.fmt ∈ eltFmts → a.like d → b.like d →
      let v := fDecode g
      let pick := fun (first : FVal → FVal → Bool) (p q : Nat) =>
        (if (v p).isNan && (v q).isNan then g.nan else if (v p).isNan then q else if (v q).isNan then p
          else if first (v p) (v q) then p else if first (v q) (v p) then q else p, if (v p).isSig || (v q).isSig then flNv else 0)
      let below := fun p q : FVal => decide (fvCmp p q = -1) || (p.isZero && q.isZero && p.neg && !q.neg)
      let h := if g.width = 16 then ffp32 else g
      let line := fun (col : Bool) (k j : Nat) => x (if col then j * w + k % w else k / w * w + j)
      let sum := fun (col : Bool) (k : Nat) =>
        let r := chain (List.range (w - 1)) (fEncode h o.rm (v (line col k 0))) fun acc j => round h (fvAdd o.rm (fDecode h acc) (v (line col k (j + 1))))
        if g.width = 16 then ((fEncode g o.rm (fDecode h r.1)).1, r.2 ||| (fEncode g o.rm (fDecode h r.1)).2) else r
      let best := fun (first : FVal → FVal → Bool) (col : Bool) (k : Nat) => chain (List.range (w - 1)) (line col k 0, 0) fun acc j => pick first acc (line col k (j + 1))
      (o.op = .elt 0 → s.tileGives quad o fun k => round g (fvAdd o.rm (v (x k)) (v (y k)))) ∧
      (o.op = .elt 1 → s.tileGives quad o fun k => round g (fvAdd o.rm (v (x k)) (v (y k)).negate)) ∧
      (o.op = .elt 2 → s.tileGives quad o fun k => round g (fvMul (v (x k)) (v (y k)))) ∧
      (o.op = .elt 3 → s.tileGives quad o fun k => round g (fvFma o.rm (v (x k)) (v (y k)) (v (z k)))) ∧
      (o.op = .elt 4 → s.tileGives quad o fun k => pick (fun p q => below q p) (x k) (y k)) ∧
      (o.op = .elt 5 → s.tileGives quad o fun k => pick below (x k) (y k)) ∧
      (o.op = .elt 6 → s.tileGives quad o fun k => if (v (x k)).isNan then (g.nan, if (v (x k)).isSig then flNv else 0) else (x k % 2 ^ (g.ebits + g.mbits), 0)) ∧
      (o.op = .elt 7 → s.tileGives quad o fun k => let q := fvExp2 (v (x k)); ((fEncode g o.rm q.1 q.2.1).1, (fEncode g o.rm q.1 q.2.1).2 ||| q.2.2)) ∧
      (o.op = .elt 8 → s.tileGives quad o fun k => let q := fvDiv (.fin false 1 0) (v (x k)); ((fEncode g o.rm q.1 q.2.1).1, (fEncode g o.rm q.1 q.2.1).2 ||| q.2.2)) ∧
      (o.op = .elt 9 → s.tileGives quad o fun k => round g (fvMul (v (x k)) (v (o.scalar.toNat % 2 ^ fmtBits d.fmt)))) ∧
      ∀ col, (o.op = .red .sum col → s.tileGives quad o (sum col)) ∧ (o.op = .red .max col → s.tileGives quad o (best (fun p q => below q p) col)) ∧
        (o.op = .red .min col → s.tileGives quad o (best below col))) ∧
    (
    ∀ g, fmtF a.fmt = some g → a.fmt ∈ eltFmts → d.shp = a.shp → d.fmt ≠ a.fmt → o.op = .cvt →
      (∀ g', fmtF d.fmt = some g' → d.fmt ∈ eltFmts → s.tileGives quad o fun k => fEncode g' o.rm (fDecode g (x k))) ∧
      (d.fmt ∈ [Fmt.int32, .int16, .int8, .uint8] → s.tileGives quad o fun k => convElem d.fmt a.fmt o.rm (x k)))  ∧
    (
    ∀ g rot, fmtF a.fmt = some g → b.fmt = a.fmt → a.shp = d.shp → b.shp = d.shp → o.op = .mma false rot →
      let A := fun k j => fDecode g (x (k / w * w + j))
      let B := fun k j => fDecode g (y (j * w + k % w))
      (a.fmt = .fp64 → d.fmt = .fp64 → s.tileGives quad o fun k =>
        chain (List.range w) (z k, 0) fun acc j => round ffp64 (fvFma o.rm (A k j) (B k j) (fDecode ffp64 acc))) ∧
      (a.fmt = .fp32 → d.fmt = .aff32 → s.tileGives quad o fun k =>
        let r := chain (List.range w) (z k % 2 ^ 32, 0) fun acc j => round ffp32 (fvFma o.rm (A k j) (B k j) (fDecode ffp32 acc))
        (z k / 2 ^ 32 * 2 ^ 32 + r.1, r.2)) ∧
      (a.fmt ∈ [Fmt.fp16, .bf16] → d.fmt = .aff32 → (∀ k < w * w, ∀ u ∈ [fDecode g (x k), fDecode g (y k)], u.isNan = false ∧ u.isInf = false) → s.tileGives quad o fun k =>
        let S := fun q => ((List.range 8).map fun j => (A k (8 * q + j)).scaled g.qmin * (B k (8 * q + j)).scaled g.qmin).sum
        let rounded := fun q => if S q = 0 then (0, 0) else fRound ffp32 o.rm (decide (S q < 0)) (S q).natAbs (2 * g.qmin) false
        let r := chain (List.range (w / 8)) (z k % 2 ^ 32, 0) fun acc q =>
          let t := round ffp32 (fvAdd o.rm (fDecode ffp32 acc) (fDecode ffp32 (rounded q).1))
          (t.1, (rounded q).2 ||| t.2)
        (z k / 2 ^ 32 * 2 ^ 32 + r.1, r.2))) ∧
    (
    a.fmt = .aff32 → a.shp = d.shp → b.shp = d.shp →
      (o.op = .aff → d.fmt = .fp32 → b.fmt = .fp32 → s.tileGives quad o fun k =>
        let p := pairOf (x k)
        if p.1 = 0 then (p.2, 0) else round ffp32 (fvFma o.rm (fDecode ffp32 p.1) (fDecode ffp32 (y k)) (fDecode ffp32 p.2))) ∧
      (o.op = .comp → d.fmt = .aff32 → b.fmt = .aff32 → s.tileGives quad o fun k =>
        let c := compose (pairOf (x k)) (pairOf (y k))
        (codeOf c.1, c.2)) ∧
      (o.op = .scan → d.fmt = .aff32 → b.fmt = .aff32 → o.hb ≠ o.ha → o.hb ≠ o.hd →
        let step := fun (D : Nat) (P : Nat → Nat × Nat) (j : Nat) => if j < D then P j else (compose (P j) (P (j - D))).1
        let net := fun i => let P := step 8 (step 4 (step 2 (step 1 fun j => pairOf (x (i * w + j))))); if w = 32 then step 16 P else P
        let res := fun k => codeOf (compose (net (k / w) (k % w)) (pairOf (y (k / w * w)))).1
        ∃ o1 o2, s.tileOuts quad o = [o1, o2] ∧ o1.handle = o.hd ∧ o2.handle = o.hb ∧ o2.flags = 0 ∧ o1.holds quad d res ∧
          o2.holds quad b (fun k => if k % w = 0 then res (k + w - 1) else y k)))

/-! ### Engines (14_isa_engines_refinement_system.md) -/

/-- R317, R318, R322 to R326, R333: the engine commands at issue, with their limits and ranges; ESTAT reads a token, WTOK waits for it, one settled at SYS scope dropping copies of peer lines; RLCQ loads one word of a block's status as an acquire. That RLCX makes no check of RM is the model's choice (log 25), so is that the alignment of its 256 bytes and of the ranges of the other commands is that of their VA (log 37). -/
def Obligations.EngineInstructions : Prop :=
  (∀ (s : State) (hd : Hdr) (d a b : Reg) (t : EngTail) (n : Nat) (h : Held), s.issuing hd ([d, a, b] ++ tailNames t) [] n h →
    let x := fun r : Reg => (xget h.ctx.x r).extractLsb' 0 64
    let N := (x b).toNat
    let va := fun (i : Instr) (dn : DescN) (r : Reg) => (s.issOf i 2 n h).vaOf s dn (x r)
    let named := fun (i : Instr) (c : Cmd) => c.dst = va i t.ddesc d ∧ c.src = va i t.sdesc a ∧ c.b = xget h.ctx.x b
    let ceFull := 32 ≤ (mapGet s.ces (n / 128) []).length
    let ce := fun (i : Instr) (u : State) (c : Cmd) => named i c ∧ u.ces = mapPut s.ces (n / 128) (mapGet s.ces (n / 128) [] ++ [c]) ∧
      Instr.ceCompletion (n / 128) ∈ u.agenda ∧
      ((∀ x ∈ mapGet s.ces (n / 128) [], s.placed x = true) → s.placed c = false → (s.byHome (s.copyLines c)).all s.claimRoom = true →
        ∀ l ∈ s.copyLines c, ∃ x ∈ u.claims, x.num = c.num ∧ l ∈ x.lines)
    let bde := fun (i : Instr) (k : Nat) (u : State) (c : Cmd) => named i c ∧ u.bdes = mapPut s.bdes k { s.bde k with queue := (s.bde k).queue ++ [c] } ∧
      Instr.bdeCompletion k ∈ u.agenda
    let st := fun (dn : DescN) (r : Reg) (len al : Nat) => ERange.mk dn (x r) len .store [] al 1
    let ld := fun (dn : DescN) (r : Reg) (len al : Nat) => ERange.mk dn (x r) len .load [] al 1
    EngineIssue s (.cpy hd d a b t) hd 2 n h t (if 2 ^ 36 < N then some b else none) [st t.ddesc d N 1, ld t.sdesc a N 1] ceFull (ce (.cpy hd d a b t)) ∧
    (s.issuing hd ([d, a, b, b + 1] ++ tailNames t) [] n h →
      let w := fun (r : Reg) (k : Nat) => ((xget h.ctx.x r).extractLsb' (32 * k) 32).toNat
      let rb := w b 0
      let nr := w b 1
      let len := fun stride => if nr = 0 then 0 else (nr - 1) * stride + rb
      EngineIssue s (.cpys hd d a b t) hd 2 n h t (if 2 ^ 24 < rb ∨ 2 ^ 24 < nr then some b else if 1 < nr ∧ w (b + 1) 0 < rb then some (b + 1) else none)
        [st t.ddesc d (len (w (b + 1) 0)) 1, ld t.sdesc a (len (w b 2)) 1] ceFull
        (fun u c => ce (.cpys hd d a b t) u c ∧ c.b1 = xget h.ctx.x (b + 1))) ∧
    (∀ (l : Leaf) (tw : Nat) (i : Instr), s.tcHit (n / 128) (s.partOf s.cur) (s.asidOf (s.partOf s.cur) h.ctx.launch) (va i t.ddesc d) = some l →
      s.region (l.pa (va i t.ddesc d)) = .hbm tw →
      let k := 2 * tw + l.pa (va i t.ddesc d) % 2 ^ 37 / 2 ^ 36
      let full := 64 ≤ (s.bde k).queue.length
      (∀ g le, i = .gath hd d a b g le t →
        EngineIssue s i hd 2 n h t (if 2 ^ 32 < N then some b else none) [st t.ddesc d (N * 2 ^ le.toNat) 1, ld t.sdesc a (8 * N) 1, ⟨g, 0, 0, .load, [], 1, 1⟩] full
          (fun u c => bde i k u c ∧ c.desc = (s.issOf i 2 n h).desc s g.toNat)) ∧
      (∀ op fmt, i = .redb hd op fmt d a b t → (fmt ≠ .int32 → h.ctx.rm < 5) → fmt ∈ [Fmt.fp64, .fp32, .bf16, .int32] →
        let w := fmtBits fmt / 8
        EngineIssue s i hd 2 n h t (if 2 ^ 32 < N then some b else none) [⟨t.ddesc, x d, N * w, .load, [.store], w, 1⟩, ld t.sdesc a (N * w) w] full (bde i k)) ∧
      (∀ dst src, i = .convb hd dst src d a b t → h.ctx.rm < 5 →
        let block := fun f : Fmt => f ∈ [Fmt.e4m3, .e5m2, .vb8]
        let len := fun f : Fmt => if block f then N / 1024 * 1032 else N * fmtBits f / 8
        EngineIssue s i hd 2 n h t
          (if 2 ^ 32 < N ∨ ((block dst ∨ block src) ∧ N % 1024 ≠ 0) ∨ ((fmtBits dst = 4 ∨ fmtBits src = 4) ∧ N % 2 ≠ 0) then some b else none)
          [st t.ddesc d (len dst) 1, ld t.sdesc a (len src) 1] full (bde i k)))) ∧
  (∀ (s : State) (hd : Hdr) (a : Reg) (t : EngTail) (n : Nat) (h : Held), s.issuing hd (a :: tailNames t) [] n h → h.ctx.rm < 5 →
    let off := (xget h.ctx.x a).extractLsb' 0 64
    let r := s.rlc (n / 128)
    EngineIssue s (.rlcs hd a t) hd 2 n h t none [⟨t.sdesc, off, 256, .load, [.store], 1, 256⟩] (4 ≤ r.queue.length + r.run.toList.length) fun u c =>
      c.src = (s.issOf (.rlcs hd a t) 2 n h).vaOf s t.sdesc off ∧ u.rlcs = mapPut s.rlcs (n / 128) { r with queue := r.queue ++ [c] } ∧
      Instr.rlcClaim (n / 128) ∈ u.agenda) ∧
  (∀ (s : State) (hd : Hdr) (dn : DescN) (a b : Reg) (n : Nat) (h : Held), s.issuing hd [a, b] [] n h →
    let off := (xget h.ctx.x a).extractLsb' 0 64
    let v := ((xget h.ctx.x b).extractLsb' 0 64).toNat
    let r := s.rlc (n / 128)
    let t : EngTail := ⟨0, dn, BitVec.ofNat 3 (v / 2 ^ 9), BitVec.ofNat 3 (v / 2 ^ 12), false, 0, 0⟩
    EngineIssue s (.rlcx hd dn a b) hd 1 n h t (if v < 2 ^ 15 ∧ v % 4 < 2 ∧ v / 4 % 4 < 2 ∧ v / 16 % 4 < 2 then none else some b)
      [⟨dn, off, 256, .load, [.store], 1, 256⟩] (4 ≤ r.queue.length + r.run.toList.length) fun u c =>
        c.src = (s.issOf (.rlcx hd dn a b) 1 n h).vaOf s dn off ∧ c.b = xget h.ctx.x b ∧ u.rlcs = mapPut s.rlcs (n / 128) { r with queue := r.queue ++ [c] } ∧
        Instr.rlcxStart (n / 128) ∈ u.agenda) ∧
  (∀ (s : State) (hd : Hdr) (dn : DescN) (sel : BitVec 4) (d a : Reg) (n : Nat) (h : Held), s.issuing hd [a] [d] n h →
    let off := (xget h.ctx.x a).extractLsb' 0 64 + 0x80 + 8 * sel.setWidth 64
    let i := Instr.rlcq hd dn sel d a
    (∀ t, s.preCheck (s.issOf i 1 n h) dn.toNat off 8 .acq = .error t → exec i s = .next (s.trapped h t)) ∧
    (∀ va, s.preCheck (s.issOf i 1 n h) dn.toNat off 8 .acq = .ok va →
      let blk := ((xget h.ctx.x a).extractLsb' 0 64).toNat
      (blk % 256 ≠ 0 → exec i s = .next (s.trapped h ⟨6, dn.toNat, (va + 2 ^ 64 - (0x80 + 8 * sel.toNat)) % 2 ^ 64⟩)) ∧
      (blk % 256 = 0 → ∀ acc sc, s.passes i n h dn off 8 .acq acc sc → exec i s = .next (s.started hd 1 n h d (.load acc .d h.ctx.lm (some sc) []))))) ∧
  (∀ (s : State) (hd : Hdr) (k : Tok) (n : Nat) (h : Held),
    let pending := h.ctx.wait.getLsbD (16 + k.toNat)
    let faulted := h.ctx.owner.getLsbD (24 + k.toNat)
    let at_ := mapGet s.toks (s.cur * 8 + k.toNat) 0
    let quiet := pending = false → at_ = 7 → s.noPeerCopies (n / 2048)
    (∀ d, s.issuing hd [] [d] n h → quiet → exec (.estatX hd d k) s =
      .next (s.issued hd 1 n (h.write (s.cycOf n) 8 d ((xget h.ctx.x d).extractLsb' 64 32 ++ (if pending then 0 else if faulted then 2 else 1 : BitVec 64))))) ∧
    (∀ pd, s.issuing hd [] [] n h → quiet → exec (.estatP hd pd k) s = .next (s.issued hd 1 n { h with ctx := h.ctx.setP pd (!pending && !faulted) })) ∧
    (s.issuing hd [] [] n h → (pending = false → quiet → exec (.wtok hd k) s = .next (s.issued hd 1 n h)) ∧
      (pending = false → at_ = 7 → n / 2048 < 24 → mapWf s.l2 = true → ∃ t, exec (.wtok hd k) s = .next t ∧ t.held = (s.issued hd 1 n h).held ∧ t.mem = s.mem ∧
        ∀ line j, s.region (line * 128) = .peer j → t.l2Reads line (n / 2048) = false) ∧
      (pending = true → ∃ t, exec (.wtok hd k) s = .next t ∧ t.ctxAt s.cur = h.ctx.setState stWaiting whyTok ∧ t.mem = s.mem))) ∧
  (∀ (c : Ctx) (k : Tok), (c.startTok k).tok k.toNat = true ∧ (c.startTok k).tflt k.toNat = false ∧
    (∀ j : Tok, j ≠ k → (c.startTok k).tok j.toNat = c.tok j.toNat ∧ (c.startTok k).tflt j.toNat = c.tflt j.toNat) ∧
    (∀ j < 16, (c.startTok k).wait.getLsbD j = c.wait.getLsbD j) ∧ (∀ j < 24, (c.startTok k).owner.getLsbD j = c.owner.getLsbD j) ∧
    c.startTok k = { c with wait := (c.startTok k).wait, owner := (c.startTok k).owner })

/-- R90, R319, R323 to R325: the command at the head of a copy engine waits until it has placed its claim at each home, all having room, or none; then it works piece by piece: a copy within one line moves its bytes and no other, at once or once it has read the line that holds its source, which it reads once; its token settles and the command leaves its queue; a base-die engine gathers, reduces or converts an element at its stack, settles the token and counts the command; a command of no elements settles and writes nothing. That a copy may read before it writes and the order of its pieces are free (log 18). -/
def Obligations.CopyAndBaseDieEngines : Prop :=
  (∀ (s : State) (clu : Nat) (c : Cmd) (rest : List Cmd), mapFind s.ces clu = some (c :: rest) → s.placed c = false →
    let homes := s.byHome (s.copyLines c)
    let room := homes.all s.claimRoom
    let u := s.claimFor clu c
    (room = false → exec (.ceCompletion clu) s = .next (s.emit (.ceCompletion clu))) ∧
    (room = true → exec (.ceCompletion clu) s = exec (.ceCompletion clu) u ∧ u = { s with claims := s.claims ++ homes.map fun ls => ⟨.ce clu, clu / 16, c.num, ls⟩ } ∧
      u.placed c = true ∧ ∀ l ∈ s.copyLines c, ∃ x ∈ u.claims, x.holder = .ce clu ∧ x.num = c.num ∧ l ∈ x.lines)) ∧
  (∀ (s : State) (clu : Nat) (c : Cmd) (rest : List Cmd) (h : Held), mapFind s.ces clu = some (c :: rest) → mapWf s.ces = true → s.settles c h →
    s.placed c = true → (∀ x ∈ s.claims, x.num = c.num → x.lines = []) → mapFind s.runs (ceRun clu) = none →
    (((∃ hd d a b t, c.ins = .cpy hd d a b t) ∧ (c.b).extractLsb' 0 64 = 0) ∨
      (∃ hd d a b t, c.ins = .cpys hd d a b t) ∧ ((c.b).extractLsb' 0 32 = 0 ∨ (c.b).extractLsb' 32 32 = 0)) →
    ∃ u, exec (.ceCompletion clu) s = .next u ∧ u.mem = s.mem ∧ settledTo h.ctx (u.ctxAt c.key) c.tail.tok false ∧ mapGet u.ces clu [] = rest) ∧
  (∀ (s : State) (clu : Nat) (c : Cmd) (rest : List Cmd) (h : Held) (hd : Hdr) (d a b : Reg) (t : EngTail) (ld ls : Leaf),
    mapFind s.ces clu = some (c :: rest) → mapWf s.ces = true → c.ins = .cpy hd d a b t → c.pos.inst 3 = some clu → s.settles c h → memSound s →
    s.placed c = true → (∀ x ∈ s.claims, x.num = c.num → ∀ l ∈ x.lines, (s.dirE l).queue = []) →
    let N := ((c.b).extractLsb' 0 64).toNat
    let dst := ld.pa c.dst
    let src := ls.pa c.src
    0 < N → dst % 128 + N ≤ 128 → src % 128 + N ≤ 128 → c.dst % 128 = dst % 128 → c.src % 128 = src % 128 →
    let reaches := s.engineReaches (fun _ => False) clu c
    reaches true c.dst N ld → reaches false c.src N ls →
    let copied := fun (f : Nat → Byte) (u : State) => (∀ i < N, memRead u.mem (dst + i) = f i) ∧
      (∀ ad, (ad < dst ∨ dst + N ≤ ad) → memRead u.mem ad = memRead s.mem ad) ∧ settledTo h.ctx (u.ctxAt c.key) c.tail.tok false ∧
      mapGet u.ces clu [] = rest ∧ (∀ x ∈ u.claims, x.num ≠ c.num) ∧ ∀ k, k ≠ c.key → mapFind u.held k = mapFind s.held k
    (mapFind s.runs (ceRun clu) = none → ∃ u, exec (.ceCompletion clu) s = .next u ∧
      (copied (fun i => memRead s.mem (src + i)) u ∨
        (u.mem = s.mem ∧ u.ces = s.ces ∧ u.held = s.held ∧ Instr.ceCompletion clu ∈ u.agenda ∧
          ∃ r p, mapFind u.runs (ceRun clu) = some r ∧ r.todo = [p] ∧ r.bad = none ∧ p.dst = c.dst ∧ p.src = c.src ∧ p.len = N ∧
            mapFind r.snap (lineOf src) = some (memReadList s.mem (src / 128 * 128) 128, false)))) ∧
    (∀ r p bs, mapFind s.runs (ceRun clu) = some r → r.todo = [p] → r.bad = none → p.dst = c.dst → p.src = c.src → p.len = N →
      mapFind r.snap (lineOf src) = some (bs, false) → bs.length = 128 →
      ∃ u, exec (.ceCompletion clu) s = .next u ∧ copied (fun i => bs.getD (src % 128 + i) 0) u)) ∧
  (∀ (s : State) (k clu : Nat) (c : Cmd) (rest : List Cmd) (h : Held) (hd : Hdr) (d a b : Reg) (t : EngTail) (ld ls : Leaf) (w : Nat),
    (s.bde k).queue = c :: rest → c.pos.inst 3 = some clu → s.settles c h → memSound s → c.rm < 5 →
    (c.b).extractLsb' 0 64 = 1 → mapFind s.runs (bdeRun k) = none → (∀ x ∈ s.claims, x.num ≠ c.num) →
    let dst := ld.pa c.dst
    let src := ls.pa c.src
    let reaches := s.engineReaches (fun _ => False) clu c
    c.dst % 128 = dst % 128 → c.src % 128 = src % 128 → s.region dst = .hbm (k / 2) → s.region src = .hbm (k / 2) →
    dst % 128 + w ≤ 128 → reaches true c.dst w ld →
    let leaves := fun v : Nat => ∃ u, exec (.bdeCompletion k) s = .next u ∧ u.readN dst w = v ∧
      (∀ ad, (ad < dst ∨ dst + w ≤ ad) → memRead u.mem ad = memRead s.mem ad) ∧ settledTo h.ctx (u.ctxAt c.key) c.tail.tok false ∧
      (u.bde k).queue = rest ∧ (u.bde k).cmdcnt = (s.bde k).cmdcnt + 1 ∧ (u.bde k).errcnt = (s.bde k).errcnt
    (∀ op fmt, c.ins = .redb hd op fmt d a b t → w = fmtBits fmt / 8 → dst % w = 0 → src % w = 0 → reaches false c.dst w ld → reaches false c.src w ls →
      let x := s.readN dst w
      let y := s.readN src w
      (fmt = .int32 → leaves (match op with
        | .sum => (x + y) % 2 ^ 32 | .max => if (BitVec.ofNat 32 x).slt (BitVec.ofNat 32 y) then y else x | .min => if (BitVec.ofNat 32 y).slt (BitVec.ofNat 32 x) then y else x)) ∧
      (∀ g, fmtF fmt = some g → fmt ∈ [Fmt.fp64, .fp32, .bf16] →
        let v := fDecode g
        let below := fun p q : FVal => decide (fvCmp p q = -1) || (p.isZero && q.isZero && p.neg && !q.neg)
        let pick := fun first : FVal → FVal → Bool =>
          if (v x).isNan && (v y).isNan then g.nan else if (v x).isNan then y else if (v y).isNan then x else if first (v x) (v y) then x else if first (v y) (v x) then y else x
        leaves (match op with | .sum => (fEncode g c.rm (fvAdd c.rm (v x) (v y)).1).1 | .max => pick fun p q => below q p | .min => pick below))) ∧
    (∀ fd fs, c.ins = .convb hd fd fs d a b t → fd ∈ eltFmts ++ [Fmt.int32, .int16, .int8, .uint8] → fs ∈ eltFmts ++ [Fmt.int32, .int16, .int8, .uint8] →
      w = fmtBits fd / 8 → src % 128 + fmtBits fs / 8 ≤ 128 → reaches false c.src (fmtBits fs / 8) ls →
      leaves (convElem fd fs c.rm (s.readN src (fmtBits fs / 8))).1)) ∧
  (∀ (s : State) (k clu : Nat) (c : Cmd) (rest : List Cmd) (h : Held) (hd : Hdr) (d a b : Reg) (g : DescN) (le : BitVec 3) (t : EngTail) (ld ls lx : Leaf),
    (s.bde k).queue = c :: rest → c.ins = .gath hd d a b g le t → c.pos.inst 3 = some clu → s.settles c h → memSound s → c.win = false →
    (c.b).extractLsb' 0 64 = 1 → mapFind s.runs (bdeRun k) = none → (∀ x ∈ s.claims, x.num ≠ c.num) →
    let e := 2 ^ le.toNat
    let dst := ld.pa c.dst
    let ix := ls.pa c.src
    let off := s.readN ix 8 * e
    let va := c.desc.base.toNat + off
    let src := lx.pa va
    dst % 128 + e ≤ 128 → ix % 128 + 8 ≤ 128 → src % 128 + e ≤ 128 → c.dst % 128 = dst % 128 → c.src % 128 = ix % 128 → va % 128 = src % 128 →
    off + e ≤ c.desc.limit.toNat → s.region dst = .hbm (k / 2) → s.region ix = .hbm (k / 2) → s.region src = .hbm (k / 2) →
    let reaches := s.engineReaches (fun _ => False) clu c
    reaches true c.dst e ld → reaches false c.src 8 ls → reaches false va e lx →
    ∃ u, exec (.bdeCompletion k) s = .next u ∧ (∀ i < e, memRead u.mem (dst + i) = memRead s.mem (src + i)) ∧
      (∀ ad, (ad < dst ∨ dst + e ≤ ad) → memRead u.mem ad = memRead s.mem ad) ∧ settledTo h.ctx (u.ctxAt c.key) c.tail.tok false ∧
      (u.bde k).queue = rest ∧ (u.bde k).cmdcnt = (s.bde k).cmdcnt + 1) ∧
  (∀ (s : State) (k : Nat) (c : Cmd) (rest : List Cmd) (h : Held), (s.bde k).queue = c :: rest → s.settles c h → mapFind s.runs (bdeRun k) = none →
    (∀ x ∈ s.claims, x.num ≠ c.num) → (c.b).extractLsb' 0 64 = 0 →
    ((∃ hd d a b g le t, c.ins = .gath hd d a b g le t) ∨ (∃ hd op f d a b t, c.ins = .redb hd op f d a b t) ∨ ∃ hd f f' d a b t, c.ins = .convb hd f f' d a b t) →
    ∃ u, exec (.bdeCompletion k) s = .next u ∧ u.mem = s.mem ∧ settledTo h.ctx (u.ctxAt c.key) c.tail.tok false ∧ (u.bde k).queue = rest ∧
      (u.bde k).cmdcnt = (s.bde k).cmdcnt + 1)

/-- R326, R327, R329, R331, R333: an RLC refuses a block another holds, marks a malformed one FAULT with FCODE 15, starts a valid one at its first rung, resumes only a block that waits for its policy, and at a checkpoint runs on, passes to the next phase or, asked to stop, ends with FCODE 10. -/
def Obligations.RefinementLoop : Prop :=
  (∀ (s : State) (clu : Nat) (c : Cmd) (q : List Cmd) (h : Held) (lo hi : Leaf), (s.rlc clu).run = none → (s.rlc clu).queue = c :: q → c.pos.inst 3 = some clu →
    s.rlcHeld clu c = false → s.settles c h → c.src % 256 = 0 → lo.pa c.src % 128 = 0 → hi.pa (c.src + 128) % 128 = 0 →
    let reaches := fun wr => s.engineReaches wr clu c
    reaches (fun _ => False) false c.src 128 lo → reaches (fun _ => False) false (c.src + 128) 128 hi →
    let b := memReadList s.mem (lo.pa c.src) 128 ++ memReadList s.mem (hi.pa (c.src + 128)) 128
    let st := bget b 0x80 1
    let refused := fun (u : State) => u.mem = s.mem ∧ settledTo h.ctx (u.ctxAt c.key) c.tail.tok true ∧ (u.rlc clu).run = none ∧ (u.rlc clu).queue = q
    ((∃ hd a t, c.ins = .rlcs hd a t) → (st = 2 ∨ st = 3) → ∃ u, exec (.rlcClaim clu) s = .next u ∧ refused u) ∧
    ((∃ hd dn a b, c.ins = .rlcx hd dn a b) → st ≠ 3 → ∃ u, exec (.rlcxStart clu) s = .next u ∧ refused u) ∧
    ((∃ hd a t, c.ins = .rlcs hd a t) → st ≠ 2 → st ≠ 3 → memSound s →
      (reaches (inLine (hi.pa (c.src + 128))) true (c.src + 128) 128 hi → blkBad b = true → ∃ u, exec (.rlcClaim clu) s = .next u ∧ settledTo h.ctx (u.ctxAt c.key) c.tail.tok true ∧ (u.rlc clu).run = none ∧ (u.rlc clu).queue = q ∧
        memRead u.mem (hi.pa (c.src + 128)) = 5 ∧ u.readN (hi.pa (c.src + 128) + 0x3C) 4 = 15) ∧
      (let wr := fun ad => inLine (hi.pa (c.src + 128)) ad ∨ ∃ r ∈ blkRegions b, ∃ va l, r.1 ≤ va ∧ va < r.1 + r.2 ∧ s.tcHit clu c.part c.asid va = some l ∧ ad = l.pa va;
        reaches wr true (c.src + 128) 128 hi → blkBad b = false → (blkRegions b).any c.outside = false →
        (∀ r ∈ blkRegions b, ∀ va m stv, r.1 ≤ va → va + m ≤ r.1 + r.2 → va % 128 + m ≤ 128 → ∃ l, (∀ i < m, l.pa (va + i) = l.pa va + i ∧ s.tcHit clu c.part c.asid (va + i) = some l) ∧
          l.pa va % 128 = va % 128 ∧ reaches wr stv va m l) →
        ∃ u blk, exec (.rlcClaim clu) s = .next u ∧ (u.rlc clu).run = some c ∧ (u.rlc clu).blk = blk ∧ (u.rlc clu).queue = q ∧ Instr.rlcCheckpoint clu ∈ u.agenda ∧
          bget blk 0x80 1 = 2 ∧ bget blk 0x81 1 = 0 ∧ bget blk 0x82 1 = 0 ∧ bget blk 0x83 1 = 0 ∧ bget blk 0x84 4 = 0 ∧ bget blk 0x88 4 = 0 ∧ bget blk 0x8C 4 = 0 ∧
          bget blk 0xB0 8 = c.id % 2 ^ 64 ∧ (∀ i < 0x80, blk[i]? = b[i]?)))) ∧
  (∀ (s : State) (clu : Nat) (c : Cmd) (h : Held) (hi : Leaf), (s.rlc clu).run = some c → c.pos.inst 3 = some clu → s.rlcHeld clu c = false → s.isC (clu / 16) = true →
    memSound s → s.settles c h → (s.rlc clu).blk.length = 256 → hi.pa (c.src + 128) % 128 = 0 → c.src % 256 = 0 →
    s.engineReaches (fun _ => False) clu c true (c.src + 128) 128 hi → (s.rlc clu).blk.drop 0x80 = memReadList s.mem (hi.pa (c.src + 128)) 128 →
    let b := (s.rlc clu).blk
    let pa := hi.pa (c.src + 128)
    ((s.rlc clu).stop = true → ∃ u, exec (.rlcCheckpoint clu) s = .next u ∧ (u.rlc clu).run = none ∧ settledTo h.ctx (u.ctxAt c.key) c.tail.tok true ∧
      memRead u.mem pa = 5 ∧ u.readN (pa + 0x3C) 4 = 10 ∧ ∀ ad, (ad < pa ∨ pa + 128 ≤ ad) → memRead u.mem ad = memRead s.mem ad) ∧
    ((s.rlc clu).stop = false → bget b 0x8C 4 = phaseOps b → bget b 0x83 1 ≠ 1 → bget b 0x83 1 < 3 →
      ∃ u b', exec (.rlcCheckpoint clu) s = .next u ∧ (u.rlc clu).run = some c ∧ (u.rlc clu).blk = b' ∧ Instr.rlcCheckpoint clu ∈ u.agenda ∧
        bget b' 0x83 1 = 1 ∧ bget b' 0x8C 4 = 0 ∧ (∀ i < 0x80, b'[i]? = b[i]?) ∧
        (bget b 0x83 1 = 2 → bget b' 0x84 4 = (bget b 0x84 4 + 1) % 2 ^ 32 ∧ bget b' 0x88 4 = (bget b 0x88 4 + 1) % 2 ^ 32 ∧ bget b' 0x98 8 = bget b 0x90 8) ∧
        memReadList u.mem pa 0x50 = (b'.drop 0x80).take 0x50 ∧ ∀ ad, (ad < pa ∨ pa + 128 ≤ ad) → memRead u.mem ad = memRead s.mem ad)) ∧
  (∀ (s : State) (clu : Nat) (c : Cmd) (q : List Cmd) (h : Held) (hd : Hdr) (dn : DescN) (ra rb : Reg) (lo hi : Leaf), (s.rlc clu).run = none →
    (s.rlc clu).queue = c :: q → c.ins = .rlcx hd dn ra rb → c.pos.inst 3 = some clu → s.rlcHeld clu c = false → s.settles c h → memSound s → c.src % 256 = 0 →
    let reaches := s.engineReaches (fun ad => inLine (lo.pa c.src) ad ∨ inLine (hi.pa (c.src + 128)) ad) clu c
    lo.pa c.src % 128 = 0 → hi.pa (c.src + 128) % 128 = 0 → reaches false c.src 128 lo → reaches false (c.src + 128) 128 hi →
    reaches true (c.src + 128) 128 hi → lo.pa c.src ≠ hi.pa (c.src + 128) →
    reaches true (c.src + 0x3E) 1 lo → lo.pa (c.src + 0x3E) = lo.pa c.src + 0x3E →
    let v := ((c.b).extractLsb' 0 64).toNat
    let b := memReadList s.mem (lo.pa c.src) 0x3E ++ [BitVec.ofNat 8 v] ++ memReadList s.mem (lo.pa c.src + 0x3F) 65 ++ memReadList s.mem (hi.pa (c.src + 128)) 128
    bget b 0x80 1 = 3 → blkBad b = false → (blkRegions b).any c.outside = false → bget b 0x82 1 < bget b 5 1 → v / 2 ^ 8 % 2 = 0 →
    (∀ i < bget b 0 4, ∃ l, l.pa (vaPiv b i) % 128 = vaPiv b i % 128 ∧ reaches false (vaPiv b i) 4 l ∧ vaPiv b i % 128 + 4 ≤ 128 ∧
      s.readN (l.pa (vaPiv b i)) 4 < bget b 0 4 ∧ lineOf (l.pa (vaPiv b i)) ≠ lineOf (lo.pa c.src) ∧ lineOf (l.pa (vaPiv b i)) ≠ lineOf (hi.pa (c.src + 128))) →
    ∃ u blk, exec (.rlcxStart clu) s = .next u ∧ (u.rlc clu).run = some c ∧ (u.rlc clu).blk = blk ∧ (u.rlc clu).queue = q ∧ Instr.rlcCheckpoint clu ∈ u.agenda ∧
      bget blk 0x80 1 = 2 ∧ bget blk 0x83 1 = 1 ∧ bget blk 0x84 4 = 0 ∧ bget blk 0x8C 4 = 0 ∧ bget blk 0x98 8 = 0x7FF0_0000_0000_0000 ∧
      bget blk 0x82 1 = bget b 0x82 1 ∧ bget blk 0x88 4 = bget b 0x88 4)

/-! ### Translation, invalidation and cache lines (03_translation.md, 04_data_hierarchy.md, 14_isa_engines_refinement_system.md) -/

/-- R64 to R66, R76, R338: TLBI, CFLUSH, PINL and UNPINL start with PEND on xd; a TLBI removes exactly what its form covers and answers OK once nothing uses it, TLBI.U clears the leaf's V bit, or answers BUSY or NOMAP; the line instructions write back and drop, pin or unpin, or answer FULL or NOTPIN. That a walk of TLBI.U which ends in any other fault answers NOMAP too is the model's choice (log 57), so is FULL where L2 takes no copy of the line (log 64). -/
def Obligations.InvalidationResults : Prop :=
  (∀ (s : State) (hd : Hdr) (d a b : Reg) (n : Nat) (h : Held), h.ctx.mode ≠ 0 →
    let k := s.partOf s.cur
    let asid := ((xget h.ctx.x b).extractLsb' 0 12).toNat
    let va := ((xget h.ctx.x a).extractLsb' 0 64).toNat
    (s.issuing hd [a, b] [d] n h → exec (.tlbiVa hd d a b) s = .next (s.started hd 1 n h d (.tlbi .va k asid va none)) ∧
      exec (.tlbiU hd d a b) s = .next (s.started hd 1 n h d (.tlbi .u k asid va none))) ∧
    (s.issuing hd [b] [d] n h → exec (.tlbiAs hd d b) s = .next (s.started hd 1 n h d (.tlbi .as k asid 0 none))) ∧
    (s.issuing hd [] [d] n h → exec (.tlbiAll hd d) s = .next (s.started hd 1 n h d (.tlbi .all k 0 0 none)))) ∧
  (∀ (s : State) (k part asid va : Nat) (f : TlbiForm) (o : Op) (h : Held), mapFind s.ops k = some o → o.kind = .tlbi f part asid va none →
    mapFind s.held o.key = some h → h.ctx.takes → s.isMoving o.key = false → (∀ p ∈ s.stores, ¬ (p.2.key = o.key ∧ p.1 < k)) → s.tes = [] →
    let answers := fun v : Nat => ∃ u, exec (.result k) s = .next u ∧ deliveredTo (s.needsOf o.key) h.ctx (u.ctxAt o.key) o.reg ∧
      xget (u.ctxAt o.key).x o.reg = (xget h.ctx.x o.reg).extractLsb' 64 32 ++ BitVec.ofNat 64 v ∧ u.tcache = s.tcache ∧ u.mem = s.mem ∧ u.ops = mapErase s.ops k
    let hit := fun t : TcEntry => t.part = part ∧ (f = .all ∨ (t.asid = asid ∧ (f = .as ∨ t.va / t.leaf.size = va / t.leaf.size)))
    let path := fun w : WcEntry => w.part = part ∧ (f = .all ∨ (w.asid = asid ∧ (f = .as ∨ w.level = 5 ∨ w.va / 2 ^ (12 + 9 * w.level) = va / 2 ^ (12 + 9 * w.level))))
    let removed := fun u : State => (∀ t, t ∈ u.tcache ↔ t ∈ s.tcache ∧ ¬ hit t) ∧ (∀ w, w ∈ u.wcache ↔ w ∈ s.wcache ∧ ¬ path w) ∧
      mapFind u.ops k = some { o with kind := .tlbi f part asid va (some s.nextId) } ∧ Instr.result k ∈ u.agenda ∧ u.held = s.held
    ((f = .as ∨ f = .all ∨ (f = .va ∧ canonical va = true)) → ∃ u, exec (.result k) s = .next u ∧ removed u ∧ u.mem = s.mem) ∧
    (f = .va → canonical va = false → answers 0) ∧
    let die := o.pos.die?
    let t := s.traceWith (fun _ => none) part asid va
    let held := t.reads.any fun pa => s.homeHeld pa || (s.coherent pa && !s.offline pa && !s.canShare (lineOf pa) die)
    let r := s.readThrough die t.reads
    (f = .u → canonical va = false → answers 2) ∧
    (f = .u → canonical va = true → held = true → exec (.result k) s = .next (s.emit (.result k))) ∧
    (f = .u → canonical va = true → held = false → (∃ x, s.walk part asid va = .fault x) → answers 2) ∧
    (f = .u → canonical va = true → held = false → ∀ l, s.walk part asid va = .ok l → s.pinning part l = true → exec (.result k) s = .next (r.emit (.result k))) ∧
    (f = .u → canonical va = true → held = false → ∀ l, s.walk part asid va = .ok l → s.pinning part l = false →
      let busy := (∃ e ∈ r.l2, e.2.pinned = true ∧ s.partOfTower (e.1 % 32 / 4) = some part ∧ l.base ≤ e.1 / 32 * 128 ∧ e.1 / 32 * 128 < l.base + l.size) ∨ (l.sal = true ∧ s.reaches l.base l.size = true)
      let pa := r.leafPa part asid va
      (busy → answers 1) ∧
      (¬ busy → r.lineBusy [lineOf pa] = false → r.claimed (lineOf pa) = false → r.hostHas [lineOf pa] = false → memSound s →
        ∃ u, exec (.result k) s = .next u ∧ removed u ∧ memRead u.mem pa = memRead s.mem pa &&& 0xFE ∧ ∀ ad, ad ≠ pa → memRead u.mem ad = memRead s.mem ad))) ∧
  (∀ (s : State) (k part asid va m : Nat) (f : TlbiForm) (o : Op) (h : Held), mapFind s.ops k = some o → o.kind = .tlbi f part asid va (some m) →
    mapFind s.held o.key = some h → h.ctx.takes → s.isMoving o.key = false →
    (s.tlbiUsers f part asid va m = true → exec (.result k) s = .next (s.emit (.result k))) ∧
    (s.tlbiUsers f part asid va m = false → ∃ u, exec (.result k) s = .next u ∧ deliveredTo (s.needsOf o.key) h.ctx (u.ctxAt o.key) o.reg ∧
      xget (u.ctxAt o.key).x o.reg = (xget h.ctx.x o.reg).extractLsb' 64 32 ++ (0 : BitVec 64) ∧ u.mem = s.mem ∧ u.ops = mapErase s.ops k)) ∧
  (∀ (s : State) (hd : Hdr) (dn : DescN) (d a : Reg) (n : Nat) (h : Held), s.issuing hd [a] [d] n h → h.ctx.mode ≠ 0 →
    let access := fun i : Instr => s.access (s.issOf i 1 n h) dn.toNat ((xget h.ctx.x a).extractLsb' 0 64) 1 .load
    (∀ acc sc l, access (.cflush hd dn d a) = .ok acc sc l → exec (.cflush hd dn d a) s = .next (s.started hd 1 n h d (.line (n / 2048) acc 0))) ∧
    (∀ acc sc l, access (.pinl hd dn d a) = .ok acc sc l →
      exec (.pinl hd dn d a) s = .next (if l.pin then s.started hd 1 n h d (.line (n / 2048) acc 1) else s.trapped h ⟨4, dn.toNat, acc.va⟩)) ∧
    (∀ acc sc l, access (.unpinl hd dn d a) = .ok acc sc l → exec (.unpinl hd dn d a) s = .next (s.started hd 1 n h d (.line (n / 2048) acc 2)))) ∧
  (∀ (s : State) (k die pa op : Nat) (acc : Access) (o : Op) (h : Held), mapFind s.ops k = some o → o.kind = .line die acc op → acc.segs = [(pa, 1)] →
    mapFind s.held o.key = some h → h.ctx.takes → s.isMoving o.key = false → mapWf s.l2 = true →
    let line := pa / 128
    let l := s.l2Line line die
    let answers := fun (v : Nat) (q : State → Prop) => ∃ u, exec (.result k) s = .next u ∧ deliveredTo (s.needsOf o.key) h.ctx (u.ctxAt o.key) o.reg ∧
      xget (u.ctxAt o.key).x o.reg = (xget h.ctx.x o.reg).extractLsb' 64 32 ++ BitVec.ofNat 64 v ∧ u.mem = s.mem ∧ q u
    let pins := ((s.setOf line die).filter fun e => e.2.pinned).length
    (op < 2 → s.offline pa = true → exec (.result k) s = .next (s.emit (.poisonedResult k))) ∧
    (op < 2 → s.offline pa = false →
    (op = 0 → s.lineBusy [line] = false → s.claimed line = false → (∀ x, l = some x → x.pinned = false ∧ x.asked = false) →
      answers 0 fun u => u.l2Line line die = none ∧ ∀ x, l = some x → x.present = true → x.dirty = true → s.isPeer line = false → Instr.puto line die ∈ u.agenda) ∧
    (op = 1 → ∀ x, l = some x → x.pinned = true → answers 0 fun u => u.l2 = s.l2) ∧
    (op = 1 → (∀ x, l = some x → x.pinned = false) → (16 ≤ pins ∨ s.isM die = true ∨ (acc.ntAt pa = true ∧ s.offModule line = true)) → answers 3 fun u => u.l2 = s.l2) ∧
    (op = 1 → ∀ x, l = some x → x.pinned = false → x.present = true → pins < 16 → s.isM die = false → (acc.ntAt pa = false ∨ s.offModule line = false) → answers 0 fun u => u.l2Line line die = some { x with pinned := true })) ∧
    (op = 2 → (∀ x, l = some x → x.pinned = false) → answers 4 fun u => u.l2 = s.l2) ∧
    (op = 2 → ∀ x, l = some x → x.pinned = true → x.present = true → answers 0 fun u => u.l2Line line die = some { x with pinned := false }))

/-- R58, R61, R62: a walk reads the tables through its die's L2, waiting while a home is held (a die in M role reads them past its L2), and completes; every miss it answers gets the leaf in its cluster's translation cache and its context wakes, a faulting one traps at the waiting instruction. -/
def Obligations.TranslationWalks : Prop :=
  (∀ (s : State) (k : Nat) (w : Walk), mapFind s.walks k = some w →
    let t := s.traceOn w.die w.part w.asid w.va
    let there := fun pa => s.coherent pa = true → s.offline pa = false → s.isM w.die = false → s.l2Reads (lineOf pa) w.die = true
    (t.reads.any s.homeHeld = true → exec (.translationWalk k) s = .next (s.emit (.translationWalk k))) ∧
    (t.reads.any s.homeHeld = false →
      ((∀ pa ∈ t.reads, there pa) → exec (.translationWalk k) s =
        .next { s with walks := mapPut s.walks k { w with result := some (s.walkOn w.die w.part w.asid w.va), path := t.path }, agenda := s.agenda ++ [.walkCompletion k] }) ∧
      ∀ r pa q, t.reads = r ++ pa :: q → (∀ x ∈ r, there x) → ¬ there pa →
        exec (.translationWalk k) s = .next ((s.askShared (lineOf pa) w.die).emit (.translationWalk k)))) ∧
  (∀ (s : State) (k asid va : Nat) (p : Part), s.part k = some p →
    (∀ e, s.entryIs (p.asTable + asid * 8) e → e % 2 = 0 → s.walk k asid va = .fault ⟨tcNomap, 4, va⟩) ∧
    (∀ e, s.entryIs (p.asTable + asid * 8) e → e % 2 = 1 → (e / 2 % 2 ^ 11 ≠ 0 ∨ e / 2 ^ 52 ≠ 0) → s.walk k asid va = .fault ⟨tcPtfmt, 4, va⟩) ∧
    ∀ lv table g64, WalkReaches s k p asid va lv table g64 →
      (s.tableOk k table = false → s.walk k asid va = .fault ⟨tcPhys, 0x100 + lv, va⟩) ∧
      ∀ e, s.tableOk k table = true → s.entryIs (entryAt va lv table g64) e →
        let l : Leaf := ⟨BitVec.ofNat 64 e, match lv with | 2 => 2 ^ 30 | 1 => 2 ^ 21 | _ => if g64 then 2 ^ 16 else 2 ^ 12⟩
        (e % 2 = 0 → s.walk k asid va = .fault ⟨tcNomap, lv, va⟩) ∧
        (e % 4 = 1 → lv = 0 → s.walk k asid va = .fault ⟨tcPtfmt, 0, va⟩) ∧
        (e % 4 = 3 → (3 ≤ lv ∨ leafBad l = true) → s.walk k asid va = .fault ⟨tcPtfmt, lv, va⟩) ∧
        (e % 4 = 3 → lv < 3 → leafBad l = false → s.walk k asid va = if s.pageOk k l then .ok l else .fault ⟨tcPhys, 0x100 + lv, va⟩)) ∧
  (∀ (s : State) (k : Nat) (w : Walk) (x : Waiter) (l : Leaf) (h : Held), s.walks = [(k, w)] → w.waiters = [x] → w.result = some (.ok l) → x.fetch = false → x.op = none →
    mapFind s.held x.key = some h → s.isMoving x.key = false → w.va / l.size = x.va / l.size → s.tcHit x.clu w.part w.asid x.va = none →
    (s.tcache.filter fun t => t.cluster = x.clu).length < 4096 →
    ∃ u, exec (.walkCompletion k) s = .next u ∧ u.tcHit x.clu w.part w.asid x.va = some l ∧ u.walks = [] ∧ u.mem = s.mem ∧
      (if h.ctx.pc = x.pc ∧ (h.ctx.state = stWaiting ∨ h.ctx.state = stParked) ∧ h.ctx.why = whyReg ∧ (∀ q : Reg, (s.needsOf x.key).getLsbD q.toNat = true → h.ctx.pend q.toNat = false)
       then (u.ctxAt x.key).state = stReady ∧ (u.ctxAt x.key).why = 0 else u.ctxAt x.key = s.ctxAt x.key)) ∧
  (∀ (s : State) (k : Nat) (w : Walk) (x : Waiter) (t : Trap) (h : Held), s.walks = [(k, w)] → w.waiters = [x] → w.result = some (.fault t) → x.fetch = false → x.op = none →
    mapFind s.held x.key = some h → s.isMoving x.key = false →
    let waits := h.ctx.pc = x.pc ∧ h.ctx.state = stWaiting ∧ h.ctx.why = whyReg
    let trap : Trap := if t.code = 11 then t else if x.ctxid then ⟨12, 0, x.fva⟩ else { t with faddr := x.fva }
    (waits → exec (.walkCompletion k) s = .next (({ s with walks := [] } : State).raiseTrap x.key trap x.spc)) ∧
    (¬ waits → exec (.walkCompletion k) s = .next { s with walks := [] })) ∧
  (∀ (s : State) (k n : Nat) (w : Walk) (x : Waiter) (t : Trap) (l : Leaf), s.walks = [(k, w)] → w.waiters = [x] → x.op = some n →
    (w.result = some (.fault t) → exec (.walkCompletion k) s = .next { s with walks := [], ops := mapErase s.ops n }) ∧
    (w.result = some (.ok l) → w.va / l.size = x.va / l.size → s.tcHit x.clu w.part w.asid x.va = none → (s.tcache.filter fun t => t.cluster = x.clu).length < 4096 →
      ∃ u, exec (.walkCompletion k) s = .next u ∧ u.tcHit x.clu w.part w.asid x.va = some l ∧ u.walks = [] ∧ u.held = s.held ∧ u.ops = s.ops ∧ u.mem = s.mem ∧
        Instr.result n ∈ u.agenda))

/-! ### Residency (05_context_storage.md, 15_scheduling.md, 16_traps_preemption.md) -/

/-- R103 to R112, R234, R336, R358, R359, R374 to R376, R396: EVICT asks for a line, waiting where its page is still to be walked and answering NOTSLOT where no slot holds it, VOID where its context has ended; a READY line fills a free slot, or exchanges places with the longest-waiting victim; READY lines in memory are loaded, a firmware context into its column on an M die too, and one outside its region is pushed into it; rotation after 16,384 ns in CL2; pre-emption and the acknowledgement of every request; a migrating line goes to its own cluster's CL2 and leaves it once nothing is due, and its context is READY where it arrives. That EVICT answers NOTSLOT for a context in a slot of a die in M role is the model's choice (log 17). -/
def Obligations.ResidencyResults : Prop :=
  let at_ := fun (u : State) (key : Nat) => (mapFind u.held key).map fun x => (x.place, x.ctx)
  (∀ (s : State) (hd : Hdr) (a : Reg) (n : Nat) (h : Held), s.issuing hd [a] [] n h → h.ctx.mode ≠ 0 →
    let id := ((xget h.ctx.x a).extractLsb' 0 64).toNat
    let page := s.tcHit (n / 128) (s.partOf s.cur) (s.asidOf (s.partOf s.cur) h.ctx.launch) id
    let named := canonical id = true ∧ id % 256 = 0
    let t := s.issued hd 1 n h
    (¬ named ∨ (∃ l, page = some l ∧ l.ctx = false) → exec (.evict hd a) s = .next (s.trapped h ⟨12, 0, id⟩)) ∧
    (named → page = none → ∃ u, exec (.evict hd a) s = .next u ∧ u.ctxAt s.cur = h.ctx.setState stWaiting whyReg ∧ u.mem = s.mem ∧ u.acks = s.acks ∧
      ∃ w ∈ u.walks, ∃ x ∈ w.2.waiters, x.key = s.cur ∧ x.va = id ∧ x.ctxid = true) ∧
    (named → ∀ l key, page = some l → l.ctx = true → key = l.pa id → key ≠ s.cur →
      (s.isMoving key = true → exec (.evict hd a) s = .next s) ∧
      let ended := fun c : Ctx => c.state = stDone ∨ c.state = stFaulted
      let acked := fun v : Ack => exec (.evict hd a) s = .next { t with acks := s.acks ++ [(.evict s.cur, key, v)] }
      (mapFind s.held key = none → (ended (s.ctxAt key) → acked .void) ∧ (¬ ended (s.ctxAt key) → acked .notslot)) ∧
      (∀ w m, mapFind s.held key = some w → w.place = .slot m → s.isM (m / 2048) = true → acked .notslot) ∧
      (∀ w m, mapFind s.held key = some w → w.place = .slot m → s.isM (m / 2048) = false →
        let asks := mapPut s.asks key (mapGet s.asks key [] ++ [.evict s.cur])
        (w.evictReq = true → exec (.evict hd a) s = .next { t with asks }) ∧
        (w.evictReq = false → exec (.evict hd a) s = .next { t with asks, held := mapPut t.held key { w with evictReq := true }, agenda := s.agenda ++ [.preemption key] })) ∧
      (∀ w c, mapFind s.held key = some w → w.place = .cl2 c → (ended w.ctx → acked .void) ∧
        (¬ ended w.ctx → memSound s → mapWf s.held = true →
        ∃ u, exec (.evict hd a) s = .next u ∧ mapFind u.held key = none ∧ ctxOfBytes (memReadList u.mem key 128) = w.ctx ∧ u.acks = s.acks ++ [(.evict s.cur, key, .notslot)] ∧
          ∀ ad, (ad < key ∨ key + 128 ≤ ad) → memRead u.mem ad = memRead s.mem ad)))) ∧
  (∀ (s : State) (clu key n : Nat) (h : Held), s.readyLines clu = [(key, h)] → mapFind s.held key = some h → s.fillBad key = none →
    let slots := s.slotsOf clu key h
    ((slots.find? fun m => (s.inSlot m).isNone) = some n →
      ∃ u, exec (.fill clu) s = .next u ∧ at_ u key = some (.slot n, h.ctx) ∧ u.mem = s.mem ∧ ∀ k, k ≠ key → mapFind u.held k = mapFind s.held k) ∧
    (∀ v w, (slots.find? fun m => (s.inSlot m).isNone) = none → s.victimOf slots = some (v, w, n) → mapFind s.held v = some w → w.place = .slot n → v ≠ key →
      ∃ u, exec (.fill clu) s = .next u ∧ at_ u key = some (.slot n, h.ctx) ∧ at_ u v = some (.cl2 clu, w.settled.ctx) ∧ u.mem = s.mem ∧
        ∀ k, k ≠ key → k ≠ v → mapFind u.held k = mapFind s.held k) ∧
    (∀ v w, s.now ≥ max h.since h.filled + 16384 * Config.ticksPerNs → s.rotated slots h.ctx.prio = some (v, w, n) → mapFind s.held v = some w → w.place = .slot n →
      n / 128 = clu → s.isM (n / 2048) = false → v ≠ key → (s.cl2Set clu v).length < 8 →
      ∃ u, exec (.rotation clu) s = .next u ∧ at_ u key = some (.slot n, h.ctx) ∧ at_ u v = some (.cl2 clu, w.settled.ctx) ∧ u.mem = s.mem ∧
        u.acks = s.acks ++ [(.rotation clu, v, .evicted)] ∧ ∀ k, k ≠ key → k ≠ v → mapFind u.held k = mapFind s.held k)) ∧
  (∀ (s : State) (k key c : Nat) (l : Live), s.readyInMem k = [(key, l)] → mapFind s.live key = some l → mapFind s.held key = none → (s.ctxAt key).state = stReady →
    s.fillBad key = none → s.lineFree key = true → (∀ e ∈ s.held, ∀ d, e.2.place = .cl2 d → e.2.ctx.state ≠ stReady ∨ d ∈ s.clustersOf k e.1) →
    let cs := (s.clustersOf k key).filter fun c => (s.cl2Room c key).isSome
    (cs = [c] → s.mSlots k key = [] → (s.cl2Set c key).length < 8 →
    ∃ u, exec (.load k) s = .next u ∧ at_ u key = some (.cl2 c, s.ctxAt key) ∧ (mapFind u.held key).map (·.id) = some l.id ∧ Instr.fill c ∈ u.agenda ∧ u.mem = s.mem ∧
      ∀ j, j ≠ key → mapFind u.held j = mapFind s.held j) ∧
    (cs = [] → s.mSlots k key ≠ [] → ∃ u, ∃ n ∈ s.mSlots k key, exec (.load k) s = .next u ∧ at_ u key = some (.slot n, s.ctxAt key) ∧ u.mem = s.mem ∧
      ∀ j, j ≠ key → mapFind u.held j = mapFind s.held j)) ∧
  (∀ (s : State) (k key c d w : Nat) (h : Held), s.readyInMem k = [] → s.held = [(key, h)] → s.partOf key = k → s.resumes k h.ctx.launch = true → h.place = .cl2 c →
    h.ctx.state = stReady → c ∉ s.clustersOf k key → (s.clustersOf k key).findSome? (fun d => (s.freeWay d key).map (d, ·)) = some (d, w) →
    exec (.load k) s = .next { s with held := [(key, { h with place := .moving c (some d), way := w })], agenda := s.agenda ++ [.arrival key] }) ∧
  (∀ (s : State) (key : Nat), mapFind s.live key = none →
    exec (.preemption key) s = .next { s with asks := mapErase s.asks key, acks := s.acks ++ (mapGet s.asks key []).map fun r => (r, key, .void) }) ∧
  (∀ (s : State) (key n : Nat) (h : Held), (mapFind s.live key).isSome = true → mapFind s.held key = some h → h.place = .slot n →
    (h.replay.isSome = true ∨ h.ctx.state = stTrapped ∨ s.endDue key h n = true → exec (.preemption key) s = .next (s.emit (.preemption key))) ∧
    (h.replay = none → h.ctx.state ≠ stTrapped → s.endDue key h n = false → s.isM (n / 2048) = false → (s.cl2Set (n / 128) key).length < 8 →
      ∃ u, exec (.preemption key) s = .next u ∧ at_ u key = some (.cl2 (n / 128), h.settled.ctx) ∧ u.acks = s.acks ++ ((mapGet s.asks key []).map fun r => (r, key, .evicted)) ∧ u.mem = s.mem ∧
        ∀ k, k ≠ key → mapFind u.held k = mapFind s.held k)) ∧
  (∀ (s : State) (key n t : Nat) (h : Held) (l : Live), mapFind s.held key = some h → h.place = .slot n → mapFind s.live key = some l → l.migr = some t →
    h.ctx.state = stParked → h.ctx.why = whyMigr → h.ctx.pendAll = 0 → s.accessesOut key = false → s.heldOut key = false → (s.fenceOf key).loads = [] →
    s.isM (n / 2048) = false → (s.cl2Set (n / 128) key).length < 8 →
    ∃ u d, exec (.migration key) s = .next u ∧ at_ u key = some (.moving (n / 128) d, h.settled.ctx) ∧ mapFind u.live key = some { l with region := some t, migr := none } ∧
      Instr.arrival key ∈ u.agenda ∧ u.mem = s.mem ∧ ∀ k, k ≠ key → mapFind u.held k = mapFind s.held k) ∧
  (∀ (s : State) (key src : Nat) (d : Option Nat) (h : Held), mapFind s.held key = some h → h.place = .moving src d → h.ctx.state = stParked → h.ctx.why = whyMigr →
    (∀ clu, d = some clu → ∃ u, exec (.arrival key) s = .next u ∧ at_ u key = some (.cl2 clu, h.ctx.setState stReady 0) ∧ u.mem = s.mem) ∧
    (d = none → memSound s → mapWf s.held = true → ∃ u, exec (.arrival key) s = .next u ∧ mapFind u.held key = none ∧
      ctxOfBytes (memReadList u.mem key 128) = h.ctx.setState stReady 0 ∧ ∀ ad, (ad < key ∨ key + 128 ≤ ad) → memRead u.mem ad = memRead s.mem ad))

/-! ### Coherence and errors (04_data_hierarchy.md) -/

/-- R77, R79 to R90, R95, R103: what the home does with each request in each of its states, what a die does with each message, and that no message of its own changes a byte: only a non-temporal write and a host write do. That no recall and no write-back changes a byte of the model's memory, which holds the latest value of every line, is the model's choice (log 10); so are that PutO is discarded in every state but OWN by its die (log 14) and that a context line which a die holds stays OWN where the host reads it (log 66). -/
def Obligations.CoherenceResults : Prop :=
  (∀ (s : State) (line die : Nat), die < 24 → (s.die die).down = false → s.flcAt line die = none → s.isPeer line = false →
    let e := s.dirE line
    let waits := fun (u : State) (r : Req) (n : Nat) => u.mem = s.mem ∧ (u.dirE line).st = .wait ∧ (u.dirE line).await = n ∧ (u.dirE line).serving = some r
    (e.st = .wait ∨ s.claimed line = true →
      (∃ u, exec (.gets line die) s = .next u ∧ (u.dirE line).queue = e.queue ++ [.gets die] ∧ u.mem = s.mem ∧ u.agenda = s.agenda) ∧
      (∃ u, exec (.geto line die) s = .next u ∧ (u.dirE line).queue = e.queue ++ [.geto die] ∧ u.mem = s.mem ∧ u.agenda = s.agenda) ∧
      (∃ u, exec (.upg line die) s = .next u ∧ (u.dirE line).queue = e.queue ++ [.upg die] ∧ u.mem = s.mem ∧ u.agenda = s.agenda)) ∧
    (s.claimed line = false → e.st = .own →
      (∃ u, exec (.gets line die) s = .next u ∧ waits u (.gets die) 1 ∧ u.agenda = s.agenda ++ [.rcls line e.owner]) ∧
      (e.host = false → (∃ u, exec (.geto line die) s = .next u ∧ waits u (.geto die) 1 ∧ u.agenda = s.agenda ++ [.rcli line e.owner]) ∧
        (∃ u, exec (.upg line die) s = .next u ∧ waits u (.upg die) 1 ∧ u.agenda = s.agenda ++ [.rcli line e.owner]))) ∧
    (s.claimed line = false → e.st = .unc ∨ e.st = .shd → (e.st = .unc → s.dirFull line = false) →
      (∃ u, exec (.gets line die) s = .next u ∧ u.mem = s.mem ∧ (u.dirE line).st = .shd ∧ (u.dirE line).sharers = e.sharers ||| BitVec.ofNat 24 (2 ^ die) ∧
        u.agenda = s.agenda ++ [.datas line die]) ∧
      (e.host = false →
        let others := (List.range 24).filter fun d => e.sharers.getLsbD d && d != die
        (others = [] →
          let owns := fun u : State => u.mem = s.mem ∧ (u.dirE line).st = .own ∧ (u.dirE line).owner = die ∧ (u.dirE line).sharers = 0 ∧ (∀ x ∈ u.flc, x.2.line ≠ line) ∧
            Instr.datao line die ∈ u.agenda ∧ ((∀ x ∈ s.flc, x.2.line ≠ line) → u.agenda = s.agenda ++ [.datao line die])
          (∃ u, exec (.geto line die) s = .next u ∧ owns u) ∧ (∃ u, exec (.upg line die) s = .next u ∧ owns u)) ∧
        (others ≠ [] →
          (∃ u, exec (.geto line die) s = .next u ∧ waits u (.geto die) others.length ∧ u.agenda = s.agenda ++ others.map (Instr.inv line)) ∧
          (∃ u, exec (.upg line die) s = .next u ∧ waits u (.upg die) others.length ∧ u.agenda = s.agenda ++ others.map (Instr.inv line)))) ∧
      (e.host = true → ∀ r : Req, r = .geto die ∨ r = .upg die → ∃ u, exec (r.msg line) s = .next u ∧ waits u r 1 ∧ (u.dirE line).snoop = true ∧
        u.agenda = if e.snoop then s.agenda else s.agenda ++ [.backInvalidationResponse line]))) ∧
  (∀ (s : State) (line die k : Nat) (f : FlcEntry), (s.die die).down = false → s.flcAt line die = some (k, f) → s.claimed line = false → s.isPeer line = false →
    ∃ u, exec (.gets line die) s = .next u ∧ u.agenda = s.agenda ++ [.adds line die, .datas line die] ∧
      mapFind u.flc k = some { f with vec := f.vec ||| BitVec.ofNat 24 (2 ^ die) } ∧ u.dir = s.dir ∧ u.mem = s.mem) ∧
  (∀ (s : State) (line die : Nat),
    let e := s.dirE line
    (e.st = .own → e.owner = die → mapWf s.dir = true → ∃ u, exec (.puto line die) s = .next u ∧ (u.dirE line).st = .unc ∧ (u.dirE line).sharers = 0 ∧ u.mem = s.mem ∧
      u.l2 = s.l2) ∧
    (¬ (e.st = .own ∧ e.owner = die) → exec (.puto line die) s = .next s) ∧
    (s.flcAt line die = none → e.st = .unc ∨ e.st = .shd → die < 24 →
      ∃ u, exec (.adds line die) s = .next u ∧ (u.dirE line).st = .shd ∧ (u.dirE line).sharers = e.sharers ||| BitVec.ofNat 24 (2 ^ die) ∧ u.mem = s.mem) ∧
    (e.st = .own ∨ e.st = .wait → exec (.adds line die) s = .next s)) ∧
  (∀ (s : State) (line die : Nat), mapWf s.l2 = true → (s.die die).down = false →
    let lexp := ((s.l2Line line die).getD l2None).lexp
    (s.flcAt line die = none → ∃ u, exec (.inv line die) s = .next u ∧ u.l2Reads line die = false ∧ lexp ≤ u.now ∧ (∀ c ∈ u.l1, ¬ (c.line = line ∧ dieOfIu c.iu = die)) ∧
      u.agenda = (s.agenda.map fun i => if i = .datas line die then .gets line die else i) ++ [.invack line die] ∧ u.mem = s.mem) ∧
    (∃ u, exec (.rcls line die) s = .next u ∧ u.l2Owns line die = false ∧ u.l2Reads line die = s.l2Reads line die ∧ (s.lost line = false → u.poison = s.poison) ∧
      u.agenda = s.agenda ++ [.rcldata line die] ∧ u.mem = s.mem) ∧
    (∃ u, exec (.rcli line die) s = .next u ∧ u.l2Reads line die = false ∧ lexp ≤ u.now ∧ (∀ c ∈ u.l1, ¬ (c.line = line ∧ dieOfIu c.iu = die)) ∧ (s.lost line = false → u.poison = s.poison) ∧
      u.agenda = s.agenda ++ [.rcldata line die] ∧ u.mem = s.mem) ∧
    (∃ u, exec (.datas line die) s = .next u ∧ u.l2Reads line die = true ∧ u.l2Owns line die = false ∧ u.mem = s.mem) ∧
    (∃ u, exec (.datao line die) s = .next u ∧ u.l2Owns line die = true ∧ u.mem = s.mem)) ∧
  (∀ (s : State) (line die d : Nat),
    let e := s.dirE line
    e.st = .wait → e.queue = [] → d < 24 → (∀ x ∈ s.flc, x.2.line ≠ line) →
    (1 < e.await → ∃ u, exec (.invack line die) s = .next u ∧ (u.dirE line).st = .wait ∧ (u.dirE line).await = e.await - 1 ∧
      (u.dirE line).sharers = e.sharers &&& ~~~BitVec.ofNat 24 (2 ^ die) ∧ u.agenda = s.agenda ∧ u.mem = s.mem) ∧
    (e.await = 1 → (e.serving = some (.geto d) ∨ e.serving = some (.upg d)) →
      (∃ u, exec (.invack line die) s = .next u ∧ (u.dirE line).st = .own ∧ (u.dirE line).owner = d ∧ (u.dirE line).sharers = 0 ∧ u.agenda = s.agenda ++ [.datao line d] ∧
        u.mem = s.mem) ∧
      (∃ u, exec (.rcldata line die) s = .next u ∧ (u.dirE line).st = .own ∧ (u.dirE line).owner = d ∧ (u.dirE line).sharers = 0 ∧
        u.agenda = s.agenda ++ [.datao line d] ∧ u.mem = s.mem)) ∧
    (e.await = 1 → e.serving = some (.gets d) → e.sharers = 0 → e.snoop = false → ∃ u, exec (.rcldata line die) s = .next u ∧ (u.dirE line).st = .shd ∧
      (u.dirE line).sharers = (if s.l2Reads line e.owner then BitVec.ofNat 24 (2 ^ e.owner) else 0) ||| BitVec.ofNat 24 (2 ^ d) ∧ u.agenda = s.agenda ++ [.datas line d] ∧ u.mem = s.mem) ∧
    (e.snoop = true → (e.serving = some (.geto d) ∨ e.serving = some (.upg d)) → (∀ j, e.sharers.getLsbD j = true → j = d) →
      ∃ u, exec (.backInvalidationResponse line) s = .next u ∧ (u.dirE line).host = false ∧ (u.dirE line).st = .own ∧ (u.dirE line).owner = d ∧
        u.agenda = s.agenda ++ [.datao line d] ∧ u.mem = s.mem) ∧
    (e.await = 1 → ∀ k p, e.serving = some (.wrnt k) → mapFind s.stores k = some p → (∀ c ∈ p.bytes, lineOf c.1 = line ∧ s.offline c.1 = false) → (p.bytes.map (·.1)).Nodup → memSound s →
      ∀ i, i = Instr.invack line die ∨ i = Instr.rcldata line die →
      ∃ u, exec i s = .next u ∧ (u.dirE line).st = .unc ∧ u.stores = mapErase s.stores k ∧ (∀ c ∈ p.bytes, memRead u.mem c.1 = c.2) ∧
        ∀ ad, (∀ c ∈ p.bytes, c.1 ≠ ad) → memRead u.mem ad = memRead s.mem ad)) ∧
  (∀ (s : State) (k pa : Nat) (b0 : Byte) (r : List (Nat × Byte)) (p : PStore), mapFind s.stores k = some p → p.bytes = (pa, b0) :: r →
    (∀ c ∈ r, lineOf c.1 = lineOf pa) → s.offline (lineOf pa * 128) = false → s.isPeer (lineOf pa) = false →
    let e := s.dirE (lineOf pa)
    let sent := fun (n : Nat) (is : List Instr) => ∃ u, exec (.wrnt k) s = .next u ∧ (u.dirE (lineOf pa)).st = .wait ∧ (u.dirE (lineOf pa)).await = n ∧
      (u.dirE (lineOf pa)).serving = some (.wrnt k) ∧ u.agenda = s.agenda ++ is ∧ u.stores = s.stores ∧ u.mem = s.mem
    (e.st = .wait ∨ s.claimed (lineOf pa) = true → ∃ u, exec (.wrnt k) s = .next u ∧ (u.dirE (lineOf pa)).queue = e.queue ++ [.wrnt k] ∧ u.agenda = s.agenda ∧ u.stores = s.stores ∧
      u.mem = s.mem) ∧
    (s.claimed (lineOf pa) = false → e.host = false → e.st = .own → sent 1 [.rcli (lineOf pa) e.owner]) ∧
    (s.claimed (lineOf pa) = false → e.host = false → e.st = .shd →
      let ds := (List.range 24).filter fun d => e.sharers.getLsbD d
      ds ≠ [] → sent ds.length (ds.map (Instr.inv (lineOf pa)))) ∧
    (s.claimed (lineOf pa) = false → e.host = true → e.st ≠ .wait → sent 1 (if e.snoop then [] else [.backInvalidationResponse (lineOf pa)]))) ∧
  (∀ (s : State) (k pa : Nat) (b0 : Byte) (r : List (Nat × Byte)) (p : PStore), mapFind s.stores k = some p → p.bytes = (pa, b0) :: r →
    (∀ c ∈ r, lineOf c.1 = lineOf pa) → (p.bytes.map (·.1)).Nodup → memSound s → s.dirE (lineOf pa) = dirUnc → s.claimed (lineOf pa) = false →
    s.offline (lineOf pa * 128) = false → (∀ c ∈ p.bytes, s.offline c.1 = false) →
    ∃ u, exec (.wrnt k) s = .next u ∧ u.stores = mapErase s.stores k ∧ (∀ c ∈ p.bytes, memRead u.mem c.1 = c.2) ∧
      (∀ ad, (∀ c ∈ p.bytes, c.1 ≠ ad) → memRead u.mem ad = memRead s.mem ad) ∧ (u.dirE (lineOf pa)).st = .unc) ∧
  (∀ (s : State) (tag pa n : Nat), 0 < n → pa / 128 = (pa + n - 1) / 128 → s.lineBusy [pa / 128] = false → s.claimed (pa / 128) = false → s.isPoison (pa / 128) = false →
    s.lost (pa / 128) = false → s.offline (pa / 128 * 128) = false →
    ∃ u, exec (.hostMemRead tag pa n) s = .next u ∧ u.hostReads = s.hostReads ++ [(tag, s.cohBytes pa n)] ∧
      (mapFind s.held (pa / 128 * 128) = none → s.cohBytes pa n = memReadList s.mem pa n ∧ (u.dirE (pa / 128)).host = true ∧ (u.dirE (pa / 128)).st ≠ .own) ∧
      ((mapFind s.held (pa / 128 * 128)).isSome = true → (u.dirE (pa / 128)).host = (s.dirE (pa / 128)).host ∧ (u.dirE (pa / 128)).st = (s.dirE (pa / 128)).st ∧
        (u.dirE (pa / 128)).owner = (s.dirE (pa / 128)).owner) ∧ u.mem = s.mem) ∧
  (∀ (s : State) (pa : Nat) (bytes : List Byte), bytes ≠ [] → pa / 128 = (pa + bytes.length - 1) / 128 → memSound s → s.lineBusy [pa / 128] = false → s.claimed (pa / 128) = false →
    (∀ i < bytes.length, s.offline (pa + i) = false ∧ s.coherent (pa + i) = true) → (∀ k p, s.part k = some p → p.freeze = none) →
    ∃ u, exec (.hostMemWrite pa bytes) s = .next u ∧ memReadList u.mem pa bytes.length = bytes ∧
      (∀ ad, (ad < pa ∨ pa + bytes.length ≤ ad) → memRead u.mem ad = memRead s.mem ad) ∧ u.held = s.held) ∧
  (∀ (s : State) (pa : Nat) (bytes : List Byte),
    (∃ i < bytes.length, s.offline (pa + i) = true ∨ s.coherent (pa + i) = false ∨
      ∃ t k p, s.homeTower (pa + i) = some t ∧ s.partOfTower t = some k ∧ s.part k = some p ∧ p.refusesHost (pa + i) = true) →
    exec (.hostMemWrite pa bytes) s = .next { s with hostErrs := s.hostErrs ++ [pa] })

/-! ### Management (01_towers_and_roles.md, 17_host_firmware_platform.md) -/

/-- R390, R402, R404: a request answers with its tag. CREATE and DESTROY first open the window table's entry of the partition's number (R402). CREATE gives the lowest free number, every control register its reset value, and zeroes the address-space table, near memory and the window headers but PROTOVER; DESTROY waits for live launches, then the partition is gone with its memory zeroed; from the baseboard controller both answer BADREQ. No slot of a link that another partition owns is given. That a request whose towers, windows or routes cannot be served answers BADREQ is the model's choice (log 44); so are the first value of SEQ and the shadow's place (log 50). -/
def Obligations.PartitionsComeAndGo : Prop :=
  let answers := fun (s u : State) (tag : BitVec 16) (status : Nat) => u = { s with resps := s.resps ++ [⟨tag, status, []⟩] }
  let opened := fun (s u : State) (k : Nat) (tag : BitVec 16) => u.mem = s.mem ∧ u.parts = s.parts ∧ u.resps = s.resps ∧ (u.wentry k).seq = (s.wentry k).seq + 1 ∧
    (u.wentry k).odd = true ∧ (u.wentry k).shadow = (s.wentry k).block ∧ (u.wentry k).tag = tag ∧ ∀ j, j ≠ k → u.wentry j = s.wentry j
  let closed := fun (s u : State) (k : Nat) => (u.wentry k).seq = (s.wentry k).seq + 1 ∧ (u.wentry k).odd = false ∧ (u.wentry k).block = (s.wentry k).block ∧
    ∀ j, j ≠ k → u.wentry j = s.wentry j
  (∀ (s : State) (r : CreateReq) (tag : BitVec 16) (k : Nat),
    (∃ u, exec (.create .bmc r) s = .next u ∧ answers s u r.tag 4) ∧ (∃ u, exec (.destroy .bmc tag k) s = .next u ∧ answers s u tag 4) ∧
    ((∃ e ∈ r.roles, e.2 = none) → ∃ u, exec (.create .host r) s = .next u ∧ answers s u r.tag 2) ∧
    ((∀ e ∈ r.roles, e.2 ≠ none) → s.createBad r = true → ∃ u, exec (.create .host r) s = .next u ∧ answers s u r.tag 4) ∧
    (s.part k = none → ∃ u, exec (.destroy .host tag k) s = .next u ∧ answers s u tag 8)) ∧
  (∀ (s : State) (r : CreateReq) (k : Nat), (∀ e ∈ r.roles, e.2 ≠ none) → s.createBad r = false → k < 6 → s.part k = none → (∀ j < k, (s.part j).isSome = true) →
    (∀ j, j ≠ k → s.part j = none → (s.wentry j).odd = true → (s.wentry j).tag ≠ r.tag) → memSound s →
    ((s.wentry k).odd = false → ∃ u, exec (.create .host r) s = .next u ∧ opened s u k r.tag ∧ (u.wentry k).block.map (fun w => (w.pa, w.sup)) = r.windows ∧
      u.agenda = s.agenda ++ [.create .host r]) ∧
    ((s.wentry k).odd = true → (s.wentry k).tag ≠ r.tag → exec (.create .host r) s = .next (s.emit (.create .host r))) ∧
    ((s.wentry k).odd = true → (s.wentry k).tag = r.tag →
    ∃ u p data, exec (.create .host r) s = .next u ∧ closed s u k ∧ u.part k = some p ∧ u.resps = s.resps ++ [⟨r.tag, 0, k :: p.asTable :: data⟩] ∧ (∀ j, j ≠ k → u.part j = s.part j) ∧
      p.towers = r.towers ∧ (p.roles.map fun e => (e.1, some e.2)) = r.roles ∧ p.flcGib = r.flcGib ∧ (p.windows.map fun w => (w.pa, w.sup)) = r.windows ∧ p.routes = r.routes ∧
      p.cl1lim = 16 ∧ p.rsvslot = 0 ∧ p.lease = 512 ∧ p.chkstall = 0 ∧ p.scopemissen = 0 ∧ p.ctxpool = 0 ∧ p.trapvec = 0 ∧ p.freqReq = 36 ∧ p.wdog = 0 ∧ p.launches = [] ∧
      p.poolWait = [] ∧ p.returns = [] ∧ p.roleChange = none ∧ p.freeze = none ∧ u.held = s.held ∧
      (∀ l ∈ p.slots, ∀ j q, s.part j = some q → ∀ m ∈ q.slots, m.1 = l.1 → ∀ i ∈ l.2, i ∉ m.2) ∧
      (∀ w ∈ r.windows, memReadList u.mem w.1 256 = [0, 0, 1, 0] ++ List.replicate 252 0) ∧
      ∀ ad, (∀ w ∈ r.windows, ¬ (w.1 ≤ ad ∧ ad < w.1 + 256)) → memRead u.mem ad =
        if (p.asTable ≤ ad ∧ ad < p.asTable + 0x8000) ∨ (∃ e ∈ p.roles, 0x100_0000_0000 + e.1 * 2 ^ 30 ≤ ad ∧ ad < 0x100_0000_0000 + e.1 * 2 ^ 30 + mLayers e.2 * 0xB00_0000) then 0
        else memRead s.mem ad)) ∧
  (∀ (s : State) (tag : BitVec 16) (k : Nat) (p : Part), s.part k = some p → p.freeze = none → p.roleChange = none →
    (p.launches ≠ [] → exec (.destroy .host tag k) s = .next (s.emitFirst (.destroy .host tag k))) ∧
    (p.launches = [] → (s.wentry k).odd = false → ∃ u, exec (.destroy .host tag k) s = .next u ∧ opened s u k tag ∧ (u.wentry k).block = [] ∧
      u.agenda = .destroy .host tag k :: s.agenda) ∧
    (p.launches = [] → (s.wentry k).odd = true → (s.wentry k).tag ≠ tag → exec (.destroy .host tag k) s = .next (s.emitFirst (.destroy .host tag k))) ∧
    (p.launches = [] → (s.wentry k).odd = true → (s.wentry k).tag = tag → mapWf s.parts = true →
      ∃ u, exec (.destroy .host tag k) s = .next u ∧ closed s u k ∧ u.part k = none ∧ (∀ j, j ≠ k → u.part j = s.part j) ∧
      u.resps = s.resps ++ [⟨tag, 0, []⟩] ∧ (∀ e ∈ u.live, e.2.part ≠ k) ∧ (∀ e ∈ u.handles, p.ownsQuad (e.1 / 1024) = false) ∧
      ∀ ad, memRead u.mem ad = if p.owns ad then 0 else memRead s.mem ad))

/-- R18, R19: ROLES checks its request, stops parsing and asks the contexts of the affected towers out of their slots; once they have drained, a handle, page or pin in the way ends it with BUSY and the old map; else the towers are flushed, the new map takes effect, dies that change role get a new incarnation, zeroed near memory and scratch, and the request answers OK, CYC going on. That a request which names a tower twice or one outside the partition answers BADREQ is the model's choice (log 44), so is that one in a freeze answers BUSY (log 43). -/
def Obligations.RoleChanges : Prop :=
  (∀ (s : State) (tag : BitVec 16) (k : Nat) (maps : List (Nat × Option RoleMap)),
    let answers := fun status : Nat => exec (.roles .host tag k maps) s = .next { s with resps := s.resps ++ [⟨tag, status, []⟩] }
    exec (.roles .bmc tag k maps) s = .next { s with resps := s.resps ++ [⟨tag, 4, []⟩] } ∧ (s.part k = none → answers 8) ∧
    ∀ p, s.part k = some p →
      ((∃ m ∈ maps, m.2 = none) → answers 2) ∧
      ((∀ m ∈ maps, m.2 ≠ none) → (¬ (maps.map (·.1)).Nodup ∨ ∃ m ∈ maps, m.1 ∉ p.towers) → answers 4) ∧
      ((∀ m ∈ maps, m.2 ≠ none ∧ m.1 ∈ p.towers) → (maps.map (·.1)).Nodup →
        (p.freeze ≠ none → answers 1) ∧
        (p.freeze = none → p.roleChange ≠ none → exec (.roles .host tag k maps) s = .next (s.emitFirst (.roles .host tag k maps))) ∧
        (p.freeze = none → p.roleChange = none → mapWf s.held = true →
          ∃ u ms, exec (.roles .host tag k maps) s = .next u ∧ (u.part k).map (·.roleChange) = some (some ⟨tag, ms, 2⟩) ∧ (ms.map fun m => (m.1, some m.2)) = maps ∧
            Instr.roleCheck ∈ u.agenda ∧ (u.part k).map (·.roles) = some p.roles ∧ u.mem = s.mem ∧ u.resps = s.resps ∧
            ∀ key h, mapFind s.held key = some h → s.partOf key = k →
              (∀ n, h.place = .slot n → s.isM (n / 2048) = false → n / 8192 ∈ maps.map (·.1) →
                (h.evictReq = false → Instr.preemption key ∈ u.agenda) ∧ (mapFind u.held key).map (·.evictReq) = some true ∧ Requester.roles k ∈ mapGet u.asks key []) ∧
              (∀ c, h.place = .cl2 c → c / 64 ∈ maps.map (·.1) → (Requester.roles k, key, Ack.notslot) ∈ u.acks)))) ∧
  (∀ (s : State) (n : Nat) (i : Instr), ((n, i) = (2, .roleCheck) ∨ (n, i) = (4, .reEnumerate)) → (∀ e ∈ s.parts, ∀ rc, e.2.roleChange = some rc → rc.step ≠ n) → exec i s = .next s) ∧
  (∀ s : State, (∃ e ∈ s.parts, ∃ rc, e.2.roleChange = some rc ∧ rc.step = 2) →
    (∀ e ∈ s.parts, ∀ rc, e.2.roleChange = some rc → rc.step = 2 → s.drainingStill e.1 rc = true) → exec .roleCheck s = .next (s.emit .roleCheck)) ∧
  (∀ s : State, (∃ e ∈ s.parts, ∃ rc, e.2.roleChange = some rc ∧ rc.step = 4) →
    (∀ e ∈ s.parts, ∀ rc, e.2.roleChange = some rc → rc.step = 4 → ∃ d ∈ e.2.staying rc.maps, s.slowed d = false) → exec .reEnumerate s = .next (s.emit .reEnumerate)) ∧
  (∀ (s : State) (k : Nat) (p : Part) (rc : RoleChange), s.part k = some p → p.roleChange = some rc → rc.step = 2 → s.drainingStill k rc = false →
    (∀ e ∈ s.parts, e.1 ≠ k → ∀ o, e.2.roleChange = some o → o.step = 2 → s.drainingStill e.1 o = true) →
    ((∀ e ∈ s.held, ∀ c, e.2.place = .cl2 c → c / 64 ∉ rc.maps.map (·.1)) →
      (s.roleBusy p rc = true → ∃ u, exec .roleCheck s = .next u ∧ u.part k = some { p with roleChange := none } ∧ u.resps = s.resps ++ [⟨rc.tag, 1, []⟩] ∧ u.mem = s.mem) ∧
      (s.roleBusy p rc = false → mapWf s.l2 = true → ∃ u, exec .roleCheck s = .next u ∧ u.part k = some { p with roleChange := some { rc with step := 4 } } ∧
        Instr.reEnumerate ∈ u.agenda ∧ u.resps = s.resps ∧ u.mem = s.mem ∧
        ∀ line die, die < 32 → die / 4 ∈ rc.maps.map (·.1) → u.l2Reads line die = false))) ∧
  (∀ (s : State) (k : Nat) (p : Part) (rc : RoleChange), s.part k = some p → p.roleChange = some rc → rc.step = 4 → (∀ d ∈ p.staying rc.maps, s.slowed d = true) →
    (∀ e ∈ s.parts, e.1 ≠ k → ∀ o, e.2.roleChange = some o → o.step ≠ 4) → p.launches = [] → s.dir = [] → (rc.maps.map (·.1)).Nodup →
    (∀ m ∈ rc.maps, m.1 < 6) → (p.roles.map (·.1)).Nodup →
    let changes := fun d : Nat => ∃ m o, m ∈ rc.maps ∧ p.roles.find? (·.1 = m.1) = some o ∧ d / 4 = m.1 ∧ ¬ (d % 4 < mLayers o.2 ↔ d % 4 < mLayers m.2)
    let inside := fun ad : Nat => ∃ d, changes d ∧ ((0x100_0000_0000 + d / 4 * 2 ^ 30 + d % 4 * 0xB00_0000 ≤ ad ∧ ad < 0x100_0000_0000 + d / 4 * 2 ^ 30 + (d % 4 + 1) * 0xB00_0000) ∨
      ∃ q < 32, 0x300_0000_0000 + d * 2 ^ 30 + q * 2 ^ 25 ≤ ad ∧ ad < 0x300_0000_0000 + d * 2 ^ 30 + q * 2 ^ 25 + 0x20_0000)
    ∃ u q, exec .reEnumerate s = .next u ∧ u.part k = some q ∧ q.roleChange = none ∧ q.towers = p.towers ∧
      (q.roles = p.roles.map fun e => (e.1, ((rc.maps.find? (·.1 = e.1)).map (·.2)).getD e.2)) ∧ u.resps = s.resps ++ [⟨rc.tag, 0, []⟩] ∧
      (∀ d < 24, u.cyc d = s.cyc d ∧ (changes d → (u.die d).incarn = (s.die d).incarn + 1) ∧ (¬ changes d → (u.die d).incarn = (s.die d).incarn)) ∧
      ∀ ad, (inside ad → memRead u.mem ad = 0) ∧ (¬ inside ad → memRead u.mem ad = memRead s.mem ad))

/-- R390, R399, R400, R403: BBREAD, UPDATE, PATCH and QUERY. An update whose signature fails answers BADSIG and changes nothing else; a patch is also compared with the running version, waits until it may be switched in, replaces at most 32 table entries and answers OK, or ACTIVE after 100 ms. What an object's bytes say of its signatures, its version and its patches is free (log 21). That BBREAD counts its start from the oldest record is the model's choice (log 55). -/
def Obligations.FirmwareRequests : Prop :=
  let resp := fun (s : State) (tag : BitVec 16) (status : Nat) (data : List Nat) => s.resps ++ [(⟨tag, status, data⟩ : Resp)]
  (∀ (s : State) (tag : BitVec 16) (pa len : Nat),
    let img := memReadList s.mem pa len
    exec (.update .bmc tag pa len) s = .next { s with resps := resp s tag 4 [] } ∧ exec (.patch .bmc tag pa len) s = .next { s with resps := resp s tag 4 [] } ∧
    (∃ u, exec (.update .host tag pa len) s = .next u ∧ u.mem = s.mem ∧ u.held = s.held ∧ u.fware.version = s.fware.version ∧ u.fware.patches = s.fware.patches ∧
      if Config.signatureOk img then u.fware = { s.fware with pending := some img } ∧ u.resps = resp s tag 0 [] else u.fware = s.fware ∧ u.resps = resp s tag 5 []) ∧
    (s.fware.patch.isSome = true → exec (.patch .host tag pa len) s = .next (s.emit (.patch .host tag pa len))) ∧
    (s.fware.patch = none → ∃ u, exec (.patch .host tag pa len) s = .next u ∧ u.mem = s.mem ∧ u.held = s.held ∧ u.fware.version = s.fware.version ∧ u.fware.table = s.fware.table ∧
      if Config.signatureOk img = false then u.fware = s.fware ∧ u.resps = resp s tag 5 []
      else if Config.patchBase img ≠ s.fware.running then u.fware = s.fware ∧ u.resps = resp s tag 6 []
      else u.fware.patch = some (tag, img) ∧ u.fware.stopped = Config.patchStops img ∧ u.fware.patchAt = s.now ∧ u.resps = s.resps ∧ u.agenda = s.agenda ++ [.patchSwitch, .patchTimeout])) ∧
  (∀ (s : State), s.fware.patch = none → exec .patchSwitch s = .next s ∧ exec .patchTimeout s = .next s) ∧
  (∀ (s : State) (tag : BitVec 16) (img : List Byte), s.fware.patch = some (tag, img) →
    let late := s.fware.patchAt + 100_000_000 * Config.ticksPerNs < s.now
    (late → exec .patchSwitch s = .next s ∧ ∃ u, exec .patchTimeout s = .next u ∧ u.fware = { s.fware with patch := none, stopped := [] } ∧ u.resps = resp s tag 7 [] ∧ u.mem = s.mem) ∧
    (¬ late → exec .patchTimeout s = .next (s.emit .patchTimeout) ∧
      (s.fware.stopped = [] ∨ (∀ e ∈ s.live, (s.ctxAt e.1).mode ≠ 2) → ∃ u, exec .patchSwitch s = .next u ∧ u.fware.patch = none ∧ u.fware.stopped = [] ∧
        u.fware.patches = s.fware.patches ++ [Config.patchNumber img] ∧
        u.fware.version = s.fware.version ∧ u.resps = resp s tag 0 [] ∧ u.mem = s.mem ∧ u.held = s.held ∧
        ∀ i, ((∀ e ∈ (Config.patchPairs img).take 32, e.1 % 256 ≠ i) → mapFind u.fware.table i = mapFind s.fware.table i) ∧
          ∀ v, ((Config.patchPairs img).take 32).reverse.find? (·.1 % 256 = i) = some v → mapFind u.fware.table i = some v.2))) ∧
  (∀ (s : State) (tag : BitVec 16) (die start count : Nat),
    (24 < die → exec (.bbread tag die start count) s = .next { s with resps := resp s tag 4 [] }) ∧
    (die ≤ 24 → ∃ data, exec (.bbread tag die start count) s = .next { s with resps := resp s tag 0 data } ∧
      let recs := (((mapFind s.bbox die).map (·.recs)).getD []).drop start
      data.length = 4 * min count recs.length ∧ ∀ i < min count recs.length, ∀ r, recs[i]? = some r →
        data[4 * i]? = some r.time ∧ data[4 * i + 1]? = some (r.code + r.die * 2 ^ 16 + r.part * 2 ^ 24 + r.seqn.toNat * 2 ^ 32)) ∧
    (∃ data, exec (.query tag) s = .next { s with tick := s.tick + 1, resps := resp s tag 0 data } ∧
      (∀ d < 24, data[3 * d]? = some (((if s.isM d then 12 else if s.roleOf (d / 4) = some .cccc then 27 else 36) * 2 ^ 16 +
        ((s.part ((s.partOfTower (d / 4)).getD 255)).map (·.freqReq)).getD 36 * 2 ^ 8 + (if s.isM d then 12 else (s.die d).cur)) % 2 ^ 64) ∧ data[3 * d + 2]? = some (s.die d).temp) ∧ (∀ n < 12, data[72 + n]? = some (s.bde n).temp) ∧
      data.getLast? = some s.fware.running))

/-! ### Launches (15_scheduling.md) -/

/-- R340, R343 to R347, R366: the front end parses a sealed slot, moves HEAD and PARSED on and clears the seal, whether the record is accepted, with the lowest free launch number, or fails a check whose code goes to its completion record or LASTERR; dependences hold a launch back, fail it or release it; a dispatched launch has its team records as R141 gives them; a launch whose contexts have all ended completes. That a failed dependence ends its launch before the others have a status is the model's choice (log 41). -/
def Obligations.LaunchLife : Prop :=
  (∀ (s : State) (k w : Nat) (p : Part) (win : Window), s.part k = some p → s.window k w = some win → memSound s →
    let slot := s.winByte win 2
    let head := win.pa + 256 * slot
    let b := memReadList s.mem head 256
    let l := recLaunch b w slot false
    let code := s.recCode k win.sup b l (s.isPoison (lineOf head) || s.isPoison (lineOf head + 1))
    (s.winByte win 1 ≠ 0 ∨ slot = 0 ∨ s.winByte win (256 * slot + 0xFF) = 0 ∨ p.roleChange ≠ none → exec (.launchParse k w) s = .next s) ∧
    (p.roleChange = none → p.freeze = none → s.frontDie k ≠ none → s.winByte win 1 = 0 → slot ≠ 0 → s.winByte win (256 * slot + 0xFF) ≠ 0 →
      s.linesFree ([lineOf head, lineOf head + 1, lineOf win.pa] ++ s.vaLines k l.asid [l.compl.toNat]) = true →
      let taken := fun u : State => memRead u.mem (head + 0xFF) = 0 ∧ memRead u.mem (win.pa + 2) = BitVec.ofNat 8 (slot % 255 + 1) ∧
        u.readN (win.pa + 8) 8 = (s.readN (win.pa + 8) 8 + 1) % 2 ^ 64
      let elsewhere := fun (u : State) (more : Nat → Prop) => ∀ ad, ¬ (ad = head + 0xFF ∨ ad = win.pa + 2 ∨ (win.pa + 8 ≤ ad ∧ ad < win.pa + 16) ∨ more ad) →
        memRead u.mem ad = memRead s.mem ad
      (code = none → p.launches.length ≤ 65535 → mapWf p.launches = true →
        ∃ u n, exec (.launchParse k w) s = .next u ∧ taken u ∧ elsewhere u (fun _ => False) ∧ mapFind p.launches n = none ∧ (∀ j < n, (mapFind p.launches j).isSome = true) ∧
          u.part k = some { p with launches := mapPut p.launches n { l with order := s.nextId } } ∧ Instr.dependenceCheck k n ∈ u.agenda) ∧
      (∀ c, code = some c →
        (s.complOk k l = false → ∃ u, exec (.launchParse k w) s = .next u ∧ taken u ∧ u.readN (win.pa + 4) 4 = slot + c * 256 ∧ u.part k = some p ∧
          elsewhere u fun ad => win.pa + 4 ≤ ad ∧ ad < win.pa + 8) ∧
        (∀ pa, s.complOk k l = true → (s.parsed win slot).vaToPa k l.asid l.compl.toNat = some pa → (pa + 64 ≤ win.pa ∨ win.pa + 0x1_0000 ≤ pa) →
          ∃ u, exec (.launchParse k w) s = .next u ∧ taken u ∧ u.readN pa 4 = c ∧ u.readN (pa + 4) 2 = 0 ∧ u.part k = some p ∧
            elsewhere u fun ad => pa ≤ ad ∧ ad < pa + 64)))) ∧
  (∀ (s : State) (k n : Nat) (p : Part) (l : Launch), s.part k = some p → s.launch k n = some l → s.resumes k n = true →
    let st := fun d : Dword => s.vaN k l.asid d.toNat 4
    let failed := l.deppol = false ∧ ∃ d ∈ l.deps, st d ≠ 0 ∧ st d ≠ 1
    (l.st = .waiting → ¬ failed → (∃ d ∈ l.deps, st d = 0) → exec (.dependenceCheck k n) s = .next (s.emit (.dependenceCheck k n))) ∧
    (l.st = .waiting → ¬ failed → (∀ d ∈ l.deps, st d ≠ 0) → ∃ u, exec (.dependenceCheck k n) s = .next u ∧ u.launch k n = some { l with st := .ready } ∧
      Instr.dispatch k n ∈ u.agenda ∧ u.mem = s.mem ∧ ∀ j, j ≠ n → u.launch k j = s.launch k j) ∧
    (∀ pa, memSound s → mapWf p.launches = true → s.vaFree k l.asid [l.compl.toNat] = true → s.vaToPa k l.asid l.compl.toNat = some pa →
      (∀ win, s.window k l.win = some win → s.winByte win 1 = 0 ∧ (pa + 64 ≤ win.pa ∨ win.pa + 2 ≤ pa)) →
      let done := fun (u : State) (status : Nat) => u.readN pa 4 = status ∧ u.readN (pa + 4) 2 = n % 2 ^ 16 ∧ u.readN (pa + 8) 8 = l.nfault % 2 ^ 64 ∧
        u.readN (pa + 0x10) 8 = l.ffirst % 2 ^ 64 ∧ u.readN (pa + 0x18) 8 = l.tstart % 2 ^ 64 ∧ u.readN (pa + 0x20) 8 = s.reft % 2 ^ 64 ∧ u.readN (pa + 0x28) 24 = 0 ∧
        u.launch k n = none ∧ (∀ j, j ≠ n → u.launch k j = s.launch k j) ∧ ∀ ad, (ad < pa ∨ pa + 64 ≤ ad) → memRead u.mem ad = memRead s.mem ad
      (l.st = .waiting → failed → ∃ u, exec (.dependenceCheck k n) s = .next u ∧ done u 22) ∧
      (l.st = .placing → (∀ t ∈ l.teams, t.placed = l.ctxOf t) → s.launchBusy k n = false → s.handlesOf k n = [] → s.complHeld k n = false →
        ∃ u, exec (.launchCompletion k n) s = .next u ∧ done u (if l.nfault = 0 then 1 else 2)))) ∧
  (∀ (s : State) (k n : Nat) (p : Part) (l : Launch), s.part k = some p → s.launch k n = some l → l.st = .ready → s.resumes k n = true → p.roleChange = none →
    (s.allocTeams k l s.tick (s.bindLevels k l.levels 0 none 0) (s.unitsUsed k l.urgent) = none → exec (.dispatch k n) s = .next (s.emit (.dispatch k n))) ∧
    (∀ ts, s.allocTeams k l s.tick (s.bindLevels k l.levels 0 none 0) (s.unitsUsed k l.urgent) = some ts →
      s.vaFree k l.asid (ts.flatMap fun t => t.record :: t.blocks) = true →
      (∃ u, exec (.dispatch k n) s = .next u ∧ u.launch k n = some { l with st := .placing, teams := ts } ∧ Instr.place k n ∈ u.agenda) ∧
      (∀ t d e blk pa pb, ts = [t] → t.blocks = [blk] → l.levels = [d] → t.level = 0 → s.window k l.win = some e → memSound s → s.vaToPa k l.asid t.record = some pa →
        (s.hwWrite pa (teamRecord l d t 0 (e.pa + 256 * l.slot) (s.vaBytes k l.asid l.dtab.toNat 512))).vaToPa k l.asid blk = some pb → (pb + 8 ≤ pa ∨ pa + 1024 ≤ pb) →
        ∃ u, exec (.dispatch k n) s = .next u ∧ u.readN pa 8 = 0 ∧ u.readN (pa + 8) 4 = t.index % 2 ^ 32 ∧ u.readN (pa + 0xC) 2 = l.asid % 2 ^ 16 ∧ u.readN (pa + 0xE) 1 = 0 ∧
          u.readN (pa + 0xF) 1 = d.dom.toNat + d.scope.toNat * 16 ∧ u.readN (pa + 0x10) 4 = t.domid % 2 ^ 32 ∧ u.readN (pa + 0x14) 4 = d.ctx.toNat ∧ u.readN (pa + 0x18) 4 = d.ctx.toNat ∧
          u.readN (pa + 0x1C) 2 = d.tquota.toNat ∧ u.readN (pa + 0x20) 8 = (e.pa + 256 * l.slot) % 2 ^ 64 ∧
          (∀ i < 4, u.readN (pa + 0x40 + 16 * i) 4 = d.ctx.toNat ∧ u.readN (pa + 0x44 + 16 * i) 12 = 0) ∧
          memReadList u.mem (pa + 0x100) 512 = s.vaBytes k l.asid l.dtab.toNat 512 ∧ u.readN pb 8 = 0)))

/-- R143, R348, R351, R355: the dispatcher asks the pool for each member's line and, once it is granted, places the member in its cluster's CL2 as READY, with the context R143 gives it; the pool grants the entry at TAKE and clears it, or counts a wait; a pair goes back at PUT, the identifier after the entry is claimed. -/
def Obligations.PlacementAndPool : Prop :=
  (∀ (s : State) (k n i c : Nat) (p : Part) (l : Launch) (t : Team), s.part k = some p → s.nextMembers k = [(n, l, i, t, c)] →
    (s.placeAct k n l i c = none → s.hostHas (s.grantedLines k n l) = false → exec (.place k n) s = .next ({ s with tick := s.tick + 1 }.emitOnce (.place k n))) ∧
    (s.placeAct k n l i c = some .request → ∃ u, exec (.place k n) s = .next u ∧
      u.part k = some { p with poolWait := p.poolWait ++ [⟨n, i, none, 0, false, none, none, false⟩] } ∧ Instr.poolAllocate k ∈ u.agenda ∧ Instr.place k n ∈ u.agenda ∧ u.mem = s.mem) ∧
    (∀ j key r id d, s.placeAct k n l i c = some (.place j key) → p.poolWait[j]? = some r → r.id = some id → (t.blocks[t.roster / 127]?).isSome = true →
      l.levels[t.level]? = some d → (s.cl2Set c key).length < 8 →
      let x := s.memberCtx k n l t
      ∃ u, exec (.place k n) s = .next u ∧ (mapFind u.held key).map (fun h => (h.place, h.id, h.ctx)) = some (.cl2 c, id, x) ∧
        (mapFind u.live key).map (fun v => (v.id, v.part, v.launch)) = some (id, k, n) ∧ Instr.fill c ∈ u.agenda ∧ (u.part k).map (·.poolWait) = some (p.poolWait.eraseIdx j) ∧
        x.state = stReady ∧ x.why = 0 ∧ x.pc = l.entry + d.entoff.setWidth 64 ∧ x.pred = 0x000F_FF01 ∧ x.wait = 0 ∧ x.mode = l.cstat.toNat % 4 ∧ x.prio = l.prio.toNat ∧ x.launch = n % 2 ^ 16 ∧
        x.link = BitVec.ofNat 64 t.record ∧ (xget x.x 0).toNat = (t.placed % 2 ^ 32 + t.index % 2 ^ 32 * 2 ^ 32 + t.level * 2 ^ 64) % 2 ^ 96 ∧
        ∀ a : Fin 7, (xget x.x (BitVec.ofNat 3 (a + 1))).toNat = s.vaN k l.asid (l.args.toNat + 128 * t.level + 12 * a) 12)) ∧
  (∀ (s : State) (k : Nat) (p : Part) (r : PoolReq), s.part k = some p → p.poolWait = [r] → r.id = none → s.resumes k r.launch = true → memSound s →
    let asid := s.asidOf k r.launch
    let h := s.poolHdr k (s.isUrgent k r.launch)
    let take := s.vaN k asid (h + 0x10) 8
    let e := s.ringEntry k asid h take
    s.vaFree k asid [h, e] = true →
    (take = s.vaN k asid (h + 0x18) 8 → (r.counted = true → exec (.poolAllocate k) s = .next (s.emitOnce (.poolAllocate k))) ∧
      (r.counted = false → ∃ u, exec (.poolAllocate k) s = .next u ∧ u.part k = some { p with poolWait := [{ r with counted := true }] } ∧ Instr.poolAllocate k ∈ u.agenda ∧
        ∀ ph, s.vaToPa k asid (h + 0x20) = some ph → u.readN ph 8 = (s.vaN k asid (h + 0x20) 8 + 1) % 2 ^ 64 ∧
          ∀ ad, (ad < ph ∨ ph + 8 ≤ ad) → memRead u.mem ad = memRead s.mem ad)) ∧
    (take ≠ s.vaN k asid (h + 0x18) 8 → s.vaN k asid e 8 ≠ 0 →
      ∃ u, exec (.poolAllocate k) s = .next u ∧ u.part k = some { p with poolWait := [{ r with id := some (s.vaN k asid e 8) }] } ∧ r.event k ∈ u.agenda ∧
        ∀ pe pt, s.vaToPa k asid e = some pe → (s.hwRmwVa k asid e (leBytes 8 0)).vaToPa k asid (h + 0x10) = some pt → (pt + 8 ≤ pe ∨ pe + 8 ≤ pt) →
          u.readN pe 8 = 0 ∧ u.readN pt 8 = (take + 1) % 2 ^ 64 ∧ ∀ ad, (ad < pe ∨ pe + 8 ≤ ad) → (ad < pt ∨ pt + 8 ≤ ad) → memRead u.mem ad = memRead s.mem ad)) ∧
  (∀ (s : State) (k id : Nat) (p : Part) (r : PoolRet), s.part k = some p → p.returns = [r] → r.id = id → s.ops = [] → s.sends = [] → memSound s →
    let h := s.poolHdr k r.urgent
    let put := s.vaN k r.asid (h + 0x18) 8
    s.vaFree k r.asid [h] = true →
    (r.entry = none → ∃ u, exec (.poolReturn k id) s = .next u ∧ u.part k = some { p with returns := [{ r with entry := some (s.ringEntry k r.asid h put) }] } ∧
      Instr.poolReturn k id ∈ u.agenda ∧ ∀ pp, s.vaToPa k r.asid (h + 0x18) = some pp → u.readN pp 8 = (put + 1) % 2 ^ 64 ∧
        ∀ ad, (ad < pp ∨ pp + 8 ≤ ad) → memRead u.mem ad = memRead s.mem ad) ∧
    (∀ e pe, r.entry = some e → s.vaFree k r.asid [e] = true → s.vaToPa k r.asid e = some pe →
      ∃ u, exec (.poolReturn k id) s = .next u ∧ u.part k = some { p with returns := [] } ∧ u.readN pe 8 = id % 2 ^ 64 ∧
        ∀ ad, (ad < pe ∨ pe + 8 ≤ ad) → memRead u.mem ad = memRead s.mem ad))

/-- R362 to R364: DRAIN, ABORT and REOPEN take the command byte and set STATE; a window with no launch closes at once, one with launches makes them drain, or discards their contexts, those in slots once their eviction, which it asks for, has come; REOPEN starts the window afresh; a command in the wrong STATE only sets LASTERR. -/
def Obligations.WindowCommands : Prop :=
  ∀ (s : State) (k w : Nat) (p : Part) (win : Window), s.part k = some p → s.window k w = some win → s.takesCmd k win = true → memSound s →
    let cmd := s.winByte win 0
    let st := s.winByte win 1
    let bytes := fun (u : State) (c t : Byte) => memRead u.mem win.pa = c ∧ memRead u.mem (win.pa + 1) = t
    let outside := fun u : State => ∀ ad, (ad < win.pa ∨ win.pa + 2 ≤ ad) → memRead u.mem ad = memRead s.mem ad
    (cmd = 0 → exec (.drain k w) s = .next s ∧ exec (.abort k w) s = .next s ∧ exec (.reopen k w) s = .next s ∧ exec (.badCommand k w) s = .next s) ∧
    (cmd = 1 → st = 0 →
      (s.windowLaunches k w = [] → ∃ u, exec (.drain k w) s = .next u ∧ bytes u 0 3 ∧ outside u) ∧
      (s.windowLaunches k w ≠ [] → mapWf p.launches = true → (∀ e ∈ s.ius, e.2.spilled = 0 ∧ e.2.deque.length ≤ dequeChip) → ∃ u, exec (.drain k w) s = .next u ∧ bytes u 0 1 ∧ outside u ∧ u.held = s.held ∧
        ∀ n l, s.launch k n = some l → u.launch k n = some (if l.win = w then { l with st := .draining } else l) ∧
          (l.win = w → Instr.launchCompletion k n ∈ u.agenda))) ∧
    (cmd = 2 → (st = 0 ∨ st = 1) →
      (s.windowLaunches k w = [] → ∃ u, exec (.abort k w) s = .next u ∧ bytes u 0 3 ∧ outside u) ∧
      (mapWf p.launches = true → mapWf s.held = true → mapWf s.live = true → s.ces = [] → s.bdes = [] → s.rlcs = [] → s.tes = [] → s.claims = [] →
        (∀ e ∈ s.parts, e.2.roleChange = none) → (∀ e ∈ s.dir, e.2.host = false) →
        ∃ u, exec (.abort k w) s = .next u ∧ ∀ n l, s.launch k n = some l → l.win = w →
          (u.launch k n).map (·.st) = some .aborting ∧ Instr.launchCompletion k n ∈ u.agenda ∧
          ∀ key v, mapFind s.live key = some v → v.part = k → v.launch = n → s.isMoving key = false →
            ((∀ h, mapFind s.held key = some h → h.slot? = none) → mapFind u.live key = none ∧ mapFind u.held key = none) ∧
            ∀ h m, mapFind s.held key = some h → h.place = .slot m → s.isM (m / 2048) = false →
              mapFind u.live key = some v ∧ (mapFind u.held key).map (·.evictReq) = some true ∧ Requester.abort k n ∈ mapGet u.asks key [] ∧
              (h.evictReq = false → Instr.preemption key ∈ u.agenda))) ∧
    (cmd = 3 → st = 3 → ∃ u, exec (.reopen k w) s = .next u ∧ bytes u 0 0 ∧ memRead u.mem (win.pa + 2) = 1 ∧ u.readN (win.pa + 8) 8 = 0 ∧ Instr.launchParse k w ∈ u.agenda ∧
      (∀ i, 1 ≤ i → i < 256 → memRead u.mem (win.pa + 256 * i + 0xFF) = 0) ∧
      ∀ ad, ¬ (win.pa ≤ ad ∧ ad < win.pa + 3) → ¬ (win.pa + 8 ≤ ad ∧ ad < win.pa + 16) → (∀ i, 1 ≤ i → i < 256 → ad ≠ win.pa + 256 * i + 0xFF) →
        memRead u.mem ad = memRead s.mem ad) ∧
    ((cmd ≠ 0 ∧ ¬ (cmd = 1 ∧ st = 0) ∧ ¬ (cmd = 2 ∧ (st = 0 ∨ st = 1)) ∧ ¬ (cmd = 3 ∧ st = 3)) →
      ∃ u, exec (.badCommand k w) s = .next u ∧ memRead u.mem win.pa = 0 ∧ u.readN (win.pa + 4) 4 = 0xFF00 ∧ u.parts = s.parts ∧
        ∀ ad, ad ≠ win.pa → (ad < win.pa + 4 ∨ win.pa + 8 ≤ ad) → memRead u.mem ad = memRead s.mem ad)

/-! ### Squall and Thaw (16_traps_preemption.md) -/

/-- R378 to R381, R406: a Squall request that breaks a check is refused with its STATUS and changes nothing of the partition but the control block; an accepted one takes the partition through the six steps of R380, each once what it waits for has ended, and what each step leaves; a scrub zeroes all but the KEEP ranges. The order of the checks is the model's choice (log 20), so is what becomes of the tasks on a deque in a freeze (log 43). The status that answers the request itself is the model's choice (R390, log 44). -/
def Obligations.SquallSteps : Prop :=
  let block := fun (u s : State) (cb status step : Nat) => u.readN (cb + 0x80) 4 = status ∧ u.readN (cb + 0x84) 4 = step ∧ u.readN (cb + 0xB0) 16 = 0 ∧
    ∀ ad, (ad < cb + 0x80 ∨ cb + 0x100 ≤ ad) → memRead u.mem ad = memRead s.mem ad
  (∀ (s : State) (tag : BitVec 16) (k cb : Nat), exec (.squall ⟨.bmc, tag, k⟩ cb) s = .next { s with resps := s.resps ++ [⟨tag, 4, []⟩] } ∧
    (s.part k = none → exec (.squall ⟨.host, tag, k⟩ cb) s = .next { s with resps := s.resps ++ [⟨tag, 8, []⟩] })) ∧
  (∀ (s : State) (tag : BitVec 16) (k cb : Nat) (p : Part), s.part k = some p → memSound s →
    let hosted := mapRow cb = 4 ∧ mapRow (cb + 0xFF) = 4
    let late := ∃ rc, p.roleChange = some rc ∧ 4 ≤ rc.step
    let answered := fun u : State => u.resps = s.resps ++ [⟨tag, if hosted then 0 else 4, []⟩]
    (late → exec (.squall ⟨.host, tag, k⟩ cb) s = .next (s.emitFirst (.squall ⟨.host, tag, k⟩ cb))) ∧
    (¬ late → s.cbBad p cb 1 = true → ∃ u, exec (.squall ⟨.host, tag, k⟩ cb) s = .next u ∧ (if hosted then block u s cb 16 0 else u.mem = s.mem) ∧ u.part k = some p ∧
      u.held = s.held ∧ answered u) ∧
    (¬ late → s.cbBad p cb 1 = false → p.freeze ≠ none → ∃ u, exec (.squall ⟨.host, tag, k⟩ cb) s = .next u ∧ block u s cb 17 0 ∧ u.part k = some p ∧ u.held = s.held ∧ answered u) ∧
    (s.cbBad p cb 1 = false → p.freeze = none → p.roleChange = none → mapWf s.held = true →
      ∃ u, exec (.squall ⟨.host, tag, k⟩ cb) s = .next u ∧ answered u ∧
        ((block u s cb 18 0 ∧ u.part k = some p ∧ u.held = s.held) ∨
         (block u s cb 1 1 ∧ u.readN (cb + 0x88) 8 = s.reft % 2 ^ 64 ∧ Instr.settle ∈ u.agenda ∧
          (∃ f, u.part k = some { p with freeze := some f } ∧ f.thaw = false ∧ f.step = 1 ∧ f.frozen = false ∧ f.cb = cb ∧ f.base = s.cbN cb 8 8 ∧ f.keep = s.cbKeep cb ∧
            f.urgent = (s.cbN cb 4 4 % 2 = 1) ∧ f.scrub = (s.cbN cb 4 4 / 2 = 1) ∧ f.treq = s.reft ∧ (f.urgent = true → f.uwin = s.cbN cb 0x18 1)) ∧
          ∀ key h, mapFind s.held key = some h → (mapFind s.live key).map (·.part) = some k →
            (h.slot?.isSome = true → s.fwStays h = false → Requester.squall k ∈ mapGet u.asks key [] ∧ (h.evictReq = false → Instr.preemption key ∈ u.agenda)) ∧
            (h.slot?.isSome = false → (Requester.squall k, key, Ack.notslot) ∈ u.acks))))) ∧
  (∀ s : State, (s.atStep 1 = none → exec .settle s = .next s) ∧ (s.atStep 2 = none → exec .spillAll s = .next s) ∧ (s.atStep 3 = none → exec .flush s = .next s) ∧
    (s.atStep 4 = none → exec .copy s = .next s) ∧ (s.atStep 5 = none → exec .release s = .next s)) ∧
  (∀ (s : State) (k : Nat) (p : Part) (f : Freeze), s.part k = some p →
    let at_ := fun (u : State) (step : Nat) => u.part k = some { p with freeze := some { f with step } }
    (s.atStep 1 = some (k, p, f) →
      ((∃ e ∈ s.held, e.2.slot?.isSome = true ∧ s.fwStays e.2 = false ∧ s.partOf e.1 = k) → exec .settle s = .next (s.emit .settle)) ∧
      ((∀ e ∈ s.held, e.2.slot?.isSome = true → s.fwStays e.2 = false → s.partOf e.1 ≠ k) → ∃ u, exec .settle s = .next u ∧ at_ u 2 ∧
        (∀ iu, p.ownsIu iu = true → (u.iu iu).deque = [] ∧ (u.iu iu).spilled = 0 ∧ (u.iu iu).aside = (s.iu iu).deque ∧ (u.iu iu).asideN = (s.iu iu).spilled) ∧ Instr.spillAll ∈ u.agenda ∧ (s.tes = [] → u.mem = s.mem ∧ u.held = s.held) ∧
        (f.urgent = true → Instr.launchParse k f.uwin ∈ u.agenda))) ∧
    (s.atStep 2 = some (k, p, f) →
      ((s.inFlight k p = true ∨ ∃ e ∈ s.held, s.isMoving e.1 = true ∧ s.partOf e.1 = k) → exec .spillAll s = .next (s.emit .spillAll)) ∧
      (s.inFlight k p = false → (∀ e ∈ s.held, s.isMoving e.1 = true → s.partOf e.1 ≠ k) → mapWf s.held = true →
        ∃ u, exec .spillAll s = .next u ∧ (u.part k).map (·.freeze) = some (some { f with step := 3 }) ∧ Instr.flush ∈ u.agenda ∧
          (∀ e ∈ s.held, s.partOf e.1 = k → s.goesOn k e.2.ctx.launch = false → s.fwStays e.2 = false → mapFind u.held e.1 = none) ∧
          (∀ e ∈ s.held, (s.partOf e.1 ≠ k ∨ s.goesOn k e.2.ctx.launch = true ∨ s.fwStays e.2 = true) → mapFind u.held e.1 = some e.2) ∧
          (∀ key h, s.held = [(key, h)] → s.ius = [] → memSound s → s.partOf key = k → s.goesOn k h.ctx.launch = false → s.fwStays h = false →
            ctxOfBytes (memReadList u.mem key 128) = h.ctx ∧ ∀ ad, (ad < key ∨ key + 128 ≤ ad) → memRead u.mem ad = memRead s.mem ad))) ∧
    (s.atStep 3 = some (k, p, f) → mapWf s.l2 = true → ∃ u, exec .flush s = .next u ∧ at_ u 4 ∧ Instr.copy ∈ u.agenda ∧ u.mem = s.mem ∧
      (∀ line die, die < 32 → die / 4 ∈ p.towers → u.l2Reads line die = false) ∧ (∀ e ∈ u.flc, e.1 / 2 ^ 32 ∉ p.towers) ∧ ∀ c ∈ u.l1, p.ownsIu c.iu = false) ∧
    (s.atStep 4 = some (k, p, f) → memSound s → ∃ u img, exec .copy s = .next u ∧ (u.part k).map (·.freeze) = some (some { f with step := 5, tfreeze := s.reft }) ∧
      Instr.release ∈ u.agenda ∧ mapFind u.images f.num = some img ∧ memReadList u.mem f.base img.bytes.length = img.bytes ∧
      (∀ ad, (ad < f.base ∨ f.base + img.bytes.length ≤ ad) → memRead u.mem ad = memRead s.mem ad) ∧
      img.digest = BitVec.ofNat 512 (leToNat (sha512 img.bytes)) ∧ img.towers = p.towers ∧ img.roles = p.roles ∧ img.tfreeze = s.reft ∧ (∀ ad, memRead img.mem ad = if p.imaged f.keep ad then memRead s.mem ad else 0) ∧
      (∀ d < 24, p.ownsDie d = true → mapFind img.cycs d = some (s.cyc d)) ∧ img.part.launches = p.launches.filter (fun e => !e.2.urgent)) ∧
    (s.atStep 5 = some (k, p, f) → memSound s → ∃ u, exec .release s = .next u ∧ block u s f.cb 2 6 ∧ u.readN (f.cb + 0x88) 8 = f.treq % 2 ^ 64 ∧
      (∀ img, mapFind s.images f.num = some img → u.readN (f.cb + 0x98) 8 = img.bytes.length % 2 ^ 64 ∧ u.readN (f.cb + 0xC0) 64 = img.digest.toNat) ∧
      u.readN (f.cb + 0x90) 8 = s.reft % 2 ^ 64 ∧ u.part k = some { p with freeze := some { f with step := 6, frozen := true } } ∧
      (f.scrub = true → Instr.scrubComplete ∈ u.agenda))) ∧
  (∀ s : State, (∀ e ∈ s.parts, ∀ f, e.2.freeze = some f → ¬ (f.frozen = true ∧ f.scrub = true)) → exec .scrubComplete s = .next s) ∧
  (∀ (s : State) (k : Nat) (p : Part) (f : Freeze), s.parts = [(k, p)] → p.freeze = some f → f.frozen = true → f.scrub = true →
    ∃ u, exec .scrubComplete s = .next u ∧ (∀ iu, p.ownsIu iu = true → (u.iu iu).aside = [] ∧ (u.iu iu).asideN = 0) ∧
      u.part k = some { p with cl1lim := 0, rsvslot := 0, lease := 0, chkstall := 0, scopemissen := 0, ctxpool := 0, trapvec := 0, freqReq := 0, wdog := 0,
                               freeze := some { f with scrub := false } } ∧ Instr.launchParse k f.uwin ∈ u.agenda ∧
      (∀ ad, memRead u.mem ad = if p.owns ad = true ∧ ∀ r ∈ f.keep, ¬ (r.1 ≤ ad ∧ ad < r.1 + r.2) then 0 else memRead s.mem ad) ∧
      (∀ e ∈ u.gregs, p.ownsIu (e.1 / 8) = false) ∧ ∀ e ∈ u.handles, p.ownsQuad (e.1 / 1024) = false)

/-- R379, R384, R385: a Thaw request that breaks a check is refused and changes nothing of the partition; an accepted one puts every byte of the image back, zero elsewhere in the partition's memory, and its contexts and launches with it; THAWED then writes TFREEZE and TJUMP, and the partition goes on, CYC from its frozen value. The order of the checks, and that the latest image whose bytes stand in the buffer is taken, are the model's choice (log 20, log 43). The status that answers the request itself is the model's choice (R390, log 44). -/
def Obligations.ThawResults : Prop :=
  let block := fun (u : State) (cb status : Nat) => u.readN (cb + 0x80) 4 = status ∧ u.readN (cb + 0x84) 4 = 0
  let kept := fun (u s : State) (cb : Nat) (out : Nat → Prop) => ∀ ad, (ad < cb + 0x80 ∨ cb + 0x100 ≤ ad) → out ad → memRead u.mem ad = memRead s.mem ad
  (∀ (s : State) (tag : BitVec 16) (k cb : Nat), exec (.thaw ⟨.bmc, tag, k⟩ cb) s = .next { s with resps := s.resps ++ [⟨tag, 4, []⟩] } ∧
    (s.part k = none → exec (.thaw ⟨.host, tag, k⟩ cb) s = .next { s with resps := s.resps ++ [⟨tag, 8, []⟩] }) ∧
    ∀ p, s.part k = some p → p.roleChange ≠ none → exec (.thaw ⟨.host, tag, k⟩ cb) s = .next (s.emitFirst (.thaw ⟨.host, tag, k⟩ cb))) ∧
  (∀ (s : State) (tag : BitVec 16) (k cb : Nat) (p : Part), s.part k = some p → p.roleChange = none → memSound s →
    let refused := fun status : Nat => ∃ u, exec (.thaw ⟨.host, tag, k⟩ cb) s = .next u ∧ block u cb status ∧ kept u s cb (fun _ => True) ∧ u.parts = s.parts ∧ u.held = s.held ∧
      u.resps = s.resps ++ [⟨tag, 0, []⟩]
    let stuck := ∃ f, p.freeze = some f ∧ (f.frozen = false ∨ f.thaw = true ∨ f.scrub = true)
    let img := s.imageAt (s.cbN cb 8 8)
    (s.cbBad p cb 2 = true → mapRow cb = 4 → mapRow (cb + 0xFF) = 4 → refused 16) ∧
    (s.cbBad p cb 2 = true → ¬ (mapRow cb = 4 ∧ mapRow (cb + 0xFF) = 4) → ∃ u, exec (.thaw ⟨.host, tag, k⟩ cb) s = .next u ∧ u.mem = s.mem ∧ u.parts = s.parts ∧ u.held = s.held ∧
      u.resps = s.resps ++ [⟨tag, 4, []⟩]) ∧
    (s.cbBad p cb 2 = false → stuck → refused 17) ∧
    (s.cbBad p cb 2 = false → ¬ stuck → img = none → refused 20) ∧
    (s.cbBad p cb 2 = false → ¬ stuck → ∀ n i, img = some (n, i) →
      (s.cbN cb 0x10 8 < i.bytes.length → refused 18) ∧
      (i.bytes.length ≤ s.cbN cb 0x10 8 → (p.towers ≠ i.towers ∨ p.roles ≠ i.roles) → refused 19) ∧
      (i.bytes.length ≤ s.cbN cb 0x10 8 → p.towers = i.towers → p.roles = i.roles → (∃ e ∈ p.launches, e.2.urgent = true ∨ p.freeze = none) → refused 21) ∧
      (i.bytes.length ≤ s.cbN cb 0x10 8 → p.towers = i.towers → p.roles = i.roles → (∀ e ∈ p.launches, e.2.urgent = false ∧ p.freeze ≠ none) → memWf i.mem = true → (∀ c ∈ i.mem, p.owns c.1 = true) →
        ∃ u f, exec (.thaw ⟨.host, tag, k⟩ cb) s = .next u ∧ u.resps = s.resps ++ [⟨tag, 0, []⟩] ∧ block u cb 1 ∧ kept u s cb (fun ad => p.owns ad = false) ∧ (∀ ad, p.owns ad = true → memRead u.mem ad = memRead i.mem ad) ∧
          (u.part k).map (fun q => (q.launches, q.freeze, q.roleChange, q.ctxpool, q.trapvec)) = some (i.part.launches, some f, none, i.part.ctxpool, i.part.trapvec) ∧
          f.thaw = true ∧ f.cb = cb ∧ f.num = n ∧ f.tfreeze = i.tfreeze ∧ f.treq = s.reft ∧ Instr.thawed ∈ u.agenda ∧
          (∀ line, p.owns (line * 128) = true → u.stamp line = stampNone) ∧ ∀ line die, die < 32 → p.ownsDie die = true → u.l2Reads line die = false))) ∧
  (∀ s : State, (∀ e ∈ s.parts, ∀ f, e.2.freeze = some f → f.thaw = false) → exec .thawed s = .next s) ∧
  (∀ (s : State) (k : Nat) (p : Part) (f : Freeze), s.parts = [(k, p)] → p.freeze = some f → f.thaw = true → memSound s →
    (∀ e ∈ s.ius, e.2.spilled = 0 ∧ e.2.deque.length ≤ dequeChip) →
    ∃ u, exec .thawed s = .next u ∧ block u f.cb 3 ∧ kept u s f.cb (fun _ => True) ∧ u.readN (f.cb + 0xA0) 8 = f.tfreeze % 2 ^ 64 ∧
      u.readN (f.cb + 0xA8) 8 = (s.reft - f.tfreeze) % 2 ^ 64 ∧ u.part k = some { p with freeze := none } ∧
      ∀ key t, mapFind s.timers key = some t → s.partOf key = k → Instr.timerWake key ∈ u.agenda)

/-! ### Clocks, links and resets (17_host_firmware_platform.md) -/

/-- R16, R391 to R396: a power sample of a die of a partition records the temperature, and on a die in C role starts at most one step between neighbouring settings, never below the lowest; during a relock no cycle passes, at its end the setting holds and CYC goes on; at 115 degrees of any die the module shuts down, every memory side going down; a stack at 95 degrees is throttled. What the dies draw is free (log 22). -/
def Obligations.ClocksAndTemperature : Prop :=
  (∀ (s : State) (d : Nat),
    let has := s.isC d = true ∨ s.isM d = true
    (¬ has → exec (.powerSample d) s = .next s) ∧
    (has → s.sampleNow ≤ (s.die d).sampled → exec (.powerSample d) s = .next (s.emitOnce (.powerSample d))) ∧
    (has → (s.die d).sampled < s.sampleNow → ∃ u temp, exec (.powerSample d) s = .next u ∧ (u.die d).sampled = (s.die d).sampled + 1 ∧ (u.die d).temp = temp ∧
      (u.die d).cur = (s.die d).cur ∧ Instr.powerSample d ∈ u.agenda ∧ (115 ≤ temp → Instr.thermalShutdown d ∈ u.agenda) ∧ u.mem = s.mem ∧ u.held = s.held ∧
      (∀ o, o ≠ d → u.die o = s.die o) ∧ u.cyc d = s.cyc d ∧
      ((s.isC d = false ∨ (s.die d).relock ≠ none ∨ (s.die d).cur ≠ (s.die d).target) → (u.die d).relock = (s.die d).relock ∧ (u.die d).target = (s.die d).target) ∧
      ((s.die d).relock = none → (u.die d).relock = none ∨ ∃ v, (u.die d).relock = some v ∧ Instr.relockEnd d ∈ u.agenda ∧
        (v = s.stepToward d (s.die d).cur 0 ∨ v = s.stepToward d (s.die d).cur (s.wantFreq d)) ∧
        (105 ≤ temp → v = s.stepToward d (s.die d).cur 0)))) ∧
  (∀ (s : State) (d v w : Nat), v ∈ s.settings d → w ∈ s.settings d → s.stepToward d v w ∈ s.settings d ∧
      (v = w → s.stepToward d v w = v) ∧ (v < w → v < s.stepToward d v w ∧ s.stepToward d v w ≤ w ∧ ∀ x ∈ s.settings d, v < x → s.stepToward d v w ≤ x) ∧
      (w < v → s.stepToward d v w < v ∧ w ≤ s.stepToward d v w ∧ ∀ x ∈ s.settings d, x < v → x ≤ s.stepToward d v w)) ∧
  (∀ (s : State) (d : Nat),
    ((s.die d).relock = none → exec (.relockEnd d) s = .next s) ∧
    (∀ c, (s.die d).relock = some c →
      (s.now < (s.die d).stepAt → exec (.relockEnd d) s = .next (s.emit (.relockEnd d))) ∧
      ((s.die d).stepAt ≤ s.now → ∃ u, exec (.relockEnd d) s = .next u ∧ (u.die d).cur = c ∧ (u.die d).relock = none ∧ u.cyc d = s.cyc d ∧
        (u.die d).stepAt = s.now + 500 * Config.ticksPerNs ∧ (c ≠ (s.die d).target → Instr.consecutiveClockStep d ∈ u.agenda) ∧ u.mem = s.mem ∧ u.held = s.held ∧
        ∀ o, o ≠ d → u.die o = s.die o)) ∧
    ((s.die d).relock ≠ none ∨ (s.die d).cur = (s.die d).target → exec (.consecutiveClockStep d) s = .next s) ∧
    ((s.die d).relock = none → (s.die d).cur ≠ (s.die d).target →
      (s.now < (s.die d).stepAt → exec (.consecutiveClockStep d) s = .next (s.emit (.consecutiveClockStep d))) ∧
      ((s.die d).stepAt ≤ s.now → ∃ u, exec (.consecutiveClockStep d) s = .next u ∧ (u.die d).relock = some (s.stepToward d (s.die d).cur (s.die d).target) ∧
        (u.die d).cur = (s.die d).cur ∧ (u.die d).target = (s.die d).target ∧ (u.die d).stepAt = s.now + 1500 * Config.ticksPerNs ∧ u.cyc d = s.cyc d ∧
        Instr.relockEnd d ∈ u.agenda ∧ u.mem = s.mem ∧ u.held = s.held)) ∧
    (∃ u, exec (.thermalShutdown d) s = .next u ∧ (∀ o < 24, (u.die o).down = true) ∧ u.mem = s.mem ∧ u.parts = s.parts)) ∧
  (∀ (s : State) (n temp : Nat), ∃ u, exec (.hbmThrottle n temp) s = .next u ∧ (u.bde n).throt = decide (95 ≤ temp) ∧ (u.bde n).temp = temp ∧
    (u.bde n).queue = (s.bde n).queue ∧ (∀ m, m ≠ n → u.bde m = s.bde m) ∧ u.mem = s.mem)

/-- R386 to R389, R397, R399, R401, R402: a port that trains to x16 or x8 carries CXL.mem, a narrower one does not; a port that goes down leaves what is in flight over it to its time limit; a watchdog that runs out discards the firmware contexts, answers BUSY and puts an entry of the window table whose update was in progress back from its shadow (R402); a cold reset leaves no partition and the firewalls locked, beyond the module's memory; a warm reset takes an accepted image into use once its signatures have verified again. What the boot ROM writes to the firewalls is free (log 21), that memory beyond the module stays, that the rest of it reads 0 and that SEQ words restart even are the model's choice (log 45, log 4, log 50). -/
def Obligations.LinksAndResets : Prop :=
  (∀ (s : State) (port width : Nat),
    (∃ u, exec (.linkTraining port width) s = .next u ∧ (u.port port).up = decide (8 ≤ width) ∧ (u.port port).width = min 16 width ∧
      (∀ n, n ≠ port → u.port n = s.port n) ∧ u.mem = s.mem ∧ u.held = s.held) ∧
    (∃ u, exec (.portDown port) s = .next u ∧ (u.port port).up = false ∧ (∀ n, n ≠ port → u.port n = s.port n) ∧ u.mem = s.mem ∧ u.ops = s.ops ∧ u.stores = s.stores ∧
      (let awaits := fun k : Nat => (mapFind s.sent k = none → mapFind u.sent k = some s.now ∧ Instr.peerTimeout k ∈ u.agenda) ∧ ((mapFind s.sent k).isSome = true → mapFind u.sent k = mapFind s.sent k)
       (∀ k o g, mapFind s.ops k = some o → g ∈ o.kind.segs → s.peerPort (s.partOf o.key) g.1 = some port → awaits k) ∧
       ∀ k v c, mapFind s.stores k = some v → c ∈ v.bytes → s.peerPort v.part c.1 = some port → awaits k))) ∧
  (∀ (s : State) (k : Nat), (s.part k = none → exec (.watchdogExpiry k) s = .next s) ∧
    ∀ p, s.part k = some p →
      (p.wdog.getLsbD 32 = false → exec (.watchdogExpiry k) s = .next s) ∧
      (p.wdog.getLsbD 32 = true → s.now < p.wdogAt + p.wdog.toNat % 2 ^ 32 * 1000 * Config.ticksPerNs → exec (.watchdogExpiry k) s = .next (s.emitOnce (.watchdogExpiry k))) ∧
      (p.wdog.getLsbD 32 = true → p.wdogAt + p.wdog.toNat % 2 ^ 32 * 1000 * Config.ticksPerNs ≤ s.now → mapWf s.live = true → mapWf s.held = true →
        ∃ u, exec (.watchdogExpiry k) s = .next u ∧ u.fware.patch = none ∧ u.fware.version = s.fware.version ∧
          (∀ j, (u.wentry j).odd = false ∧ (u.wentry j).block = if (s.wentry j).odd then (s.wentry j).shadow else (s.wentry j).block) ∧
          (∀ key v, mapFind s.live key = some v → (s.ctxAt key).mode = 2 → s.held = [] → s.live = [(key, v)] → mapFind u.live key = none) ∧
          (∀ tag img, s.fware.patch = some (tag, img) → u.fware.stopped = [] ∧ (⟨tag, 1, []⟩ : Resp) ∈ u.resps) ∧
          (∀ o tag j, Instr.destroy o tag j ∈ s.agenda → s.live = [] → (⟨tag, 1, []⟩ : Resp) ∈ u.resps ∧ Instr.destroy o tag j ∉ u.agenda) ∧
          (∀ i o tag j cb, i = Instr.squall ⟨o, tag, j⟩ cb ∨ i = Instr.thaw ⟨o, tag, j⟩ cb ∨ (∃ maps, i = Instr.roles o tag j maps) → i ∈ s.agenda → s.live = [] →
            (⟨tag, 1, []⟩ : Resp) ∈ u.resps ∧ i ∉ u.agenda) ∧
          (∀ o r, Instr.create o r ∈ s.agenda → (∃ e ∈ s.wtab, e.2.odd = true ∧ e.2.tag = r.tag) → s.live = [] →
            (⟨r.tag, 1, []⟩ : Resp) ∈ u.resps ∧ Instr.create o r ∉ u.agenda) ∧
          (∀ rc, s.parts = [(k, p)] → s.live = [] → p.roleChange = some rc → (⟨rc.tag, 1, []⟩ : Resp) ∈ u.resps ∧ u.part k = some { p with roleChange := none }))) ∧
  (∀ s : State, ∃ u, exec .coldReset s = .next u ∧ u.parts = [] ∧ u.held = [] ∧ u.live = [] ∧ u.poison = [] ∧ u.handles = [] ∧ u.dies = [] ∧ u.now = 0 ∧
    u.fware.version = s.fware.version ∧ u.fware.patches = [] ∧ u.fware.table = [] ∧ (∀ d < 24, (u.fw d).lock = true ∧ (u.fw d).plim.toNat < 2 ^ 32 ∧ (u.fw d).fwmem.toNat < 2 ^ 7) ∧
    ∀ ad, memRead u.mem ad = if 0x8_0000_0000_0000 ≤ ad then memRead s.mem ad else 0) ∧
  (∀ s : State, (s.fware.pending = none → exec .warmReset s = .next s) ∧
    (∀ img, s.fware.pending = some img → Config.signatureOk img = false → exec .warmReset s = .next { s with fware := { s.fware with pending := none } }) ∧
    (∀ img, s.fware.pending = some img → Config.signatureOk img = true →
      exec .warmReset s = .next { s with fware := { s.fware with version := Config.fwVersion img, patches := [], pending := none, table := [], patch := none, stopped := [] } }))

/-! ### Encodings, steps and invariants (09_encoding_and_assembly.md, 95_what_each_step_holds.md) -/

/-- R185 to R204: the words that the encoding chapter and the examples give for some instructions are read as those instructions. -/
def Obligations.WordsDecode : Prop :=
  let g : Hdr := ⟨0, false, 0⟩
  decodeWords 0x00A80000 0 = .ok (.nop g) ∧ decodeWords 0x0041_0040 0 = .ok (.movi g 1 0x40) ∧ decodeWords 0x000B_6004 0 = .ok (.addi g .d 3 3 4) ∧
  decodeWords 0x2002_3402 0 = .ok (.mul ⟨1, false, 0⟩ .d false 2 1 5) ∧ decodeWords 0x007B_8C10 0 = .ok (.cmpi g .ge 3 4 16) ∧ decodeWords 0x00A0_4010 0 = .ok (.repf g 2 0 1 0) ∧
  decodeWords 0x40CD_4D04 0 = .ok (.fma ⟨2, false, 0⟩ .f32 5 2 3 4) ∧ decodeWords 0x00DE_A144 0 = .ok (.fcvt g .e4m3 .fp32 6 5) ∧ decodeWords 0x0101_40E4 0 = .ok (.ld g .w3 3 1 2 4) ∧
  decodeWords 0x0158_001E 0 = .ok (.fence g .full 6) ∧ decodeWords 0x0161_C534 0 = .ok (.send g 6 1 2 6 4 1) ∧ decodeWords 0x016F_C030 0 = .ok (.recv g 6 7 0x30) ∧
  decodeWords 0x0170_2800 0 = .ok (.spawn g 1 2) ∧ decodeWords 0x0180_4000 0x0100_0000 = .ok (.talloc g (.imm 4) 2) ∧
  decodeWords 0x01C1_4C00 0x545B_1800 = .ok (.cpy g 1 2 3 ⟨5, 4, 2, 6, true, 4, 6⟩) ∧ decodeWords 0x01E4_0008 0 = .ok (.rds g .reft 4) ∧ decodeWords 0x01E0_2203 0 = .ok (.wrs g .lease 1) ∧
  decodeWords 0x01E8_0100 0 = .ok (.tret g) ∧ decodeWords 0x01F1_4C00 0 = .ok (.tlbiVa g 1 2 3) ∧ decodeWords 0x01F1_6290 0 = .ok (.pinl g 2 1 3)

/-- R185 to R204: decode and encode agree. Every well-formed instruction has words from which the decoder reads it back, alone and with bytes behind it, and every pair of words that the decoder accepts is the encoding of one well-formed instruction. -/
def Obligations.DecodeReadsEncodingsBack : Prop :=
  (∀ i : Instr, wellFormed i = true → ∃ w v, encode i = some (w, v) ∧ w < 2 ^ 32 ∧ v.getD 0 < 2 ^ 32 ∧ decodeWords w (v.getD 0) = .ok i ∧ wordCount w = (if v.isSome then 2 else 1)) ∧
  (∀ (i : Instr) (bs rest : List Byte), wellFormed i = true → encodeBytes i = some bs → decode (bs ++ rest) = .ok (i, rest)) ∧
  (∀ (i : Instr) (w v : Nat), w < 2 ^ 32 → v < 2 ^ 32 → decodeWords w v = .ok i → wellFormed i = true ∧ encode i = some (w, if wordCount w = 2 then some v else none))

/-- R7, R80, R106, R145, R146, R185, R186: a delivery that waited for a line which has arrived comes first; with nothing else under way a fetch that is due brings its line nearer (R61, R71), else the context that issues next issues the instruction that the words at its PC decode to: REFT passes to the cycle of its issue, its IU notes the slot, and the step is that instruction's meaning; where the meaning leaves the context as it was, since a home cannot accept its access yet, it is passed over and its IU's cycle is not taken; the words are those of memory at the PC's translation. With happenings under way a step is one of those on the list, taken from it, the first on its path, a timed one at its moment, or such an issue. That a step is one whole happening, and which one comes about, are the model's choice (log 1), so is how far time passes (log 2). -/
def Obligations.StepRunsTheDecodedInstruction : Prop :=
  let came := fun (i : Instr) (s t : State) => ∃ u, exec i t = .next u ∧ step s = .next (if drains i then { u with now := t.now } else u)
  (∀ (s : State) (i : Instr) (r : List Instr), s.soon = i :: r → came i s { s with soon := r }) ∧
  (∀ s u : State, s.soon = [] → s.agenda = [] → s.fetchDue = some u → step s = .next u) ∧
  (∀ (s : State) (c : Cand) (cs : List Cand) (i : Instr) (w : Nat), s.soon = [] → s.agenda = [] → s.fetchDue = none → s.order = c :: cs → c.next = .instr i w →
    let v := { (s.at (s.candTime c)).modIu (c.slot / 16) (fun u => { u with last := c.slot % 16, free := c.at_ + 1 }) with cur := c.key }
    ∀ u, exec i v = .next u → mapFind u.held c.key ≠ mapFind s.held c.key → step s = .next { u with now := v.now }) ∧
  (∀ (s : State) (key n w0 w1 : Nat) (h : Held) (i : Instr), s.soon = [] → s.agenda = [] → s.held = [(key, h)] → h.place = .slot n → h.ctx.state = stReady → h.evictReq = false → h.replay = none →
    s.trapDue key = false → (s.die (n / 2048)).relock = none →
    let cycle := max (max h.next (s.iu (n / 16)).free) (s.cyc (n / 2048))
    let v := s.at (s.cycleAt (n / 2048) cycle)
    v.fetchWord key h n h.ctx.pc.toNat = .word w0 → (if wordCount w0 = 2 then v.fetchWord key h n (h.ctx.pc.toNat + 4) = .word w1 else w1 = 0) →
    decodeWords w0 w1 = .ok i → (∀ g a b c len, i = .repf g a b c len → guardHolds g h.ctx = true → v.captureLack key h n (len.toNat + 1) (h.ctx.pc.toNat + 4) = none) → v.blocked key n h i = false →
    ∃ u, exec i { v.modIu (n / 16) (fun u => { u with last := n % 16, free := cycle + 1 }) with cur := key } = .next u ∧
      let r := { u with now := s.now, ius := s.ius, cur := s.cur, tick := s.tick }
      step s = .next (if mapFind u.held key ≠ some h then { u with now := v.now } else if r ≠ s then r else s.at (s.now + Config.ticksPerNs))) ∧
  (∀ (s : State) (key n va t : Nat) (h : Held) (l : Leaf), h.ctx.inTrap = true → h.ctx.mode = 1 → canonical va = true →
    s.tcHit (n / 128) (s.partOf key) (s.asidOf (s.partOf key) h.ctx.launch) va = some l → l.x = true → s.paOk (s.partOf key) (l.pa va) = true → s.region (l.pa va) = .hbm t →
    s.offline (l.pa va) = false → s.isPoison (lineOf (l.pa va)) = false → s.l1Hit (n / 16) (lineOf (l.pa va)) true = true → mapFind s.held (l.pa va / 128 * 128) = none → s.fetchWord key h n va = .word (s.readN (l.pa va) 4)) ∧
  (∀ s : State, s.soon = [] → s.agenda ≠ [] →
    (∃ i t l r, s.agenda = l ++ i :: r ∧ t.agenda = l ++ r ∧ (s.msgPath i = none ∨ ∀ j ∈ l, s.msgPath j ≠ s.msgPath i) ∧ came i s t ∧ t.mem = s.mem ∧ t.held = s.held ∧ s.now ≤ t.now ∧
      ∀ d, s.dueAt i = some d → t.now = max s.now d) ∨
    step s = ({ s with tick := s.tick + 1 } : State).turn)

/-- R24, R231, log 4: under every step memory keeps its one canonical form, and a replay in progress holds only instructions that a block may hold, from every state of which that is true. -/
def Obligations.EveryStepKeepsTheInvariants : Prop :=
  (∀ s t : State, memSound s → step s = .next t → memSound t) ∧ ∀ s t : State, replaysSound s → step s = .next t → replaysSound t

/-- R385: REFT never runs backward: no step but a cold reset moves it to an earlier moment. Every step ends in a next state: a trap is one (R370), and nothing ends in a fault or a refusal. What a step is, is the model's choice (log 1, log 2). -/
def Obligations.StepsGoForward : Prop :=
  (∀ s t : State, replaysSound s → step s = .next t → Instr.coldReset ∈ s.agenda ∨ Instr.coldReset ∈ s.soon ∨ s.now ≤ t.now) ∧ (∀ s : State, stepsOn s) ∧ ∀ (i : Instr) (s : State), ∃ t, exec i s = .next t

/-- R335, R397: the module at reset: no partition, no context, nothing under way, no byte of memory listed, no poison; every clock at 1.8 GHz with no cycle done (R16, R335), REFT at 0 (the model's choice, log 7). That memory reads 0 and that the ports are up are the model's choice too (log 4, log 8). -/
def Obligations.ResetState : Prop :=
  memSound State.reset ∧ replaysSound State.reset ∧ (∀ k, State.reset.part k = none) ∧ (∀ key, mapFind State.reset.held key = none ∧ mapFind State.reset.live key = none) ∧ State.reset.agenda = [] ∧ State.reset.soon = [] ∧
  (∀ ad, memRead State.reset.mem ad = 0) ∧ (∀ l, State.reset.isPoison l = false ∧ State.reset.stamp l = stampNone ∧ (State.reset.dirE l).st = .unc) ∧
  (∀ d, (State.reset.die d).cur = 36 ∧ State.reset.cyc d = 0 ∧ (State.reset.die d).down = false) ∧ State.reset.reft = 0 ∧ (∀ q h, (State.reset.handle q h).alloc = false) ∧
  ∀ p, (State.reset.port p).up = true
end

