-- ==== Sys2Proof/Laws/Issue.lean ====
section
/-! SUPPORT. The issue attempt, once for every instruction: what `State.run` answers where the instruction issues and where it does not. -/

-- One proof after another, not side by side: threads that wait for the kernel each hold a stack.
set_option Elab.async false

namespace Sys2Proof.Machine

theorem undersized_nil (h : Held) (t : Nat) (l : List Reg) (hl : ∀ r ∈ l, h.rdy[r.toNat]'r.isLt ≤ t) : undersized h t l = [] := by
  simp only [undersized, List.filter_eq_nil_iff, decide_eq_true_eq]
  intro r hr; have := hl r hr; omega

theorem any_pend_false (h : Held) (l : List Reg) (hl : ∀ r ∈ l, h.ctx.pend r.toNat = false) : (l.any fun r => h.ctx.pend r.toNat) = false := by
  simpa using hl

/-- An instruction whose context is ready for it issues with what `issOf` says. -/
theorem attempt_issuing {s : State} {i : Instr} {sh : Shape} {n : Nat} {h : Held} (hi : s.issuing sh.hd sh.reads sh.writes n h)
    (hr : sh.rounds = true → h.ctx.rm < 5) (hm : sh.sup = true → h.ctx.mode ≠ 0) :
    s.attempt i sh = .issue (s.issOf i sh.words n h) s := by
  obtain ⟨⟨h0, hf, hp, hst, rfl⟩, hg, hpend, hread⟩ := hi
  have e1 : (sh.rounds && decide ((h0.landed (s.cycOf n)).ctx.rm ≥ 5)) = false := by
    cases hb : sh.rounds
    · rfl
    · have := hr hb
      rw [Bool.true_and, decide_eq_false_iff_not]; omega
  have e2 : (sh.sup && decide ((h0.landed (s.cycOf n)).ctx.mode = 0)) = false := by
    cases hb : sh.sup
    · rfl
    · simp [hm hb]
  unfold State.cycOf at *
  simp only [State.attempt, hf, hp, hst, bne_self_eq_false, Bool.false_eq_true, if_false, hg, Bool.not_true, e1, e2,
    any_pend_false _ _ hpend, undersized_nil _ _ _ hread]
  rfl

/-- So its meaning answers a next state: that of its effect. -/
theorem run_issuing {s : State} {i : Instr} {sh : Shape} {n : Nat} {h : Held} (act : Iss → State → State)
    (hi : s.issuing sh.hd sh.reads sh.writes n h) (hr : sh.rounds = true → h.ctx.rm < 5) (hm : sh.sup = true → h.ctx.mode ≠ 0) :
    s.run i sh act = .next (act (s.issOf i sh.words n h) s) := by
  rw [State.run, attempt_issuing hi hr hm]

@[simp] theorem issOf_key (s : State) (i : Instr) (w n : Nat) (h : Held) : (s.issOf i w n h).key = s.cur := rfl
@[simp] theorem issOf_h (s : State) (i : Instr) (w n : Nat) (h : Held) : (s.issOf i w n h).h = h := rfl
@[simp] theorem issOf_slot (s : State) (i : Instr) (w n : Nat) (h : Held) : (s.issOf i w n h).slot = n := rfl
@[simp] theorem issOf_t (s : State) (i : Instr) (w n : Nat) (h : Held) : (s.issOf i w n h).t = s.cycOf n := rfl
@[simp] theorem issOf_words (s : State) (i : Instr) (w n : Nat) (h : Held) : (s.issOf i w n h).words = w := rfl
@[simp] theorem issOf_ins (s : State) (i : Instr) (w n : Nat) (h : Held) : (s.issOf i w n h).ins = i := rfl
@[simp] theorem issOf_x (s : State) (i : Instr) (w n : Nat) (h : Held) (r : Reg) : (s.issOf i w n h).x r = xget h.ctx.x r := rfl
@[simp] theorem issOf_y (s : State) (i : Instr) (w n : Nat) (h : Held) (r : Reg) : (s.issOf i w n h).y r = xget h.ctx.x r := rfl
@[simp] theorem issOf_z (s : State) (i : Instr) (w n : Nat) (h : Held) (r : Reg) : (s.issOf i w n h).z r = xget h.ctx.x r := rfl
@[simp] theorem issOf_xd (s : State) (i : Instr) (w n : Nat) (h : Held) (r : Reg) : (s.issOf i w n h).xd r = xD (xget h.ctx.x r) := rfl
@[simp] theorem issOf_yd (s : State) (i : Instr) (w n : Nat) (h : Held) (r : Reg) : (s.issOf i w n h).yd r = xD (xget h.ctx.x r) := rfl
@[simp] theorem issOf_zd (s : State) (i : Instr) (w n : Nat) (h : Held) (r : Reg) : (s.issOf i w n h).zd r = xD (xget h.ctx.x r) := rfl

/-- An instruction whose effect is on its context's record alone leaves the state that `issued` names. -/
theorem finish_issOf (s : State) (i : Instr) (hd : Hdr) (w n : Nat) (h h' : Held) : s.finish (s.issOf i w n h) hd.s h' = s.issued hd w n h' := rfl

/-- A fixed-latency result: the register takes the bytes that the mask names, the flags land with it. -/
theorem result_issOf (s : State) (i : Instr) (hd : Hdr) (w n L : Nat) (h : Held) (d : Reg) (m : BitVec 12) (v : XReg) (fl : Fl) :
    s.result (s.issOf i w n h) hd.s L d m v fl =
      s.issued hd w n ((h.write (s.cycOf n) L d (mergeBytes m v (xget h.ctx.x d))).flagAt (s.cycOf n + L) fl) := rfl

theorem flagAt_zero (h : Held) (t : Nat) : h.flagAt t 0 = h := by simp [Held.flagAt]

/-- A guard that does not hold: PC passes the instruction, and nothing else changes (R187). -/
theorem run_guarded {s : State} {i : Instr} {sh : Shape} {n : Nat} {h : Held} (act : Iss → State → State)
    (hi : s.readyAt n h) (hg : guardHolds sh.hd h.ctx = false) : s.run i sh act = .next (s.issued sh.hd sh.words n h) := by
  obtain ⟨h0, hf, hp, hst, rfl⟩ := hi
  unfold State.cycOf at *
  simp only [State.run, State.attempt, hf, hp, hst, bne_self_eq_false, Bool.false_eq_true, if_false, hg, Bool.not_false, if_true]
  rfl

/-- The set of a list of registers holds its members. -/
theorem regSet_mem (rs : List Reg) (r : Reg) : (regSet rs).getLsbD r.toNat = true ↔ r ∈ rs := by
  have bit : ∀ q r : Reg, (BitVec.ofNat 8 (2 ^ q.toNat)).getLsbD r.toNat = decide (q = r) := by decide
  have fold : ∀ (rs : List Reg) (m : BitVec 8), (rs.foldl (fun m r => m ||| BitVec.ofNat 8 (2 ^ r.toNat)) m).getLsbD r.toNat = true ↔ m.getLsbD r.toNat = true ∨ r ∈ rs := by
    intro rs
    induction rs with
    | nil => simp
    | cons q rs ih =>
      intro m
      rw [List.foldl_cons, ih, BitVec.getLsbD_or, bit, Bool.or_eq_true, decide_eq_true_eq, List.mem_cons, eq_comm (a := q), or_assoc]
  exact (fold rs 0).trans (by simp)

/-- A register with a result outstanding: the context waits with its PC at the instruction, for the registers that it names (R106, R147). -/
theorem run_pending {s : State} {i : Instr} {sh : Shape} {n : Nat} {h : Held} (act : Iss → State → State)
    (hi : s.readyAt n h) (hg : guardHolds sh.hd h.ctx = true) (hr : sh.rounds = true → h.ctx.rm < 5)
    (hp : ∃ r ∈ sh.reads ++ sh.writes, h.ctx.pend r.toNat = true) :
    s.run i sh act = .next (s.waitRegs (s.issOf i sh.words n h) (regSet (sh.reads ++ sh.writes))) := by
  obtain ⟨h0, hf, hpl, hst, rfl⟩ := hi
  have e1 : (sh.rounds && decide ((h0.landed (s.cycOf n)).ctx.rm ≥ 5)) = false := by
    cases hb : sh.rounds
    · rfl
    · have := hr hb
      rw [Bool.true_and, decide_eq_false_iff_not]; omega
  have e3 : ((sh.reads ++ sh.writes).any fun r => (h0.landed (s.cycOf n)).ctx.pend r.toNat) = true := by
    obtain ⟨r, hm, hr⟩ := hp
    exact List.any_eq_true.2 ⟨r, hm, hr⟩
  unfold State.cycOf at *
  simp only [State.run, State.attempt, hf, hpl, hst, bne_self_eq_false, Bool.false_eq_true, if_false, hg, Bool.not_true, e1, e3, if_true]
  rfl

end Sys2Proof.Machine
end

