-- ==== Sys2Proof/Laws/Map.lean ====
section
/-! SUPPORT. Tables and memory: reading after writing, and the canonical form that every operation on memory keeps. -/

-- One proof after another, not side by side: threads that wait for the kernel each hold a stack.
set_option Elab.async false

namespace Sys2Proof.Machine

variable {α : Type}

@[simp] theorem mapFind_nil (k : Nat) : mapFind ([] : SMap α) k = none := rfl

theorem mapFind_put_self (m : SMap α) (k : Nat) (v : α) : mapFind (mapPut m k v) k = some v := by
  induction m with
  | nil => simp [mapPut, mapFind]
  | cons e r ih =>
    obtain ⟨j, w⟩ := e
    simp only [mapPut]
    split
    · simp [mapFind]
    · split
      · simp [mapFind]
      · have : j ≠ k := by omega
        simp [mapFind, this, ih]

theorem mapFind_put_other (m : SMap α) {k j : Nat} (v : α) (h : j ≠ k) : mapFind (mapPut m k v) j = mapFind m j := by
  induction m with
  | nil => simp [mapPut, mapFind, Ne.symm h]
  | cons e r ih =>
    obtain ⟨i, w⟩ := e
    simp only [mapPut]
    split
    · simp [mapFind, Ne.symm h]
    · split
      · subst_vars; simp [mapFind, Ne.symm h]
      · by_cases hi : i = j <;> simp [mapFind, hi, ih]

theorem mapFind_put (m : SMap α) (k j : Nat) (v : α) : mapFind (mapPut m k v) j = if j = k then some v else mapFind m j := by
  by_cases h : j = k
  · subst h; simp [mapFind_put_self]
  · simp [h, mapFind_put_other m v h]

theorem mapFind_erase_other (m : SMap α) {k j : Nat} (h : j ≠ k) : mapFind (mapErase m k) j = mapFind m j := by
  induction m with
  | nil => rfl
  | cons e r ih =>
    obtain ⟨i, w⟩ := e
    simp only [mapErase]
    split
    · subst_vars; simp [mapFind, Ne.symm h]
    · by_cases hi : i = j <;> simp [mapFind, hi, ih]

theorem mapWf_cons (e : Nat × α) (r : SMap α) : mapWf (e :: r) = true ↔ (∀ x ∈ r, e.1 < x.1) ∧ mapWf r = true := by
  obtain ⟨k, v⟩ := e; simp [mapWf]

theorem mapFind_none_of_below (r : SMap α) (k : Nat) (h : ∀ x ∈ r, k < x.1) : mapFind r k = none := by
  induction r with
  | nil => rfl
  | cons e r ih =>
    obtain ⟨j, w⟩ := e
    have hj : k < j := h (j, w) (by simp)
    simp only [mapFind]
    rw [if_neg (by omega)]
    exact ih fun x hx => h x (by simp [hx])

theorem mapFind_erase_self (m : SMap α) (k : Nat) (h : mapWf m = true) : mapFind (mapErase m k) k = none := by
  induction m with
  | nil => rfl
  | cons e r ih =>
    obtain ⟨j, w⟩ := e
    have hw := (mapWf_cons _ _).1 h
    simp only [mapErase]
    split
    · subst_vars; exact mapFind_none_of_below r j hw.1
    · simp [mapFind, *]

theorem mem_mapPut {m : SMap α} {k : Nat} {v : α} {x : Nat × α} (h : x ∈ mapPut m k v) : x = (k, v) ∨ x ∈ m := by
  induction m with
  | nil => simpa [mapPut] using h
  | cons e r ih =>
    obtain ⟨j, w⟩ := e
    simp only [mapPut] at h
    split at h
    · simpa using h
    · split at h
      · rcases List.mem_cons.1 h with h | h
        · exact .inl h
        · exact .inr (by simp [h])
      · rcases List.mem_cons.1 h with h | h
        · exact .inr (by simp [h])
        · rcases ih h with h | h
          · exact .inl h
          · exact .inr (by simp [h])

theorem mem_mapErase {m : SMap α} {k : Nat} {x : Nat × α} (h : x ∈ mapErase m k) : x ∈ m := by
  induction m with
  | nil => simp [mapErase] at h
  | cons e r ih =>
    obtain ⟨j, w⟩ := e
    simp only [mapErase] at h
    split at h
    · simp [h]
    · rcases List.mem_cons.1 h with h | h
      · simp [h]
      · simp [ih h]

theorem mapWf_put (m : SMap α) (k : Nat) (v : α) (h : mapWf m = true) : mapWf (mapPut m k v) = true := by
  induction m with
  | nil => simp [mapPut, mapWf]
  | cons e r ih =>
    obtain ⟨j, w⟩ := e
    have hw := (mapWf_cons _ _).1 h
    simp only [mapPut]
    split
    · rename_i hk
      refine (mapWf_cons _ _).2 ⟨fun x hx => ?_, h⟩
      rcases List.mem_cons.1 hx with rfl | hx
      · exact hk
      · exact Nat.lt_trans hk (hw.1 x hx)
    · split
      · subst_vars; exact (mapWf_cons _ _).2 ⟨hw.1, hw.2⟩
      · refine (mapWf_cons _ _).2 ⟨fun x hx => ?_, ih hw.2⟩
        rcases mem_mapPut hx with rfl | hx
        · show j < k; omega
        · exact hw.1 x hx

theorem mapWf_erase (m : SMap α) (k : Nat) (h : mapWf m = true) : mapWf (mapErase m k) = true := by
  induction m with
  | nil => rfl
  | cons e r ih =>
    obtain ⟨j, w⟩ := e
    have hw := (mapWf_cons _ _).1 h
    simp only [mapErase]
    split
    · exact hw.2
    · exact (mapWf_cons _ _).2 ⟨fun x hx => hw.1 x (mem_mapErase hx), ih hw.2⟩

theorem mapWf_filter (m : SMap α) (p : Nat × α → Bool) (h : mapWf m = true) : mapWf (m.filter p) = true := by
  induction m with
  | nil => rfl
  | cons e r ih =>
    have hw := (mapWf_cons _ _).1 h
    simp only [List.filter_cons]
    split
    · exact (mapWf_cons _ _).2 ⟨fun x hx => hw.1 x (List.mem_filter.1 hx).1, ih hw.2⟩
    · exact ih hw.2

/-! ### Memory -/

theorem memWf_iff (m : Memory) : memWf m = true ↔ mapWf m = true ∧ ∀ c ∈ m, c.2 ≠ 0 := by
  simp only [memWf, Bool.and_eq_true, List.all_eq_true, bne_iff_ne]

/-- A write keeps the canonical form. -/
theorem memWf_write (m : Memory) (a : Nat) (b : Byte) (h : memWf m = true) : memWf (memWrite m a b) = true := by
  obtain ⟨hw, hz⟩ := (memWf_iff m).1 h
  simp only [memWrite]
  split
  · exact (memWf_iff _).2 ⟨mapWf_erase m a hw, fun c hc => hz c (mem_mapErase hc)⟩
  · refine (memWf_iff _).2 ⟨mapWf_put m a b hw, fun c hc => ?_⟩
    rcases mem_mapPut hc with rfl | hc
    · assumption
    · exact hz c hc

theorem memWf_writeList (m : Memory) (a : Nat) (bs : List Byte) (h : memWf m = true) : memWf (memWriteList m a bs) = true := by
  induction bs generalizing m a with
  | nil => exact h
  | cons b r ih => exact ih _ _ (memWf_write m a b h)

theorem memWf_writeAll (m : Memory) (cs : List (Nat × Byte)) (h : memWf m = true) : memWf (memWriteAll m cs) = true := by
  induction cs generalizing m with
  | nil => exact h
  | cons c r ih => exact ih _ (memWf_write m c.1 c.2 h)

theorem memWf_filter (m : Memory) (p : Nat × Byte → Bool) (h : memWf m = true) : memWf (m.filter p) = true := by
  obtain ⟨hw, hz⟩ := (memWf_iff m).1 h
  exact (memWf_iff _).2 ⟨mapWf_filter m p hw, fun c hc => hz c (List.mem_filter.1 hc).1⟩

/-- Reading a byte after writing it gives the value written. -/
theorem memRead_write_self (m : Memory) (a : Nat) (b : Byte) (h : memWf m = true) : memRead (memWrite m a b) a = b := by
  simp only [memRead, mapGet, memWrite]
  split
  · subst_vars; simp [mapFind_erase_self m a ((memWf_iff m).1 h).1]
  · simp [mapFind_put_self]

/-- A write leaves every other byte alone. -/
theorem memRead_write_other (m : Memory) {a c : Nat} (b : Byte) (h : c ≠ a) : memRead (memWrite m a b) c = memRead m c := by
  simp only [memRead, mapGet, memWrite]
  split
  · rw [mapFind_erase_other m h]
  · rw [mapFind_put_other m b h]

theorem memRead_writeList_other (m : Memory) (a : Nat) (bs : List Byte) {c : Nat} (h : c < a ∨ a + bs.length ≤ c) :
    memRead (memWriteList m a bs) c = memRead m c := by
  induction bs generalizing m a with
  | nil => rfl
  | cons b r ih =>
    simp only [List.length_cons] at h
    rw [memWriteList, ih _ _ (by omega), memRead_write_other m b (by omega)]

theorem memRead_writeAll_other (m : Memory) (cs : List (Nat × Byte)) {c : Nat} (h : ∀ x ∈ cs, x.1 ≠ c) :
    memRead (memWriteAll m cs) c = memRead m c := by
  induction cs generalizing m with
  | nil => rfl
  | cons x r ih =>
    rw [memWriteAll, ih _ fun y hy => h y (by simp [hy]), memRead_write_other m x.2 (h x (by simp)).symm]

/-- A list of bytes written stands where it was written. -/
theorem memRead_writeList (m : Memory) (a : Nat) (bs : List Byte) (h : memWf m = true) (i : Nat) (hi : i < bs.length) :
    memRead (memWriteList m a bs) (a + i) = bs[i] := by
  induction bs generalizing m a i with
  | nil => simp at hi
  | cons b r ih =>
    rw [memWriteList]
    cases i with
    | zero =>
      rw [memRead_writeList_other _ _ _ (by omega)]; exact memRead_write_self m a b h
    | succ j =>
      have := ih (memWrite m a b) (a + 1) (memWf_write m a b h) j (by simpa using hi)
      rw [show a + (j + 1) = a + 1 + j by omega, this]; rfl

end Sys2Proof.Machine
end

