-- ==== Sys2Proof/Laws/Line.lean ====
section
/-! SUPPORT. Bytes and numbers, and the primary line: what is written as 128 bytes reads back as the same context. -/

-- One proof after another, not side by side: threads that wait for the kernel each hold a stack.
set_option Elab.async false

namespace Sys2Proof.Machine

@[simp] theorem length_leBytes (n v : Nat) : (leBytes n v).length = n := by
  induction n generalizing v with
  | zero => rfl
  | succ n ih => simp [leBytes, ih]

/-- The `n` bytes of a number give it back below 256 to the `n` (R4). -/
theorem leToNat_leBytes (n v : Nat) : leToNat (leBytes n v) = v % 256 ^ n := by
  induction n generalizing v with
  | zero => simp [leBytes, leToNat, Nat.mod_one]
  | succ n ih =>
    show (BitVec.ofNat 8 v).toNat + 256 * leToNat (leBytes n (v / 256)) = _
    rw [ih, BitVec.toNat_ofNat, show 256 ^ (n + 1) = 256 * 256 ^ n by ring, @Nat.mod_mul 256 (256 ^ n) v]

@[simp] theorem length_ctxBytes (c : Ctx) : (ctxBytes c).length = 128 := by
  simp [ctxBytes, List.length_flatMap]

/-- A context is its line: nothing of it is lost in memory (R96). -/
theorem ctxOfBytes_ctxBytes (c : Ctx) : ctxOfBytes (ctxBytes c) = c := by
  obtain ⟨pc, pred, wait, stat, owner, link, x⟩ := c
  have hx : x.toList = [x[0], x[1], x[2], x[3], x[4], x[5], x[6], x[7]] := by
    apply List.ext_getElem
    · simp
    · intro i h1 h2
      simp only [Vector.length_toList] at h1
      match i, h1 with
      | 0, _ | 1, _ | 2, _ | 3, _ | 4, _ | 5, _ | 6, _ | 7, _ => simp
  have b64 : ∀ v : BitVec 64, BitVec.ofNat 64 (v.toNat % 256 ^ 8) = v := by intro v; apply BitVec.eq_of_toNat_eq; have := v.isLt; simp; omega
  have b32 : ∀ v : BitVec 32, BitVec.ofNat 32 (v.toNat % 256 ^ 4) = v := by intro v; apply BitVec.eq_of_toNat_eq; have := v.isLt; simp; omega
  have b96 : ∀ v : BitVec 96, BitVec.ofNat 96 (v.toNat % 256 ^ 12) = v := by intro v; apply BitVec.eq_of_toNat_eq; have := v.isLt; simp; omega
  have hv : x = #v[x[0], x[1], x[2], x[3], x[4], x[5], x[6], x[7]] := by
    apply Vector.ext; intro i hi
    match i, hi with
    | 0, _ | 1, _ | 2, _ | 3, _ | 4, _ | 5, _ | 6, _ | 7, _ => rfl
  simp [ctxBytes, hx, ctxOfBytes, List.drop_append, List.drop_of_length_le, List.take_of_length_le, leToNat_leBytes]
  simp only [Nat.reducePow] at b64 b32 b96
  refine ⟨b64 _, b32 _, b32 _, b32 _, b32 _, b64 _, ?_⟩
  simp only [b96]
  exact (congrArg Vector.toArray hv).symm

end Sys2Proof.Machine
end

