-- ==== Sys2Proof/Laws/Operands.lean ====
section
/-! SUPPORT. Lane-wise results: what a merge under a lane mask leaves in each lane (R101, R209). -/

-- One proof after another, not side by side: threads that wait for the kernel each hold a stack.
set_option Elab.async false

namespace Sys2Proof.Machine

theorem testBit_255 (j : Nat) : Nat.testBit 255 j = decide (j < 8) := by
  have h := Nat.testBit_two_pow_sub_one 8 j
  simpa using h

/-- Bits of a fold that ors blocks of `b` ones at multiples of `b`. -/
theorem testBit_orFold (f : Nat → Bool) (b : Nat) (l : List Nat) (a i : Nat) :
    (l.foldl (fun a k => if f k then a ||| ((2 ^ b - 1) <<< (k * b)) else a) a).testBit i =
      (a.testBit i || l.any fun k => f k && decide (k * b ≤ i ∧ i < k * b + b)) := by
  induction l generalizing a with
  | nil => simp
  | cons k r ih =>
    rw [List.foldl_cons, ih, List.any_cons]
    cases hf : f k
    · simp
    · simp only [if_true, Nat.testBit_or, Nat.testBit_shiftLeft, Nat.testBit_two_pow_sub_one, Bool.true_and, Bool.or_assoc]
      congr 2
      rw [← Bool.decide_and]
      simp only [ge_iff_le, decide_eq_decide]
      omega

/-- A block of ones covers a position where the flag of its own block is set. -/
theorem any_block (f : Nat → Bool) (b n i : Nat) (hb : 0 < b) (hi : i < n * b) :
    ((List.range n).any fun k => f k && decide (k * b ≤ i ∧ i < k * b + b)) = f (i / b) := by
  have hk : i / b < n := (Nat.div_lt_iff_lt_mul hb).2 hi
  have hm := Nat.div_add_mod i b
  have hl := Nat.mod_lt i hb
  rw [Nat.mul_comm] at hm
  apply Bool.eq_iff_iff.2
  simp only [List.any_eq_true, List.mem_range, Bool.and_eq_true, decide_eq_true_eq]
  constructor
  · rintro ⟨k, -, hf, h1, h2⟩
    have : i / b = k := by
      apply Nat.div_eq_of_lt_le <;> (try rw [Nat.add_mul, Nat.one_mul]) <;> omega
    rw [this]; exact hf
  · intro hf
    exact ⟨i / b, hk, hf, by omega, by omega⟩

theorem getLsbD_expandBytes (m : BitVec 12) (i : Nat) (hi : i < 96) : (expandBytes m).getLsbD i = m.getLsbD (i / 8) := by
  have h := testBit_orFold (fun k => m.getLsbD k) 8 (List.range 12) 0 i
  have e : (fun (a k : Nat) => if m.getLsbD k then a ||| (255 <<< (8 * k)) else a) =
      fun a k => if m.getLsbD k then a ||| ((2 ^ 8 - 1) <<< (k * 8)) else a := by
    funext a k; rw [Nat.mul_comm 8 k]; rfl
  rw [expandBytes, BitVec.getLsbD_ofNat, e, h, any_block _ _ _ _ (by omega) (by omega)]
  simp [hi]

theorem getLsbD_laneBytes (w n : Nat) (lm : BitVec 12) (hw : w ≠ 64) (h8 : 0 < w / 8) (j : Nat) (hj : j < 12) (hn : j < n * (w / 8)) :
    (laneBytes w n lm).getLsbD j = lm.getLsbD (j / (w / 8)) := by
  rw [laneBytes, if_neg hw, BitVec.getLsbD_ofNat, testBit_orFold, any_block _ _ _ _ h8 hn]
  simp [hj]

theorem testBit_mod_add (w v a i : Nat) : (v % 2 ^ w + a * 2 ^ w).testBit i = if i < w then v.testBit i else a.testBit (i - w) := by
  have h : v % 2 ^ w < 2 ^ w := Nat.mod_lt _ (Nat.two_pow_pos w)
  rw [Nat.add_comm, Nat.mul_comm, Nat.testBit_two_pow_mul_add _ h]
  split
  · simp [Nat.testBit_mod_two_pow, *]
  · rfl

theorem testBit_pack (w : Nat) (hw : 0 < w) (ls : List Nat) (i : Nat) :
    (ls.foldr (fun v a => v % 2 ^ w + a * 2 ^ w) 0).testBit i = ((ls[i / w]?).getD 0).testBit (i % w) := by
  induction ls generalizing i with
  | nil => simp
  | cons v r ih =>
    rw [List.foldr_cons, testBit_mod_add]
    split
    · rename_i h
      simp [Nat.div_eq_of_lt h, Nat.mod_eq_of_lt h]
    · rename_i h
      have h' : w ≤ i := by omega
      rw [ih, Nat.mod_eq_sub_mod h', Nat.div_eq_sub_div hw h']
      simp

theorem getLsbD_packLanes (w : Nat) (hw : 0 < w) (ls : List Nat) (i : Nat) (hi : i < 96) :
    (packLanes w ls).getLsbD i = ((ls[i / w]?).getD 0).testBit (i % w) := by
  rw [packLanes, BitVec.getLsbD_ofNat, testBit_pack w hw]; simp [hi]

theorem getLsbD_mergeBytes (m : BitVec 12) (a b : XReg) (i : Nat) (hi : i < 96) :
    (mergeBytes m a b).getLsbD i = if m.getLsbD (i / 8) then a.getLsbD i else b.getLsbD i := by
  simp only [mergeBytes, BitVec.getLsbD_or, BitVec.getLsbD_and, BitVec.getLsbD_not, getLsbD_expandBytes _ _ hi, hi, decide_true, Bool.true_and]
  cases m.getLsbD (i / 8) <;> simp

/-- A lane of a merge: the new lane where its mask bit is set, else the old one. -/
theorem laneV_merge (w n : Nat) (lm : BitVec 12) (x : XReg) (f : Nat → Nat) (k : Nat)
    (hw : w = 64 ∧ n = 1 ∨ w = 32 ∧ n = 3 ∨ w = 16 ∧ n = 6 ∨ w = 8 ∧ n = 12) (hk : k < n) :
    laneV w (mergeBytes (laneBytes w n lm) (packLanes w ((List.range n).map f)) x) k =
      if laneOn w lm k then BitVec.ofNat w (f k) else laneV w x k := by
  have hw0 : 0 < w := by omega
  apply BitVec.eq_of_getLsbD_eq
  intro j hj
  have hi : w * k + j < 96 := by
    rcases hw with ⟨rfl, rfl⟩ | ⟨rfl, rfl⟩ | ⟨rfl, rfl⟩ | ⟨rfl, rfl⟩ <;> omega
  have hlane : ((List.range n).map f)[(w * k + j) / w]? = some (f k) := by
    have : (w * k + j) / w = k := by
      rw [Nat.mul_add_div hw0, Nat.div_eq_of_lt hj, Nat.add_zero]
    simp [this, hk]
  have hmod : (w * k + j) % w = j := by rw [Nat.mul_add_mod, Nat.mod_eq_of_lt hj]
  have hmask : (laneBytes w n lm).getLsbD ((w * k + j) / 8) = laneOn w lm k := by
    rcases hw with ⟨rfl, rfl⟩ | ⟨rfl, rfl⟩ | ⟨rfl, rfl⟩ | ⟨rfl, rfl⟩
    · have : k = 0 := by omega
      subst this
      have hd : (64 * 0 + j) / 8 < 8 := by omega
      simp only [laneBytes, laneOn, if_true, decide_true, Bool.true_or]
      generalize (64 * 0 + j) / 8 = q at hd
      interval_cases q <;> rfl
    all_goals
      rw [getLsbD_laneBytes _ _ _ (by decide) (by decide) _ (by omega) (by omega)]
      rw [laneOn, decide_eq_false (by decide), Bool.false_or]
      congr 1; omega
  simp only [laneV, BitVec.getLsbD_extractLsb', hj, decide_true, Bool.true_and]
  rw [getLsbD_mergeBytes _ _ _ _ hi, getLsbD_packLanes _ hw0 _ _ hi, hlane, hmod, hmask]
  cases laneOn w lm k
  · simp [hj]
  · rw [if_pos rfl, if_pos rfl, BitVec.getLsbD_ofNat]; simp [hj]

/-- A `.D` result leaves bits [95:64] alone. -/
theorem high_merge (lm : BitVec 12) (v x : XReg) : (mergeBytes (laneBytes 64 1 lm) v x).extractLsb' 64 32 = x.extractLsb' 64 32 := by
  apply BitVec.eq_of_getLsbD_eq
  intro j hj
  simp only [BitVec.getLsbD_extractLsb', hj, decide_true, Bool.true_and]
  rw [getLsbD_mergeBytes _ _ _ _ (by omega)]
  have hd : 8 ≤ (64 + j) / 8 ∧ (64 + j) / 8 < 12 := by omega
  generalize (64 + j) / 8 = q at hd
  have hm : (laneBytes 64 1 lm).getLsbD q = false := by
    simp only [laneBytes, if_true]
    obtain ⟨h1, h2⟩ := hd
    interval_cases q <;> rfl
  rw [hm]; rfl

theorem shW_shN (sh : Sh) : shW sh = 64 ∧ shN sh = 1 ∨ shW sh = 32 ∧ shN sh = 3 ∨ shW sh = 16 ∧ shN sh = 6 ∨ shW sh = 8 ∧ shN sh = 12 := by
  cases sh <;> simp [shW, shN]
theorem fshW_fshN (f : FSh) : fshW f = 64 ∧ fshN f = 1 ∨ fshW f = 32 ∧ fshN f = 3 ∨ fshW f = 16 ∧ fshN f = 6 ∨ fshW f = 8 ∧ fshN f = 12 := by
  cases f <;> simp [fshW, fshN]

/-- The register that a lane-wise form leaves is a lane-wise result. -/
theorem laneResult_merge (sh : Sh) (lm : BitVec 12) (x : XReg) (f : Nat → Nat) :
    laneResult sh lm x (mergeBytes (laneBytes (shW sh) (shN sh) lm) (packLanes (shW sh) ((List.range (shN sh)).map f)) x)
      fun k => BitVec.ofNat _ (f k) := by
  refine ⟨fun k hk => laneV_merge _ _ lm x f k (shW_shN sh) hk, ?_⟩
  rintro rfl; exact high_merge lm _ x

theorem flaneResult_merge (g : FSh) (lm : BitVec 12) (x : XReg) (f : Nat → Nat) :
    flaneResult g lm x (mergeBytes (laneBytes (fshW g) (fshN g) lm) (packLanes (fshW g) ((List.range (fshN g)).map f)) x)
      fun k => BitVec.ofNat _ (f k) := by
  refine ⟨fun k hk => laneV_merge _ _ lm x f k (fshW_fshN g) hk, ?_⟩
  rintro rfl; exact high_merge lm _ x

/-- A lane read as a number. -/
theorem lane_eq (w : Nat) (x : XReg) (k : Nat) : lane w x k = (laneV w x k).toNat := by
  simp [lane, laneV, getF, BitVec.extractLsb'_toNat]

theorem foldl_or_zero (l : List Nat) (a : Fl) : l.foldl (fun a _ => a ||| 0) a = a := by
  induction l generalizing a with
  | nil => rfl
  | cons k r ih => rw [List.foldl_cons, ih]; exact BitVec.or_zero

/-- A lane-wise fixed-latency form without flags: what it leaves in the register, and that nothing else changes. -/
theorem lanes_result (s : State) (i : Instr) (hd : Hdr) (sh : Sh) (w n L : Nat) (h : Held) (d : Reg) (f : Nat → Nat) :
    ∃ x', s.lanes (s.issOf i w n h) hd.s L (shW sh) (shN sh) d (fun k => (f k, 0)) = s.issued hd w n (h.write (s.cycOf n) L d x') ∧
      laneResult sh h.ctx.lm (xget h.ctx.x d) x' fun k => BitVec.ofNat _ (f k) := by
  refine ⟨_, ?_, laneResult_merge sh h.ctx.lm (xget h.ctx.x d) f⟩
  rw [State.lanes, result_issOf]
  simp only [foldl_or_zero, flagAt_zero]
  rfl

/-- The same with flags. -/
theorem lanes_flags (s : State) (i : Instr) (hd : Hdr) (sh : Sh) (w n L : Nat) (h : Held) (d : Reg) (f : Nat → Nat × Fl) :
    ∃ x', s.lanes (s.issOf i w n h) hd.s L (shW sh) (shN sh) d f =
        s.issued hd w n ((h.write (s.cycOf n) L d x').flagAt (s.cycOf n + L) ((activeLanes (shW sh) (shN sh) h.ctx.lm).foldl (fun a k => a ||| (f k).2) 0)) ∧
      laneResult sh h.ctx.lm (xget h.ctx.x d) x' fun k => BitVec.ofNat _ (f k).1 :=
  ⟨_, rfl, laneResult_merge sh h.ctx.lm (xget h.ctx.x d) fun k => (f k).1⟩

/-- The same for a floating-point shape. -/
theorem flanes_flags (s : State) (i : Instr) (hd : Hdr) (g : FSh) (w n L : Nat) (h : Held) (d : Reg) (f : Nat → Nat × Fl) :
    ∃ x', s.lanes (s.issOf i w n h) hd.s L (fshW g) (fshN g) d f =
        s.issued hd w n ((h.write (s.cycOf n) L d x').flagAt (s.cycOf n + L) ((activeLanes (fshW g) (fshN g) h.ctx.lm).foldl (fun a k => a ||| (f k).2) 0)) ∧
      flaneResult g h.ctx.lm (xget h.ctx.x d) x' fun k => BitVec.ofNat _ (f k).1 :=
  ⟨_, rfl, flaneResult_merge g h.ctx.lm (xget h.ctx.x d) fun k => (f k).1⟩

/-- A number's two's complement reading is the bit vector's. -/
theorem signedNat_toNat (w : Nat) (a : BitVec w) : signedNat w a.toNat = a.toInt := by
  simp [signedNat, BitVec.toInt, Nat.mod_eq_of_lt a.isLt]

/-- Wrapping an integer is taking it as a bit vector. -/
theorem ofNat_wrapInt (w : Nat) (i : Int) : BitVec.ofNat w (wrapInt w i) = BitVec.ofInt w i := by
  apply BitVec.eq_of_toNat_eq
  simp only [wrapInt, BitVec.toNat_ofNat, BitVec.toNat_ofInt]
  have hp : (0 : Int) < ((2 ^ w : Nat) : Int) := by exact_mod_cast Nat.two_pow_pos w
  have h1 := Int.emod_lt_of_pos i hp
  have h0 := Int.emod_nonneg i (Int.ne_of_gt hp)
  exact Nat.mod_eq_of_lt (by omega)

/-- A variable-latency operation has started. -/
theorem start_issOf (s : State) (i : Instr) (hd : Hdr) (w n : Nat) (h : Held) (d : Reg) (kind : OpKind) :
    s.start (s.issOf i w n h) hd.s d kind = s.started hd w n h d kind := rfl

/-- A lane-wise operation of variable latency without flags has started with the value it will deliver. -/
theorem startLanes_result (s : State) (i : Instr) (hd : Hdr) (sh : Sh) (w n : Nat) (h : Held) (d : Reg) (f : Nat → Nat) :
    ∃ v m, s.startLanes (s.issOf i w n h) hd.s (shW sh) (shN sh) d (fun k => (f k, 0)) = s.started hd w n h d (.value v m 0) ∧
      ∀ x, laneResult sh h.ctx.lm x (mergeBytes m v x) fun k => BitVec.ofNat _ (f k) := by
  refine ⟨_, _, ?_, fun x => laneResult_merge sh h.ctx.lm x f⟩
  rw [State.startLanes, start_issOf]
  simp only [foldl_or_zero]
  rfl

end Sys2Proof.Machine
end

