-- ==== Sys2Proof/Laws/PerInstr.lean ====
section
/-! SUPPORT. Statements for all instructions, made for each: which of them have an encoding. -/

-- One proof after another, not side by side: threads that wait for the kernel each hold a stack.
set_option Elab.async false

/-- An instruction has words exactly when it has a guard field: rows 1 to 156 are instructions, the others are steps without an encoding (R185). -/
def Sys2Proof.Laws.Coded.Statement (i : Sys2Proof.Instr) : Prop := (Sys2Proof.encode i).isSome = (Sys2Proof.instrHdr i).isSome

theorem Sys2Proof.Laws.Coded.add : ∀ h sh ck d a b, Sys2Proof.Laws.Coded.Statement (.add h sh ck d a b) := fun _ _ _ _ _ _ => rfl
theorem Sys2Proof.Laws.Coded.sub : ∀ h sh ck d a b, Sys2Proof.Laws.Coded.Statement (.sub h sh ck d a b) := fun _ _ _ _ _ _ => rfl
theorem Sys2Proof.Laws.Coded.mul : ∀ h sh ck d a b, Sys2Proof.Laws.Coded.Statement (.mul h sh ck d a b) := fun _ _ _ _ _ _ => rfl
theorem Sys2Proof.Laws.Coded.mulh : ∀ h sh d a b, Sys2Proof.Laws.Coded.Statement (.mulh h sh d a b) := fun _ _ _ _ _ => rfl
theorem Sys2Proof.Laws.Coded.mulhu : ∀ h sh d a b, Sys2Proof.Laws.Coded.Statement (.mulhu h sh d a b) := fun _ _ _ _ _ => rfl
theorem Sys2Proof.Laws.Coded.div : ∀ h sh d a b, Sys2Proof.Laws.Coded.Statement (.div h sh d a b) := fun _ _ _ _ _ => rfl
theorem Sys2Proof.Laws.Coded.divu : ∀ h sh d a b, Sys2Proof.Laws.Coded.Statement (.divu h sh d a b) := fun _ _ _ _ _ => rfl
theorem Sys2Proof.Laws.Coded.rem : ∀ h sh d a b, Sys2Proof.Laws.Coded.Statement (.rem h sh d a b) := fun _ _ _ _ _ => rfl
theorem Sys2Proof.Laws.Coded.remu : ∀ h sh d a b, Sys2Proof.Laws.Coded.Statement (.remu h sh d a b) := fun _ _ _ _ _ => rfl
theorem Sys2Proof.Laws.Coded.and : ∀ h sh d a b, Sys2Proof.Laws.Coded.Statement (.and h sh d a b) := fun _ _ _ _ _ => rfl
theorem Sys2Proof.Laws.Coded.or : ∀ h sh d a b, Sys2Proof.Laws.Coded.Statement (.or h sh d a b) := fun _ _ _ _ _ => rfl
theorem Sys2Proof.Laws.Coded.xor : ∀ h sh d a b, Sys2Proof.Laws.Coded.Statement (.xor h sh d a b) := fun _ _ _ _ _ => rfl
theorem Sys2Proof.Laws.Coded.shl : ∀ h sh d a b, Sys2Proof.Laws.Coded.Statement (.shl h sh d a b) := fun _ _ _ _ _ => rfl
theorem Sys2Proof.Laws.Coded.shr : ∀ h sh d a b, Sys2Proof.Laws.Coded.Statement (.shr h sh d a b) := fun _ _ _ _ _ => rfl
theorem Sys2Proof.Laws.Coded.sar : ∀ h sh d a b, Sys2Proof.Laws.Coded.Statement (.sar h sh d a b) := fun _ _ _ _ _ => rfl
theorem Sys2Proof.Laws.Coded.rol : ∀ h sh d a b, Sys2Proof.Laws.Coded.Statement (.rol h sh d a b) := fun _ _ _ _ _ => rfl
theorem Sys2Proof.Laws.Coded.min : ∀ h sh d a b, Sys2Proof.Laws.Coded.Statement (.min h sh d a b) := fun _ _ _ _ _ => rfl
theorem Sys2Proof.Laws.Coded.max : ∀ h sh d a b, Sys2Proof.Laws.Coded.Statement (.max h sh d a b) := fun _ _ _ _ _ => rfl
theorem Sys2Proof.Laws.Coded.minu : ∀ h sh d a b, Sys2Proof.Laws.Coded.Statement (.minu h sh d a b) := fun _ _ _ _ _ => rfl
theorem Sys2Proof.Laws.Coded.maxu : ∀ h sh d a b, Sys2Proof.Laws.Coded.Statement (.maxu h sh d a b) := fun _ _ _ _ _ => rfl
theorem Sys2Proof.Laws.Coded.abs : ∀ h sh d a, Sys2Proof.Laws.Coded.Statement (.abs h sh d a) := fun _ _ _ _ => rfl
theorem Sys2Proof.Laws.Coded.clz : ∀ h sh d a, Sys2Proof.Laws.Coded.Statement (.clz h sh d a) := fun _ _ _ _ => rfl
theorem Sys2Proof.Laws.Coded.popc : ∀ h sh d a, Sys2Proof.Laws.Coded.Statement (.popc h sh d a) := fun _ _ _ _ => rfl
theorem Sys2Proof.Laws.Coded.brev : ∀ h sh d a, Sys2Proof.Laws.Coded.Statement (.brev h sh d a) := fun _ _ _ _ => rfl
theorem Sys2Proof.Laws.Coded.mov : ∀ h sh d a, Sys2Proof.Laws.Coded.Statement (.mov h sh d a) := fun _ _ _ _ => rfl
theorem Sys2Proof.Laws.Coded.movXdGn : ∀ h d g, Sys2Proof.Laws.Coded.Statement (.movXdGn h d g) := fun _ _ _ => rfl
theorem Sys2Proof.Laws.Coded.movGnXa : ∀ h g a, Sys2Proof.Laws.Coded.Statement (.movGnXa h g a) := fun _ _ _ => rfl
theorem Sys2Proof.Laws.Coded.addi : ∀ h sh d a imm, Sys2Proof.Laws.Coded.Statement (.addi h sh d a imm) := fun _ _ _ _ _ => rfl
theorem Sys2Proof.Laws.Coded.andi : ∀ h sh d a imm, Sys2Proof.Laws.Coded.Statement (.andi h sh d a imm) := fun _ _ _ _ _ => rfl
theorem Sys2Proof.Laws.Coded.ori : ∀ h sh d a imm, Sys2Proof.Laws.Coded.Statement (.ori h sh d a imm) := fun _ _ _ _ _ => rfl
theorem Sys2Proof.Laws.Coded.xori : ∀ h sh d a imm, Sys2Proof.Laws.Coded.Statement (.xori h sh d a imm) := fun _ _ _ _ _ => rfl
theorem Sys2Proof.Laws.Coded.shli : ∀ h sh d a imm, Sys2Proof.Laws.Coded.Statement (.shli h sh d a imm) := fun _ _ _ _ _ => rfl
theorem Sys2Proof.Laws.Coded.shri : ∀ h sh d a imm, Sys2Proof.Laws.Coded.Statement (.shri h sh d a imm) := fun _ _ _ _ _ => rfl
theorem Sys2Proof.Laws.Coded.sari : ∀ h sh d a imm, Sys2Proof.Laws.Coded.Statement (.sari h sh d a imm) := fun _ _ _ _ _ => rfl
theorem Sys2Proof.Laws.Coded.movi : ∀ h d imm, Sys2Proof.Laws.Coded.Statement (.movi h d imm) := fun _ _ _ => rfl
theorem Sys2Proof.Laws.Coded.movh : ∀ h d imm, Sys2Proof.Laws.Coded.Statement (.movh h d imm) := fun _ _ _ => rfl
theorem Sys2Proof.Laws.Coded.lget : ∀ h sh d a k, Sys2Proof.Laws.Coded.Statement (.lget h sh d a k) := fun _ _ _ _ _ => rfl
theorem Sys2Proof.Laws.Coded.lset : ∀ h sh d a k, Sys2Proof.Laws.Coded.Statement (.lset h sh d a k) := fun _ _ _ _ _ => rfl
theorem Sys2Proof.Laws.Coded.lshuf : ∀ h sh d a b, Sys2Proof.Laws.Coded.Statement (.lshuf h sh d a b) := fun _ _ _ _ _ => rfl
theorem Sys2Proof.Laws.Coded.lsplat : ∀ h sh d a, Sys2Proof.Laws.Coded.Statement (.lsplat h sh d a) := fun _ _ _ _ => rfl
theorem Sys2Proof.Laws.Coded.bfx : ∀ h sx d a pos lenm1, Sys2Proof.Laws.Coded.Statement (.bfx h sx d a pos lenm1) := fun _ _ _ _ _ _ => rfl
theorem Sys2Proof.Laws.Coded.bfi : ∀ h d a pos lenm1, Sys2Proof.Laws.Coded.Statement (.bfi h d a pos lenm1) := fun _ _ _ _ _ => rfl
theorem Sys2Proof.Laws.Coded.sel : ∀ h sh d a b gn p, Sys2Proof.Laws.Coded.Statement (.sel h sh d a b gn p) := fun _ _ _ _ _ _ _ => rfl
theorem Sys2Proof.Laws.Coded.cmp : ∀ h sh any cc pd a b, Sys2Proof.Laws.Coded.Statement (.cmp h sh any cc pd a b) := fun _ _ _ _ _ _ _ => rfl
theorem Sys2Proof.Laws.Coded.cmpi : ∀ h cc pd a imm, Sys2Proof.Laws.Coded.Statement (.cmpi h cc pd a imm) := fun _ _ _ _ _ => rfl
theorem Sys2Proof.Laws.Coded.br : ∀ h off, Sys2Proof.Laws.Coded.Statement (.br h off) := fun _ _ => rfl
theorem Sys2Proof.Laws.Coded.call : ∀ h d off, Sys2Proof.Laws.Coded.Statement (.call h d off) := fun _ _ _ => rfl
theorem Sys2Proof.Laws.Coded.jmp : ∀ h a, Sys2Proof.Laws.Coded.Statement (.jmp h a) := fun _ _ => rfl
theorem Sys2Proof.Laws.Coded.callr : ∀ h d a, Sys2Proof.Laws.Coded.Statement (.callr h d a) := fun _ _ _ => rfl
theorem Sys2Proof.Laws.Coded.ret : ∀ h a, Sys2Proof.Laws.Coded.Statement (.ret h a) := fun _ _ => rfl
theorem Sys2Proof.Laws.Coded.pand : ∀ h pd pa pb, Sys2Proof.Laws.Coded.Statement (.pand h pd pa pb) := fun _ _ _ _ => rfl
theorem Sys2Proof.Laws.Coded.por : ∀ h pd pa pb, Sys2Proof.Laws.Coded.Statement (.por h pd pa pb) := fun _ _ _ _ => rfl
theorem Sys2Proof.Laws.Coded.pxor : ∀ h pd pa pb, Sys2Proof.Laws.Coded.Statement (.pxor h pd pa pb) := fun _ _ _ _ => rfl
theorem Sys2Proof.Laws.Coded.pnot : ∀ h pd pa, Sys2Proof.Laws.Coded.Statement (.pnot h pd pa) := fun _ _ _ => rfl
theorem Sys2Proof.Laws.Coded.pmask : ∀ h a, Sys2Proof.Laws.Coded.Statement (.pmask h a) := fun _ _ => rfl
theorem Sys2Proof.Laws.Coded.repf : ∀ h repsm1 hstep rstep lenm1, Sys2Proof.Laws.Coded.Statement (.repf h repsm1 hstep rstep lenm1) := fun _ _ _ _ _ => rfl
theorem Sys2Proof.Laws.Coded.nop : ∀ h, Sys2Proof.Laws.Coded.Statement (.nop h) := fun _ => rfl
theorem Sys2Proof.Laws.Coded.yield : ∀ h, Sys2Proof.Laws.Coded.Statement (.yield h) := fun _ => rfl
theorem Sys2Proof.Laws.Coded.endCtx : ∀ h, Sys2Proof.Laws.Coded.Statement (.endCtx h) := fun _ => rfl
theorem Sys2Proof.Laws.Coded.fadd : ∀ h f d a b, Sys2Proof.Laws.Coded.Statement (.fadd h f d a b) := fun _ _ _ _ _ => rfl
theorem Sys2Proof.Laws.Coded.fsub : ∀ h f d a b, Sys2Proof.Laws.Coded.Statement (.fsub h f d a b) := fun _ _ _ _ _ => rfl
theorem Sys2Proof.Laws.Coded.fmul : ∀ h f d a b, Sys2Proof.Laws.Coded.Statement (.fmul h f d a b) := fun _ _ _ _ _ => rfl
theorem Sys2Proof.Laws.Coded.fmin : ∀ h f d a b, Sys2Proof.Laws.Coded.Statement (.fmin h f d a b) := fun _ _ _ _ _ => rfl
theorem Sys2Proof.Laws.Coded.fmax : ∀ h f d a b, Sys2Proof.Laws.Coded.Statement (.fmax h f d a b) := fun _ _ _ _ _ => rfl
theorem Sys2Proof.Laws.Coded.fabs : ∀ h f d a, Sys2Proof.Laws.Coded.Statement (.fabs h f d a) := fun _ _ _ _ => rfl
theorem Sys2Proof.Laws.Coded.fneg : ∀ h f d a, Sys2Proof.Laws.Coded.Statement (.fneg h f d a) := fun _ _ _ _ => rfl
theorem Sys2Proof.Laws.Coded.fdiv : ∀ h f d a b, Sys2Proof.Laws.Coded.Statement (.fdiv h f d a b) := fun _ _ _ _ _ => rfl
theorem Sys2Proof.Laws.Coded.fsqrt : ∀ h f d a, Sys2Proof.Laws.Coded.Statement (.fsqrt h f d a) := fun _ _ _ _ => rfl
theorem Sys2Proof.Laws.Coded.frcp : ∀ h f d a, Sys2Proof.Laws.Coded.Statement (.frcp h f d a) := fun _ _ _ _ => rfl
theorem Sys2Proof.Laws.Coded.frsq : ∀ h f d a, Sys2Proof.Laws.Coded.Statement (.frsq h f d a) := fun _ _ _ _ => rfl
theorem Sys2Proof.Laws.Coded.fexp2 : ∀ h f d a, Sys2Proof.Laws.Coded.Statement (.fexp2 h f d a) := fun _ _ _ _ => rfl
theorem Sys2Proof.Laws.Coded.flog2 : ∀ h f d a, Sys2Proof.Laws.Coded.Statement (.flog2 h f d a) := fun _ _ _ _ => rfl
theorem Sys2Proof.Laws.Coded.fclass : ∀ h f d a, Sys2Proof.Laws.Coded.Statement (.fclass h f d a) := fun _ _ _ _ => rfl
theorem Sys2Proof.Laws.Coded.fma : ∀ h f d a b c, Sys2Proof.Laws.Coded.Statement (.fma h f d a b c) := fun _ _ _ _ _ _ => rfl
theorem Sys2Proof.Laws.Coded.fms : ∀ h f d a b c, Sys2Proof.Laws.Coded.Statement (.fms h f d a b c) := fun _ _ _ _ _ _ => rfl
theorem Sys2Proof.Laws.Coded.fnma : ∀ h f d a b c, Sys2Proof.Laws.Coded.Statement (.fnma h f d a b c) := fun _ _ _ _ _ _ => rfl
theorem Sys2Proof.Laws.Coded.fcmp : ∀ h f cc any sig pd a b, Sys2Proof.Laws.Coded.Statement (.fcmp h f cc any sig pd a b) := fun _ _ _ _ _ _ _ _ => rfl
theorem Sys2Proof.Laws.Coded.fcvt : ∀ h dst src d a, Sys2Proof.Laws.Coded.Statement (.fcvt h dst src d a) := fun _ _ _ _ _ => rfl
theorem Sys2Proof.Laws.Coded.fcvti : ∀ h dst src d a, Sys2Proof.Laws.Coded.Statement (.fcvti h dst src d a) := fun _ _ _ _ _ => rfl
theorem Sys2Proof.Laws.Coded.icvtf : ∀ h dst src d a, Sys2Proof.Laws.Coded.Statement (.icvtf h dst src d a) := fun _ _ _ _ _ => rfl
theorem Sys2Proof.Laws.Coded.frnd : ∀ h fmt d a, Sys2Proof.Laws.Coded.Statement (.frnd h fmt d a) := fun _ _ _ _ => rfl
theorem Sys2Proof.Laws.Coded.ld : ∀ h sz n d a imm, Sys2Proof.Laws.Coded.Statement (.ld h sz n d a imm) := fun _ _ _ _ _ _ => rfl
theorem Sys2Proof.Laws.Coded.ldp : ∀ h sz n d a imm, Sys2Proof.Laws.Coded.Statement (.ldp h sz n d a imm) := fun _ _ _ _ _ _ => rfl
theorem Sys2Proof.Laws.Coded.st : ∀ h sz n x a imm, Sys2Proof.Laws.Coded.Statement (.st h sz n x a imm) := fun _ _ _ _ _ _ => rfl
theorem Sys2Proof.Laws.Coded.stp : ∀ h sz n x a imm, Sys2Proof.Laws.Coded.Statement (.stp h sz n x a imm) := fun _ _ _ _ _ _ => rfl
theorem Sys2Proof.Laws.Coded.lda : ∀ h sz n sc d a imm, Sys2Proof.Laws.Coded.Statement (.lda h sz n sc d a imm) := fun _ _ _ _ _ _ _ => rfl
theorem Sys2Proof.Laws.Coded.stl : ∀ h sz n sc x a imm, Sys2Proof.Laws.Coded.Statement (.stl h sz n sc x a imm) := fun _ _ _ _ _ _ _ => rfl
theorem Sys2Proof.Laws.Coded.ldnt : ∀ h sz n d a imm, Sys2Proof.Laws.Coded.Statement (.ldnt h sz n d a imm) := fun _ _ _ _ _ _ => rfl
theorem Sys2Proof.Laws.Coded.stnt : ∀ h sz n x a imm, Sys2Proof.Laws.Coded.Statement (.stnt h sz n x a imm) := fun _ _ _ _ _ _ => rfl
theorem Sys2Proof.Laws.Coded.atom : ∀ h op dw ar n d a b, Sys2Proof.Laws.Coded.Statement (.atom h op dw ar n d a b) := fun _ _ _ _ _ _ _ _ => rfl
theorem Sys2Proof.Laws.Coded.cas : ∀ h dw ar sc n d a b, Sys2Proof.Laws.Coded.Statement (.cas h dw ar sc n d a b) := fun _ _ _ _ _ _ _ _ => rfl
theorem Sys2Proof.Laws.Coded.atomfAdd : ∀ h dw ar sc n d a b, Sys2Proof.Laws.Coded.Statement (.atomfAdd h dw ar sc n d a b) := fun _ _ _ _ _ _ _ _ => rfl
theorem Sys2Proof.Laws.Coded.fence : ∀ h kind sc, Sys2Proof.Laws.Coded.Statement (.fence h kind sc) := fun _ _ _ => rfl
theorem Sys2Proof.Laws.Coded.pref : ∀ h l2 n a imm, Sys2Proof.Laws.Coded.Statement (.pref h l2 n a imm) := fun _ _ _ _ _ => rfl
theorem Sys2Proof.Laws.Coded.send : ∀ h sc pd pe a j b, Sys2Proof.Laws.Coded.Statement (.send h sc pd pe a j b) := fun _ _ _ _ _ _ _ => rfl
theorem Sys2Proof.Laws.Coded.recv : ∀ h sc d mask, Sys2Proof.Laws.Coded.Statement (.recv h sc d mask) := fun _ _ _ _ => rfl
theorem Sys2Proof.Laws.Coded.spawn : ∀ h a b, Sys2Proof.Laws.Coded.Statement (.spawn h a b) := fun _ _ _ => rfl
theorem Sys2Proof.Laws.Coded.spawnj : ∀ h n d a b, Sys2Proof.Laws.Coded.Statement (.spawnj h n d a b) := fun _ _ _ _ _ => rfl
theorem Sys2Proof.Laws.Coded.futw : ∀ h n sc d a, Sys2Proof.Laws.Coded.Statement (.futw h n sc d a) := fun _ _ _ _ _ => rfl
theorem Sys2Proof.Laws.Coded.futr : ∀ h n sc a b, Sys2Proof.Laws.Coded.Statement (.futr h n sc a b) := fun _ _ _ _ _ => rfl
theorem Sys2Proof.Laws.Coded.futf : ∀ h n sc a b, Sys2Proof.Laws.Coded.Statement (.futf h n sc a b) := fun _ _ _ _ _ => rfl
theorem Sys2Proof.Laws.Coded.bar : ∀ h n, Sys2Proof.Laws.Coded.Statement (.bar h n) := fun _ _ => rfl
theorem Sys2Proof.Laws.Coded.bara : ∀ h d n, Sys2Proof.Laws.Coded.Statement (.bara h d n) := fun _ _ _ => rfl
theorem Sys2Proof.Laws.Coded.barw : ∀ h a n, Sys2Proof.Laws.Coded.Statement (.barw h a n) := fun _ _ _ => rfl
theorem Sys2Proof.Laws.Coded.park : ∀ h a, Sys2Proof.Laws.Coded.Statement (.park h a) := fun _ _ => rfl
theorem Sys2Proof.Laws.Coded.migr : ∀ h n a, Sys2Proof.Laws.Coded.Statement (.migr h n a) := fun _ _ _ => rfl
theorem Sys2Proof.Laws.Coded.self : ∀ h d, Sys2Proof.Laws.Coded.Statement (.self h d) := fun _ _ => rfl
theorem Sys2Proof.Laws.Coded.talloc : ∀ h hd a, Sys2Proof.Laws.Coded.Statement (.talloc h hd a) := fun _ _ _ => rfl
theorem Sys2Proof.Laws.Coded.tfree : ∀ h hd, Sys2Proof.Laws.Coded.Statement (.tfree h hd) := fun _ _ => rfl
theorem Sys2Proof.Laws.Coded.tdesc : ∀ h d ha, Sys2Proof.Laws.Coded.Statement (.tdesc h d ha) := fun _ _ _ => rfl
theorem Sys2Proof.Laws.Coded.tstat : ∀ h d ha, Sys2Proof.Laws.Coded.Statement (.tstat h d ha) := fun _ _ _ => rfl
theorem Sys2Proof.Laws.Coded.twait : ∀ h ha, Sys2Proof.Laws.Coded.Statement (.twait h ha) := fun _ _ => rfl
theorem Sys2Proof.Laws.Coded.tzero : ∀ h hd, Sys2Proof.Laws.Coded.Statement (.tzero h hd) := fun _ _ => rfl
theorem Sys2Proof.Laws.Coded.tld : ∀ h n hd a b, Sys2Proof.Laws.Coded.Statement (.tld h n hd a b) := fun _ _ _ _ _ => rfl
theorem Sys2Proof.Laws.Coded.tst : ∀ h n hd a b, Sys2Proof.Laws.Coded.Statement (.tst h n hd a b) := fun _ _ _ _ _ => rfl
theorem Sys2Proof.Laws.Coded.tmma : ∀ h bas hd ha hb, Sys2Proof.Laws.Coded.Statement (.tmma h bas hd ha hb) := fun _ _ _ _ _ => rfl
theorem Sys2Proof.Laws.Coded.tmmar : ∀ h bas hd ha hb, Sys2Proof.Laws.Coded.Statement (.tmmar h bas hd ha hb) := fun _ _ _ _ _ => rfl
theorem Sys2Proof.Laws.Coded.tadd : ∀ h hd ha hb, Sys2Proof.Laws.Coded.Statement (.tadd h hd ha hb) := fun _ _ _ _ => rfl
theorem Sys2Proof.Laws.Coded.tsub : ∀ h hd ha hb, Sys2Proof.Laws.Coded.Statement (.tsub h hd ha hb) := fun _ _ _ _ => rfl
theorem Sys2Proof.Laws.Coded.tmul : ∀ h hd ha hb, Sys2Proof.Laws.Coded.Statement (.tmul h hd ha hb) := fun _ _ _ _ => rfl
theorem Sys2Proof.Laws.Coded.tfma : ∀ h hd ha hb, Sys2Proof.Laws.Coded.Statement (.tfma h hd ha hb) := fun _ _ _ _ => rfl
theorem Sys2Proof.Laws.Coded.tmax : ∀ h hd ha hb, Sys2Proof.Laws.Coded.Statement (.tmax h hd ha hb) := fun _ _ _ _ => rfl
theorem Sys2Proof.Laws.Coded.tmin : ∀ h hd ha hb, Sys2Proof.Laws.Coded.Statement (.tmin h hd ha hb) := fun _ _ _ _ => rfl
theorem Sys2Proof.Laws.Coded.tabs : ∀ h hd ha, Sys2Proof.Laws.Coded.Statement (.tabs h hd ha) := fun _ _ _ => rfl
theorem Sys2Proof.Laws.Coded.texp : ∀ h hd ha, Sys2Proof.Laws.Coded.Statement (.texp h hd ha) := fun _ _ _ => rfl
theorem Sys2Proof.Laws.Coded.trcp : ∀ h hd ha, Sys2Proof.Laws.Coded.Statement (.trcp h hd ha) := fun _ _ _ => rfl
theorem Sys2Proof.Laws.Coded.tscale : ∀ h hd ha b, Sys2Proof.Laws.Coded.Statement (.tscale h hd ha b) := fun _ _ _ _ => rfl
theorem Sys2Proof.Laws.Coded.tcvt : ∀ h hd ha, Sys2Proof.Laws.Coded.Statement (.tcvt h hd ha) := fun _ _ _ => rfl
theorem Sys2Proof.Laws.Coded.ttrn : ∀ h hd ha, Sys2Proof.Laws.Coded.Statement (.ttrn h hd ha) := fun _ _ _ => rfl
theorem Sys2Proof.Laws.Coded.tred : ∀ h op col hd ha, Sys2Proof.Laws.Coded.Statement (.tred h op col hd ha) := fun _ _ _ _ _ => rfl
theorem Sys2Proof.Laws.Coded.tscan : ∀ h hd ha hb, Sys2Proof.Laws.Coded.Statement (.tscan h hd ha hb) := fun _ _ _ _ => rfl
theorem Sys2Proof.Laws.Coded.taff : ∀ h hd ha hb, Sys2Proof.Laws.Coded.Statement (.taff h hd ha hb) := fun _ _ _ _ => rfl
theorem Sys2Proof.Laws.Coded.tcomp : ∀ h hd ha hb, Sys2Proof.Laws.Coded.Statement (.tcomp h hd ha hb) := fun _ _ _ _ => rfl
theorem Sys2Proof.Laws.Coded.cpy : ∀ h d a b t, Sys2Proof.Laws.Coded.Statement (.cpy h d a b t) := fun _ _ _ _ _ => rfl
theorem Sys2Proof.Laws.Coded.cpys : ∀ h d a b t, Sys2Proof.Laws.Coded.Statement (.cpys h d a b t) := fun _ _ _ _ _ => rfl
theorem Sys2Proof.Laws.Coded.gath : ∀ h d a b g le t, Sys2Proof.Laws.Coded.Statement (.gath h d a b g le t) := fun _ _ _ _ _ _ _ => rfl
theorem Sys2Proof.Laws.Coded.redb : ∀ h op fmt d a b t, Sys2Proof.Laws.Coded.Statement (.redb h op fmt d a b t) := fun _ _ _ _ _ _ _ => rfl
theorem Sys2Proof.Laws.Coded.convb : ∀ h dst src d a b t, Sys2Proof.Laws.Coded.Statement (.convb h dst src d a b t) := fun _ _ _ _ _ _ _ => rfl
theorem Sys2Proof.Laws.Coded.rlcs : ∀ h a t, Sys2Proof.Laws.Coded.Statement (.rlcs h a t) := fun _ _ _ => rfl
theorem Sys2Proof.Laws.Coded.estatX : ∀ h d t, Sys2Proof.Laws.Coded.Statement (.estatX h d t) := fun _ _ _ => rfl
theorem Sys2Proof.Laws.Coded.estatP : ∀ h pd t, Sys2Proof.Laws.Coded.Statement (.estatP h pd t) := fun _ _ _ => rfl
theorem Sys2Proof.Laws.Coded.wtok : ∀ h t, Sys2Proof.Laws.Coded.Statement (.wtok h t) := fun _ _ => rfl
theorem Sys2Proof.Laws.Coded.rlcq : ∀ h n sel d a, Sys2Proof.Laws.Coded.Statement (.rlcq h n sel d a) := fun _ _ _ _ _ => rfl
theorem Sys2Proof.Laws.Coded.rlcx : ∀ h n a b, Sys2Proof.Laws.Coded.Statement (.rlcx h n a b) := fun _ _ _ _ => rfl
theorem Sys2Proof.Laws.Coded.rds : ∀ h r d, Sys2Proof.Laws.Coded.Statement (.rds h r d) := fun _ _ _ => rfl
theorem Sys2Proof.Laws.Coded.wrs : ∀ h r a, Sys2Proof.Laws.Coded.Statement (.wrs h r a) := fun _ _ _ => rfl
theorem Sys2Proof.Laws.Coded.trap : ∀ h code, Sys2Proof.Laws.Coded.Statement (.trap h code) := fun _ _ => rfl
theorem Sys2Proof.Laws.Coded.tret : ∀ h, Sys2Proof.Laws.Coded.Statement (.tret h) := fun _ => rfl
theorem Sys2Proof.Laws.Coded.evict : ∀ h a, Sys2Proof.Laws.Coded.Statement (.evict h a) := fun _ _ => rfl
theorem Sys2Proof.Laws.Coded.tlbiVa : ∀ h d a b, Sys2Proof.Laws.Coded.Statement (.tlbiVa h d a b) := fun _ _ _ _ => rfl
theorem Sys2Proof.Laws.Coded.tlbiAs : ∀ h d b, Sys2Proof.Laws.Coded.Statement (.tlbiAs h d b) := fun _ _ _ => rfl
theorem Sys2Proof.Laws.Coded.tlbiAll : ∀ h d, Sys2Proof.Laws.Coded.Statement (.tlbiAll h d) := fun _ _ => rfl
theorem Sys2Proof.Laws.Coded.tlbiU : ∀ h d a b, Sys2Proof.Laws.Coded.Statement (.tlbiU h d a b) := fun _ _ _ _ => rfl
theorem Sys2Proof.Laws.Coded.cflush : ∀ h n d a, Sys2Proof.Laws.Coded.Statement (.cflush h n d a) := fun _ _ _ _ => rfl
theorem Sys2Proof.Laws.Coded.pinl : ∀ h n d a, Sys2Proof.Laws.Coded.Statement (.pinl h n d a) := fun _ _ _ _ => rfl
theorem Sys2Proof.Laws.Coded.unpinl : ∀ h n d a, Sys2Proof.Laws.Coded.Statement (.unpinl h n d a) := fun _ _ _ _ => rfl
theorem Sys2Proof.Laws.Coded.cl1limWrite : ∀ part v, Sys2Proof.Laws.Coded.Statement (.cl1limWrite part v) := fun _ _ => rfl
theorem Sys2Proof.Laws.Coded.rsvslotWrite : ∀ part v, Sys2Proof.Laws.Coded.Statement (.rsvslotWrite part v) := fun _ _ => rfl
theorem Sys2Proof.Laws.Coded.leaseWrite : ∀ part v, Sys2Proof.Laws.Coded.Statement (.leaseWrite part v) := fun _ _ => rfl
theorem Sys2Proof.Laws.Coded.freqWrite : ∀ part v, Sys2Proof.Laws.Coded.Statement (.freqWrite part v) := fun _ _ => rfl
theorem Sys2Proof.Laws.Coded.wdogWrite : ∀ part v, Sys2Proof.Laws.Coded.Statement (.wdogWrite part v) := fun _ _ => rfl
theorem Sys2Proof.Laws.Coded.errcntWrite : ∀ stack v, Sys2Proof.Laws.Coded.Statement (.errcntWrite stack v) := fun _ _ => rfl
theorem Sys2Proof.Laws.Coded.create : ∀ o r, Sys2Proof.Laws.Coded.Statement (.create o r) := fun _ _ => rfl
theorem Sys2Proof.Laws.Coded.destroy : ∀ o tag part, Sys2Proof.Laws.Coded.Statement (.destroy o tag part) := fun _ _ _ => rfl
theorem Sys2Proof.Laws.Coded.roles : ∀ o tag part maps, Sys2Proof.Laws.Coded.Statement (.roles o tag part maps) := fun _ _ _ _ => rfl
theorem Sys2Proof.Laws.Coded.bbread : ∀ tag die start count, Sys2Proof.Laws.Coded.Statement (.bbread tag die start count) := fun _ _ _ _ => rfl
theorem Sys2Proof.Laws.Coded.update : ∀ o tag pa len, Sys2Proof.Laws.Coded.Statement (.update o tag pa len) := fun _ _ _ _ => rfl
theorem Sys2Proof.Laws.Coded.patch : ∀ o tag pa len, Sys2Proof.Laws.Coded.Statement (.patch o tag pa len) := fun _ _ _ _ => rfl
theorem Sys2Proof.Laws.Coded.query : ∀ tag, Sys2Proof.Laws.Coded.Statement (.query tag) := fun _ => rfl
theorem Sys2Proof.Laws.Coded.squall : ∀ part cb, Sys2Proof.Laws.Coded.Statement (.squall part cb) := fun _ _ => rfl
theorem Sys2Proof.Laws.Coded.thaw : ∀ part cb, Sys2Proof.Laws.Coded.Statement (.thaw part cb) := fun _ _ => rfl
theorem Sys2Proof.Laws.Coded.launchParse : ∀ part win, Sys2Proof.Laws.Coded.Statement (.launchParse part win) := fun _ _ => rfl
theorem Sys2Proof.Laws.Coded.dependenceCheck : ∀ part launch, Sys2Proof.Laws.Coded.Statement (.dependenceCheck part launch) := fun _ _ => rfl
theorem Sys2Proof.Laws.Coded.dispatch : ∀ part launch, Sys2Proof.Laws.Coded.Statement (.dispatch part launch) := fun _ _ => rfl
theorem Sys2Proof.Laws.Coded.place : ∀ part launch, Sys2Proof.Laws.Coded.Statement (.place part launch) := fun _ _ => rfl
theorem Sys2Proof.Laws.Coded.poolAllocate : ∀ part, Sys2Proof.Laws.Coded.Statement (.poolAllocate part) := fun _ => rfl
theorem Sys2Proof.Laws.Coded.poolReturn : ∀ part id, Sys2Proof.Laws.Coded.Statement (.poolReturn part id) := fun _ _ => rfl
theorem Sys2Proof.Laws.Coded.launchCompletion : ∀ part launch, Sys2Proof.Laws.Coded.Statement (.launchCompletion part launch) := fun _ _ => rfl
theorem Sys2Proof.Laws.Coded.drain : ∀ part win, Sys2Proof.Laws.Coded.Statement (.drain part win) := fun _ _ => rfl
theorem Sys2Proof.Laws.Coded.abort : ∀ part win, Sys2Proof.Laws.Coded.Statement (.abort part win) := fun _ _ => rfl
theorem Sys2Proof.Laws.Coded.reopen : ∀ part win, Sys2Proof.Laws.Coded.Statement (.reopen part win) := fun _ _ => rfl
theorem Sys2Proof.Laws.Coded.fill : ∀ cluster, Sys2Proof.Laws.Coded.Statement (.fill cluster) := fun _ => rfl
theorem Sys2Proof.Laws.Coded.load : ∀ part, Sys2Proof.Laws.Coded.Statement (.load part) := fun _ => rfl
theorem Sys2Proof.Laws.Coded.rotation : ∀ cluster, Sys2Proof.Laws.Coded.Statement (.rotation cluster) := fun _ => rfl
theorem Sys2Proof.Laws.Coded.preemption : ∀ key, Sys2Proof.Laws.Coded.Statement (.preemption key) := fun _ => rfl
theorem Sys2Proof.Laws.Coded.migration : ∀ key, Sys2Proof.Laws.Coded.Statement (.migration key) := fun _ => rfl
theorem Sys2Proof.Laws.Coded.arrival : ∀ key, Sys2Proof.Laws.Coded.Statement (.arrival key) := fun _ => rfl
theorem Sys2Proof.Laws.Coded.result : ∀ k, Sys2Proof.Laws.Coded.Statement (.result k) := fun _ => rfl
theorem Sys2Proof.Laws.Coded.poisonedResult : ∀ k, Sys2Proof.Laws.Coded.Statement (.poisonedResult k) := fun _ => rfl
theorem Sys2Proof.Laws.Coded.storeAnswer : ∀ k, Sys2Proof.Laws.Coded.Statement (.storeAnswer k) := fun _ => rfl
theorem Sys2Proof.Laws.Coded.storePerform : ∀ k, Sys2Proof.Laws.Coded.Statement (.storePerform k) := fun _ => rfl
theorem Sys2Proof.Laws.Coded.contextLineStore : ∀ k, Sys2Proof.Laws.Coded.Statement (.contextLineStore k) := fun _ => rfl
theorem Sys2Proof.Laws.Coded.message : ∀ k, Sys2Proof.Laws.Coded.Statement (.message k) := fun _ => rfl
theorem Sys2Proof.Laws.Coded.sendStatus : ∀ k, Sys2Proof.Laws.Coded.Statement (.sendStatus k) := fun _ => rfl
theorem Sys2Proof.Laws.Coded.futureWalk : ∀ k, Sys2Proof.Laws.Coded.Statement (.futureWalk k) := fun _ => rfl
theorem Sys2Proof.Laws.Coded.barrierWake : ∀ key link n, Sys2Proof.Laws.Coded.Statement (.barrierWake key link n) := fun _ _ _ => rfl
theorem Sys2Proof.Laws.Coded.timerWake : ∀ key, Sys2Proof.Laws.Coded.Statement (.timerWake key) := fun _ => rfl
theorem Sys2Proof.Laws.Coded.trapEntry : ∀ key, Sys2Proof.Laws.Coded.Statement (.trapEntry key) := fun _ => rfl
theorem Sys2Proof.Laws.Coded.translationWalk : ∀ k, Sys2Proof.Laws.Coded.Statement (.translationWalk k) := fun _ => rfl
theorem Sys2Proof.Laws.Coded.walkCompletion : ∀ k, Sys2Proof.Laws.Coded.Statement (.walkCompletion k) := fun _ => rfl
theorem Sys2Proof.Laws.Coded.gets : ∀ line die, Sys2Proof.Laws.Coded.Statement (.gets line die) := fun _ _ => rfl
theorem Sys2Proof.Laws.Coded.geto : ∀ line die, Sys2Proof.Laws.Coded.Statement (.geto line die) := fun _ _ => rfl
theorem Sys2Proof.Laws.Coded.upg : ∀ line die, Sys2Proof.Laws.Coded.Statement (.upg line die) := fun _ _ => rfl
theorem Sys2Proof.Laws.Coded.puto : ∀ line die, Sys2Proof.Laws.Coded.Statement (.puto line die) := fun _ _ => rfl
theorem Sys2Proof.Laws.Coded.wrnt : ∀ k, Sys2Proof.Laws.Coded.Statement (.wrnt k) := fun _ => rfl
theorem Sys2Proof.Laws.Coded.adds : ∀ line die, Sys2Proof.Laws.Coded.Statement (.adds line die) := fun _ _ => rfl
theorem Sys2Proof.Laws.Coded.inv : ∀ line die, Sys2Proof.Laws.Coded.Statement (.inv line die) := fun _ _ => rfl
theorem Sys2Proof.Laws.Coded.rcls : ∀ line die, Sys2Proof.Laws.Coded.Statement (.rcls line die) := fun _ _ => rfl
theorem Sys2Proof.Laws.Coded.rcli : ∀ line die, Sys2Proof.Laws.Coded.Statement (.rcli line die) := fun _ _ => rfl
theorem Sys2Proof.Laws.Coded.invack : ∀ line die, Sys2Proof.Laws.Coded.Statement (.invack line die) := fun _ _ => rfl
theorem Sys2Proof.Laws.Coded.rcldata : ∀ line die, Sys2Proof.Laws.Coded.Statement (.rcldata line die) := fun _ _ => rfl
theorem Sys2Proof.Laws.Coded.datas : ∀ line die, Sys2Proof.Laws.Coded.Statement (.datas line die) := fun _ _ => rfl
theorem Sys2Proof.Laws.Coded.datao : ∀ line die, Sys2Proof.Laws.Coded.Statement (.datao line die) := fun _ _ => rfl
theorem Sys2Proof.Laws.Coded.hostMemRead : ∀ tag pa n, Sys2Proof.Laws.Coded.Statement (.hostMemRead tag pa n) := fun _ _ _ => rfl
theorem Sys2Proof.Laws.Coded.hostMemWrite : ∀ pa bytes, Sys2Proof.Laws.Coded.Statement (.hostMemWrite pa bytes) := fun _ _ => rfl
theorem Sys2Proof.Laws.Coded.backInvalidationResponse : ∀ line, Sys2Proof.Laws.Coded.Statement (.backInvalidationResponse line) := fun _ => rfl
theorem Sys2Proof.Laws.Coded.eccCorrected : ∀ pa, Sys2Proof.Laws.Coded.Statement (.eccCorrected pa) := fun _ => rfl
theorem Sys2Proof.Laws.Coded.uncorrectableError : ∀ pa, Sys2Proof.Laws.Coded.Statement (.uncorrectableError pa) := fun _ => rfl
theorem Sys2Proof.Laws.Coded.memorySideDown : ∀ die, Sys2Proof.Laws.Coded.Statement (.memorySideDown die) := fun _ => rfl
theorem Sys2Proof.Laws.Coded.rejoin : ∀ die, Sys2Proof.Laws.Coded.Statement (.rejoin die) := fun _ => rfl
theorem Sys2Proof.Laws.Coded.tilePrepare : ∀ quad iu, Sys2Proof.Laws.Coded.Statement (.tilePrepare quad iu) := fun _ _ => rfl
theorem Sys2Proof.Laws.Coded.tileStart : ∀ quad, Sys2Proof.Laws.Coded.Statement (.tileStart quad) := fun _ => rfl
theorem Sys2Proof.Laws.Coded.tileCommit : ∀ quad, Sys2Proof.Laws.Coded.Statement (.tileCommit quad) := fun _ => rfl
theorem Sys2Proof.Laws.Coded.rottime : ∀ quad, Sys2Proof.Laws.Coded.Statement (.rottime quad) := fun _ => rfl
theorem Sys2Proof.Laws.Coded.ceCompletion : ∀ cluster, Sys2Proof.Laws.Coded.Statement (.ceCompletion cluster) := fun _ => rfl
theorem Sys2Proof.Laws.Coded.bdeCompletion : ∀ stack, Sys2Proof.Laws.Coded.Statement (.bdeCompletion stack) := fun _ => rfl
theorem Sys2Proof.Laws.Coded.rlcClaim : ∀ cluster, Sys2Proof.Laws.Coded.Statement (.rlcClaim cluster) := fun _ => rfl
theorem Sys2Proof.Laws.Coded.rlcCheckpoint : ∀ cluster, Sys2Proof.Laws.Coded.Statement (.rlcCheckpoint cluster) := fun _ => rfl
theorem Sys2Proof.Laws.Coded.rlcxStart : ∀ cluster, Sys2Proof.Laws.Coded.Statement (.rlcxStart cluster) := fun _ => rfl
theorem Sys2Proof.Laws.Coded.dequePop : ∀ iu, Sys2Proof.Laws.Coded.Statement (.dequePop iu) := fun _ => rfl
theorem Sys2Proof.Laws.Coded.stealRound : ∀ iu, Sys2Proof.Laws.Coded.Statement (.stealRound iu) := fun _ => rfl
theorem Sys2Proof.Laws.Coded.stealRequest : ∀ victim thief, Sys2Proof.Laws.Coded.Statement (.stealRequest victim thief) := fun _ _ => rfl
theorem Sys2Proof.Laws.Coded.stealAnswer : ∀ thief, Sys2Proof.Laws.Coded.Statement (.stealAnswer thief) := fun _ => rfl
theorem Sys2Proof.Laws.Coded.powerSample : ∀ die, Sys2Proof.Laws.Coded.Statement (.powerSample die) := fun _ => rfl
theorem Sys2Proof.Laws.Coded.relockEnd : ∀ die, Sys2Proof.Laws.Coded.Statement (.relockEnd die) := fun _ => rfl
theorem Sys2Proof.Laws.Coded.thermalShutdown : ∀ die, Sys2Proof.Laws.Coded.Statement (.thermalShutdown die) := fun _ => rfl
theorem Sys2Proof.Laws.Coded.hbmThrottle : ∀ stack temp, Sys2Proof.Laws.Coded.Statement (.hbmThrottle stack temp) := fun _ _ => rfl
theorem Sys2Proof.Laws.Coded.watchdogExpiry : ∀ part, Sys2Proof.Laws.Coded.Statement (.watchdogExpiry part) := fun _ => rfl
theorem Sys2Proof.Laws.Coded.linkTraining : ∀ port width, Sys2Proof.Laws.Coded.Statement (.linkTraining port width) := fun _ _ => rfl
theorem Sys2Proof.Laws.Coded.portDown : ∀ port, Sys2Proof.Laws.Coded.Statement (.portDown port) := fun _ => rfl
theorem Sys2Proof.Laws.Coded.peerTimeout : ∀ k, Sys2Proof.Laws.Coded.Statement (.peerTimeout k) := fun _ => rfl
theorem Sys2Proof.Laws.Coded.unassignedWordPattern : ∀ w0 w1 detail, Sys2Proof.Laws.Coded.Statement (.unassignedWordPattern w0 w1 detail) := fun _ _ _ => rfl
theorem Sys2Proof.Laws.Coded.consecutiveClockStep : ∀ die, Sys2Proof.Laws.Coded.Statement (.consecutiveClockStep die) := fun _ => rfl
theorem Sys2Proof.Laws.Coded.badCommand : ∀ part win, Sys2Proof.Laws.Coded.Statement (.badCommand part win) := fun _ _ => rfl
theorem Sys2Proof.Laws.Coded.roleCheck : Sys2Proof.Laws.Coded.Statement (.roleCheck) := rfl
theorem Sys2Proof.Laws.Coded.reEnumerate : Sys2Proof.Laws.Coded.Statement (.reEnumerate) := rfl
theorem Sys2Proof.Laws.Coded.patchSwitch : Sys2Proof.Laws.Coded.Statement (.patchSwitch) := rfl
theorem Sys2Proof.Laws.Coded.patchTimeout : Sys2Proof.Laws.Coded.Statement (.patchTimeout) := rfl
theorem Sys2Proof.Laws.Coded.settle : Sys2Proof.Laws.Coded.Statement (.settle) := rfl
theorem Sys2Proof.Laws.Coded.spillAll : Sys2Proof.Laws.Coded.Statement (.spillAll) := rfl
theorem Sys2Proof.Laws.Coded.flush : Sys2Proof.Laws.Coded.Statement (.flush) := rfl
theorem Sys2Proof.Laws.Coded.copy : Sys2Proof.Laws.Coded.Statement (.copy) := rfl
theorem Sys2Proof.Laws.Coded.release : Sys2Proof.Laws.Coded.Statement (.release) := rfl
theorem Sys2Proof.Laws.Coded.scrubComplete : Sys2Proof.Laws.Coded.Statement (.scrubComplete) := rfl
theorem Sys2Proof.Laws.Coded.thawed : Sys2Proof.Laws.Coded.Statement (.thawed) := rfl
theorem Sys2Proof.Laws.Coded.coldReset : Sys2Proof.Laws.Coded.Statement (.coldReset) := rfl
theorem Sys2Proof.Laws.Coded.warmReset : Sys2Proof.Laws.Coded.Statement (.warmReset) := rfl
end

