-- ==== Sys2Proof/Laws/Runs.lean ====
section
/-! SUPPORT. Every instruction goes through the one issue attempt, with the registers, words, rounding and privilege that Safety lists. -/

-- One proof after another, not side by side: threads that wait for the kernel each hold a stack.
set_option Elab.async false

namespace Sys2Proof.Machine

/-- `exec` of an instruction is an attempt with this shape. -/
def RunsAs (i : Instr) (hd : Hdr) : Prop :=
  ∃ sh act, (∀ s, exec i s = State.run s i sh act) ∧ sh.hd = hd ∧ sh.words = wordsOf i ∧ sh.rounds = roundsInstr i ∧ sh.sup = supInstr i ∧
    (∀ r, r ∈ sh.reads ↔ r ∈ readsRegs i) ∧ ∀ r, (r ∈ sh.reads ∨ r ∈ sh.writes) ↔ r ∈ namesRegs i

/-- The registers of a handle operand as Safety lists them are those its meaning reads. -/
theorem hopNames_eq (o : HOp) : hopNames o = hopRegs o := by cases o <;> rfl

/-- An engine command's meaning is an attempt with its shape. -/
theorem runCommand_eq {i : Instr} {sh : Shape} (h : cmdShape i = some sh) (s : State) (enq : State → Cmd → State) :
    s.runCommand i enq = s.run i sh fun e s => s.command e sh.hd.s enq := by
  rw [State.runCommand, h]

set_option linter.unusedSimpArgs false in
set_option maxHeartbeats 1000000 in
theorem runsAs (i : Instr) (hd : Hdr) (hh : instrHdr i = some hd) : RunsAs i hd := by
  cases i <;> first
   | (simp only [instrHdr, reduceCtorEq] at hh; done)
   | (rename_i h r a
      simp only [instrHdr, Option.some.injEq] at hh; subst hh
      by_cases hr : cregRo r = true
      · exact ⟨_, _, fun s => by show execWrs h r a s = _; rw [execWrs, if_pos hr], rfl, rfl, rfl, rfl,
          by simp [shape, readsRegs, namesRegs, hr], by simp [shape, namesRegs, hr]⟩
      · exact ⟨_, _, fun s => by show execWrs h r a s = _; rw [execWrs, if_neg hr], rfl, rfl, rfl, rfl,
          by simp [shape, readsRegs, namesRegs, hr], by simp [shape, namesRegs, hr]⟩)
   | (simp only [instrHdr, Option.some.injEq] at hh; subst hh
      refine ⟨_, _, fun s => rfl, rfl, rfl, ?_, rfl, ?_, ?_⟩
      · rfl
      · first
          | (intro r; rfl)
          | (intro r; simp [shape, fshape, tshape, eshape, readsRegs, namesRegs, tailNames, hopNames_eq, regAdd]; done)
          | (intro r; simp [shape, fshape, tshape, eshape, readsRegs, namesRegs, tailNames, hopNames_eq, regAdd]; tauto)
      · first
          | (intro r; simp [shape, fshape, tshape, eshape, namesRegs, tailNames, hopNames_eq]; done)
          | (intro r; simp [shape, fshape, tshape, eshape, namesRegs, tailNames, hopNames_eq, regAdd, readsRegs]; tauto)
          | (intro r; simp only [shape, fshape, tshape, eshape, namesRegs, tailNames, hopNames_eq, regAdd]; simp [*]))

end Sys2Proof.Machine
end

