-- ==== Sys2Proof/Laws/State.lean ====
section
/-! SUPPORT. What each basic update of the state gives for each field: one lemma a field and an update, so that no proof unfolds a record update. -/

namespace Sys2Proof.Machine

variable (s : State)

/-! ### emit -/

@[simp] theorem State.emit_tick (i : Instr) : (s.emit i).tick = s.tick := rfl
@[simp] theorem State.emit_agenda (i : Instr) : (s.emit i).agenda = s.agenda ++ [i] := rfl
@[simp] theorem State.emit_soon (i : Instr) : (s.emit i).soon = s.soon := rfl
@[simp] theorem State.emit_late (i : Instr) : (s.emit i).late = s.late := rfl
@[simp] theorem State.emit_cur (i : Instr) : (s.emit i).cur = s.cur := rfl
@[simp] theorem State.emit_nextId (i : Instr) : (s.emit i).nextId = s.nextId := rfl
@[simp] theorem State.emit_now (i : Instr) : (s.emit i).now = s.now := rfl
@[simp] theorem State.emit_mem (i : Instr) : (s.emit i).mem = s.mem := rfl
@[simp] theorem State.emit_poison (i : Instr) : (s.emit i).poison = s.poison := rfl
@[simp] theorem State.emit_stamps (i : Instr) : (s.emit i).stamps = s.stamps := rfl
@[simp] theorem State.emit_held (i : Instr) : (s.emit i).held = s.held := rfl
@[simp] theorem State.emit_live (i : Instr) : (s.emit i).live = s.live := rfl
@[simp] theorem State.emit_tags (i : Instr) : (s.emit i).tags = s.tags := rfl
@[simp] theorem State.emit_toks (i : Instr) : (s.emit i).toks = s.toks := rfl
@[simp] theorem State.emit_traps (i : Instr) : (s.emit i).traps = s.traps := rfl
@[simp] theorem State.emit_fences (i : Instr) : (s.emit i).fences = s.fences := rfl
@[simp] theorem State.emit_timers (i : Instr) : (s.emit i).timers = s.timers := rfl
@[simp] theorem State.emit_gregs (i : Instr) : (s.emit i).gregs = s.gregs := rfl
@[simp] theorem State.emit_l1 (i : Instr) : (s.emit i).l1 = s.l1 := rfl
@[simp] theorem State.emit_l2 (i : Instr) : (s.emit i).l2 = s.l2 := rfl
@[simp] theorem State.emit_peer (i : Instr) : (s.emit i).peer = s.peer := rfl
@[simp] theorem State.emit_hovs (i : Instr) : (s.emit i).hovs = s.hovs := rfl
@[simp] theorem State.emit_dir (i : Instr) : (s.emit i).dir = s.dir := rfl
@[simp] theorem State.emit_sram (i : Instr) : (s.emit i).sram = s.sram := rfl
@[simp] theorem State.emit_flc (i : Instr) : (s.emit i).flc = s.flc := rfl
@[simp] theorem State.emit_claims (i : Instr) : (s.emit i).claims = s.claims := rfl
@[simp] theorem State.emit_tcache (i : Instr) : (s.emit i).tcache = s.tcache := rfl
@[simp] theorem State.emit_wcache (i : Instr) : (s.emit i).wcache = s.wcache := rfl
@[simp] theorem State.emit_walks (i : Instr) : (s.emit i).walks = s.walks := rfl
@[simp] theorem State.emit_ops (i : Instr) : (s.emit i).ops = s.ops := rfl
@[simp] theorem State.emit_stores (i : Instr) : (s.emit i).stores = s.stores := rfl
@[simp] theorem State.emit_sends (i : Instr) : (s.emit i).sends = s.sends := rfl
@[simp] theorem State.emit_futs (i : Instr) : (s.emit i).futs = s.futs := rfl
@[simp] theorem State.emit_handles (i : Instr) : (s.emit i).handles = s.handles := rfl
@[simp] theorem State.emit_tes (i : Instr) : (s.emit i).tes = s.tes := rfl
@[simp] theorem State.emit_ces (i : Instr) : (s.emit i).ces = s.ces := rfl
@[simp] theorem State.emit_runs (i : Instr) : (s.emit i).runs = s.runs := rfl
@[simp] theorem State.emit_bdes (i : Instr) : (s.emit i).bdes = s.bdes := rfl
@[simp] theorem State.emit_rlcs (i : Instr) : (s.emit i).rlcs = s.rlcs := rfl
@[simp] theorem State.emit_ius (i : Instr) : (s.emit i).ius = s.ius := rfl
@[simp] theorem State.emit_parts (i : Instr) : (s.emit i).parts = s.parts := rfl
@[simp] theorem State.emit_images (i : Instr) : (s.emit i).images = s.images := rfl
@[simp] theorem State.emit_dies (i : Instr) : (s.emit i).dies = s.dies := rfl
@[simp] theorem State.emit_fws (i : Instr) : (s.emit i).fws = s.fws := rfl
@[simp] theorem State.emit_fware (i : Instr) : (s.emit i).fware = s.fware := rfl
@[simp] theorem State.emit_wtab (i : Instr) : (s.emit i).wtab = s.wtab := rfl
@[simp] theorem State.emit_ports (i : Instr) : (s.emit i).ports = s.ports := rfl
@[simp] theorem State.emit_bbox (i : Instr) : (s.emit i).bbox = s.bbox := rfl
@[simp] theorem State.emit_resps (i : Instr) : (s.emit i).resps = s.resps := rfl
@[simp] theorem State.emit_asks (i : Instr) : (s.emit i).asks = s.asks := rfl
@[simp] theorem State.emit_acks (i : Instr) : (s.emit i).acks = s.acks := rfl
@[simp] theorem State.emit_hostReads (i : Instr) : (s.emit i).hostReads = s.hostReads := rfl
@[simp] theorem State.emit_hostErrs (i : Instr) : (s.emit i).hostErrs = s.hostErrs := rfl
@[simp] theorem State.emit_sent (i : Instr) : (s.emit i).sent = s.sent := rfl
@[simp] theorem State.emit_freeIds (i : Instr) : (s.emit i).freeIds = s.freeIds := rfl

/-! ### emits -/

@[simp] theorem State.emits_tick (is : List Instr) : (s.emits is).tick = s.tick := rfl
@[simp] theorem State.emits_agenda (is : List Instr) : (s.emits is).agenda = s.agenda ++ is := rfl
@[simp] theorem State.emits_soon (is : List Instr) : (s.emits is).soon = s.soon := rfl
@[simp] theorem State.emits_late (is : List Instr) : (s.emits is).late = s.late := rfl
@[simp] theorem State.emits_cur (is : List Instr) : (s.emits is).cur = s.cur := rfl
@[simp] theorem State.emits_nextId (is : List Instr) : (s.emits is).nextId = s.nextId := rfl
@[simp] theorem State.emits_now (is : List Instr) : (s.emits is).now = s.now := rfl
@[simp] theorem State.emits_mem (is : List Instr) : (s.emits is).mem = s.mem := rfl
@[simp] theorem State.emits_poison (is : List Instr) : (s.emits is).poison = s.poison := rfl
@[simp] theorem State.emits_stamps (is : List Instr) : (s.emits is).stamps = s.stamps := rfl
@[simp] theorem State.emits_held (is : List Instr) : (s.emits is).held = s.held := rfl
@[simp] theorem State.emits_live (is : List Instr) : (s.emits is).live = s.live := rfl
@[simp] theorem State.emits_tags (is : List Instr) : (s.emits is).tags = s.tags := rfl
@[simp] theorem State.emits_toks (is : List Instr) : (s.emits is).toks = s.toks := rfl
@[simp] theorem State.emits_traps (is : List Instr) : (s.emits is).traps = s.traps := rfl
@[simp] theorem State.emits_fences (is : List Instr) : (s.emits is).fences = s.fences := rfl
@[simp] theorem State.emits_timers (is : List Instr) : (s.emits is).timers = s.timers := rfl
@[simp] theorem State.emits_gregs (is : List Instr) : (s.emits is).gregs = s.gregs := rfl
@[simp] theorem State.emits_l1 (is : List Instr) : (s.emits is).l1 = s.l1 := rfl
@[simp] theorem State.emits_l2 (is : List Instr) : (s.emits is).l2 = s.l2 := rfl
@[simp] theorem State.emits_peer (is : List Instr) : (s.emits is).peer = s.peer := rfl
@[simp] theorem State.emits_hovs (is : List Instr) : (s.emits is).hovs = s.hovs := rfl
@[simp] theorem State.emits_dir (is : List Instr) : (s.emits is).dir = s.dir := rfl
@[simp] theorem State.emits_sram (is : List Instr) : (s.emits is).sram = s.sram := rfl
@[simp] theorem State.emits_flc (is : List Instr) : (s.emits is).flc = s.flc := rfl
@[simp] theorem State.emits_claims (is : List Instr) : (s.emits is).claims = s.claims := rfl
@[simp] theorem State.emits_tcache (is : List Instr) : (s.emits is).tcache = s.tcache := rfl
@[simp] theorem State.emits_wcache (is : List Instr) : (s.emits is).wcache = s.wcache := rfl
@[simp] theorem State.emits_walks (is : List Instr) : (s.emits is).walks = s.walks := rfl
@[simp] theorem State.emits_ops (is : List Instr) : (s.emits is).ops = s.ops := rfl
@[simp] theorem State.emits_stores (is : List Instr) : (s.emits is).stores = s.stores := rfl
@[simp] theorem State.emits_sends (is : List Instr) : (s.emits is).sends = s.sends := rfl
@[simp] theorem State.emits_futs (is : List Instr) : (s.emits is).futs = s.futs := rfl
@[simp] theorem State.emits_handles (is : List Instr) : (s.emits is).handles = s.handles := rfl
@[simp] theorem State.emits_tes (is : List Instr) : (s.emits is).tes = s.tes := rfl
@[simp] theorem State.emits_ces (is : List Instr) : (s.emits is).ces = s.ces := rfl
@[simp] theorem State.emits_runs (is : List Instr) : (s.emits is).runs = s.runs := rfl
@[simp] theorem State.emits_bdes (is : List Instr) : (s.emits is).bdes = s.bdes := rfl
@[simp] theorem State.emits_rlcs (is : List Instr) : (s.emits is).rlcs = s.rlcs := rfl
@[simp] theorem State.emits_ius (is : List Instr) : (s.emits is).ius = s.ius := rfl
@[simp] theorem State.emits_parts (is : List Instr) : (s.emits is).parts = s.parts := rfl
@[simp] theorem State.emits_images (is : List Instr) : (s.emits is).images = s.images := rfl
@[simp] theorem State.emits_dies (is : List Instr) : (s.emits is).dies = s.dies := rfl
@[simp] theorem State.emits_fws (is : List Instr) : (s.emits is).fws = s.fws := rfl
@[simp] theorem State.emits_fware (is : List Instr) : (s.emits is).fware = s.fware := rfl
@[simp] theorem State.emits_wtab (is : List Instr) : (s.emits is).wtab = s.wtab := rfl
@[simp] theorem State.emits_ports (is : List Instr) : (s.emits is).ports = s.ports := rfl
@[simp] theorem State.emits_bbox (is : List Instr) : (s.emits is).bbox = s.bbox := rfl
@[simp] theorem State.emits_resps (is : List Instr) : (s.emits is).resps = s.resps := rfl
@[simp] theorem State.emits_asks (is : List Instr) : (s.emits is).asks = s.asks := rfl
@[simp] theorem State.emits_acks (is : List Instr) : (s.emits is).acks = s.acks := rfl
@[simp] theorem State.emits_hostReads (is : List Instr) : (s.emits is).hostReads = s.hostReads := rfl
@[simp] theorem State.emits_hostErrs (is : List Instr) : (s.emits is).hostErrs = s.hostErrs := rfl
@[simp] theorem State.emits_sent (is : List Instr) : (s.emits is).sent = s.sent := rfl
@[simp] theorem State.emits_freeIds (is : List Instr) : (s.emits is).freeIds = s.freeIds := rfl

/-! ### emitFirst -/

@[simp] theorem State.emitFirst_tick (i : Instr) : (s.emitFirst i).tick = s.tick := rfl
@[simp] theorem State.emitFirst_agenda (i : Instr) : (s.emitFirst i).agenda = i :: s.agenda := rfl
@[simp] theorem State.emitFirst_soon (i : Instr) : (s.emitFirst i).soon = s.soon := rfl
@[simp] theorem State.emitFirst_late (i : Instr) : (s.emitFirst i).late = s.late := rfl
@[simp] theorem State.emitFirst_cur (i : Instr) : (s.emitFirst i).cur = s.cur := rfl
@[simp] theorem State.emitFirst_nextId (i : Instr) : (s.emitFirst i).nextId = s.nextId := rfl
@[simp] theorem State.emitFirst_now (i : Instr) : (s.emitFirst i).now = s.now := rfl
@[simp] theorem State.emitFirst_mem (i : Instr) : (s.emitFirst i).mem = s.mem := rfl
@[simp] theorem State.emitFirst_poison (i : Instr) : (s.emitFirst i).poison = s.poison := rfl
@[simp] theorem State.emitFirst_stamps (i : Instr) : (s.emitFirst i).stamps = s.stamps := rfl
@[simp] theorem State.emitFirst_held (i : Instr) : (s.emitFirst i).held = s.held := rfl
@[simp] theorem State.emitFirst_live (i : Instr) : (s.emitFirst i).live = s.live := rfl
@[simp] theorem State.emitFirst_tags (i : Instr) : (s.emitFirst i).tags = s.tags := rfl
@[simp] theorem State.emitFirst_toks (i : Instr) : (s.emitFirst i).toks = s.toks := rfl
@[simp] theorem State.emitFirst_traps (i : Instr) : (s.emitFirst i).traps = s.traps := rfl
@[simp] theorem State.emitFirst_fences (i : Instr) : (s.emitFirst i).fences = s.fences := rfl
@[simp] theorem State.emitFirst_timers (i : Instr) : (s.emitFirst i).timers = s.timers := rfl
@[simp] theorem State.emitFirst_gregs (i : Instr) : (s.emitFirst i).gregs = s.gregs := rfl
@[simp] theorem State.emitFirst_l1 (i : Instr) : (s.emitFirst i).l1 = s.l1 := rfl
@[simp] theorem State.emitFirst_l2 (i : Instr) : (s.emitFirst i).l2 = s.l2 := rfl
@[simp] theorem State.emitFirst_peer (i : Instr) : (s.emitFirst i).peer = s.peer := rfl
@[simp] theorem State.emitFirst_hovs (i : Instr) : (s.emitFirst i).hovs = s.hovs := rfl
@[simp] theorem State.emitFirst_dir (i : Instr) : (s.emitFirst i).dir = s.dir := rfl
@[simp] theorem State.emitFirst_sram (i : Instr) : (s.emitFirst i).sram = s.sram := rfl
@[simp] theorem State.emitFirst_flc (i : Instr) : (s.emitFirst i).flc = s.flc := rfl
@[simp] theorem State.emitFirst_claims (i : Instr) : (s.emitFirst i).claims = s.claims := rfl
@[simp] theorem State.emitFirst_tcache (i : Instr) : (s.emitFirst i).tcache = s.tcache := rfl
@[simp] theorem State.emitFirst_wcache (i : Instr) : (s.emitFirst i).wcache = s.wcache := rfl
@[simp] theorem State.emitFirst_walks (i : Instr) : (s.emitFirst i).walks = s.walks := rfl
@[simp] theorem State.emitFirst_ops (i : Instr) : (s.emitFirst i).ops = s.ops := rfl
@[simp] theorem State.emitFirst_stores (i : Instr) : (s.emitFirst i).stores = s.stores := rfl
@[simp] theorem State.emitFirst_sends (i : Instr) : (s.emitFirst i).sends = s.sends := rfl
@[simp] theorem State.emitFirst_futs (i : Instr) : (s.emitFirst i).futs = s.futs := rfl
@[simp] theorem State.emitFirst_handles (i : Instr) : (s.emitFirst i).handles = s.handles := rfl
@[simp] theorem State.emitFirst_tes (i : Instr) : (s.emitFirst i).tes = s.tes := rfl
@[simp] theorem State.emitFirst_ces (i : Instr) : (s.emitFirst i).ces = s.ces := rfl
@[simp] theorem State.emitFirst_runs (i : Instr) : (s.emitFirst i).runs = s.runs := rfl
@[simp] theorem State.emitFirst_bdes (i : Instr) : (s.emitFirst i).bdes = s.bdes := rfl
@[simp] theorem State.emitFirst_rlcs (i : Instr) : (s.emitFirst i).rlcs = s.rlcs := rfl
@[simp] theorem State.emitFirst_ius (i : Instr) : (s.emitFirst i).ius = s.ius := rfl
@[simp] theorem State.emitFirst_parts (i : Instr) : (s.emitFirst i).parts = s.parts := rfl
@[simp] theorem State.emitFirst_images (i : Instr) : (s.emitFirst i).images = s.images := rfl
@[simp] theorem State.emitFirst_dies (i : Instr) : (s.emitFirst i).dies = s.dies := rfl
@[simp] theorem State.emitFirst_fws (i : Instr) : (s.emitFirst i).fws = s.fws := rfl
@[simp] theorem State.emitFirst_fware (i : Instr) : (s.emitFirst i).fware = s.fware := rfl
@[simp] theorem State.emitFirst_wtab (i : Instr) : (s.emitFirst i).wtab = s.wtab := rfl
@[simp] theorem State.emitFirst_ports (i : Instr) : (s.emitFirst i).ports = s.ports := rfl
@[simp] theorem State.emitFirst_bbox (i : Instr) : (s.emitFirst i).bbox = s.bbox := rfl
@[simp] theorem State.emitFirst_resps (i : Instr) : (s.emitFirst i).resps = s.resps := rfl
@[simp] theorem State.emitFirst_asks (i : Instr) : (s.emitFirst i).asks = s.asks := rfl
@[simp] theorem State.emitFirst_acks (i : Instr) : (s.emitFirst i).acks = s.acks := rfl
@[simp] theorem State.emitFirst_hostReads (i : Instr) : (s.emitFirst i).hostReads = s.hostReads := rfl
@[simp] theorem State.emitFirst_hostErrs (i : Instr) : (s.emitFirst i).hostErrs = s.hostErrs := rfl
@[simp] theorem State.emitFirst_sent (i : Instr) : (s.emitFirst i).sent = s.sent := rfl
@[simp] theorem State.emitFirst_freeIds (i : Instr) : (s.emitFirst i).freeIds = s.freeIds := rfl

/-! ### at -/

@[simp] theorem State.at_tick (t : Nat) : (s.at t).tick = s.tick := rfl
@[simp] theorem State.at_agenda (t : Nat) : (s.at t).agenda = s.agenda := rfl
@[simp] theorem State.at_soon (t : Nat) : (s.at t).soon = s.soon := rfl
@[simp] theorem State.at_late (t : Nat) : (s.at t).late = s.late := rfl
@[simp] theorem State.at_cur (t : Nat) : (s.at t).cur = s.cur := rfl
@[simp] theorem State.at_nextId (t : Nat) : (s.at t).nextId = s.nextId := rfl
@[simp] theorem State.at_now (t : Nat) : (s.at t).now = max s.now t := rfl
@[simp] theorem State.at_mem (t : Nat) : (s.at t).mem = s.mem := rfl
@[simp] theorem State.at_poison (t : Nat) : (s.at t).poison = s.poison := rfl
@[simp] theorem State.at_stamps (t : Nat) : (s.at t).stamps = s.stamps := rfl
@[simp] theorem State.at_held (t : Nat) : (s.at t).held = s.held := rfl
@[simp] theorem State.at_live (t : Nat) : (s.at t).live = s.live := rfl
@[simp] theorem State.at_tags (t : Nat) : (s.at t).tags = s.tags := rfl
@[simp] theorem State.at_toks (t : Nat) : (s.at t).toks = s.toks := rfl
@[simp] theorem State.at_traps (t : Nat) : (s.at t).traps = s.traps := rfl
@[simp] theorem State.at_fences (t : Nat) : (s.at t).fences = s.fences := rfl
@[simp] theorem State.at_timers (t : Nat) : (s.at t).timers = s.timers := rfl
@[simp] theorem State.at_gregs (t : Nat) : (s.at t).gregs = s.gregs := rfl
@[simp] theorem State.at_l1 (t : Nat) : (s.at t).l1 = s.l1 := rfl
@[simp] theorem State.at_l2 (t : Nat) : (s.at t).l2 = s.l2 := rfl
@[simp] theorem State.at_peer (t : Nat) : (s.at t).peer = s.peer := rfl
@[simp] theorem State.at_hovs (t : Nat) : (s.at t).hovs = s.hovs := rfl
@[simp] theorem State.at_dir (t : Nat) : (s.at t).dir = s.dir := rfl
@[simp] theorem State.at_sram (t : Nat) : (s.at t).sram = s.sram := rfl
@[simp] theorem State.at_flc (t : Nat) : (s.at t).flc = s.flc := rfl
@[simp] theorem State.at_claims (t : Nat) : (s.at t).claims = s.claims := rfl
@[simp] theorem State.at_tcache (t : Nat) : (s.at t).tcache = s.tcache := rfl
@[simp] theorem State.at_wcache (t : Nat) : (s.at t).wcache = s.wcache := rfl
@[simp] theorem State.at_walks (t : Nat) : (s.at t).walks = s.walks := rfl
@[simp] theorem State.at_ops (t : Nat) : (s.at t).ops = s.ops := rfl
@[simp] theorem State.at_stores (t : Nat) : (s.at t).stores = s.stores := rfl
@[simp] theorem State.at_sends (t : Nat) : (s.at t).sends = s.sends := rfl
@[simp] theorem State.at_futs (t : Nat) : (s.at t).futs = s.futs := rfl
@[simp] theorem State.at_handles (t : Nat) : (s.at t).handles = s.handles := rfl
@[simp] theorem State.at_tes (t : Nat) : (s.at t).tes = s.tes := rfl
@[simp] theorem State.at_ces (t : Nat) : (s.at t).ces = s.ces := rfl
@[simp] theorem State.at_runs (t : Nat) : (s.at t).runs = s.runs := rfl
@[simp] theorem State.at_bdes (t : Nat) : (s.at t).bdes = s.bdes := rfl
@[simp] theorem State.at_rlcs (t : Nat) : (s.at t).rlcs = s.rlcs := rfl
@[simp] theorem State.at_ius (t : Nat) : (s.at t).ius = s.ius := rfl
@[simp] theorem State.at_parts (t : Nat) : (s.at t).parts = s.parts := rfl
@[simp] theorem State.at_images (t : Nat) : (s.at t).images = s.images := rfl
@[simp] theorem State.at_dies (t : Nat) : (s.at t).dies = s.dies := rfl
@[simp] theorem State.at_fws (t : Nat) : (s.at t).fws = s.fws := rfl
@[simp] theorem State.at_fware (t : Nat) : (s.at t).fware = s.fware := rfl
@[simp] theorem State.at_wtab (t : Nat) : (s.at t).wtab = s.wtab := rfl
@[simp] theorem State.at_ports (t : Nat) : (s.at t).ports = s.ports := rfl
@[simp] theorem State.at_bbox (t : Nat) : (s.at t).bbox = s.bbox := rfl
@[simp] theorem State.at_resps (t : Nat) : (s.at t).resps = s.resps := rfl
@[simp] theorem State.at_asks (t : Nat) : (s.at t).asks = s.asks := rfl
@[simp] theorem State.at_acks (t : Nat) : (s.at t).acks = s.acks := rfl
@[simp] theorem State.at_hostReads (t : Nat) : (s.at t).hostReads = s.hostReads := rfl
@[simp] theorem State.at_hostErrs (t : Nat) : (s.at t).hostErrs = s.hostErrs := rfl
@[simp] theorem State.at_sent (t : Nat) : (s.at t).sent = s.sent := rfl
@[simp] theorem State.at_freeIds (t : Nat) : (s.at t).freeIds = s.freeIds := rfl

/-! ### bump -/

@[simp] theorem State.bump_tick : (s.bump).tick = s.tick := rfl
@[simp] theorem State.bump_agenda : (s.bump).agenda = s.agenda := rfl
@[simp] theorem State.bump_soon : (s.bump).soon = s.soon := rfl
@[simp] theorem State.bump_late : (s.bump).late = s.late := rfl
@[simp] theorem State.bump_cur : (s.bump).cur = s.cur := rfl
@[simp] theorem State.bump_nextId : (s.bump).nextId = s.nextId + 1 := rfl
@[simp] theorem State.bump_now : (s.bump).now = s.now := rfl
@[simp] theorem State.bump_mem : (s.bump).mem = s.mem := rfl
@[simp] theorem State.bump_poison : (s.bump).poison = s.poison := rfl
@[simp] theorem State.bump_stamps : (s.bump).stamps = s.stamps := rfl
@[simp] theorem State.bump_held : (s.bump).held = s.held := rfl
@[simp] theorem State.bump_live : (s.bump).live = s.live := rfl
@[simp] theorem State.bump_tags : (s.bump).tags = s.tags := rfl
@[simp] theorem State.bump_toks : (s.bump).toks = s.toks := rfl
@[simp] theorem State.bump_traps : (s.bump).traps = s.traps := rfl
@[simp] theorem State.bump_fences : (s.bump).fences = s.fences := rfl
@[simp] theorem State.bump_timers : (s.bump).timers = s.timers := rfl
@[simp] theorem State.bump_gregs : (s.bump).gregs = s.gregs := rfl
@[simp] theorem State.bump_l1 : (s.bump).l1 = s.l1 := rfl
@[simp] theorem State.bump_l2 : (s.bump).l2 = s.l2 := rfl
@[simp] theorem State.bump_peer : (s.bump).peer = s.peer := rfl
@[simp] theorem State.bump_hovs : (s.bump).hovs = s.hovs := rfl
@[simp] theorem State.bump_dir : (s.bump).dir = s.dir := rfl
@[simp] theorem State.bump_sram : (s.bump).sram = s.sram := rfl
@[simp] theorem State.bump_flc : (s.bump).flc = s.flc := rfl
@[simp] theorem State.bump_claims : (s.bump).claims = s.claims := rfl
@[simp] theorem State.bump_tcache : (s.bump).tcache = s.tcache := rfl
@[simp] theorem State.bump_wcache : (s.bump).wcache = s.wcache := rfl
@[simp] theorem State.bump_walks : (s.bump).walks = s.walks := rfl
@[simp] theorem State.bump_ops : (s.bump).ops = s.ops := rfl
@[simp] theorem State.bump_stores : (s.bump).stores = s.stores := rfl
@[simp] theorem State.bump_sends : (s.bump).sends = s.sends := rfl
@[simp] theorem State.bump_futs : (s.bump).futs = s.futs := rfl
@[simp] theorem State.bump_handles : (s.bump).handles = s.handles := rfl
@[simp] theorem State.bump_tes : (s.bump).tes = s.tes := rfl
@[simp] theorem State.bump_ces : (s.bump).ces = s.ces := rfl
@[simp] theorem State.bump_runs : (s.bump).runs = s.runs := rfl
@[simp] theorem State.bump_bdes : (s.bump).bdes = s.bdes := rfl
@[simp] theorem State.bump_rlcs : (s.bump).rlcs = s.rlcs := rfl
@[simp] theorem State.bump_ius : (s.bump).ius = s.ius := rfl
@[simp] theorem State.bump_parts : (s.bump).parts = s.parts := rfl
@[simp] theorem State.bump_images : (s.bump).images = s.images := rfl
@[simp] theorem State.bump_dies : (s.bump).dies = s.dies := rfl
@[simp] theorem State.bump_fws : (s.bump).fws = s.fws := rfl
@[simp] theorem State.bump_fware : (s.bump).fware = s.fware := rfl
@[simp] theorem State.bump_wtab : (s.bump).wtab = s.wtab := rfl
@[simp] theorem State.bump_ports : (s.bump).ports = s.ports := rfl
@[simp] theorem State.bump_bbox : (s.bump).bbox = s.bbox := rfl
@[simp] theorem State.bump_resps : (s.bump).resps = s.resps := rfl
@[simp] theorem State.bump_asks : (s.bump).asks = s.asks := rfl
@[simp] theorem State.bump_acks : (s.bump).acks = s.acks := rfl
@[simp] theorem State.bump_hostReads : (s.bump).hostReads = s.hostReads := rfl
@[simp] theorem State.bump_hostErrs : (s.bump).hostErrs = s.hostErrs := rfl
@[simp] theorem State.bump_sent : (s.bump).sent = s.sent := rfl
@[simp] theorem State.bump_freeIds : (s.bump).freeIds = s.freeIds := rfl

/-! ### modIu -/

@[simp] theorem State.modIu_tick (n : Nat) (f : Iu → Iu) : (s.modIu n f).tick = s.tick := rfl
@[simp] theorem State.modIu_agenda (n : Nat) (f : Iu → Iu) : (s.modIu n f).agenda = s.agenda := rfl
@[simp] theorem State.modIu_soon (n : Nat) (f : Iu → Iu) : (s.modIu n f).soon = s.soon := rfl
@[simp] theorem State.modIu_late (n : Nat) (f : Iu → Iu) : (s.modIu n f).late = s.late := rfl
@[simp] theorem State.modIu_cur (n : Nat) (f : Iu → Iu) : (s.modIu n f).cur = s.cur := rfl
@[simp] theorem State.modIu_nextId (n : Nat) (f : Iu → Iu) : (s.modIu n f).nextId = s.nextId := rfl
@[simp] theorem State.modIu_now (n : Nat) (f : Iu → Iu) : (s.modIu n f).now = s.now := rfl
@[simp] theorem State.modIu_mem (n : Nat) (f : Iu → Iu) : (s.modIu n f).mem = s.mem := rfl
@[simp] theorem State.modIu_poison (n : Nat) (f : Iu → Iu) : (s.modIu n f).poison = s.poison := rfl
@[simp] theorem State.modIu_stamps (n : Nat) (f : Iu → Iu) : (s.modIu n f).stamps = s.stamps := rfl
@[simp] theorem State.modIu_held (n : Nat) (f : Iu → Iu) : (s.modIu n f).held = s.held := rfl
@[simp] theorem State.modIu_live (n : Nat) (f : Iu → Iu) : (s.modIu n f).live = s.live := rfl
@[simp] theorem State.modIu_tags (n : Nat) (f : Iu → Iu) : (s.modIu n f).tags = s.tags := rfl
@[simp] theorem State.modIu_toks (n : Nat) (f : Iu → Iu) : (s.modIu n f).toks = s.toks := rfl
@[simp] theorem State.modIu_traps (n : Nat) (f : Iu → Iu) : (s.modIu n f).traps = s.traps := rfl
@[simp] theorem State.modIu_fences (n : Nat) (f : Iu → Iu) : (s.modIu n f).fences = s.fences := rfl
@[simp] theorem State.modIu_timers (n : Nat) (f : Iu → Iu) : (s.modIu n f).timers = s.timers := rfl
@[simp] theorem State.modIu_gregs (n : Nat) (f : Iu → Iu) : (s.modIu n f).gregs = s.gregs := rfl
@[simp] theorem State.modIu_l1 (n : Nat) (f : Iu → Iu) : (s.modIu n f).l1 = s.l1 := rfl
@[simp] theorem State.modIu_l2 (n : Nat) (f : Iu → Iu) : (s.modIu n f).l2 = s.l2 := rfl
@[simp] theorem State.modIu_peer (n : Nat) (f : Iu → Iu) : (s.modIu n f).peer = s.peer := rfl
@[simp] theorem State.modIu_hovs (n : Nat) (f : Iu → Iu) : (s.modIu n f).hovs = s.hovs := rfl
@[simp] theorem State.modIu_dir (n : Nat) (f : Iu → Iu) : (s.modIu n f).dir = s.dir := rfl
@[simp] theorem State.modIu_sram (n : Nat) (f : Iu → Iu) : (s.modIu n f).sram = s.sram := rfl
@[simp] theorem State.modIu_flc (n : Nat) (f : Iu → Iu) : (s.modIu n f).flc = s.flc := rfl
@[simp] theorem State.modIu_claims (n : Nat) (f : Iu → Iu) : (s.modIu n f).claims = s.claims := rfl
@[simp] theorem State.modIu_tcache (n : Nat) (f : Iu → Iu) : (s.modIu n f).tcache = s.tcache := rfl
@[simp] theorem State.modIu_wcache (n : Nat) (f : Iu → Iu) : (s.modIu n f).wcache = s.wcache := rfl
@[simp] theorem State.modIu_walks (n : Nat) (f : Iu → Iu) : (s.modIu n f).walks = s.walks := rfl
@[simp] theorem State.modIu_ops (n : Nat) (f : Iu → Iu) : (s.modIu n f).ops = s.ops := rfl
@[simp] theorem State.modIu_stores (n : Nat) (f : Iu → Iu) : (s.modIu n f).stores = s.stores := rfl
@[simp] theorem State.modIu_sends (n : Nat) (f : Iu → Iu) : (s.modIu n f).sends = s.sends := rfl
@[simp] theorem State.modIu_futs (n : Nat) (f : Iu → Iu) : (s.modIu n f).futs = s.futs := rfl
@[simp] theorem State.modIu_handles (n : Nat) (f : Iu → Iu) : (s.modIu n f).handles = s.handles := rfl
@[simp] theorem State.modIu_tes (n : Nat) (f : Iu → Iu) : (s.modIu n f).tes = s.tes := rfl
@[simp] theorem State.modIu_ces (n : Nat) (f : Iu → Iu) : (s.modIu n f).ces = s.ces := rfl
@[simp] theorem State.modIu_runs (n : Nat) (f : Iu → Iu) : (s.modIu n f).runs = s.runs := rfl
@[simp] theorem State.modIu_bdes (n : Nat) (f : Iu → Iu) : (s.modIu n f).bdes = s.bdes := rfl
@[simp] theorem State.modIu_rlcs (n : Nat) (f : Iu → Iu) : (s.modIu n f).rlcs = s.rlcs := rfl
@[simp] theorem State.modIu_ius (n : Nat) (f : Iu → Iu) : (s.modIu n f).ius = mapUpd s.ius n iuReset f := rfl
@[simp] theorem State.modIu_parts (n : Nat) (f : Iu → Iu) : (s.modIu n f).parts = s.parts := rfl
@[simp] theorem State.modIu_images (n : Nat) (f : Iu → Iu) : (s.modIu n f).images = s.images := rfl
@[simp] theorem State.modIu_dies (n : Nat) (f : Iu → Iu) : (s.modIu n f).dies = s.dies := rfl
@[simp] theorem State.modIu_fws (n : Nat) (f : Iu → Iu) : (s.modIu n f).fws = s.fws := rfl
@[simp] theorem State.modIu_fware (n : Nat) (f : Iu → Iu) : (s.modIu n f).fware = s.fware := rfl
@[simp] theorem State.modIu_wtab (n : Nat) (f : Iu → Iu) : (s.modIu n f).wtab = s.wtab := rfl
@[simp] theorem State.modIu_ports (n : Nat) (f : Iu → Iu) : (s.modIu n f).ports = s.ports := rfl
@[simp] theorem State.modIu_bbox (n : Nat) (f : Iu → Iu) : (s.modIu n f).bbox = s.bbox := rfl
@[simp] theorem State.modIu_resps (n : Nat) (f : Iu → Iu) : (s.modIu n f).resps = s.resps := rfl
@[simp] theorem State.modIu_asks (n : Nat) (f : Iu → Iu) : (s.modIu n f).asks = s.asks := rfl
@[simp] theorem State.modIu_acks (n : Nat) (f : Iu → Iu) : (s.modIu n f).acks = s.acks := rfl
@[simp] theorem State.modIu_hostReads (n : Nat) (f : Iu → Iu) : (s.modIu n f).hostReads = s.hostReads := rfl
@[simp] theorem State.modIu_hostErrs (n : Nat) (f : Iu → Iu) : (s.modIu n f).hostErrs = s.hostErrs := rfl
@[simp] theorem State.modIu_sent (n : Nat) (f : Iu → Iu) : (s.modIu n f).sent = s.sent := rfl
@[simp] theorem State.modIu_freeIds (n : Nat) (f : Iu → Iu) : (s.modIu n f).freeIds = s.freeIds := rfl

/-! ### modL2 -/

@[simp] theorem State.modL2_tick (line die : Nat) (f : L2Line → L2Line) : (s.modL2 line die f).tick = s.tick := rfl
@[simp] theorem State.modL2_agenda (line die : Nat) (f : L2Line → L2Line) : (s.modL2 line die f).agenda = s.agenda := rfl
@[simp] theorem State.modL2_soon (line die : Nat) (f : L2Line → L2Line) : (s.modL2 line die f).soon = s.soon := rfl
@[simp] theorem State.modL2_late (line die : Nat) (f : L2Line → L2Line) : (s.modL2 line die f).late = s.late := rfl
@[simp] theorem State.modL2_cur (line die : Nat) (f : L2Line → L2Line) : (s.modL2 line die f).cur = s.cur := rfl
@[simp] theorem State.modL2_nextId (line die : Nat) (f : L2Line → L2Line) : (s.modL2 line die f).nextId = s.nextId := rfl
@[simp] theorem State.modL2_now (line die : Nat) (f : L2Line → L2Line) : (s.modL2 line die f).now = s.now := rfl
@[simp] theorem State.modL2_mem (line die : Nat) (f : L2Line → L2Line) : (s.modL2 line die f).mem = s.mem := rfl
@[simp] theorem State.modL2_poison (line die : Nat) (f : L2Line → L2Line) : (s.modL2 line die f).poison = s.poison := rfl
@[simp] theorem State.modL2_stamps (line die : Nat) (f : L2Line → L2Line) : (s.modL2 line die f).stamps = s.stamps := rfl
@[simp] theorem State.modL2_held (line die : Nat) (f : L2Line → L2Line) : (s.modL2 line die f).held = s.held := rfl
@[simp] theorem State.modL2_live (line die : Nat) (f : L2Line → L2Line) : (s.modL2 line die f).live = s.live := rfl
@[simp] theorem State.modL2_tags (line die : Nat) (f : L2Line → L2Line) : (s.modL2 line die f).tags = s.tags := rfl
@[simp] theorem State.modL2_toks (line die : Nat) (f : L2Line → L2Line) : (s.modL2 line die f).toks = s.toks := rfl
@[simp] theorem State.modL2_traps (line die : Nat) (f : L2Line → L2Line) : (s.modL2 line die f).traps = s.traps := rfl
@[simp] theorem State.modL2_fences (line die : Nat) (f : L2Line → L2Line) : (s.modL2 line die f).fences = s.fences := rfl
@[simp] theorem State.modL2_timers (line die : Nat) (f : L2Line → L2Line) : (s.modL2 line die f).timers = s.timers := rfl
@[simp] theorem State.modL2_gregs (line die : Nat) (f : L2Line → L2Line) : (s.modL2 line die f).gregs = s.gregs := rfl
@[simp] theorem State.modL2_l1 (line die : Nat) (f : L2Line → L2Line) : (s.modL2 line die f).l1 = s.l1 := rfl
@[simp] theorem State.modL2_l2 (line die : Nat) (f : L2Line → L2Line) : (s.modL2 line die f).l2 = mapUpd s.l2 (l2Key line die) l2None f := rfl
@[simp] theorem State.modL2_peer (line die : Nat) (f : L2Line → L2Line) : (s.modL2 line die f).peer = s.peer := rfl
@[simp] theorem State.modL2_hovs (line die : Nat) (f : L2Line → L2Line) : (s.modL2 line die f).hovs = s.hovs := rfl
@[simp] theorem State.modL2_dir (line die : Nat) (f : L2Line → L2Line) : (s.modL2 line die f).dir = s.dir := rfl
@[simp] theorem State.modL2_sram (line die : Nat) (f : L2Line → L2Line) : (s.modL2 line die f).sram = s.sram := rfl
@[simp] theorem State.modL2_flc (line die : Nat) (f : L2Line → L2Line) : (s.modL2 line die f).flc = s.flc := rfl
@[simp] theorem State.modL2_claims (line die : Nat) (f : L2Line → L2Line) : (s.modL2 line die f).claims = s.claims := rfl
@[simp] theorem State.modL2_tcache (line die : Nat) (f : L2Line → L2Line) : (s.modL2 line die f).tcache = s.tcache := rfl
@[simp] theorem State.modL2_wcache (line die : Nat) (f : L2Line → L2Line) : (s.modL2 line die f).wcache = s.wcache := rfl
@[simp] theorem State.modL2_walks (line die : Nat) (f : L2Line → L2Line) : (s.modL2 line die f).walks = s.walks := rfl
@[simp] theorem State.modL2_ops (line die : Nat) (f : L2Line → L2Line) : (s.modL2 line die f).ops = s.ops := rfl
@[simp] theorem State.modL2_stores (line die : Nat) (f : L2Line → L2Line) : (s.modL2 line die f).stores = s.stores := rfl
@[simp] theorem State.modL2_sends (line die : Nat) (f : L2Line → L2Line) : (s.modL2 line die f).sends = s.sends := rfl
@[simp] theorem State.modL2_futs (line die : Nat) (f : L2Line → L2Line) : (s.modL2 line die f).futs = s.futs := rfl
@[simp] theorem State.modL2_handles (line die : Nat) (f : L2Line → L2Line) : (s.modL2 line die f).handles = s.handles := rfl
@[simp] theorem State.modL2_tes (line die : Nat) (f : L2Line → L2Line) : (s.modL2 line die f).tes = s.tes := rfl
@[simp] theorem State.modL2_ces (line die : Nat) (f : L2Line → L2Line) : (s.modL2 line die f).ces = s.ces := rfl
@[simp] theorem State.modL2_runs (line die : Nat) (f : L2Line → L2Line) : (s.modL2 line die f).runs = s.runs := rfl
@[simp] theorem State.modL2_bdes (line die : Nat) (f : L2Line → L2Line) : (s.modL2 line die f).bdes = s.bdes := rfl
@[simp] theorem State.modL2_rlcs (line die : Nat) (f : L2Line → L2Line) : (s.modL2 line die f).rlcs = s.rlcs := rfl
@[simp] theorem State.modL2_ius (line die : Nat) (f : L2Line → L2Line) : (s.modL2 line die f).ius = s.ius := rfl
@[simp] theorem State.modL2_parts (line die : Nat) (f : L2Line → L2Line) : (s.modL2 line die f).parts = s.parts := rfl
@[simp] theorem State.modL2_images (line die : Nat) (f : L2Line → L2Line) : (s.modL2 line die f).images = s.images := rfl
@[simp] theorem State.modL2_dies (line die : Nat) (f : L2Line → L2Line) : (s.modL2 line die f).dies = s.dies := rfl
@[simp] theorem State.modL2_fws (line die : Nat) (f : L2Line → L2Line) : (s.modL2 line die f).fws = s.fws := rfl
@[simp] theorem State.modL2_fware (line die : Nat) (f : L2Line → L2Line) : (s.modL2 line die f).fware = s.fware := rfl
@[simp] theorem State.modL2_wtab (line die : Nat) (f : L2Line → L2Line) : (s.modL2 line die f).wtab = s.wtab := rfl
@[simp] theorem State.modL2_ports (line die : Nat) (f : L2Line → L2Line) : (s.modL2 line die f).ports = s.ports := rfl
@[simp] theorem State.modL2_bbox (line die : Nat) (f : L2Line → L2Line) : (s.modL2 line die f).bbox = s.bbox := rfl
@[simp] theorem State.modL2_resps (line die : Nat) (f : L2Line → L2Line) : (s.modL2 line die f).resps = s.resps := rfl
@[simp] theorem State.modL2_asks (line die : Nat) (f : L2Line → L2Line) : (s.modL2 line die f).asks = s.asks := rfl
@[simp] theorem State.modL2_acks (line die : Nat) (f : L2Line → L2Line) : (s.modL2 line die f).acks = s.acks := rfl
@[simp] theorem State.modL2_hostReads (line die : Nat) (f : L2Line → L2Line) : (s.modL2 line die f).hostReads = s.hostReads := rfl
@[simp] theorem State.modL2_hostErrs (line die : Nat) (f : L2Line → L2Line) : (s.modL2 line die f).hostErrs = s.hostErrs := rfl
@[simp] theorem State.modL2_sent (line die : Nat) (f : L2Line → L2Line) : (s.modL2 line die f).sent = s.sent := rfl
@[simp] theorem State.modL2_freeIds (line die : Nat) (f : L2Line → L2Line) : (s.modL2 line die f).freeIds = s.freeIds := rfl

/-! ### finish -/

@[simp] theorem State.finish_tick (e : Iss) (S : BitVec 3) (h : Held) : (s.finish e S h).tick = s.tick := rfl
@[simp] theorem State.finish_agenda (e : Iss) (S : BitVec 3) (h : Held) : (s.finish e S h).agenda = s.agenda := rfl
@[simp] theorem State.finish_soon (e : Iss) (S : BitVec 3) (h : Held) : (s.finish e S h).soon = s.soon := rfl
@[simp] theorem State.finish_late (e : Iss) (S : BitVec 3) (h : Held) : (s.finish e S h).late = s.late := rfl
@[simp] theorem State.finish_cur (e : Iss) (S : BitVec 3) (h : Held) : (s.finish e S h).cur = s.cur := rfl
@[simp] theorem State.finish_nextId (e : Iss) (S : BitVec 3) (h : Held) : (s.finish e S h).nextId = s.nextId := rfl
@[simp] theorem State.finish_now (e : Iss) (S : BitVec 3) (h : Held) : (s.finish e S h).now = s.now := rfl
@[simp] theorem State.finish_mem (e : Iss) (S : BitVec 3) (h : Held) : (s.finish e S h).mem = s.mem := rfl
@[simp] theorem State.finish_poison (e : Iss) (S : BitVec 3) (h : Held) : (s.finish e S h).poison = s.poison := rfl
@[simp] theorem State.finish_stamps (e : Iss) (S : BitVec 3) (h : Held) : (s.finish e S h).stamps = s.stamps := rfl
@[simp] theorem State.finish_held (e : Iss) (S : BitVec 3) (h : Held) : (s.finish e S h).held = mapPut s.held e.key ((h.advance e.words).issued e.t S) := rfl
@[simp] theorem State.finish_live (e : Iss) (S : BitVec 3) (h : Held) : (s.finish e S h).live = s.live := rfl
@[simp] theorem State.finish_tags (e : Iss) (S : BitVec 3) (h : Held) : (s.finish e S h).tags = s.tags := rfl
@[simp] theorem State.finish_toks (e : Iss) (S : BitVec 3) (h : Held) : (s.finish e S h).toks = s.toks := rfl
@[simp] theorem State.finish_traps (e : Iss) (S : BitVec 3) (h : Held) : (s.finish e S h).traps = s.traps := rfl
@[simp] theorem State.finish_fences (e : Iss) (S : BitVec 3) (h : Held) : (s.finish e S h).fences = s.fences := rfl
@[simp] theorem State.finish_timers (e : Iss) (S : BitVec 3) (h : Held) : (s.finish e S h).timers = s.timers := rfl
@[simp] theorem State.finish_gregs (e : Iss) (S : BitVec 3) (h : Held) : (s.finish e S h).gregs = s.gregs := rfl
@[simp] theorem State.finish_l1 (e : Iss) (S : BitVec 3) (h : Held) : (s.finish e S h).l1 = s.l1 := rfl
@[simp] theorem State.finish_l2 (e : Iss) (S : BitVec 3) (h : Held) : (s.finish e S h).l2 = s.l2 := rfl
@[simp] theorem State.finish_peer (e : Iss) (S : BitVec 3) (h : Held) : (s.finish e S h).peer = s.peer := rfl
@[simp] theorem State.finish_hovs (e : Iss) (S : BitVec 3) (h : Held) : (s.finish e S h).hovs = s.hovs := rfl
@[simp] theorem State.finish_dir (e : Iss) (S : BitVec 3) (h : Held) : (s.finish e S h).dir = s.dir := rfl
@[simp] theorem State.finish_sram (e : Iss) (S : BitVec 3) (h : Held) : (s.finish e S h).sram = s.sram := rfl
@[simp] theorem State.finish_flc (e : Iss) (S : BitVec 3) (h : Held) : (s.finish e S h).flc = s.flc := rfl
@[simp] theorem State.finish_claims (e : Iss) (S : BitVec 3) (h : Held) : (s.finish e S h).claims = s.claims := rfl
@[simp] theorem State.finish_tcache (e : Iss) (S : BitVec 3) (h : Held) : (s.finish e S h).tcache = s.tcache := rfl
@[simp] theorem State.finish_wcache (e : Iss) (S : BitVec 3) (h : Held) : (s.finish e S h).wcache = s.wcache := rfl
@[simp] theorem State.finish_walks (e : Iss) (S : BitVec 3) (h : Held) : (s.finish e S h).walks = s.walks := rfl
@[simp] theorem State.finish_ops (e : Iss) (S : BitVec 3) (h : Held) : (s.finish e S h).ops = s.ops := rfl
@[simp] theorem State.finish_stores (e : Iss) (S : BitVec 3) (h : Held) : (s.finish e S h).stores = s.stores := rfl
@[simp] theorem State.finish_sends (e : Iss) (S : BitVec 3) (h : Held) : (s.finish e S h).sends = s.sends := rfl
@[simp] theorem State.finish_futs (e : Iss) (S : BitVec 3) (h : Held) : (s.finish e S h).futs = s.futs := rfl
@[simp] theorem State.finish_handles (e : Iss) (S : BitVec 3) (h : Held) : (s.finish e S h).handles = s.handles := rfl
@[simp] theorem State.finish_tes (e : Iss) (S : BitVec 3) (h : Held) : (s.finish e S h).tes = s.tes := rfl
@[simp] theorem State.finish_ces (e : Iss) (S : BitVec 3) (h : Held) : (s.finish e S h).ces = s.ces := rfl
@[simp] theorem State.finish_runs (e : Iss) (S : BitVec 3) (h : Held) : (s.finish e S h).runs = s.runs := rfl
@[simp] theorem State.finish_bdes (e : Iss) (S : BitVec 3) (h : Held) : (s.finish e S h).bdes = s.bdes := rfl
@[simp] theorem State.finish_rlcs (e : Iss) (S : BitVec 3) (h : Held) : (s.finish e S h).rlcs = s.rlcs := rfl
@[simp] theorem State.finish_ius (e : Iss) (S : BitVec 3) (h : Held) : (s.finish e S h).ius = s.ius := rfl
@[simp] theorem State.finish_parts (e : Iss) (S : BitVec 3) (h : Held) : (s.finish e S h).parts = s.parts := rfl
@[simp] theorem State.finish_images (e : Iss) (S : BitVec 3) (h : Held) : (s.finish e S h).images = s.images := rfl
@[simp] theorem State.finish_dies (e : Iss) (S : BitVec 3) (h : Held) : (s.finish e S h).dies = s.dies := rfl
@[simp] theorem State.finish_fws (e : Iss) (S : BitVec 3) (h : Held) : (s.finish e S h).fws = s.fws := rfl
@[simp] theorem State.finish_fware (e : Iss) (S : BitVec 3) (h : Held) : (s.finish e S h).fware = s.fware := rfl
@[simp] theorem State.finish_wtab (e : Iss) (S : BitVec 3) (h : Held) : (s.finish e S h).wtab = s.wtab := rfl
@[simp] theorem State.finish_ports (e : Iss) (S : BitVec 3) (h : Held) : (s.finish e S h).ports = s.ports := rfl
@[simp] theorem State.finish_bbox (e : Iss) (S : BitVec 3) (h : Held) : (s.finish e S h).bbox = s.bbox := rfl
@[simp] theorem State.finish_resps (e : Iss) (S : BitVec 3) (h : Held) : (s.finish e S h).resps = s.resps := rfl
@[simp] theorem State.finish_asks (e : Iss) (S : BitVec 3) (h : Held) : (s.finish e S h).asks = s.asks := rfl
@[simp] theorem State.finish_acks (e : Iss) (S : BitVec 3) (h : Held) : (s.finish e S h).acks = s.acks := rfl
@[simp] theorem State.finish_hostReads (e : Iss) (S : BitVec 3) (h : Held) : (s.finish e S h).hostReads = s.hostReads := rfl
@[simp] theorem State.finish_hostErrs (e : Iss) (S : BitVec 3) (h : Held) : (s.finish e S h).hostErrs = s.hostErrs := rfl
@[simp] theorem State.finish_sent (e : Iss) (S : BitVec 3) (h : Held) : (s.finish e S h).sent = s.sent := rfl
@[simp] theorem State.finish_freeIds (e : Iss) (S : BitVec 3) (h : Held) : (s.finish e S h).freeIds = s.freeIds := rfl

/-! ### Updates with a condition: what they never touch -/

@[simp] theorem State.emitOnce_tick (i : Instr) : (s.emitOnce i).tick = s.tick := by unfold State.emitOnce; split <;> rfl
@[simp] theorem State.emitOnce_soon (i : Instr) : (s.emitOnce i).soon = s.soon := by unfold State.emitOnce; split <;> rfl
@[simp] theorem State.emitOnce_late (i : Instr) : (s.emitOnce i).late = s.late := by unfold State.emitOnce; split <;> rfl
@[simp] theorem State.emitOnce_cur (i : Instr) : (s.emitOnce i).cur = s.cur := by unfold State.emitOnce; split <;> rfl
@[simp] theorem State.emitOnce_nextId (i : Instr) : (s.emitOnce i).nextId = s.nextId := by unfold State.emitOnce; split <;> rfl
@[simp] theorem State.emitOnce_now (i : Instr) : (s.emitOnce i).now = s.now := by unfold State.emitOnce; split <;> rfl
@[simp] theorem State.emitOnce_mem (i : Instr) : (s.emitOnce i).mem = s.mem := by unfold State.emitOnce; split <;> rfl
@[simp] theorem State.emitOnce_poison (i : Instr) : (s.emitOnce i).poison = s.poison := by unfold State.emitOnce; split <;> rfl
@[simp] theorem State.emitOnce_stamps (i : Instr) : (s.emitOnce i).stamps = s.stamps := by unfold State.emitOnce; split <;> rfl
@[simp] theorem State.emitOnce_held (i : Instr) : (s.emitOnce i).held = s.held := by unfold State.emitOnce; split <;> rfl
@[simp] theorem State.emitOnce_live (i : Instr) : (s.emitOnce i).live = s.live := by unfold State.emitOnce; split <;> rfl
@[simp] theorem State.emitOnce_tags (i : Instr) : (s.emitOnce i).tags = s.tags := by unfold State.emitOnce; split <;> rfl
@[simp] theorem State.emitOnce_toks (i : Instr) : (s.emitOnce i).toks = s.toks := by unfold State.emitOnce; split <;> rfl
@[simp] theorem State.emitOnce_traps (i : Instr) : (s.emitOnce i).traps = s.traps := by unfold State.emitOnce; split <;> rfl
@[simp] theorem State.emitOnce_fences (i : Instr) : (s.emitOnce i).fences = s.fences := by unfold State.emitOnce; split <;> rfl
@[simp] theorem State.emitOnce_timers (i : Instr) : (s.emitOnce i).timers = s.timers := by unfold State.emitOnce; split <;> rfl
@[simp] theorem State.emitOnce_gregs (i : Instr) : (s.emitOnce i).gregs = s.gregs := by unfold State.emitOnce; split <;> rfl
@[simp] theorem State.emitOnce_l1 (i : Instr) : (s.emitOnce i).l1 = s.l1 := by unfold State.emitOnce; split <;> rfl
@[simp] theorem State.emitOnce_l2 (i : Instr) : (s.emitOnce i).l2 = s.l2 := by unfold State.emitOnce; split <;> rfl
@[simp] theorem State.emitOnce_peer (i : Instr) : (s.emitOnce i).peer = s.peer := by unfold State.emitOnce; split <;> rfl
@[simp] theorem State.emitOnce_hovs (i : Instr) : (s.emitOnce i).hovs = s.hovs := by unfold State.emitOnce; split <;> rfl
@[simp] theorem State.emitOnce_dir (i : Instr) : (s.emitOnce i).dir = s.dir := by unfold State.emitOnce; split <;> rfl
@[simp] theorem State.emitOnce_sram (i : Instr) : (s.emitOnce i).sram = s.sram := by unfold State.emitOnce; split <;> rfl
@[simp] theorem State.emitOnce_flc (i : Instr) : (s.emitOnce i).flc = s.flc := by unfold State.emitOnce; split <;> rfl
@[simp] theorem State.emitOnce_claims (i : Instr) : (s.emitOnce i).claims = s.claims := by unfold State.emitOnce; split <;> rfl
@[simp] theorem State.emitOnce_tcache (i : Instr) : (s.emitOnce i).tcache = s.tcache := by unfold State.emitOnce; split <;> rfl
@[simp] theorem State.emitOnce_wcache (i : Instr) : (s.emitOnce i).wcache = s.wcache := by unfold State.emitOnce; split <;> rfl
@[simp] theorem State.emitOnce_walks (i : Instr) : (s.emitOnce i).walks = s.walks := by unfold State.emitOnce; split <;> rfl
@[simp] theorem State.emitOnce_ops (i : Instr) : (s.emitOnce i).ops = s.ops := by unfold State.emitOnce; split <;> rfl
@[simp] theorem State.emitOnce_stores (i : Instr) : (s.emitOnce i).stores = s.stores := by unfold State.emitOnce; split <;> rfl
@[simp] theorem State.emitOnce_sends (i : Instr) : (s.emitOnce i).sends = s.sends := by unfold State.emitOnce; split <;> rfl
@[simp] theorem State.emitOnce_futs (i : Instr) : (s.emitOnce i).futs = s.futs := by unfold State.emitOnce; split <;> rfl
@[simp] theorem State.emitOnce_handles (i : Instr) : (s.emitOnce i).handles = s.handles := by unfold State.emitOnce; split <;> rfl
@[simp] theorem State.emitOnce_tes (i : Instr) : (s.emitOnce i).tes = s.tes := by unfold State.emitOnce; split <;> rfl
@[simp] theorem State.emitOnce_ces (i : Instr) : (s.emitOnce i).ces = s.ces := by unfold State.emitOnce; split <;> rfl
@[simp] theorem State.emitOnce_runs (i : Instr) : (s.emitOnce i).runs = s.runs := by unfold State.emitOnce; split <;> rfl
@[simp] theorem State.emitOnce_bdes (i : Instr) : (s.emitOnce i).bdes = s.bdes := by unfold State.emitOnce; split <;> rfl
@[simp] theorem State.emitOnce_rlcs (i : Instr) : (s.emitOnce i).rlcs = s.rlcs := by unfold State.emitOnce; split <;> rfl
@[simp] theorem State.emitOnce_ius (i : Instr) : (s.emitOnce i).ius = s.ius := by unfold State.emitOnce; split <;> rfl
@[simp] theorem State.emitOnce_parts (i : Instr) : (s.emitOnce i).parts = s.parts := by unfold State.emitOnce; split <;> rfl
@[simp] theorem State.emitOnce_images (i : Instr) : (s.emitOnce i).images = s.images := by unfold State.emitOnce; split <;> rfl
@[simp] theorem State.emitOnce_dies (i : Instr) : (s.emitOnce i).dies = s.dies := by unfold State.emitOnce; split <;> rfl
@[simp] theorem State.emitOnce_fws (i : Instr) : (s.emitOnce i).fws = s.fws := by unfold State.emitOnce; split <;> rfl
@[simp] theorem State.emitOnce_fware (i : Instr) : (s.emitOnce i).fware = s.fware := by unfold State.emitOnce; split <;> rfl
@[simp] theorem State.emitOnce_wtab (i : Instr) : (s.emitOnce i).wtab = s.wtab := by unfold State.emitOnce; split <;> rfl
@[simp] theorem State.emitOnce_ports (i : Instr) : (s.emitOnce i).ports = s.ports := by unfold State.emitOnce; split <;> rfl
@[simp] theorem State.emitOnce_bbox (i : Instr) : (s.emitOnce i).bbox = s.bbox := by unfold State.emitOnce; split <;> rfl
@[simp] theorem State.emitOnce_resps (i : Instr) : (s.emitOnce i).resps = s.resps := by unfold State.emitOnce; split <;> rfl
@[simp] theorem State.emitOnce_asks (i : Instr) : (s.emitOnce i).asks = s.asks := by unfold State.emitOnce; split <;> rfl
@[simp] theorem State.emitOnce_acks (i : Instr) : (s.emitOnce i).acks = s.acks := by unfold State.emitOnce; split <;> rfl
@[simp] theorem State.emitOnce_hostReads (i : Instr) : (s.emitOnce i).hostReads = s.hostReads := by unfold State.emitOnce; split <;> rfl
@[simp] theorem State.emitOnce_hostErrs (i : Instr) : (s.emitOnce i).hostErrs = s.hostErrs := by unfold State.emitOnce; split <;> rfl
@[simp] theorem State.emitOnce_sent (i : Instr) : (s.emitOnce i).sent = s.sent := by unfold State.emitOnce; split <;> rfl
@[simp] theorem State.emitOnce_freeIds (i : Instr) : (s.emitOnce i).freeIds = s.freeIds := by unfold State.emitOnce; split <;> rfl
@[simp] theorem State.modPart_tick (k : Nat) (f : Part → Part) : (s.modPart k f).tick = s.tick := by unfold State.modPart; split <;> rfl
@[simp] theorem State.modPart_agenda (k : Nat) (f : Part → Part) : (s.modPart k f).agenda = s.agenda := by unfold State.modPart; split <;> rfl
@[simp] theorem State.modPart_soon (k : Nat) (f : Part → Part) : (s.modPart k f).soon = s.soon := by unfold State.modPart; split <;> rfl
@[simp] theorem State.modPart_late (k : Nat) (f : Part → Part) : (s.modPart k f).late = s.late := by unfold State.modPart; split <;> rfl
@[simp] theorem State.modPart_cur (k : Nat) (f : Part → Part) : (s.modPart k f).cur = s.cur := by unfold State.modPart; split <;> rfl
@[simp] theorem State.modPart_nextId (k : Nat) (f : Part → Part) : (s.modPart k f).nextId = s.nextId := by unfold State.modPart; split <;> rfl
@[simp] theorem State.modPart_now (k : Nat) (f : Part → Part) : (s.modPart k f).now = s.now := by unfold State.modPart; split <;> rfl
@[simp] theorem State.modPart_mem (k : Nat) (f : Part → Part) : (s.modPart k f).mem = s.mem := by unfold State.modPart; split <;> rfl
@[simp] theorem State.modPart_poison (k : Nat) (f : Part → Part) : (s.modPart k f).poison = s.poison := by unfold State.modPart; split <;> rfl
@[simp] theorem State.modPart_stamps (k : Nat) (f : Part → Part) : (s.modPart k f).stamps = s.stamps := by unfold State.modPart; split <;> rfl
@[simp] theorem State.modPart_held (k : Nat) (f : Part → Part) : (s.modPart k f).held = s.held := by unfold State.modPart; split <;> rfl
@[simp] theorem State.modPart_live (k : Nat) (f : Part → Part) : (s.modPart k f).live = s.live := by unfold State.modPart; split <;> rfl
@[simp] theorem State.modPart_tags (k : Nat) (f : Part → Part) : (s.modPart k f).tags = s.tags := by unfold State.modPart; split <;> rfl
@[simp] theorem State.modPart_toks (k : Nat) (f : Part → Part) : (s.modPart k f).toks = s.toks := by unfold State.modPart; split <;> rfl
@[simp] theorem State.modPart_traps (k : Nat) (f : Part → Part) : (s.modPart k f).traps = s.traps := by unfold State.modPart; split <;> rfl
@[simp] theorem State.modPart_fences (k : Nat) (f : Part → Part) : (s.modPart k f).fences = s.fences := by unfold State.modPart; split <;> rfl
@[simp] theorem State.modPart_timers (k : Nat) (f : Part → Part) : (s.modPart k f).timers = s.timers := by unfold State.modPart; split <;> rfl
@[simp] theorem State.modPart_gregs (k : Nat) (f : Part → Part) : (s.modPart k f).gregs = s.gregs := by unfold State.modPart; split <;> rfl
@[simp] theorem State.modPart_l1 (k : Nat) (f : Part → Part) : (s.modPart k f).l1 = s.l1 := by unfold State.modPart; split <;> rfl
@[simp] theorem State.modPart_l2 (k : Nat) (f : Part → Part) : (s.modPart k f).l2 = s.l2 := by unfold State.modPart; split <;> rfl
@[simp] theorem State.modPart_peer (k : Nat) (f : Part → Part) : (s.modPart k f).peer = s.peer := by unfold State.modPart; split <;> rfl
@[simp] theorem State.modPart_hovs (k : Nat) (f : Part → Part) : (s.modPart k f).hovs = s.hovs := by unfold State.modPart; split <;> rfl
@[simp] theorem State.modPart_dir (k : Nat) (f : Part → Part) : (s.modPart k f).dir = s.dir := by unfold State.modPart; split <;> rfl
@[simp] theorem State.modPart_sram (k : Nat) (f : Part → Part) : (s.modPart k f).sram = s.sram := by unfold State.modPart; split <;> rfl
@[simp] theorem State.modPart_flc (k : Nat) (f : Part → Part) : (s.modPart k f).flc = s.flc := by unfold State.modPart; split <;> rfl
@[simp] theorem State.modPart_claims (k : Nat) (f : Part → Part) : (s.modPart k f).claims = s.claims := by unfold State.modPart; split <;> rfl
@[simp] theorem State.modPart_tcache (k : Nat) (f : Part → Part) : (s.modPart k f).tcache = s.tcache := by unfold State.modPart; split <;> rfl
@[simp] theorem State.modPart_wcache (k : Nat) (f : Part → Part) : (s.modPart k f).wcache = s.wcache := by unfold State.modPart; split <;> rfl
@[simp] theorem State.modPart_walks (k : Nat) (f : Part → Part) : (s.modPart k f).walks = s.walks := by unfold State.modPart; split <;> rfl
@[simp] theorem State.modPart_ops (k : Nat) (f : Part → Part) : (s.modPart k f).ops = s.ops := by unfold State.modPart; split <;> rfl
@[simp] theorem State.modPart_stores (k : Nat) (f : Part → Part) : (s.modPart k f).stores = s.stores := by unfold State.modPart; split <;> rfl
@[simp] theorem State.modPart_sends (k : Nat) (f : Part → Part) : (s.modPart k f).sends = s.sends := by unfold State.modPart; split <;> rfl
@[simp] theorem State.modPart_futs (k : Nat) (f : Part → Part) : (s.modPart k f).futs = s.futs := by unfold State.modPart; split <;> rfl
@[simp] theorem State.modPart_handles (k : Nat) (f : Part → Part) : (s.modPart k f).handles = s.handles := by unfold State.modPart; split <;> rfl
@[simp] theorem State.modPart_tes (k : Nat) (f : Part → Part) : (s.modPart k f).tes = s.tes := by unfold State.modPart; split <;> rfl
@[simp] theorem State.modPart_ces (k : Nat) (f : Part → Part) : (s.modPart k f).ces = s.ces := by unfold State.modPart; split <;> rfl
@[simp] theorem State.modPart_runs (k : Nat) (f : Part → Part) : (s.modPart k f).runs = s.runs := by unfold State.modPart; split <;> rfl
@[simp] theorem State.modPart_bdes (k : Nat) (f : Part → Part) : (s.modPart k f).bdes = s.bdes := by unfold State.modPart; split <;> rfl
@[simp] theorem State.modPart_rlcs (k : Nat) (f : Part → Part) : (s.modPart k f).rlcs = s.rlcs := by unfold State.modPart; split <;> rfl
@[simp] theorem State.modPart_ius (k : Nat) (f : Part → Part) : (s.modPart k f).ius = s.ius := by unfold State.modPart; split <;> rfl
@[simp] theorem State.modPart_images (k : Nat) (f : Part → Part) : (s.modPart k f).images = s.images := by unfold State.modPart; split <;> rfl
@[simp] theorem State.modPart_dies (k : Nat) (f : Part → Part) : (s.modPart k f).dies = s.dies := by unfold State.modPart; split <;> rfl
@[simp] theorem State.modPart_fws (k : Nat) (f : Part → Part) : (s.modPart k f).fws = s.fws := by unfold State.modPart; split <;> rfl
@[simp] theorem State.modPart_fware (k : Nat) (f : Part → Part) : (s.modPart k f).fware = s.fware := by unfold State.modPart; split <;> rfl
@[simp] theorem State.modPart_wtab (k : Nat) (f : Part → Part) : (s.modPart k f).wtab = s.wtab := by unfold State.modPart; split <;> rfl
@[simp] theorem State.modPart_ports (k : Nat) (f : Part → Part) : (s.modPart k f).ports = s.ports := by unfold State.modPart; split <;> rfl
@[simp] theorem State.modPart_bbox (k : Nat) (f : Part → Part) : (s.modPart k f).bbox = s.bbox := by unfold State.modPart; split <;> rfl
@[simp] theorem State.modPart_resps (k : Nat) (f : Part → Part) : (s.modPart k f).resps = s.resps := by unfold State.modPart; split <;> rfl
@[simp] theorem State.modPart_asks (k : Nat) (f : Part → Part) : (s.modPart k f).asks = s.asks := by unfold State.modPart; split <;> rfl
@[simp] theorem State.modPart_acks (k : Nat) (f : Part → Part) : (s.modPart k f).acks = s.acks := by unfold State.modPart; split <;> rfl
@[simp] theorem State.modPart_hostReads (k : Nat) (f : Part → Part) : (s.modPart k f).hostReads = s.hostReads := by unfold State.modPart; split <;> rfl
@[simp] theorem State.modPart_hostErrs (k : Nat) (f : Part → Part) : (s.modPart k f).hostErrs = s.hostErrs := by unfold State.modPart; split <;> rfl
@[simp] theorem State.modPart_sent (k : Nat) (f : Part → Part) : (s.modPart k f).sent = s.sent := by unfold State.modPart; split <;> rfl
@[simp] theorem State.modPart_freeIds (k : Nat) (f : Part → Part) : (s.modPart k f).freeIds = s.freeIds := by unfold State.modPart; split <;> rfl
@[simp] theorem State.setDir_tick (line : Nat) (e : DirEntry) : (s.setDir line e).tick = s.tick := rfl
@[simp] theorem State.setDir_agenda (line : Nat) (e : DirEntry) : (s.setDir line e).agenda = s.agenda := rfl
@[simp] theorem State.setDir_soon (line : Nat) (e : DirEntry) : (s.setDir line e).soon = s.soon := rfl
@[simp] theorem State.setDir_late (line : Nat) (e : DirEntry) : (s.setDir line e).late = s.late := rfl
@[simp] theorem State.setDir_cur (line : Nat) (e : DirEntry) : (s.setDir line e).cur = s.cur := rfl
@[simp] theorem State.setDir_nextId (line : Nat) (e : DirEntry) : (s.setDir line e).nextId = s.nextId := rfl
@[simp] theorem State.setDir_now (line : Nat) (e : DirEntry) : (s.setDir line e).now = s.now := rfl
@[simp] theorem State.setDir_mem (line : Nat) (e : DirEntry) : (s.setDir line e).mem = s.mem := rfl
@[simp] theorem State.setDir_poison (line : Nat) (e : DirEntry) : (s.setDir line e).poison = s.poison := rfl
@[simp] theorem State.setDir_stamps (line : Nat) (e : DirEntry) : (s.setDir line e).stamps = s.stamps := rfl
@[simp] theorem State.setDir_held (line : Nat) (e : DirEntry) : (s.setDir line e).held = s.held := rfl
@[simp] theorem State.setDir_live (line : Nat) (e : DirEntry) : (s.setDir line e).live = s.live := rfl
@[simp] theorem State.setDir_tags (line : Nat) (e : DirEntry) : (s.setDir line e).tags = s.tags := rfl
@[simp] theorem State.setDir_toks (line : Nat) (e : DirEntry) : (s.setDir line e).toks = s.toks := rfl
@[simp] theorem State.setDir_traps (line : Nat) (e : DirEntry) : (s.setDir line e).traps = s.traps := rfl
@[simp] theorem State.setDir_fences (line : Nat) (e : DirEntry) : (s.setDir line e).fences = s.fences := rfl
@[simp] theorem State.setDir_timers (line : Nat) (e : DirEntry) : (s.setDir line e).timers = s.timers := rfl
@[simp] theorem State.setDir_gregs (line : Nat) (e : DirEntry) : (s.setDir line e).gregs = s.gregs := rfl
@[simp] theorem State.setDir_l1 (line : Nat) (e : DirEntry) : (s.setDir line e).l1 = s.l1 := rfl
@[simp] theorem State.setDir_l2 (line : Nat) (e : DirEntry) : (s.setDir line e).l2 = s.l2 := rfl
@[simp] theorem State.setDir_peer (line : Nat) (e : DirEntry) : (s.setDir line e).peer = s.peer := rfl
@[simp] theorem State.setDir_hovs (line : Nat) (e : DirEntry) : (s.setDir line e).hovs = s.hovs := rfl
@[simp] theorem State.setDir_flc (line : Nat) (e : DirEntry) : (s.setDir line e).flc = s.flc := rfl
@[simp] theorem State.setDir_claims (line : Nat) (e : DirEntry) : (s.setDir line e).claims = s.claims := rfl
@[simp] theorem State.setDir_tcache (line : Nat) (e : DirEntry) : (s.setDir line e).tcache = s.tcache := rfl
@[simp] theorem State.setDir_wcache (line : Nat) (e : DirEntry) : (s.setDir line e).wcache = s.wcache := rfl
@[simp] theorem State.setDir_walks (line : Nat) (e : DirEntry) : (s.setDir line e).walks = s.walks := rfl
@[simp] theorem State.setDir_ops (line : Nat) (e : DirEntry) : (s.setDir line e).ops = s.ops := rfl
@[simp] theorem State.setDir_stores (line : Nat) (e : DirEntry) : (s.setDir line e).stores = s.stores := rfl
@[simp] theorem State.setDir_sends (line : Nat) (e : DirEntry) : (s.setDir line e).sends = s.sends := rfl
@[simp] theorem State.setDir_futs (line : Nat) (e : DirEntry) : (s.setDir line e).futs = s.futs := rfl
@[simp] theorem State.setDir_handles (line : Nat) (e : DirEntry) : (s.setDir line e).handles = s.handles := rfl
@[simp] theorem State.setDir_tes (line : Nat) (e : DirEntry) : (s.setDir line e).tes = s.tes := rfl
@[simp] theorem State.setDir_ces (line : Nat) (e : DirEntry) : (s.setDir line e).ces = s.ces := rfl
@[simp] theorem State.setDir_runs (line : Nat) (e : DirEntry) : (s.setDir line e).runs = s.runs := rfl
@[simp] theorem State.setDir_bdes (line : Nat) (e : DirEntry) : (s.setDir line e).bdes = s.bdes := rfl
@[simp] theorem State.setDir_rlcs (line : Nat) (e : DirEntry) : (s.setDir line e).rlcs = s.rlcs := rfl
@[simp] theorem State.setDir_ius (line : Nat) (e : DirEntry) : (s.setDir line e).ius = s.ius := rfl
@[simp] theorem State.setDir_parts (line : Nat) (e : DirEntry) : (s.setDir line e).parts = s.parts := rfl
@[simp] theorem State.setDir_images (line : Nat) (e : DirEntry) : (s.setDir line e).images = s.images := rfl
@[simp] theorem State.setDir_dies (line : Nat) (e : DirEntry) : (s.setDir line e).dies = s.dies := rfl
@[simp] theorem State.setDir_fws (line : Nat) (e : DirEntry) : (s.setDir line e).fws = s.fws := rfl
@[simp] theorem State.setDir_fware (line : Nat) (e : DirEntry) : (s.setDir line e).fware = s.fware := rfl
@[simp] theorem State.setDir_wtab (line : Nat) (e : DirEntry) : (s.setDir line e).wtab = s.wtab := rfl
@[simp] theorem State.setDir_ports (line : Nat) (e : DirEntry) : (s.setDir line e).ports = s.ports := rfl
@[simp] theorem State.setDir_bbox (line : Nat) (e : DirEntry) : (s.setDir line e).bbox = s.bbox := rfl
@[simp] theorem State.setDir_resps (line : Nat) (e : DirEntry) : (s.setDir line e).resps = s.resps := rfl
@[simp] theorem State.setDir_asks (line : Nat) (e : DirEntry) : (s.setDir line e).asks = s.asks := rfl
@[simp] theorem State.setDir_acks (line : Nat) (e : DirEntry) : (s.setDir line e).acks = s.acks := rfl
@[simp] theorem State.setDir_hostReads (line : Nat) (e : DirEntry) : (s.setDir line e).hostReads = s.hostReads := rfl
@[simp] theorem State.setDir_hostErrs (line : Nat) (e : DirEntry) : (s.setDir line e).hostErrs = s.hostErrs := rfl
@[simp] theorem State.setDir_sent (line : Nat) (e : DirEntry) : (s.setDir line e).sent = s.sent := rfl
@[simp] theorem State.setDir_freeIds (line : Nat) (e : DirEntry) : (s.setDir line e).freeIds = s.freeIds := rfl
@[simp] theorem State.bb_tick (die code part : Nat) (vals : List Nat) : (s.bb die code part vals).tick = s.tick := rfl
@[simp] theorem State.bb_agenda (die code part : Nat) (vals : List Nat) : (s.bb die code part vals).agenda = s.agenda := rfl
@[simp] theorem State.bb_soon (die code part : Nat) (vals : List Nat) : (s.bb die code part vals).soon = s.soon := rfl
@[simp] theorem State.bb_late (die code part : Nat) (vals : List Nat) : (s.bb die code part vals).late = s.late := rfl
@[simp] theorem State.bb_cur (die code part : Nat) (vals : List Nat) : (s.bb die code part vals).cur = s.cur := rfl
@[simp] theorem State.bb_nextId (die code part : Nat) (vals : List Nat) : (s.bb die code part vals).nextId = s.nextId := rfl
@[simp] theorem State.bb_now (die code part : Nat) (vals : List Nat) : (s.bb die code part vals).now = s.now := rfl
@[simp] theorem State.bb_mem (die code part : Nat) (vals : List Nat) : (s.bb die code part vals).mem = s.mem := rfl
@[simp] theorem State.bb_poison (die code part : Nat) (vals : List Nat) : (s.bb die code part vals).poison = s.poison := rfl
@[simp] theorem State.bb_stamps (die code part : Nat) (vals : List Nat) : (s.bb die code part vals).stamps = s.stamps := rfl
@[simp] theorem State.bb_held (die code part : Nat) (vals : List Nat) : (s.bb die code part vals).held = s.held := rfl
@[simp] theorem State.bb_live (die code part : Nat) (vals : List Nat) : (s.bb die code part vals).live = s.live := rfl
@[simp] theorem State.bb_tags (die code part : Nat) (vals : List Nat) : (s.bb die code part vals).tags = s.tags := rfl
@[simp] theorem State.bb_toks (die code part : Nat) (vals : List Nat) : (s.bb die code part vals).toks = s.toks := rfl
@[simp] theorem State.bb_traps (die code part : Nat) (vals : List Nat) : (s.bb die code part vals).traps = s.traps := rfl
@[simp] theorem State.bb_fences (die code part : Nat) (vals : List Nat) : (s.bb die code part vals).fences = s.fences := rfl
@[simp] theorem State.bb_timers (die code part : Nat) (vals : List Nat) : (s.bb die code part vals).timers = s.timers := rfl
@[simp] theorem State.bb_gregs (die code part : Nat) (vals : List Nat) : (s.bb die code part vals).gregs = s.gregs := rfl
@[simp] theorem State.bb_l1 (die code part : Nat) (vals : List Nat) : (s.bb die code part vals).l1 = s.l1 := rfl
@[simp] theorem State.bb_l2 (die code part : Nat) (vals : List Nat) : (s.bb die code part vals).l2 = s.l2 := rfl
@[simp] theorem State.bb_peer (die code part : Nat) (vals : List Nat) : (s.bb die code part vals).peer = s.peer := rfl
@[simp] theorem State.bb_hovs (die code part : Nat) (vals : List Nat) : (s.bb die code part vals).hovs = s.hovs := rfl
@[simp] theorem State.bb_dir (die code part : Nat) (vals : List Nat) : (s.bb die code part vals).dir = s.dir := rfl
@[simp] theorem State.bb_sram (die code part : Nat) (vals : List Nat) : (s.bb die code part vals).sram = s.sram := rfl
@[simp] theorem State.bb_flc (die code part : Nat) (vals : List Nat) : (s.bb die code part vals).flc = s.flc := rfl
@[simp] theorem State.bb_claims (die code part : Nat) (vals : List Nat) : (s.bb die code part vals).claims = s.claims := rfl
@[simp] theorem State.bb_tcache (die code part : Nat) (vals : List Nat) : (s.bb die code part vals).tcache = s.tcache := rfl
@[simp] theorem State.bb_wcache (die code part : Nat) (vals : List Nat) : (s.bb die code part vals).wcache = s.wcache := rfl
@[simp] theorem State.bb_walks (die code part : Nat) (vals : List Nat) : (s.bb die code part vals).walks = s.walks := rfl
@[simp] theorem State.bb_ops (die code part : Nat) (vals : List Nat) : (s.bb die code part vals).ops = s.ops := rfl
@[simp] theorem State.bb_stores (die code part : Nat) (vals : List Nat) : (s.bb die code part vals).stores = s.stores := rfl
@[simp] theorem State.bb_sends (die code part : Nat) (vals : List Nat) : (s.bb die code part vals).sends = s.sends := rfl
@[simp] theorem State.bb_futs (die code part : Nat) (vals : List Nat) : (s.bb die code part vals).futs = s.futs := rfl
@[simp] theorem State.bb_handles (die code part : Nat) (vals : List Nat) : (s.bb die code part vals).handles = s.handles := rfl
@[simp] theorem State.bb_tes (die code part : Nat) (vals : List Nat) : (s.bb die code part vals).tes = s.tes := rfl
@[simp] theorem State.bb_ces (die code part : Nat) (vals : List Nat) : (s.bb die code part vals).ces = s.ces := rfl
@[simp] theorem State.bb_runs (die code part : Nat) (vals : List Nat) : (s.bb die code part vals).runs = s.runs := rfl
@[simp] theorem State.bb_bdes (die code part : Nat) (vals : List Nat) : (s.bb die code part vals).bdes = s.bdes := rfl
@[simp] theorem State.bb_rlcs (die code part : Nat) (vals : List Nat) : (s.bb die code part vals).rlcs = s.rlcs := rfl
@[simp] theorem State.bb_ius (die code part : Nat) (vals : List Nat) : (s.bb die code part vals).ius = s.ius := rfl
@[simp] theorem State.bb_parts (die code part : Nat) (vals : List Nat) : (s.bb die code part vals).parts = s.parts := rfl
@[simp] theorem State.bb_images (die code part : Nat) (vals : List Nat) : (s.bb die code part vals).images = s.images := rfl
@[simp] theorem State.bb_dies (die code part : Nat) (vals : List Nat) : (s.bb die code part vals).dies = s.dies := rfl
@[simp] theorem State.bb_fws (die code part : Nat) (vals : List Nat) : (s.bb die code part vals).fws = s.fws := rfl
@[simp] theorem State.bb_fware (die code part : Nat) (vals : List Nat) : (s.bb die code part vals).fware = s.fware := rfl
@[simp] theorem State.bb_wtab (die code part : Nat) (vals : List Nat) : (s.bb die code part vals).wtab = s.wtab := rfl
@[simp] theorem State.bb_ports (die code part : Nat) (vals : List Nat) : (s.bb die code part vals).ports = s.ports := rfl
@[simp] theorem State.bb_resps (die code part : Nat) (vals : List Nat) : (s.bb die code part vals).resps = s.resps := rfl
@[simp] theorem State.bb_asks (die code part : Nat) (vals : List Nat) : (s.bb die code part vals).asks = s.asks := rfl
@[simp] theorem State.bb_acks (die code part : Nat) (vals : List Nat) : (s.bb die code part vals).acks = s.acks := rfl
@[simp] theorem State.bb_hostReads (die code part : Nat) (vals : List Nat) : (s.bb die code part vals).hostReads = s.hostReads := rfl
@[simp] theorem State.bb_hostErrs (die code part : Nat) (vals : List Nat) : (s.bb die code part vals).hostErrs = s.hostErrs := rfl
@[simp] theorem State.bb_sent (die code part : Nat) (vals : List Nat) : (s.bb die code part vals).sent = s.sent := rfl
@[simp] theorem State.bb_freeIds (die code part : Nat) (vals : List Nat) : (s.bb die code part vals).freeIds = s.freeIds := rfl

/-! ### Monitors of launch windows only emit (R33) -/

theorem State.emits_then {s t u : State} (h : ∃ is, t = s.emits is) (k : ∃ is, u = t.emits is) : ∃ is, u = s.emits is := by
  obtain ⟨i, rfl⟩ := h
  obtain ⟨j, rfl⟩ := k
  exact ⟨i ++ j, by simp [State.emits]⟩

theorem foldl_only_emits {α : Type} (f : State → α → State) (hf : ∀ s a, ∃ is, f s a = s.emits is) (l : List α) (s : State) : ∃ is, l.foldl f s = s.emits is := by
  induction l generalizing s with
  | nil => exact ⟨[], by simp [State.emits]⟩
  | cons a l ih =>
    exact State.emits_then (hf s a) (ih (f s a))

theorem State.emitOnce_only_emits (i : Instr) : ∃ is, s.emitOnce i = s.emits is := by
  unfold State.emitOnce; split
  · exact ⟨[], by simp [State.emits]⟩
  · exact ⟨[i], rfl⟩

theorem State.monitors_only_emits (pas : List Nat) : ∃ is, s.monitors pas = s.emits is := by
  unfold State.monitors
  refine foldl_only_emits _ (fun s p => foldl_only_emits _ (fun s w => ?_) _ s) _ s
  have cmd : ∃ is, (if ((pas.filter fun a => decide (w.2.pa ≤ a ∧ a < w.2.pa + 0x1_0000)).map (· - w.2.pa)).contains 0 then (match s.cmdEvent p.1 w.1 with | some i => s.emitOnce i | none => s) else s) = s.emits is := by
    split
    · split
      · exact State.emitOnce_only_emits ..
      · exact ⟨[], by simp [State.emits]⟩
    · exact ⟨[], by simp [State.emits]⟩
  dsimp only
  split
  · exact State.emits_then cmd (State.emitOnce_only_emits ..)
  · exact cmd

/-! ### A write to memory (R91, R123) -/

@[simp] theorem State.written_tick (bs : List (Nat × Byte)) (w : Option (Writer × Pos)) (rel : Option ScopeCode) : (s.written bs w rel).tick = s.tick := by unfold State.written State.flushSram; dsimp only; split <;> (try split) <;> rfl
@[simp] theorem State.written_agenda (bs : List (Nat × Byte)) (w : Option (Writer × Pos)) (rel : Option ScopeCode) : (s.written bs w rel).agenda = s.agenda := by unfold State.written State.flushSram; dsimp only; split <;> (try split) <;> rfl
@[simp] theorem State.written_soon (bs : List (Nat × Byte)) (w : Option (Writer × Pos)) (rel : Option ScopeCode) : (s.written bs w rel).soon = s.soon := by unfold State.written State.flushSram; dsimp only; split <;> (try split) <;> rfl
@[simp] theorem State.written_late (bs : List (Nat × Byte)) (w : Option (Writer × Pos)) (rel : Option ScopeCode) : (s.written bs w rel).late = s.late := by unfold State.written State.flushSram; dsimp only; split <;> (try split) <;> rfl
@[simp] theorem State.written_cur (bs : List (Nat × Byte)) (w : Option (Writer × Pos)) (rel : Option ScopeCode) : (s.written bs w rel).cur = s.cur := by unfold State.written State.flushSram; dsimp only; split <;> (try split) <;> rfl
@[simp] theorem State.written_nextId (bs : List (Nat × Byte)) (w : Option (Writer × Pos)) (rel : Option ScopeCode) : (s.written bs w rel).nextId = s.nextId := by unfold State.written State.flushSram; dsimp only; split <;> (try split) <;> rfl
@[simp] theorem State.written_now (bs : List (Nat × Byte)) (w : Option (Writer × Pos)) (rel : Option ScopeCode) : (s.written bs w rel).now = s.now := by unfold State.written State.flushSram; dsimp only; split <;> (try split) <;> rfl
@[simp] theorem State.written_held (bs : List (Nat × Byte)) (w : Option (Writer × Pos)) (rel : Option ScopeCode) : (s.written bs w rel).held = s.held := by unfold State.written State.flushSram; dsimp only; split <;> (try split) <;> rfl
@[simp] theorem State.written_live (bs : List (Nat × Byte)) (w : Option (Writer × Pos)) (rel : Option ScopeCode) : (s.written bs w rel).live = s.live := by unfold State.written State.flushSram; dsimp only; split <;> (try split) <;> rfl
@[simp] theorem State.written_tags (bs : List (Nat × Byte)) (w : Option (Writer × Pos)) (rel : Option ScopeCode) : (s.written bs w rel).tags = s.tags := by unfold State.written State.flushSram; dsimp only; split <;> (try split) <;> rfl
@[simp] theorem State.written_toks (bs : List (Nat × Byte)) (w : Option (Writer × Pos)) (rel : Option ScopeCode) : (s.written bs w rel).toks = s.toks := by unfold State.written State.flushSram; dsimp only; split <;> (try split) <;> rfl
@[simp] theorem State.written_traps (bs : List (Nat × Byte)) (w : Option (Writer × Pos)) (rel : Option ScopeCode) : (s.written bs w rel).traps = s.traps := by unfold State.written State.flushSram; dsimp only; split <;> (try split) <;> rfl
@[simp] theorem State.written_fences (bs : List (Nat × Byte)) (w : Option (Writer × Pos)) (rel : Option ScopeCode) : (s.written bs w rel).fences = s.fences := by unfold State.written State.flushSram; dsimp only; split <;> (try split) <;> rfl
@[simp] theorem State.written_timers (bs : List (Nat × Byte)) (w : Option (Writer × Pos)) (rel : Option ScopeCode) : (s.written bs w rel).timers = s.timers := by unfold State.written State.flushSram; dsimp only; split <;> (try split) <;> rfl
@[simp] theorem State.written_gregs (bs : List (Nat × Byte)) (w : Option (Writer × Pos)) (rel : Option ScopeCode) : (s.written bs w rel).gregs = s.gregs := by unfold State.written State.flushSram; dsimp only; split <;> (try split) <;> rfl
@[simp] theorem State.written_l1 (bs : List (Nat × Byte)) (w : Option (Writer × Pos)) (rel : Option ScopeCode) : (s.written bs w rel).l1 = s.l1 := by unfold State.written State.flushSram; dsimp only; split <;> (try split) <;> rfl
@[simp] theorem State.written_l2 (bs : List (Nat × Byte)) (w : Option (Writer × Pos)) (rel : Option ScopeCode) : (s.written bs w rel).l2 = s.l2 := by unfold State.written State.flushSram; dsimp only; split <;> (try split) <;> rfl
@[simp] theorem State.written_peer (bs : List (Nat × Byte)) (w : Option (Writer × Pos)) (rel : Option ScopeCode) : (s.written bs w rel).peer = s.peer := by unfold State.written State.flushSram; dsimp only; split <;> (try split) <;> rfl
@[simp] theorem State.written_hovs (bs : List (Nat × Byte)) (w : Option (Writer × Pos)) (rel : Option ScopeCode) : (s.written bs w rel).hovs = s.hovs := by unfold State.written State.flushSram; dsimp only; split <;> (try split) <;> rfl
@[simp] theorem State.written_dir (bs : List (Nat × Byte)) (w : Option (Writer × Pos)) (rel : Option ScopeCode) : (s.written bs w rel).dir = s.dir := by unfold State.written State.flushSram; dsimp only; split <;> (try split) <;> rfl
@[simp] theorem State.written_flc (bs : List (Nat × Byte)) (w : Option (Writer × Pos)) (rel : Option ScopeCode) : (s.written bs w rel).flc = s.flc := by unfold State.written State.flushSram; dsimp only; split <;> (try split) <;> rfl
@[simp] theorem State.written_claims (bs : List (Nat × Byte)) (w : Option (Writer × Pos)) (rel : Option ScopeCode) : (s.written bs w rel).claims = s.claims := by unfold State.written State.flushSram; dsimp only; split <;> (try split) <;> rfl
@[simp] theorem State.written_tcache (bs : List (Nat × Byte)) (w : Option (Writer × Pos)) (rel : Option ScopeCode) : (s.written bs w rel).tcache = s.tcache := by unfold State.written State.flushSram; dsimp only; split <;> (try split) <;> rfl
@[simp] theorem State.written_wcache (bs : List (Nat × Byte)) (w : Option (Writer × Pos)) (rel : Option ScopeCode) : (s.written bs w rel).wcache = s.wcache := by unfold State.written State.flushSram; dsimp only; split <;> (try split) <;> rfl
@[simp] theorem State.written_walks (bs : List (Nat × Byte)) (w : Option (Writer × Pos)) (rel : Option ScopeCode) : (s.written bs w rel).walks = s.walks := by unfold State.written State.flushSram; dsimp only; split <;> (try split) <;> rfl
@[simp] theorem State.written_ops (bs : List (Nat × Byte)) (w : Option (Writer × Pos)) (rel : Option ScopeCode) : (s.written bs w rel).ops = s.ops := by unfold State.written State.flushSram; dsimp only; split <;> (try split) <;> rfl
@[simp] theorem State.written_stores (bs : List (Nat × Byte)) (w : Option (Writer × Pos)) (rel : Option ScopeCode) : (s.written bs w rel).stores = s.stores := by unfold State.written State.flushSram; dsimp only; split <;> (try split) <;> rfl
@[simp] theorem State.written_sends (bs : List (Nat × Byte)) (w : Option (Writer × Pos)) (rel : Option ScopeCode) : (s.written bs w rel).sends = s.sends := by unfold State.written State.flushSram; dsimp only; split <;> (try split) <;> rfl
@[simp] theorem State.written_futs (bs : List (Nat × Byte)) (w : Option (Writer × Pos)) (rel : Option ScopeCode) : (s.written bs w rel).futs = s.futs := by unfold State.written State.flushSram; dsimp only; split <;> (try split) <;> rfl
@[simp] theorem State.written_handles (bs : List (Nat × Byte)) (w : Option (Writer × Pos)) (rel : Option ScopeCode) : (s.written bs w rel).handles = s.handles := by unfold State.written State.flushSram; dsimp only; split <;> (try split) <;> rfl
@[simp] theorem State.written_tes (bs : List (Nat × Byte)) (w : Option (Writer × Pos)) (rel : Option ScopeCode) : (s.written bs w rel).tes = s.tes := by unfold State.written State.flushSram; dsimp only; split <;> (try split) <;> rfl
@[simp] theorem State.written_ces (bs : List (Nat × Byte)) (w : Option (Writer × Pos)) (rel : Option ScopeCode) : (s.written bs w rel).ces = s.ces := by unfold State.written State.flushSram; dsimp only; split <;> (try split) <;> rfl
@[simp] theorem State.written_runs (bs : List (Nat × Byte)) (w : Option (Writer × Pos)) (rel : Option ScopeCode) : (s.written bs w rel).runs = s.runs := by unfold State.written State.flushSram; dsimp only; split <;> (try split) <;> rfl
@[simp] theorem State.written_bdes (bs : List (Nat × Byte)) (w : Option (Writer × Pos)) (rel : Option ScopeCode) : (s.written bs w rel).bdes = s.bdes := by unfold State.written State.flushSram; dsimp only; split <;> (try split) <;> rfl
@[simp] theorem State.written_rlcs (bs : List (Nat × Byte)) (w : Option (Writer × Pos)) (rel : Option ScopeCode) : (s.written bs w rel).rlcs = s.rlcs := by unfold State.written State.flushSram; dsimp only; split <;> (try split) <;> rfl
@[simp] theorem State.written_ius (bs : List (Nat × Byte)) (w : Option (Writer × Pos)) (rel : Option ScopeCode) : (s.written bs w rel).ius = s.ius := by unfold State.written State.flushSram; dsimp only; split <;> (try split) <;> rfl
@[simp] theorem State.written_parts (bs : List (Nat × Byte)) (w : Option (Writer × Pos)) (rel : Option ScopeCode) : (s.written bs w rel).parts = s.parts := by unfold State.written State.flushSram; dsimp only; split <;> (try split) <;> rfl
@[simp] theorem State.written_images (bs : List (Nat × Byte)) (w : Option (Writer × Pos)) (rel : Option ScopeCode) : (s.written bs w rel).images = s.images := by unfold State.written State.flushSram; dsimp only; split <;> (try split) <;> rfl
@[simp] theorem State.written_dies (bs : List (Nat × Byte)) (w : Option (Writer × Pos)) (rel : Option ScopeCode) : (s.written bs w rel).dies = s.dies := by unfold State.written State.flushSram; dsimp only; split <;> (try split) <;> rfl
@[simp] theorem State.written_fws (bs : List (Nat × Byte)) (w : Option (Writer × Pos)) (rel : Option ScopeCode) : (s.written bs w rel).fws = s.fws := by unfold State.written State.flushSram; dsimp only; split <;> (try split) <;> rfl
@[simp] theorem State.written_fware (bs : List (Nat × Byte)) (w : Option (Writer × Pos)) (rel : Option ScopeCode) : (s.written bs w rel).fware = s.fware := by unfold State.written State.flushSram; dsimp only; split <;> (try split) <;> rfl
@[simp] theorem State.written_wtab (bs : List (Nat × Byte)) (w : Option (Writer × Pos)) (rel : Option ScopeCode) : (s.written bs w rel).wtab = s.wtab := by unfold State.written State.flushSram; dsimp only; split <;> (try split) <;> rfl
@[simp] theorem State.written_ports (bs : List (Nat × Byte)) (w : Option (Writer × Pos)) (rel : Option ScopeCode) : (s.written bs w rel).ports = s.ports := by unfold State.written State.flushSram; dsimp only; split <;> (try split) <;> rfl
@[simp] theorem State.written_bbox (bs : List (Nat × Byte)) (w : Option (Writer × Pos)) (rel : Option ScopeCode) : (s.written bs w rel).bbox = s.bbox := by unfold State.written State.flushSram; dsimp only; split <;> (try split) <;> rfl
@[simp] theorem State.written_resps (bs : List (Nat × Byte)) (w : Option (Writer × Pos)) (rel : Option ScopeCode) : (s.written bs w rel).resps = s.resps := by unfold State.written State.flushSram; dsimp only; split <;> (try split) <;> rfl
@[simp] theorem State.written_asks (bs : List (Nat × Byte)) (w : Option (Writer × Pos)) (rel : Option ScopeCode) : (s.written bs w rel).asks = s.asks := by unfold State.written State.flushSram; dsimp only; split <;> (try split) <;> rfl
@[simp] theorem State.written_acks (bs : List (Nat × Byte)) (w : Option (Writer × Pos)) (rel : Option ScopeCode) : (s.written bs w rel).acks = s.acks := by unfold State.written State.flushSram; dsimp only; split <;> (try split) <;> rfl
@[simp] theorem State.written_hostReads (bs : List (Nat × Byte)) (w : Option (Writer × Pos)) (rel : Option ScopeCode) : (s.written bs w rel).hostReads = s.hostReads := by unfold State.written State.flushSram; dsimp only; split <;> (try split) <;> rfl
@[simp] theorem State.written_hostErrs (bs : List (Nat × Byte)) (w : Option (Writer × Pos)) (rel : Option ScopeCode) : (s.written bs w rel).hostErrs = s.hostErrs := by unfold State.written State.flushSram; dsimp only; split <;> (try split) <;> rfl
@[simp] theorem State.written_sent (bs : List (Nat × Byte)) (w : Option (Writer × Pos)) (rel : Option ScopeCode) : (s.written bs w rel).sent = s.sent := by unfold State.written State.flushSram; dsimp only; split <;> (try split) <;> rfl
@[simp] theorem State.written_freeIds (bs : List (Nat × Byte)) (w : Option (Writer × Pos)) (rel : Option ScopeCode) : (s.written bs w rel).freeIds = s.freeIds := by unfold State.written State.flushSram; dsimp only; split <;> (try split) <;> rfl

@[simp] theorem State.perform_tick (bs : List (Nat × Byte)) (w : Option (Writer × Pos)) (rel : Option ScopeCode) : (s.perform bs w rel).tick = s.tick := by obtain ⟨is, h⟩ := (s.written bs w rel).monitors_only_emits (bs.map (·.1)); rw [State.perform, h]; simp
@[simp] theorem State.perform_soon (bs : List (Nat × Byte)) (w : Option (Writer × Pos)) (rel : Option ScopeCode) : (s.perform bs w rel).soon = s.soon := by obtain ⟨is, h⟩ := (s.written bs w rel).monitors_only_emits (bs.map (·.1)); rw [State.perform, h]; simp
@[simp] theorem State.perform_late (bs : List (Nat × Byte)) (w : Option (Writer × Pos)) (rel : Option ScopeCode) : (s.perform bs w rel).late = s.late := by obtain ⟨is, h⟩ := (s.written bs w rel).monitors_only_emits (bs.map (·.1)); rw [State.perform, h]; simp
@[simp] theorem State.perform_cur (bs : List (Nat × Byte)) (w : Option (Writer × Pos)) (rel : Option ScopeCode) : (s.perform bs w rel).cur = s.cur := by obtain ⟨is, h⟩ := (s.written bs w rel).monitors_only_emits (bs.map (·.1)); rw [State.perform, h]; simp
@[simp] theorem State.perform_nextId (bs : List (Nat × Byte)) (w : Option (Writer × Pos)) (rel : Option ScopeCode) : (s.perform bs w rel).nextId = s.nextId := by obtain ⟨is, h⟩ := (s.written bs w rel).monitors_only_emits (bs.map (·.1)); rw [State.perform, h]; simp
@[simp] theorem State.perform_now (bs : List (Nat × Byte)) (w : Option (Writer × Pos)) (rel : Option ScopeCode) : (s.perform bs w rel).now = s.now := by obtain ⟨is, h⟩ := (s.written bs w rel).monitors_only_emits (bs.map (·.1)); rw [State.perform, h]; simp
@[simp] theorem State.perform_held (bs : List (Nat × Byte)) (w : Option (Writer × Pos)) (rel : Option ScopeCode) : (s.perform bs w rel).held = s.held := by obtain ⟨is, h⟩ := (s.written bs w rel).monitors_only_emits (bs.map (·.1)); rw [State.perform, h]; simp
@[simp] theorem State.perform_live (bs : List (Nat × Byte)) (w : Option (Writer × Pos)) (rel : Option ScopeCode) : (s.perform bs w rel).live = s.live := by obtain ⟨is, h⟩ := (s.written bs w rel).monitors_only_emits (bs.map (·.1)); rw [State.perform, h]; simp
@[simp] theorem State.perform_tags (bs : List (Nat × Byte)) (w : Option (Writer × Pos)) (rel : Option ScopeCode) : (s.perform bs w rel).tags = s.tags := by obtain ⟨is, h⟩ := (s.written bs w rel).monitors_only_emits (bs.map (·.1)); rw [State.perform, h]; simp
@[simp] theorem State.perform_toks (bs : List (Nat × Byte)) (w : Option (Writer × Pos)) (rel : Option ScopeCode) : (s.perform bs w rel).toks = s.toks := by obtain ⟨is, h⟩ := (s.written bs w rel).monitors_only_emits (bs.map (·.1)); rw [State.perform, h]; simp
@[simp] theorem State.perform_traps (bs : List (Nat × Byte)) (w : Option (Writer × Pos)) (rel : Option ScopeCode) : (s.perform bs w rel).traps = s.traps := by obtain ⟨is, h⟩ := (s.written bs w rel).monitors_only_emits (bs.map (·.1)); rw [State.perform, h]; simp
@[simp] theorem State.perform_fences (bs : List (Nat × Byte)) (w : Option (Writer × Pos)) (rel : Option ScopeCode) : (s.perform bs w rel).fences = s.fences := by obtain ⟨is, h⟩ := (s.written bs w rel).monitors_only_emits (bs.map (·.1)); rw [State.perform, h]; simp
@[simp] theorem State.perform_timers (bs : List (Nat × Byte)) (w : Option (Writer × Pos)) (rel : Option ScopeCode) : (s.perform bs w rel).timers = s.timers := by obtain ⟨is, h⟩ := (s.written bs w rel).monitors_only_emits (bs.map (·.1)); rw [State.perform, h]; simp
@[simp] theorem State.perform_gregs (bs : List (Nat × Byte)) (w : Option (Writer × Pos)) (rel : Option ScopeCode) : (s.perform bs w rel).gregs = s.gregs := by obtain ⟨is, h⟩ := (s.written bs w rel).monitors_only_emits (bs.map (·.1)); rw [State.perform, h]; simp
@[simp] theorem State.perform_l1 (bs : List (Nat × Byte)) (w : Option (Writer × Pos)) (rel : Option ScopeCode) : (s.perform bs w rel).l1 = s.l1 := by obtain ⟨is, h⟩ := (s.written bs w rel).monitors_only_emits (bs.map (·.1)); rw [State.perform, h]; simp
@[simp] theorem State.perform_l2 (bs : List (Nat × Byte)) (w : Option (Writer × Pos)) (rel : Option ScopeCode) : (s.perform bs w rel).l2 = s.l2 := by obtain ⟨is, h⟩ := (s.written bs w rel).monitors_only_emits (bs.map (·.1)); rw [State.perform, h]; simp
@[simp] theorem State.perform_peer (bs : List (Nat × Byte)) (w : Option (Writer × Pos)) (rel : Option ScopeCode) : (s.perform bs w rel).peer = s.peer := by obtain ⟨is, h⟩ := (s.written bs w rel).monitors_only_emits (bs.map (·.1)); rw [State.perform, h]; simp
@[simp] theorem State.perform_hovs (bs : List (Nat × Byte)) (w : Option (Writer × Pos)) (rel : Option ScopeCode) : (s.perform bs w rel).hovs = s.hovs := by obtain ⟨is, h⟩ := (s.written bs w rel).monitors_only_emits (bs.map (·.1)); rw [State.perform, h]; simp
@[simp] theorem State.perform_dir (bs : List (Nat × Byte)) (w : Option (Writer × Pos)) (rel : Option ScopeCode) : (s.perform bs w rel).dir = s.dir := by obtain ⟨is, h⟩ := (s.written bs w rel).monitors_only_emits (bs.map (·.1)); rw [State.perform, h]; simp
@[simp] theorem State.perform_flc (bs : List (Nat × Byte)) (w : Option (Writer × Pos)) (rel : Option ScopeCode) : (s.perform bs w rel).flc = s.flc := by obtain ⟨is, h⟩ := (s.written bs w rel).monitors_only_emits (bs.map (·.1)); rw [State.perform, h]; simp
@[simp] theorem State.perform_claims (bs : List (Nat × Byte)) (w : Option (Writer × Pos)) (rel : Option ScopeCode) : (s.perform bs w rel).claims = s.claims := by obtain ⟨is, h⟩ := (s.written bs w rel).monitors_only_emits (bs.map (·.1)); rw [State.perform, h]; simp
@[simp] theorem State.perform_tcache (bs : List (Nat × Byte)) (w : Option (Writer × Pos)) (rel : Option ScopeCode) : (s.perform bs w rel).tcache = s.tcache := by obtain ⟨is, h⟩ := (s.written bs w rel).monitors_only_emits (bs.map (·.1)); rw [State.perform, h]; simp
@[simp] theorem State.perform_wcache (bs : List (Nat × Byte)) (w : Option (Writer × Pos)) (rel : Option ScopeCode) : (s.perform bs w rel).wcache = s.wcache := by obtain ⟨is, h⟩ := (s.written bs w rel).monitors_only_emits (bs.map (·.1)); rw [State.perform, h]; simp
@[simp] theorem State.perform_walks (bs : List (Nat × Byte)) (w : Option (Writer × Pos)) (rel : Option ScopeCode) : (s.perform bs w rel).walks = s.walks := by obtain ⟨is, h⟩ := (s.written bs w rel).monitors_only_emits (bs.map (·.1)); rw [State.perform, h]; simp
@[simp] theorem State.perform_ops (bs : List (Nat × Byte)) (w : Option (Writer × Pos)) (rel : Option ScopeCode) : (s.perform bs w rel).ops = s.ops := by obtain ⟨is, h⟩ := (s.written bs w rel).monitors_only_emits (bs.map (·.1)); rw [State.perform, h]; simp
@[simp] theorem State.perform_stores (bs : List (Nat × Byte)) (w : Option (Writer × Pos)) (rel : Option ScopeCode) : (s.perform bs w rel).stores = s.stores := by obtain ⟨is, h⟩ := (s.written bs w rel).monitors_only_emits (bs.map (·.1)); rw [State.perform, h]; simp
@[simp] theorem State.perform_sends (bs : List (Nat × Byte)) (w : Option (Writer × Pos)) (rel : Option ScopeCode) : (s.perform bs w rel).sends = s.sends := by obtain ⟨is, h⟩ := (s.written bs w rel).monitors_only_emits (bs.map (·.1)); rw [State.perform, h]; simp
@[simp] theorem State.perform_futs (bs : List (Nat × Byte)) (w : Option (Writer × Pos)) (rel : Option ScopeCode) : (s.perform bs w rel).futs = s.futs := by obtain ⟨is, h⟩ := (s.written bs w rel).monitors_only_emits (bs.map (·.1)); rw [State.perform, h]; simp
@[simp] theorem State.perform_handles (bs : List (Nat × Byte)) (w : Option (Writer × Pos)) (rel : Option ScopeCode) : (s.perform bs w rel).handles = s.handles := by obtain ⟨is, h⟩ := (s.written bs w rel).monitors_only_emits (bs.map (·.1)); rw [State.perform, h]; simp
@[simp] theorem State.perform_tes (bs : List (Nat × Byte)) (w : Option (Writer × Pos)) (rel : Option ScopeCode) : (s.perform bs w rel).tes = s.tes := by obtain ⟨is, h⟩ := (s.written bs w rel).monitors_only_emits (bs.map (·.1)); rw [State.perform, h]; simp
@[simp] theorem State.perform_ces (bs : List (Nat × Byte)) (w : Option (Writer × Pos)) (rel : Option ScopeCode) : (s.perform bs w rel).ces = s.ces := by obtain ⟨is, h⟩ := (s.written bs w rel).monitors_only_emits (bs.map (·.1)); rw [State.perform, h]; simp
@[simp] theorem State.perform_runs (bs : List (Nat × Byte)) (w : Option (Writer × Pos)) (rel : Option ScopeCode) : (s.perform bs w rel).runs = s.runs := by obtain ⟨is, h⟩ := (s.written bs w rel).monitors_only_emits (bs.map (·.1)); rw [State.perform, h]; simp
@[simp] theorem State.perform_bdes (bs : List (Nat × Byte)) (w : Option (Writer × Pos)) (rel : Option ScopeCode) : (s.perform bs w rel).bdes = s.bdes := by obtain ⟨is, h⟩ := (s.written bs w rel).monitors_only_emits (bs.map (·.1)); rw [State.perform, h]; simp
@[simp] theorem State.perform_rlcs (bs : List (Nat × Byte)) (w : Option (Writer × Pos)) (rel : Option ScopeCode) : (s.perform bs w rel).rlcs = s.rlcs := by obtain ⟨is, h⟩ := (s.written bs w rel).monitors_only_emits (bs.map (·.1)); rw [State.perform, h]; simp
@[simp] theorem State.perform_ius (bs : List (Nat × Byte)) (w : Option (Writer × Pos)) (rel : Option ScopeCode) : (s.perform bs w rel).ius = s.ius := by obtain ⟨is, h⟩ := (s.written bs w rel).monitors_only_emits (bs.map (·.1)); rw [State.perform, h]; simp
@[simp] theorem State.perform_parts (bs : List (Nat × Byte)) (w : Option (Writer × Pos)) (rel : Option ScopeCode) : (s.perform bs w rel).parts = s.parts := by obtain ⟨is, h⟩ := (s.written bs w rel).monitors_only_emits (bs.map (·.1)); rw [State.perform, h]; simp
@[simp] theorem State.perform_images (bs : List (Nat × Byte)) (w : Option (Writer × Pos)) (rel : Option ScopeCode) : (s.perform bs w rel).images = s.images := by obtain ⟨is, h⟩ := (s.written bs w rel).monitors_only_emits (bs.map (·.1)); rw [State.perform, h]; simp
@[simp] theorem State.perform_dies (bs : List (Nat × Byte)) (w : Option (Writer × Pos)) (rel : Option ScopeCode) : (s.perform bs w rel).dies = s.dies := by obtain ⟨is, h⟩ := (s.written bs w rel).monitors_only_emits (bs.map (·.1)); rw [State.perform, h]; simp
@[simp] theorem State.perform_fws (bs : List (Nat × Byte)) (w : Option (Writer × Pos)) (rel : Option ScopeCode) : (s.perform bs w rel).fws = s.fws := by obtain ⟨is, h⟩ := (s.written bs w rel).monitors_only_emits (bs.map (·.1)); rw [State.perform, h]; simp
@[simp] theorem State.perform_fware (bs : List (Nat × Byte)) (w : Option (Writer × Pos)) (rel : Option ScopeCode) : (s.perform bs w rel).fware = s.fware := by obtain ⟨is, h⟩ := (s.written bs w rel).monitors_only_emits (bs.map (·.1)); rw [State.perform, h]; simp
@[simp] theorem State.perform_wtab (bs : List (Nat × Byte)) (w : Option (Writer × Pos)) (rel : Option ScopeCode) : (s.perform bs w rel).wtab = s.wtab := by obtain ⟨is, h⟩ := (s.written bs w rel).monitors_only_emits (bs.map (·.1)); rw [State.perform, h]; simp
@[simp] theorem State.perform_ports (bs : List (Nat × Byte)) (w : Option (Writer × Pos)) (rel : Option ScopeCode) : (s.perform bs w rel).ports = s.ports := by obtain ⟨is, h⟩ := (s.written bs w rel).monitors_only_emits (bs.map (·.1)); rw [State.perform, h]; simp
@[simp] theorem State.perform_bbox (bs : List (Nat × Byte)) (w : Option (Writer × Pos)) (rel : Option ScopeCode) : (s.perform bs w rel).bbox = s.bbox := by obtain ⟨is, h⟩ := (s.written bs w rel).monitors_only_emits (bs.map (·.1)); rw [State.perform, h]; simp
@[simp] theorem State.perform_resps (bs : List (Nat × Byte)) (w : Option (Writer × Pos)) (rel : Option ScopeCode) : (s.perform bs w rel).resps = s.resps := by obtain ⟨is, h⟩ := (s.written bs w rel).monitors_only_emits (bs.map (·.1)); rw [State.perform, h]; simp
@[simp] theorem State.perform_asks (bs : List (Nat × Byte)) (w : Option (Writer × Pos)) (rel : Option ScopeCode) : (s.perform bs w rel).asks = s.asks := by obtain ⟨is, h⟩ := (s.written bs w rel).monitors_only_emits (bs.map (·.1)); rw [State.perform, h]; simp
@[simp] theorem State.perform_acks (bs : List (Nat × Byte)) (w : Option (Writer × Pos)) (rel : Option ScopeCode) : (s.perform bs w rel).acks = s.acks := by obtain ⟨is, h⟩ := (s.written bs w rel).monitors_only_emits (bs.map (·.1)); rw [State.perform, h]; simp
@[simp] theorem State.perform_hostReads (bs : List (Nat × Byte)) (w : Option (Writer × Pos)) (rel : Option ScopeCode) : (s.perform bs w rel).hostReads = s.hostReads := by obtain ⟨is, h⟩ := (s.written bs w rel).monitors_only_emits (bs.map (·.1)); rw [State.perform, h]; simp
@[simp] theorem State.perform_hostErrs (bs : List (Nat × Byte)) (w : Option (Writer × Pos)) (rel : Option ScopeCode) : (s.perform bs w rel).hostErrs = s.hostErrs := by obtain ⟨is, h⟩ := (s.written bs w rel).monitors_only_emits (bs.map (·.1)); rw [State.perform, h]; simp
@[simp] theorem State.perform_sent (bs : List (Nat × Byte)) (w : Option (Writer × Pos)) (rel : Option ScopeCode) : (s.perform bs w rel).sent = s.sent := by obtain ⟨is, h⟩ := (s.written bs w rel).monitors_only_emits (bs.map (·.1)); rw [State.perform, h]; simp
@[simp] theorem State.perform_freeIds (bs : List (Nat × Byte)) (w : Option (Writer × Pos)) (rel : Option ScopeCode) : (s.perform bs w rel).freeIds = s.freeIds := by obtain ⟨is, h⟩ := (s.written bs w rel).monitors_only_emits (bs.map (·.1)); rw [State.perform, h]; simp

@[simp] theorem State.perform_mem (bs : List (Nat × Byte)) (w : Option (Writer × Pos)) (rel : Option ScopeCode) : (s.perform bs w rel).mem = memWriteAll s.mem bs := by
  obtain ⟨is, h⟩ := (s.written bs w rel).monitors_only_emits (bs.map (·.1))
  rw [State.perform, h]; simp only [State.emits_mem]
  unfold State.written State.flushSram; dsimp only; split <;> (try split) <;> rfl

end Sys2Proof.Machine
end

