-- ==== Sys2Proof/Laws/Sound.lean ====
section
/-! SUPPORT. What every shared operation keeps, said once for each: memory in its canonical form, replays of legal blocks, REFT that never runs backward. -/

-- One proof after another, not side by side: threads that wait for the kernel each hold a stack.
set_option Elab.async false

namespace Sys2Proof.Machine

/-- From `s` to `t` memory keeps its form, replays stay legal, and REFT does not run backward. -/
structure Keeps (s t : State) : Prop where
  mem    : memSound s → memSound t
  replay : replaysSound s → replaysSound t
  now    : s.now ≤ t.now

theorem Keeps.refl (s : State) : Keeps s s := ⟨id, id, Nat.le_refl _⟩
theorem Keeps.trans {s t u : State} (h : Keeps s t) (g : Keeps t u) : Keeps s u := ⟨g.mem ∘ h.mem, g.replay ∘ h.replay, Nat.le_trans h.now g.now⟩

/-- An update that touches neither memory nor held lines nor REFT. -/
theorem Keeps.same {s t : State} (hm : t.mem = s.mem) (hh : t.held = s.held) (hn : t.now = s.now) : Keeps s t :=
  ⟨fun h => by unfold memSound at *; rw [hm]; exact h, fun h => by unfold replaysSound at *; rw [hh]; exact h, Nat.le_of_eq hn.symm⟩

/-- An update after a step that keeps them, of fields that they do not speak of. -/
theorem Keeps.upd {s u t : State} (h : Keeps s u) (hm : t.mem = u.mem) (hh : t.held = u.held) (hn : t.now = u.now) : Keeps s t := h.trans (.same hm hh hn)

theorem Keeps.foldl {α : Type} (f : State → α → State) (hf : ∀ s a, Keeps s (f s a)) (l : List α) (s : State) : Keeps s (l.foldl f s) := by
  induction l generalizing s with
  | nil => exact .refl s
  | cons a r ih => exact (hf s a).trans (ih _)

theorem keeps_ite {s a b : State} {c : Prop} [Decidable c] (ha : Keeps s a) (hb : Keeps s b) : Keeps s (if c then a else b) := by
  split
  · exact ha
  · exact hb

theorem mem_of_mapFind {α : Type} {m : SMap α} {k : Nat} {v : α} (h : mapFind m k = some v) : (k, v) ∈ m := by
  induction m with
  | nil => simp at h
  | cons e r ih =>
    obtain ⟨j, w⟩ := e
    simp only [mapFind] at h
    split at h
    · simp_all
    · exact List.mem_cons_of_mem _ (ih h)

/-- A record as legal as the one it replaces: a replay it holds has the same block. -/
def SameReplay (s : State) (key : Nat) (h : Held) : Prop :=
  ∀ r, h.replay = some r → ∃ h0 r0, mapFind s.held key = some h0 ∧ h0.replay = some r0 ∧ r.block = r0.block

theorem SameReplay.none {s : State} {key : Nat} {h : Held} (hn : h.replay = .none) : SameReplay s key h := by
  intro r hr; simp [hn] at hr

theorem SameReplay.eq {s : State} {key : Nat} {h h0 : Held} (hf : mapFind s.held key = some h0) (he : h.replay = h0.replay) : SameReplay s key h :=
  fun r hr => ⟨h0, r, hf, he ▸ hr, rfl⟩

theorem replaysSound_put {s t : State} {key : Nat} {h : Held} (hh : t.held = mapPut s.held key h) (hr : SameReplay s key h)
    (hs : replaysSound s) : replaysSound t := by
  intro e he r hre x hx
  rw [hh] at he
  rcases mem_mapPut he with rfl | he
  · obtain ⟨h0, r0, hf, h0r, hb⟩ := hr r hre
    exact hs _ (mem_of_mapFind hf) r0 h0r x (by rw [← hb]; exact hx)
  · exact hs e he r hre x hx

theorem Keeps.put {s t : State} {key : Nat} {h : Held} (hm : t.mem = s.mem) (hh : t.held = mapPut s.held key h) (hn : t.now = s.now)
    (hr : SameReplay s key h) : Keeps s t :=
  ⟨fun h => by unfold memSound at *; rw [hm]; exact h, replaysSound_put hh hr, Nat.le_of_eq hn.symm⟩

theorem Keeps.erase {s t : State} {key : Nat} (hm : t.mem = s.mem) (hh : t.held = mapErase s.held key) (hn : t.now = s.now) : Keeps s t :=
  ⟨fun h => by unfold memSound at *; rw [hm]; exact h, fun hs e he => hs e (mem_mapErase (by rw [← hh]; exact he)), Nat.le_of_eq hn.symm⟩

/-! ### Time, agenda, partitions -/

theorem keeps_at (s : State) (t : Nat) : Keeps s (s.at t) := ⟨id, id, Nat.le_max_left ..⟩
theorem keeps_emit (s : State) (i : Instr) : Keeps s (s.emit i) := .same rfl rfl rfl
theorem keeps_emits (s : State) (is : List Instr) : Keeps s (s.emits is) := .same rfl rfl rfl
theorem keeps_emitOnce (s : State) (i : Instr) : Keeps s (s.emitOnce i) := .same (by simp) (by simp) (by simp)
theorem keeps_emitOnceIf (s : State) (i : Instr) (c : Prop) [Decidable c] : Keeps s (if c then s.emitOnce i else s) :=
  keeps_ite (keeps_emitOnce ..) (.refl s)
theorem keeps_bump (s : State) : Keeps s s.bump := .same rfl rfl rfl
theorem keeps_modPart (s : State) (k : Nat) (f : Part → Part) : Keeps s (s.modPart k f) := .same (by simp) (by simp) (by simp)
theorem keeps_modIu (s : State) (n : Nat) (f : Iu → Iu) : Keeps s (s.modIu n f) := .same rfl rfl rfl
theorem keeps_bb (s : State) (die code part : Nat) (vals : List Nat) : Keeps s (s.bb die code part vals) := .same rfl rfl rfl

/-! ### Coherence and writes -/

theorem keeps_modL2 (s : State) (line die : Nat) (f : L2Line → L2Line) : Keeps s (s.modL2 line die f) := .same rfl rfl rfl
theorem keeps_setDir (s : State) (line : Nat) (e : DirEntry) : Keeps s (s.setDir line e) := .same rfl rfl rfl

theorem keeps_dropCopy (s : State) (line die : Nat) : Keeps s (s.dropCopy line die) := by
  unfold State.dropCopy; dsimp only
  split
  · split <;> exact .same rfl rfl rfl
  · exact .same rfl rfl rfl

theorem keeps_dropOthers (s : State) (line : Nat) (keep : Option Nat) : Keeps s (s.dropOthers line keep) := by
  unfold State.dropOthers; dsimp only
  exact ((keeps_at s _).trans (.foldl _ (fun s _ => keeps_dropCopy s ..) _ _)).trans (.same rfl rfl rfl)

theorem keeps_poisonLine (s : State) (line : Nat) : Keeps s (s.poisonLine line) := .same rfl rfl rfl

theorem keeps_cancelLine (s : State) (line : Nat) : Keeps s (s.cancelLine line) := by
  unfold State.cancelLine
  extract_lets e again l2 u
  refine (show Keeps s u from keeps_ite (keeps_poisonLine ..) (.refl s)).trans ?_
  exact .same rfl rfl rfl

theorem keeps_recall (s : State) (line : Nat) : Keeps s (s.recall line) := by
  unfold State.recall
  refine keeps_ite (.refl s) ?_
  extract_lets u e
  refine (show Keeps s u from keeps_cancelLine ..).trans ?_
  clear_value u
  refine keeps_ite ?_ (.refl u)
  exact (keeps_ite (keeps_modL2 ..) (.refl u)).trans (keeps_setDir ..)

theorem keeps_takeHome (s : State) (line : Nat) : Keeps s (s.takeHome line) :=
  keeps_ite (.refl s) (((keeps_cancelLine s _).trans (keeps_dropOthers _ ..)).trans (keeps_setDir _ ..))

theorem keeps_dirRoom (s : State) (line : Nat) : Keeps s (s.dirRoom line) := by
  unfold State.dirRoom
  refine keeps_ite ?_ (.refl s)
  split
  · exact keeps_takeHome ..
  · exact .refl s

/-- Room made in a set: a copy is dropped, and written back where dirty. -/
theorem keeps_makeRoom {s t : State} {line die : Nat} (h : s.makeRoom line die = some t) : Keeps s t := by
  unfold State.makeRoom at h
  split at h
  · simp only [Option.some.injEq] at h; exact h ▸ .refl s
  · split at h
    · simp at h
    · simp only [Option.some.injEq] at h
      exact h ▸ keeps_ite ((keeps_dropCopy ..).trans (keeps_emit ..)) (keeps_dropCopy ..)

theorem keeps_roomOr (s : State) (line die : Nat) : Keeps s ((s.makeRoom line die).getD s) := by
  cases h : s.makeRoom line die with
  | none => exact .refl s
  | some t => exact keeps_makeRoom h

theorem keeps_takeOwn (s : State) (line die : Nat) : Keeps s (s.takeOwn line die) :=
  keeps_ite (.refl s) (keeps_ite (keeps_takeHome ..)
    (((((keeps_dirRoom s line).trans (keeps_cancelLine _ _)).trans (keeps_dropOthers _ ..)).trans ((keeps_roomOr ..).trans (keeps_modL2 _ ..))).trans (keeps_setDir _ ..)))

theorem keeps_flcFill (s : State) (line die : Nat) : Keeps s (s.flcFill line die) := by
  unfold State.flcFill
  split
  · exact keeps_ite (.refl s) (.same rfl rfl rfl)
  · exact .refl s

theorem keeps_takeShared (s : State) (line die : Nat) : Keeps s (s.takeShared line die) := by
  unfold State.takeShared
  refine keeps_ite (.refl s) (keeps_ite (keeps_recall ..) ?_)
  refine ((keeps_dirRoom s line).trans (keeps_cancelLine _ line)).trans ?_
  generalize (s.dirRoom line).cancelLine line = u
  extract_lets v e w old a b
  have gives : ∀ b : Bool, Keeps u (if b then u.modL2 line (u.dirE line).owner fun l => { l with owned := false, dirty := false } else u) :=
    fun b => keeps_ite (keeps_modL2 ..) (.refl u)
  refine (show Keeps u w from gives _).trans ?_
  refine (show Keeps w b from (keeps_roomOr w line die).trans (keeps_modL2 ..)).trans ?_
  clear_value b
  exact keeps_ite (.same rfl rfl rfl) ((keeps_setDir ..).trans (keeps_flcFill ..))

theorem keeps_flushSram (s : State) (p : Option Pos) (rel : Option ScopeCode) : Keeps s (s.flushSram p rel) := by
  unfold State.flushSram
  split
  · split
    · exact .refl s
    · exact .same rfl rfl rfl
  · exact .refl s

theorem keeps_perform (s : State) (bs : List (Nat × Byte)) (w : Option (Writer × Pos)) (rel : Option ScopeCode) : Keeps s (s.perform bs w rel) :=
  ⟨fun h => by unfold memSound at *; rw [State.perform_mem]; exact memWf_writeAll _ _ h,
   fun h => by unfold replaysSound at *; rw [State.perform_held]; exact h, by simp⟩

theorem keeps_writeAsDie (s : State) (die : Nat) (bs : List (Nat × Byte)) (w : Writer × Pos) (rel : Option ScopeCode) : Keeps s (s.writeAsDie die bs w rel) :=
  (Keeps.foldl (fun s l => s.takeOwn l die) (fun _ _ => keeps_takeOwn ..) (linesOf bs) s).trans (keeps_perform ..)

theorem keeps_writeAtHome (s : State) (bs : List (Nat × Byte)) (w : Writer × Pos) (rel : Option ScopeCode) : Keeps s (s.writeAtHome bs w rel) :=
  (Keeps.foldl (fun s l => s.takeHome l) (fun _ _ => keeps_takeHome ..) (linesOf bs) s).trans (keeps_perform ..)

/-! ### Context lines, deliveries and traps -/

theorem asNow_replay (s : State) (h : Held) : (s.asNow h).replay = h.replay := by unfold State.asNow; split <;> rfl

theorem keeps_stateChanged (s : State) (key st : Nat) : Keeps s (s.stateChanged key st) := by
  unfold State.stateChanged
  have due : ∀ b : Bool, Keeps s (if b then s.emitOnce (.trapEntry key) else s) := fun b => keeps_ite (keeps_emitOnce ..) (.refl s)
  extract_lets u
  refine (show Keeps s u from due _).trans ?_
  clear_value u
  split
  · rename_i h hf
    have base : ∀ h' : Held, h'.replay = h.replay → Keeps u { u with held := mapPut u.held key h' } :=
      fun h' e => .put rfl rfl rfl (.eq hf e)
    dsimp only
    split
    · refine Keeps.trans ?_ (keeps_emitOnceIf ..)
      exact base _ (by split <;> rfl)
    · refine Keeps.trans ?_ (keeps_emitOnceIf ..)
      exact base _ (by split <;> rfl)
    · exact base _ rfl
  · split
    · refine Keeps.trans ?_ (keeps_emitOnceIf ..)
      exact .same rfl rfl rfl
    · exact .refl u

theorem keeps_setCtx (s : State) (key : Nat) (c : Ctx) : Keeps s (s.setCtx key c) := by
  unfold State.setCtx; dsimp only
  have base : Keeps s (match mapFind s.held key with
      | some h => { s with held := mapPut s.held key { s.asNow h with ctx := c } }
      | none => { s with mem := memWriteList s.mem key (ctxBytes c) }) := by
    split
    · rename_i h hf
      exact .put rfl rfl rfl (.eq hf (asNow_replay s h))
    · exact ⟨fun h => memWf_writeList _ _ _ h, id, Nat.le_refl _⟩
  exact keeps_ite base (base.trans (keeps_stateChanged ..))

theorem keeps_decLive (s : State) (key : Nat) (c : Ctx) : Keeps s (s.decLive key c) := by
  unfold State.decLive; dsimp only
  split
  · exact .refl s
  · exact keeps_writeAtHome ..

theorem keeps_slotFreed (s : State) (n : Nat) : Keeps s (s.slotFreed n) := by
  unfold State.slotFreed; dsimp only
  refine keeps_ite ?_ ?_ |>.trans (keeps_ite (keeps_emitOnce ..) (.refl _))
  · exact (keeps_emitOnce ..).trans (keeps_emitOnce ..)
  · exact keeps_emitOnce ..

theorem keeps_giveBack (s : State) (k n id : Nat) : Keeps s (s.giveBack k n id) := (keeps_modPart ..).trans (keeps_emit ..)

theorem keeps_lineHome (s : State) (key : Nat) (c : Ctx) : Keeps s (s.lineHome key c) :=
  keeps_ite (.upd (keeps_writeAtHome ..) rfl rfl rfl) (keeps_writeAtHome ..)

theorem keeps_retire (s : State) (key : Nat) (c : Ctx) : Keeps s (s.retire key c) := by
  unfold State.retire; dsimp only
  refine Keeps.trans ?_ (keeps_emit ..)
  have h1 := (keeps_decLive s key c).trans (keeps_lineHome (s.decLive key c) key c)
  generalize (s.decLive key c).lineHome key c = u at h1 ⊢
  refine h1.trans ?_
  have h2 : Keeps u { u with held := mapErase u.held key, live := mapErase u.live key, traps := mapErase u.traps key, fences := mapErase u.fences key, timers := mapErase u.timers key } :=
    .erase rfl rfl rfl
  generalize ({ u with held := mapErase u.held key, live := mapErase u.live key, traps := mapErase u.traps key, fences := mapErase u.fences key, timers := mapErase u.timers key } : State) = v at h2 ⊢
  refine h2.trans ?_
  have h3 : Keeps v (match (mapFind u.held key).bind Held.slot? with | some n => v.slotFreed n | none => v) := by
    split
    · exact keeps_slotFreed ..
    · exact .refl v
  exact keeps_ite (h3.trans (keeps_giveBack ..)) h3

theorem keeps_moveToFaulted (s : State) (key : Nat) (t : Trap) (line : Option Nat) : Keeps s (s.moveToFaulted key t line) := by
  unfold State.moveToFaulted; dsimp only
  refine Keeps.trans ?_ (keeps_retire ..)
  refine Keeps.trans ?_ (keeps_bb ..)
  refine Keeps.trans ?_ (keeps_modPart ..)
  split
  · exact keeps_writeAtHome ..
  · exact .refl s

theorem keeps_drain (s : State) (key : Nat) : Keeps s (s.drain key) := by
  unfold State.drain
  split
  · split
    · exact (keeps_at s _).trans (.put rfl rfl rfl (.none rfl))
    · exact .refl s
  · exact .refl s

theorem keeps_enterTrap (s : State) (key : Nat) (t : Trap) (spc : Dword) : Keeps s (s.enterTrap key t spc) := by
  unfold State.enterTrap; dsimp only
  refine (keeps_drain s key).trans ?_
  split
  · exact keeps_moveToFaulted ..
  · split
    · exact keeps_moveToFaulted ..
    · split
      · exact .upd ((keeps_writeAtHome ..).trans (keeps_setCtx ..)) rfl rfl rfl
      · exact .upd ((keeps_writeAtHome ..).trans (keeps_setCtx ..)) rfl rfl rfl

theorem keeps_snoopHost (s : State) (lines : List Nat) : Keeps s (s.snoopHost lines) :=
  .foldl _ (fun s l => keeps_ite ((keeps_setDir s l _).trans (keeps_emit ..)) (.refl s)) lines s

theorem keeps_tryEnter (s : State) (key : Nat) : Keeps s (s.tryEnter key) := by
  unfold State.tryEnter
  split
  · split
    · exact keeps_enterTrap ..
    · exact (keeps_snoopHost ..).trans (keeps_emit ..)
  · exact .refl s

theorem keeps_raiseTrap (s : State) (key : Nat) (t : Trap) (spc : Dword) : Keeps s (s.raiseTrap key t spc) := by
  unfold State.raiseTrap; dsimp only
  split
  · exact .same rfl rfl rfl
  · refine Keeps.trans ?_ (keeps_tryEnter ..)
    refine Keeps.trans ?_ (.upd (keeps_setCtx ..) rfl rfl rfl)
    split
    · exact .put rfl rfl rfl (.none rfl)
    · exact .refl s

theorem keeps_boundaryTrap (s : State) (key : Nat) (t : Trap) : Keeps s (s.boundaryTrap key t) := keeps_raiseTrap ..

theorem keeps_boundaryTrapLater (s : State) (key : Nat) (t : Trap) : Keeps s (s.boundaryTrapLater key t) := by
  unfold State.boundaryTrapLater
  exact keeps_ite (.same rfl rfl rfl) (keeps_boundaryTrap ..)

theorem keeps_takeDue (s : State) (key : Nat) : Keeps s (s.takeDue key) := by
  unfold State.takeDue
  split
  · refine Keeps.trans ?_ (keeps_boundaryTrap ..)
    exact .same rfl rfl rfl
  · exact .refl s

theorem keeps_deliver (s : State) (key : Nat) (i : Reg) (f : XReg → XReg) (flags : Fl) : Keeps s (s.deliver key i f flags) := by
  unfold State.deliver; dsimp only
  split
  · exact .refl s
  · exact keeps_setCtx ..

theorem keeps_deliverTrap (s : State) (key : Nat) (i : Reg) (t : Trap) : Keeps s (s.deliverTrap key i t) := by
  unfold State.deliverTrap; dsimp only
  split
  · exact .refl s
  · exact (keeps_setCtx ..).trans (keeps_boundaryTrap ..)

theorem keeps_settle (s : State) (key id : Nat) (k : Tok) (fault : Bool) (sc : ScopeCode) : Keeps s (s.settle key id k fault sc) := by
  unfold State.settle; dsimp only
  refine (Keeps.same (s := s) (t := { s with toks := mapPut s.toks (key * 8 + k.toNat) sc }) rfl rfl rfl).trans ?_
  exact keeps_ite ((keeps_setCtx ..).trans (keeps_giveBack ..)) (keeps_setCtx ..)

theorem keeps_message (s : State) (key : Nat) (j : Reg) (data : XReg) (tag : Stamp) : Keeps s (s.message key j data tag).1 := by
  unfold State.message; dsimp only
  split
  · exact .refl s
  · split
    · exact .refl s
    · exact .upd (keeps_setCtx ..) rfl rfl rfl

theorem keeps_joinWalk (s : State) (k asid : Nat) (x : Waiter) : Keeps s (s.joinWalk k asid x) := by
  unfold State.joinWalk; dsimp only
  split
  · exact .same rfl rfl rfl
  · refine Keeps.trans ?_ (keeps_bump _)
    split
    · refine Keeps.trans ?_ (keeps_emit ..)
      exact .same rfl rfl rfl
    · exact .same rfl rfl rfl

theorem keeps_missAt (s : State) (key clu k asid va fva : Nat) (fetch : Bool) (spc : Dword) (ctxid : Bool) : Keeps s (s.missAt key clu k asid va fva fetch spc ctxid) := by
  unfold State.missAt
  extract_lets w
  exact (show Keeps s { s with walks := w } from .same rfl rfl rfl).trans (keeps_joinWalk ..)

theorem keeps_fwRecord (s : State) (die k key : Nat) (t : Trap) : Keeps s (s.fwRecord die k key t) := keeps_ite (keeps_bb ..) (.refl s)

/-! ### The issue attempt -/

/-- Landing of flags touches no replay. -/
theorem landed_replay (h : Held) (t : Nat) : (h.landed t).replay = h.replay := rfl

/-- A replay that advances keeps its block, or ends. -/
theorem advance_block (h : Held) (w : Nat) (r : Replay) (hr : (h.advance w).replay = some r) : ∃ r0, h.replay = some r0 ∧ r.block = r0.block := by
  unfold Held.advance at hr; dsimp only at hr
  split at hr
  · simp_all
  · rename_i r0 h0
    refine ⟨r0, h0, ?_⟩
    split at hr
    · simp only [Option.some.injEq] at hr; rw [← hr]
    · split at hr
      · simp only [Option.some.injEq] at hr; rw [← hr]
      · simp at hr

/-- The record an instruction leaves is one its context had, advanced. -/
theorem keeps_finish (s : State) (e : Iss) (S : BitVec 3) (h : Held) (hr : SameReplay s e.key h) : Keeps s (s.finish e S h) :=
  .put (key := e.key) (h := (h.advance e.words).issued e.t S) rfl rfl rfl fun r h1 => by
    obtain ⟨r1, h2, h3⟩ := advance_block h e.words r h1
    obtain ⟨h0, r0, h4, h5, h6⟩ := hr r1 h2
    exact ⟨h0, r0, h4, h5, h3.trans h6⟩

theorem keeps_waitAt (s : State) (e : Iss) (st why : Nat) (hr : SameReplay s e.key e.h) : Keeps s (s.waitAt e st why) := by
  refine Keeps.trans ?_ (keeps_setCtx { s with held := mapPut s.held e.key e.h } e.key (e.h.ctx.setState st why))
  exact .put (key := e.key) (h := e.h) rfl rfl rfl hr

theorem keeps_waitRegs (s : State) (e : Iss) (needs : BitVec 8) (hr : SameReplay s e.key e.h) : Keeps s (s.waitRegs e needs) := by
  unfold State.waitRegs
  refine Keeps.trans ?_ (keeps_waitAt _ e stWaiting whyReg hr)
  exact .same rfl rfl rfl

theorem keeps_trapAt (s : State) (e : Iss) (code detail faddr : Nat) (hr : SameReplay s e.key e.h) : Keeps s (s.trapAt e code detail faddr) := by
  unfold State.trapAt; dsimp only
  have h1 := keeps_fwRecord s e.die e.part e.key ⟨code, detail, faddr⟩
  have h2 : (s.fwRecord e.die e.part e.key ⟨code, detail, faddr⟩).held = s.held := by unfold State.fwRecord; split <;> simp
  generalize s.fwRecord e.die e.part e.key ⟨code, detail, faddr⟩ = u at h1 h2 ⊢
  refine h1.trans (Keeps.trans ?_ (keeps_raiseTrap ..))
  refine Keeps.put (key := e.key) (h := e.h) rfl rfl rfl fun r h => ?_
  rw [h2]; exact hr r h

theorem keeps_illegal (s : State) (e : Iss) (detail : Nat) (hr : SameReplay s e.key e.h) : Keeps s (s.illegal e detail) := keeps_trapAt _ _ _ _ _ hr

/-- What an attempt may do. -/
def AttemptKeeps (s : State) : Attempt → Prop
  | .issue e t => Keeps s t ∧ e.key = s.cur ∧ SameReplay t e.key e.h
  | .ended t => Keeps s t

/-- What an attempt does, whichever way it ends: it keeps them, and an instruction that issues carries a record of its context. -/
theorem attempt_keeps (s : State) (i : Instr) (sh : Shape) : AttemptKeeps s (s.attempt i sh) := by
  unfold State.attempt
  cases hf : mapFind s.held s.cur with
  | none => exact Keeps.refl s
  | some h0 =>
    have sr : ∀ t, SameReplay s s.cur (h0.landed t) := fun t => .eq hf rfl
    dsimp only
    cases h0.place with
    | slot n =>
      dsimp only
      split
      · exact Keeps.refl s
      · split
        · exact keeps_finish _ _ _ _ (sr _)
        · split
          · exact keeps_illegal _ _ _ (sr _)
          · split
            · exact keeps_waitRegs _ _ _ (sr _)
            · cases undersized (h0.landed (s.cyc (n / 2048))) (s.cyc (n / 2048)) sh.reads with
              | nil =>
                dsimp only
                split
                · exact keeps_trapAt _ _ _ _ _ (sr _)
                · exact ⟨.refl s, rfl, sr _⟩
              | cons r rs =>
                dsimp only
                split
                · exact keeps_trapAt _ _ _ _ _ (sr _)
                · split
                  · exact keeps_trapAt _ _ _ _ _ (sr _)
                  · exact ⟨.same rfl rfl rfl, rfl, sr _⟩
    | cl2 c => exact Keeps.refl s
    | moving a b => exact Keeps.refl s

/-- So a meaning keeps them where its effect does. -/
theorem run_keeps (s : State) (i : Instr) (sh : Shape) (act : Iss → State → State)
    (ha : ∀ e t, e.key = s.cur → SameReplay t e.key e.h → Keeps t (act e t)) {u : State} (hu : s.run i sh act = .next u) : Keeps s u := by
  have h := attempt_keeps s i sh
  unfold State.run at hu
  cases hat : s.attempt i sh with
  | issue e t =>
    rw [hat] at h hu
    simp only [Host.Outcome.next.injEq] at hu
    exact hu ▸ h.1.trans (ha e t h.2.1 h.2.2)
  | ended t =>
    rw [hat] at h hu
    simp only [Host.Outcome.next.injEq] at hu
    exact hu ▸ h

end Sys2Proof.Machine
end

