-- ==== Sys2Proof/Tests/Slice0.lean ====
section
/-! SUPPORT. Tests of the model: ill-formed terms refused, words of the spec decoded, single steps with results worked out by hand from the rules, and a state that meets the hypotheses of each statement. -/

-- One proof after another, not side by side: threads that wait for the kernel each hold a stack.
set_option Elab.async false

namespace Sys2Proof.Tests

open Sys2Proof Sys2Proof.Machine

/-! ### WellFormed refuses an ill-formed term for each of its checks -/

/-- No guard, S = 0. -/
def g0 : Hdr := ⟨0, false, 0⟩
/-- The tail of R203 with every field zero. -/
def t0 : EngTail := ⟨0, 0, 0, 0, false, 0, 0⟩

theorem test_wf_good : wellFormed (.add g0 .d false 1 2 3) = true := by decide
theorem test_wf_guard : wellFormed (.add ⟨0, true, 0⟩ .d false 1 2 3) = false := by decide
theorem test_wf_step_is_no_instruction : wellFormed .coldReset = false := by decide
theorem test_wf_shift : wellFormed (.shli g0 .h6 1 2 16) = false ∧ wellFormed (.shli g0 .h6 1 2 15) = true := by decide
theorem test_wf_lane : wellFormed (.lget g0 .w3 1 2 3) = false ∧ wellFormed (.lset g0 .d 1 2 0) = false ∧ wellFormed (.lget g0 .b12 1 2 11) = true := by decide
theorem test_wf_shuffle : wellFormed (.lshuf g0 .d 1 2 3) = false ∧ wellFormed (.lsplat g0 .d 1 2) = false := by decide
theorem test_wf_field : wellFormed (.bfx g0 false 1 2 60 4) = false ∧ wellFormed (.bfx g0 false 1 2 60 3) = true := by decide
theorem test_wf_insert : wellFormed (.bfi g0 1 2 1 63) = false := by decide
theorem test_wf_select : wellFormed (.sel g0 .d 1 2 3 true 0) = false := by decide
theorem test_wf_cmpi : wellFormed (.cmpi g0 .gtu 1 2 0) = false ∧ wellFormed (.cmpi g0 .le 1 2 0) = true := by decide
theorem test_wf_fcvt : wellFormed (.fcvt g0 .fp32 .fp32 1 2) = false ∧ wellFormed (.fcvt g0 .vb8 .fp32 1 2) = false := by decide
theorem test_wf_fcvti : wellFormed (.fcvti g0 .fp32 .fp32 1 2) = false ∧ wellFormed (.fcvti g0 .int8 .bfx2 1 2) = false := by decide
theorem test_wf_icvtf : wellFormed (.icvtf g0 .e4m3 .int8 1 2) = false := by decide
theorem test_wf_frnd : wellFormed (.frnd g0 .e5m2 1 2) = false := by decide
theorem test_wf_ldp : wellFormed (.ldp g0 .d 1 2 2 0) = false := by decide
theorem test_wf_send : wellFormed (.send g0 6 3 3 1 0 2) = false ∧ wellFormed (.send g0 6 0 0 1 0 2) = true := by decide
theorem test_wf_recv : wellFormed (.recv g0 6 1 0) = false ∧ wellFormed (.recv g0 6 1 2) = false := by decide
theorem test_wf_redb : wellFormed (.redb g0 .sum .fp16 1 2 3 t0) = false := by decide
theorem test_wf_convb : wellFormed (.convb g0 .fp32 .fp32 1 2 3 t0) = false ∧ wellFormed (.convb g0 .aff32 .fp32 1 2 3 t0) = false := by decide
theorem test_wf_tail : wellFormed (.cpy g0 1 2 3 { t0 with freg := 1 }) = false ∧ wellFormed (.gath g0 1 2 3 0 0 { t0 with fdesc := 1 }) = false := by decide
theorem test_wf_rlcs : wellFormed (.rlcs g0 1 { t0 with ddesc := 1 }) = false := by decide
theorem test_wf_rlcq : wellFormed (.rlcq g0 0 11 1 2) = false := by decide

/-! ### Words (R185 to R204), written out from the encoding tables; those of the examples are named there -/

/-- R204: RDS x4, REFT. -/
theorem test_word_rds : decodeWords 0x01E4_0008 0 = .ok (.rds g0 .reft 4) := by rfl
/-- R198: ST.D d15[x0], x3. -/
theorem test_word_st : decodeWords 0x0113_03D8 0 = .ok (.st g0 .d 15 3 0 0) := by rfl
/-- R203: ESTAT p3, k2. -/
theorem test_word_estat : decodeWords 0x01D3_000A 0 = .ok (.estatP g0 3 2) := by rfl
/-- R193: MOV x2, g5. -/
theorem test_word_mov_g : decodeWords 0x0002_1421 0 = .ok (.movXdGn g0 2 5) := by rfl
/-- R196: FADD.W3 x1, x2, x3. -/
theorem test_word_fadd : decodeWords 0x00C1_4D00 0 = .ok (.fadd g0 .f32 1 2 3) := by rfl
/-- R197: FCMP.UN.ANY.W3 p2, x5, x5. -/
theorem test_word_fcmp : decodeWords 0x00D2_B51A 0 = .ok (.fcmp g0 .f32 .un true false 2 5 5) := by rfl
/-- R200: FUTW.PKG x3, d6[x2]. -/
theorem test_word_futw : decodeWords 0x0173_4136 0 = .ok (.futw g0 6 6 3 2) := by rfl
/-- R200: FUTR.PKG d6[x2], x1. -/
theorem test_word_futr : decodeWords 0x0170_45B6 0 = .ok (.futr g0 6 6 2 1) := by rfl
/-- R194: ADDI.D x2, x2, 1. -/
theorem test_word_addi : decodeWords 0x000A_4001 0 = .ok (.addi g0 .d 2 2 1) := by rfl
/-- R204: TRAP 5. -/
theorem test_word_trap : decodeWords 0x01E8_0005 0 = .ok (.trap g0 5) := by rfl
/-- R201: TALLOC takes two words. -/
theorem test_word_talloc : wordCount 0x0180_4000 = 2 ∧ decodeWords 0x0180_4000 0x0100_0000 = .ok (.talloc g0 (.imm 4) 2) := by decide
/-- R189: GN:GP = 0b1000 is no instruction. -/
theorem test_word_bad_guard : (decodeWords 0x10A8_0000 0).toOption = none := by rfl
/-- The bytes of a word stand least significant first (R4), and the rest of the list is left. -/
theorem test_bytes_nop : decode [0x00, 0x00, 0xA8, 0x00, 0xFF] = .ok (.nop g0, [0xFF]) := by rfl
theorem test_table_word : decodeTableWord 32 0x00A8_0001 = some (.yield g0) := by rfl
theorem test_encode_back : encode (.addi g0 .d 2 2 1) = some (0x000A_4001, none) := by rfl

/-! ### Single steps -/

/-- The placed machine (log 3) with its context replaced. -/
def one (c : Ctx) : State :=
  { State.reset.withCode [] with held := [(placedLine, Held.fresh (.slot placedSlot) 0xFF00_0000_0000_0000 c 0 0)] }
/-- The placed context with the values of x1 to x3. -/
def ctx3 (x1 x2 x3 : XReg) : Ctx := { placedCtx with x := #v[0, x1, x2, x3, 0, 0, 0, 0] }
/-- The context after an instruction. -/
def after (i : Instr) (c : Ctx) : Ctx := match exec i (one c) with | .next t => t.ctxAt placedLine | _ => c
/-- Register r after an instruction on x1 to x3. -/
def gives (i : Instr) (x1 x2 x3 : XReg) (r : Reg) : XReg := xget (after i (ctx3 x1 x2 x3)).x r
/-- The value that a variable-latency operation owes. -/
def owes (i : Instr) (x1 x2 x3 : XReg) : Option XReg :=
  match exec i (one (ctx3 x1 x2 x3)) with
  | .next t => t.ops.head?.bind fun o => match o.2.kind with | .value v .. => some v | _ => none
  | _ => none
/-- R210: lanes wrap, each in its own width. -/
theorem test_add_wraps : gives (.add g0 .b12 false 1 2 3) 0 0x01FF 0x0101 1 = 0x0200 := by decide
/-- R214: SUB borrows within a lane. -/
theorem test_sub_lane : gives (.sub g0 .h6 false 1 2 3) 0 0x0001_0000 0x0001_0001 1 = 0xFFFF := by decide
/-- R215: IOVF lands with the result. -/
theorem test_add_ck_flags : (match exec (.add g0 .d true 1 2 3) (one (ctx3 0 0x7FFF_FFFF_FFFF_FFFF 1)) with
    | .next t => (mapFind t.held placedLine).map (·.flagsAt) | _ => none) = some [(8, 0x0200_0000#32)] := by decide
/-- R209: `.D` leaves bytes 8 to 11. -/
theorem test_d_keeps_high_bytes : gives (.and g0 .d 1 2 3) 0xABCD_0000_0000_0000_0000_0000 0xFF 0x0F 1 = 0xABCD_0000_0000_0000_0000_000F := by decide
/-- R218: an immediate of -200 acts as 56 in `.B12`. -/
theorem test_addi_b12 : gives (.addi g0 .b12 1 2 (-200)) 0 0x01 0 1 = 0x3838_3838_3838_3838_3838_3839 := by decide
/-- R219: MOVI sign-extends. -/
theorem test_movi : gives (.movi g0 1 (-2)) 0 0 0 1 = 0xFFFF_FFFF_FFFF_FFFE := by decide
/-- R219: MOVH keeps bits [31:0]. -/
theorem test_movh : gives (.movh g0 1 0x1234_5678) 0x9ABC_DEF0 0 0 1 = 0x1234_5678_9ABC_DEF0 := by decide
/-- R220: the rotation of the example, and an index out of range. -/
theorem test_lshuf : gives (.lshuf g0 .w3 1 1 2) 0x0000_000C_0000_000B_0000_000A 0x0000_0001_0000_0000_0000_0002 0 1 = 0x0000_000B_0000_000A_0000_000C ∧
    gives (.lshuf g0 .w3 1 1 2) 0x0000_000C_0000_000B_0000_000A 0x0000_0003 0 1 = 0x0000_000A_0000_000A_0000_0000 := by decide
/-- R221: BFX of a field with its top bit set. -/
theorem test_bfx : gives (.bfx g0 true 1 2 4 3) 0 0x00F0 0 1 = 0xFFFF_FFFF_FFFF_FFFF ∧ gives (.bfx g0 false 1 2 4 3) 0 0x00F0 0 1 = 0xF := by decide
/-- R216: the corner cases of division. -/
theorem test_div_by_zero : (owes (.div g0 .d 1 2 3) 0 5 0).map xD = some 0xFFFF_FFFF_FFFF_FFFF ∧ (owes (.rem g0 .d 1 2 3) 0 5 0).map xD = some 5 := by decide
theorem test_div_most_negative : (owes (.div g0 .b12 1 2 3) 0 0x80 0xFF).map (·.extractLsb' 0 8) = some 0x80 ∧
    (owes (.rem g0 .b12 1 2 3) 0 0x80 0xFF).map (·.extractLsb' 0 8) = some 0 := by decide
/-- R216: division truncates toward zero; -7 by 2. -/
theorem test_div_truncates : (owes (.div g0 .d 1 2 3) 0 0xFFFF_FFFF_FFFF_FFF9 2).map xD = some 0xFFFF_FFFF_FFFF_FFFD ∧
    (owes (.rem g0 .d 1 2 3) 0 0xFFFF_FFFF_FFFF_FFF9 2).map xD = some 0xFFFF_FFFF_FFFF_FFFF := by decide
/-- R223: signed and unsigned order differ at -1 and 1. -/
theorem test_cmp_signs : (after (.cmp g0 .d true .lt 2 2 3) (ctx3 0 0xFFFF_FFFF_FFFF_FFFF 1)).p 2 = true ∧
    (after (.cmp g0 .d true .ltu 2 2 3) (ctx3 0 0xFFFF_FFFF_FFFF_FFFF 1)).p 2 = false := by decide
/-- R223: with no lane on, ALL gives 1 and ANY 0. -/
theorem test_cmp_no_lane : (after (.cmp g0 .w3 false .ne 2 2 2) { ctx3 0 0 0 with pred := 1 }).p 2 = true ∧
    (after (.cmp g0 .w3 true .eq 2 2 2) { ctx3 0 0 0 with pred := 1 }).p 2 = false := by decide
/-- R97: p0 stays 1. -/
theorem test_p0 : (after (.pnot g0 0 0) (ctx3 0 0 0)).p 0 = true := by decide
/-- R225: BR -1 goes back one word; CALL links PC + 4. -/
theorem test_branch : (after (.br g0 (-1)) (ctx3 0 0 0)).pc = 0xFF00_0000_001F_FFFC ∧ gives (.call g0 1 2) 0 0 0 1 = 0xFF00_0000_0020_0004 := by decide
/-- The same machine with the page of the line mapped as a context page and a trap handler. -/
def handled (c : Ctx) : State :=
  let s := one c
  { s with tcache := ⟨16, 0, 0, 0xFF00_0000_0000_0000, ⟨0x2000_0000_0010_000F, 4096⟩⟩ :: s.tcache, parts := [(0, { partReset with trapvec := 0xFF00_0000_0040_0000 })] }
/-- R226, R370: a target that is no multiple of 4 traps with ALIGN, detail 16; the handler starts with the cause in x1, the target in x2 and the PC in x3. -/
theorem test_jmp_traps : (match exec (.jmp g0 2) (handled (ctx3 0 2 0)) with
    | .next t => let c := t.ctxAt placedLine; (c.pc, xget c.x 0, xget c.x 1, xget c.x 2, xget c.x 3, c.nest, c.pred)
    | _ => (0, 0, 0, 0, 0, 0, 0)) =
    (0xFF00_0000_0040_0000, 0xFF00_0000_0000_0080, 0x0010_0006, 2, 0xFF00_0000_0020_0000, 1, 0x000F_FF01) := by decide +kernel
/-- R102: and the trap line holds PC, PRED, STAT and the cause. -/
theorem test_trap_line : (match exec (.jmp g0 2) (handled (ctx3 0 2 0)) with
    | .next t => (t.readN 0x10_0080 8, t.readN 0x10_0088 4, t.readN 0x10_008C 4, t.readN 0x10_0090 4, t.readN 0x10_0098 8, t.readN 0x10_00B8 12)
    | _ => (0, 0, 0, 0, 0, 0)) = (0xFF00_0000_0020_0000, 0x000F_FF01, 0x201, 0x0010_0006, 2, 2) := by decide +kernel
/-- R245, R161: 1.5 + 1.5 in FP32, in every lane. -/
theorem test_fadd : gives (.fadd g0 .f32 1 2 3) 0 0x3FC0_0000_3FC0_0000_3FC0_0000 0x3FC0_0000_3FC0_0000_3FC0_0000 1 = 0x4040_0000_4040_0000_4040_0000 := by decide
/-- R172: an FP16 overflow rounds to infinity. -/
theorem test_fmul_overflow : (gives (.fmul g0 .f16 1 2 2) 0 0x7BFF 0 1).extractLsb' 0 16 = 0x7C00 := by decide
/-- R244: a fused product rounds once: 3 x 3 - 9 is zero. -/
theorem test_fms : (gives (.fms g0 .f64 1 2 2 3) 0 0x4008_0000_0000_0000 0x4022_0000_0000_0000 1).extractLsb' 0 64 = 0 := by decide
/-- R246: the example's unordered comparison. -/
theorem test_fcmp_un : (after (.fcmp g0 .f32 .un true false 2 1 1) (ctx3 0x7FC0_0000_0000_0000_0000_0000 0 0)).p 2 = true := by decide
/-- R171: the block of the example: 6.0, -1.25, 0 and 0.125. -/
theorem test_vb8_block : ((decodeBlock .vb8 ([0x64, 0xF5, 0xFB, 0x00] ++ List.replicate 252 0) 0x81 false).1.take 4).map (fun v => (fEncode ffp32 0 v).1) =
    [0x40C0_0000, 0xBFA0_0000, 0x0000_0000, 0x3E00_0000] := by decide +kernel

/-! ### States that meet the hypotheses of the statements

Each theorem names the statements it is a witness for; what it shows are their hypotheses, at one state and its operands. -/

/-- The issue unit's record of the context of `one`. -/
abbrev rec1 (c : Ctx) : Held := Held.fresh (.slot placedSlot) 0xFF00_0000_0000_0000 c 0 0

/-- A record as a fill leaves it, of a READY context with nothing outstanding, issues whatever registers an instruction names. -/
theorem issuing_fresh {s : State} {n id t now : Nat} {c : Ctx} {hd : Hdr} (reads writes : List Reg)
    (hf : mapFind s.held s.cur = some (Held.fresh (.slot n) id c t now)) (hs : c.state = stReady) (hw : c.wait = 0) (hg : guardHolds hd c = true) :
    s.issuing hd reads writes n (Held.fresh (.slot n) id c t now) := by
  refine ⟨⟨_, hf, rfl, hs, rfl⟩, hg, fun r _ => ?_, fun r _ => ?_⟩
  · simp [Held.fresh, Ctx.pend, hw]
  · simp [Held.fresh]

theorem ready_fresh {s : State} {n id t now : Nat} {c : Ctx} (hf : mapFind s.held s.cur = some (Held.fresh (.slot n) id c t now)) (hs : c.state = stReady) :
    s.readyAt n (Held.fresh (.slot n) id c t now) := ⟨_, hf, rfl, hs, rfl⟩

/-- IntegerResults, ImmediateResults, SharedRegisterMoves, SelfResult, ComparisonResults, PredicateResults, FloatArithmeticResults, ComparisonAndConversionResults, NopYieldEndWords and every other statement whose hypothesis is that an instruction issues: any registers, RM below 5. -/
theorem test_meets_issuing (reads writes : List Reg) :
    (one (ctx3 1 2 3)).issuing g0 reads writes placedSlot (rec1 (ctx3 1 2 3)) ∧ (rec1 (ctx3 1 2 3)).ctx.rm < 5 :=
  ⟨issuing_fresh reads writes rfl rfl rfl rfl, by decide⟩
/-- LaneAndFieldResults: the last lane of a shape, the whole register as a field. -/
theorem test_meets_lanes : Sh.b12 ≠ .d ∧ (11#4).toNat < shN .b12 ∧ (0#6).toNat + (63#6).toNat + 1 ≤ 64 := by decide
/-- SharedRegisterMoves: a read 8 cycles after the write of a g register. -/
theorem test_meets_g_read : ∃ s : State, s.issuing g0 [] [1] placedSlot (rec1 (ctx3 1 2 3)) ∧ (∀ e ∈ (s.g (placedSlot / 16) 5).old, e.1 + 8 ≤ s.cycOf placedSlot) ∧
    (s.g (placedSlot / 16) 5).old ≠ [] :=
  ⟨{ one (ctx3 1 2 3) with now := 8 * Config.ticksPerCycle 36, gregs := [(placedSlot / 16 * 8 + 5, ⟨7, [(0, 3)]⟩)] }, issuing_fresh _ _ rfl rfl rfl rfl, by decide⟩
/-- ControlFlowResults: a good and a bad target of BR, CALL, JMP, CALLR and RET. -/
theorem test_meets_branches :
    (canonical ((ctx3 4 2 0).pc + 4 * (BitVec.signExtend 64 (-1#19))).toNat = true ∧ ((ctx3 4 2 0).pc + 4 * (BitVec.signExtend 64 (-1#19))).toNat % 4 = 0) ∧
    (canonical (xD (xget (ctx3 4 2 0).x 1)).toNat = true ∧ (xD (xget (ctx3 4 2 0).x 1)).toNat % 4 = 0) ∧
    ¬ (canonical (xD (xget (ctx3 4 2 0).x 2)).toNat = true ∧ (xD (xget (ctx3 4 2 0).x 2)).toNat % 4 = 0) ∧
    canonical ((0x00FF_FFFF_FFFF_FFFC : Dword) + 4).toNat = false := by decide

/-- Bytes of two instruction words: ADDI.D x2, x2, 1 and BR 0. -/
def addiWord : List Byte := [0x01, 0x40, 0x0A, 0x00]
/-- The machine of `one` with bytes placed as the next words. -/
def code (bs : List Byte) (c : Ctx) : State :=
  { State.reset.withCode bs with held := [(placedLine, Held.fresh (.slot placedSlot) 0xFF00_0000_0000_0000 c 0 0)] }

/-- ReplayResults: a block of one instruction after the REPF. -/
theorem test_meets_replay_block : ∃ s : State, s.issuing g0 [] [] placedSlot (rec1 (ctx3 1 2 3)) ∧ (rec1 (ctx3 1 2 3)).replay = none ∧
    s.blockAt placedSlot (rec1 (ctx3 1 2 3)) ((ctx3 1 2 3).pc + 4).toNat [(.addi g0 .d 2 2 1, 1)] :=
  ⟨code ([0, 0, 0, 0] ++ addiWord) (ctx3 1 2 3), issuing_fresh _ _ rfl rfl rfl rfl, rfl, by decide +kernel, by decide, trivial⟩
/-- ReplayResults: a block whose first word is a branch, which no replay may hold, and one whose fetch traps. -/
theorem test_meets_replay_trap :
    ((code [0, 0, 0, 0, 0, 0, 0x80, 0] (ctx3 1 2 3)).fetchAt placedLine (rec1 (ctx3 1 2 3)) placedSlot ((ctx3 1 2 3).pc + 4).toNat = .instr (.br g0 0) 1 ∧
      (captureBad (.br g0 0)).isSome = true) ∧
    (one { ctx3 1 2 3 with pc := 0x00FF_FFFF_FFFF_FFFC }).fetchAt placedLine (rec1 { ctx3 1 2 3 with pc := 0x00FF_FFFF_FFFF_FFFC }) placedSlot 0x0100_0000_0000_0000 =
      .trap ⟨5, 15, 0x0100_0000_0000_0000⟩ 0x0100_0000_0000_0000 := by decide +kernel
/-- ReplayResults: a replay in its first, its last and a middle instruction. -/
theorem test_meets_replay_goes_on : ∀ idx < 2, ∀ rep < 2, ∃ r : Replay, r.idx = idx ∧ r.rep = rep ∧ (r.block[r.idx]?).isSome = true := by
  intro idx hi rep _
  refine ⟨⟨[(.nop g0, 1), (.nop g0, 1)], rep, idx, 2, 1, 1, 0⟩, rfl, rfl, ?_⟩
  have : idx = 0 ∨ idx = 1 := by omega
  rcases this with rfl | rfl <;> rfl

/-- GuardedOutInstructions: an ADD guarded by a predicate that is 0, and a word with the guard field 8. -/
theorem test_meets_guarded_out : instrHdr (.add ⟨0, false, 3⟩ .d false 1 2 3) = some ⟨0, false, 3⟩ ∧ (one (ctx3 1 2 3)).readyAt placedSlot (rec1 (ctx3 1 2 3)) ∧
    guardHolds ⟨0, false, 3⟩ (rec1 (ctx3 1 2 3)).ctx = false ∧ 0x10A8_0000 / 2 ^ 25 % 2 ^ 4 = 8 :=
  ⟨rfl, ready_fresh rfl rfl, by decide, by decide⟩

/-- RegisterHazards: a pending register, RM = 5, a register read too early with CHK, and without. -/
theorem test_meets_pending : ∃ s : State, s.readyAt placedSlot (rec1 { ctx3 1 2 3 with wait := 4 }) ∧ guardHolds g0 { ctx3 1 2 3 with wait := 4 } = true ∧
    ∃ r ∈ namesRegs (.add g0 .d false 1 2 3), ({ ctx3 1 2 3 with wait := 4 } : Ctx).pend r.toNat = true :=
  ⟨one { ctx3 1 2 3 with wait := 4 }, ready_fresh rfl rfl, by decide, 2, by decide, by decide⟩
theorem test_meets_bad_rounding : roundsInstr (.fadd g0 .f32 1 2 3) = true ∧ (one { ctx3 1 2 3 with stat := 0x2A1 }).readyAt placedSlot (rec1 { ctx3 1 2 3 with stat := 0x2A1 }) ∧
    5 ≤ ({ ctx3 1 2 3 with stat := 0x2A1 } : Ctx).rm := ⟨rfl, ready_fresh rfl rfl, by decide⟩
def early (stat : Word) : Held := { rec1 { ctx3 1 2 3 with stat } with rdy := Vector.replicate 8 9 }
theorem test_meets_undersized :
    let s := fun stat => ({ one (ctx3 1 2 3) with held := [(placedLine, early stat)] } : State)
    ((s 0x301).readyAt placedSlot (early 0x301) ∧ (early 0x301).ctx.chk = true ∧ (s 0x301).cycOf placedSlot < (early 0x301).rdy[2] ∧ (early 0x301).ctx.pend 2 = false) ∧
    ((s 0x201).readyAt placedSlot (early 0x201) ∧ (early 0x201).ctx.chk = false ∧ (s 0x201).force ((s 0x201).partOf placedLine) = false ∧
      (s 0x201).cycOf placedSlot < (early 0x201).rdy[2]) :=
  ⟨⟨⟨_, rfl, rfl, by decide, rfl⟩, by decide, by decide, by decide⟩, ⟨⟨_, rfl, rfl, by decide, rfl⟩, by decide, by decide, by decide⟩⟩

/-- PrivilegeAndPatternTraps: APP and SUP mode, and the placed context for a pattern that is no instruction. -/
theorem test_meets_privilege : (∃ s : State, s.issuing g0 [1] [1] placedSlot (rec1 { ctx3 1 2 3 with stat := 0 }) ∧ ({ ctx3 1 2 3 with stat := 0 } : Ctx).mode = 0) ∧
    (∃ s : State, s.issuing g0 [] [1] placedSlot (rec1 (ctx3 1 2 3)) ∧ (ctx3 1 2 3).mode = 1) ∧
    (mapFind (one (ctx3 1 2 3)).held placedLine = some (rec1 (ctx3 1 2 3)) ∧ (ctx3 1 2 3).state = stReady) :=
  ⟨⟨one _, issuing_fresh _ _ rfl rfl rfl rfl, by decide⟩, ⟨one _, issuing_fresh _ _ rfl rfl rfl rfl, by decide⟩, rfl, by decide⟩

/-- A second context, READY in the CL2 of the same cluster. -/
abbrev rec2 (c : Ctx) (place : Place) : Held := Held.fresh place 0xFF00_0000_0000_0100 c 0 0
def two (c d : Ctx) (place : Place) : State :=
  let s := handled c
  { s with held := [(placedLine, rec1 c), (placedLine + 256, rec2 d place)],
           live := [(placedLine, { id := 0xFF00_0000_0000_0000, part := 0, launch := 0, region := none, migr := none, readyAt := 0, needs := 0, first := none }),
                    (placedLine + 256, { id := 0xFF00_0000_0000_0100, part := 0, launch := 0, region := none, migr := none, readyAt := 0, needs := 0, first := none })] }

/-- YieldAndEndResults: alone, and with a READY line that fits the slot. -/
theorem test_meets_yield :
    (let t := (handled (ctx3 1 2 3)).issued g0 1 placedSlot (rec1 (ctx3 1 2 3))
     (t.readyLines 16).find? (fun x => (t.slotsOf 16 x.1 x.2).contains placedSlot) = none) ∧
    (let s := two (ctx3 1 2 3) (ctx3 0 0 0) (.cl2 16)
     let t := s.issued g0 1 placedSlot (rec1 (ctx3 1 2 3))
     (t.readyLines 16).find? (fun x => (t.slotsOf 16 x.1 x.2).contains placedSlot) = some (placedLine + 256, rec2 (ctx3 0 0 0) (.cl2 16)) ∧
     mapFind s.held (placedLine + 256) = some (rec2 (ctx3 0 0 0) (.cl2 16)) ∧ placedLine + 256 ≠ s.cur ∧ s.fillBad (placedLine + 256) = none ∧
     s.isM (placedSlot / 2048) = false ∧ (s.cl2Set 16 s.cur).length < 8) := by decide +kernel
/-- YieldAndEndResults: END with a result outstanding, and with none, its team record at the code's page. -/
theorem test_meets_end : (∃ s : State, s.issuing g0 [] [] placedSlot (rec1 { ctx3 1 2 3 with wait := 4 }) ∧ ({ ctx3 1 2 3 with wait := 4 } : Ctx).pendAll ≠ 0) ∧
    (let c := { ctx3 1 2 3 with link := BitVec.ofNat 64 placedVa }
     let s := handled c
     c.pendAll = 0 ∧ memWf s.mem = true ∧ mapWf s.held = true ∧ mapWf s.live = true ∧
     s.teamPa (some 16) (s.partOf s.cur) (s.asidOf (s.partOf s.cur) c.launch) c.link = some 0x20_0000 ∧ s.cur + 128 ≤ 0x20_0000 + 0x14) :=
  ⟨⟨handled { ctx3 1 2 3 with wait := 4 }, ⟨⟨_, rfl, rfl, rfl, rfl⟩, rfl, by simp, by simp⟩, by decide⟩, by decide +kernel⟩

/-- A launch with nothing of its own, which contexts of launch 0 belong to. -/
def launch0 : Launch :=
  { win := 0, slot := 1, st := .placing, entry := 0, asid := 0, prio := 0, urgent := false, deppol := false, cstat := 0, dtab := 0, args := 0, compl := 0, deps := [],
    levels := [], teams := [], nfault := 0, ffirst := 0, tstart := 0, order := 0 }
/-- `handled` with a trap about to be entered, launch 0 live, and the handler's address as given. -/
def trapping (c : Ctx) (entry : Dword) : State :=
  let s := handled c
  { s with traps := [(placedLine, ⟨some (⟨6, 16, 2⟩, c.pc), []⟩)], parts := [(0, { partReset with trapvec := entry, launches := [(0, launch0)] })] }
/-- A TRAPPED context in its handler at NEST 7, or outside it, with its team record mapped. -/
def ctxT (stat : Word) : Ctx := { ctx3 1 2 3 with stat, link := BitVec.ofNat 64 placedVa }

/-- TrapDetectionAndTerminalFaults: a context that is not TRAPPED, and one that is. -/
theorem test_meets_trap_detection :
    (mapFind (handled (ctx3 1 2 3)).held placedLine = some (rec1 (ctx3 1 2 3)) ∧ (ctx3 1 2 3).state ≠ stTrapped ∧ mapFind (handled (ctx3 1 2 3)).traps placedLine = none) ∧
    (mapFind (trapping (ctxT 0x20D) 0).held placedLine = some (rec1 (ctxT 0x20D)) ∧ (ctxT 0x20D).state = stTrapped) := by decide
/-- TrapDetectionAndTerminalFaults: NEST = 7. -/
theorem test_meets_faulted :
    let c := ctxT 0xE20D
    let s := trapping c 0xFF00_0000_0040_0000
    mapFind s.held placedLine = some (rec1 c) ∧ c.state = stTrapped ∧ mapFind s.traps placedLine = some ⟨some (⟨6, 16, 2⟩, c.pc), []⟩ ∧ s.entryReady placedLine = true ∧
    s.trapLine placedLine c = some (placedLine + 128) ∧ c.nest = 7 ∧ memWf s.mem = true ∧ mapWf s.held = true ∧ mapWf s.live = true ∧
    (s.launch (s.partOf placedLine) c.launch).isSome = true ∧ (s.tcHit 16 (s.partOf placedLine) (s.asidOf (s.partOf placedLine) c.launch) c.link.toNat).map (·.pa c.link.toNat) = some 0x20_0000 ∧
    placedLine + 128 ≤ placedLine + 128 + 0x10 ∧ placedLine + 128 ≤ 0x20_0000 + 0x14 ∧ placedLine + 128 + 0x20 ≤ 0x20_0000 + 0x14 := by decide +kernel
/-- TrapDetectionAndTerminalFaults: no handler. -/
theorem test_meets_no_handler : (trapping (ctxT 0x20D) 0).handlerEntry placedLine (ctxT 0x20D) = 0 ∧ (trapping (ctxT 0x20D) 0).entryReady placedLine = true ∧
    (trapping (ctxT 0x20D) 0).trapLine placedLine (ctxT 0x20D) = some (placedLine + 128) := by decide +kernel
theorem test_meets_fits : (⟨6, 16, 2⟩ : Trap).fits ∧ (⟨2 ^ 16 - 1, 2 ^ 16 - 1, 2 ^ 64 - 1⟩ : Trap).fits := by unfold Trap.fits; decide
/-- TrapEntrySavesAndEnters: NEST = 6 with a handler. -/
theorem test_meets_trap_entry :
    let c := ctxT 0xC20D
    let s := trapping c 0xFF00_0000_0040_0001
    mapFind s.held placedLine = some (rec1 c) ∧ c.state = stTrapped ∧ mapFind s.traps placedLine = some ⟨some (⟨6, 16, 2⟩, c.pc), []⟩ ∧ s.entryReady placedLine = true ∧
    s.trapLine placedLine c = some (placedLine + 128) ∧ c.nest ≠ 7 ∧ s.handlerEntry placedLine c ≠ 0 ∧ memWf s.mem = true ∧ c.mode ≠ 2 ∧
    (s.part (s.partOf placedLine)).map (·.trapvec) = some 0xFF00_0000_0040_0001 := by decide +kernel

/-- A context in a handler whose trap line holds a STAT and a cause. -/
def returning (stat : Word) (saved cause : Nat) : State :=
  let s := handled { ctx3 1 2 3 with stat }
  { s with mem := memWriteList (memWriteList s.mem (placedLine + 0x8C) (leBytes 4 saved)) (placedLine + 0x90) (leBytes 2 cause) }
/-- TrapAndReturnResults: TRET outside a handler; inside one whose page is not cached; with a STAT that may be restored, one that may not, and one after a STATFMT. -/
theorem test_meets_tret : ({ ctx3 1 2 3 with stat := 1 } : Ctx).inTrap = false ∧ ({ ctx3 1 2 3 with stat := 1 } : Ctx).mode ≠ 0 ∧
    (one { ctx3 1 2 3 with stat := 0x201 }).tcHit 16 0 0 0xFF00_0000_0000_0080 = none ∧
    ∀ p ∈ [(0x0, 6), (0x1_0000, 6), (0x3, 15), (0xA0, 6), (0x2, 15)],
      let s := returning 0x201 p.1 p.2
      let pa := placedLine + 0x80
      ({ ctx3 1 2 3 with stat := 0x201 } : Ctx).inTrap = true ∧ s.tcHit 16 (s.partOf s.cur) 0 0xFF00_0000_0000_0080 = some ⟨0x2000_0000_0010_000F, 4096⟩ ∧
      (⟨0x2000_0000_0010_000F, 4096⟩ : Leaf).pa 0xFF00_0000_0000_0080 = pa ∧ s.badPiece (pa, 128) = none ∧ s.priorOverlap s.cur s.nextId [(pa, 128)] = false ∧
      s.accessBefore s.cur (s.fenceOf s.cur).after = false ∧ s.claimed (lineOf pa) = false ∧ s.readN (pa + 0xC) 4 = p.1 ∧ s.readN (pa + 0x10) 2 = p.2 := by decide +kernel

/-- ControlRegisterResults: the partition of the placed context in APP, SUP and FW mode; values at the limits of each register. -/
theorem test_meets_control_registers :
    ((handled (ctx3 1 2 3)).part ((handled (ctx3 1 2 3)).partOf placedLine)).isSome = true ∧ ({ ctx3 1 2 3 with stat := 0x200 } : Ctx).mode = 0 ∧ (ctx3 1 2 3).mode = 1 ∧
    ({ ctx3 1 2 3 with stat := 0x202 } : Ctx).mode = 2 ∧ (36 * 256 : Nat) < 2 ^ 24 ∧ getF (BitVec.ofNat 64 (36 * 256)) 8 8 = 36 ∧ getF (BitVec.ofNat 64 (12 * 256)) 8 8 = 12 ∧
    canonical 0xFF00_0000_0040_0000 = true ∧ (2 ^ 33 - 1 : Nat) < 2 ^ 33 ∧ (BitVec.ofNat 64 (2 ^ 32)).getLsbD 32 = true ∧
    ({ partReset with cl1lim := 1 } : Part).slotOk (2049 % 16) false = false := by decide +kernel

/-! ### Memory -/

/-- RoundingResults: the largest code whose successor is finite, and a magnitude between two codes. -/
theorem test_meets_rounding : (0x7F7F_FFFF : Nat) < 2 ^ ffp32.width ∧ (4 : Nat) < 5 ∧ (fRound ffp32 1 false 3 (-150) false).1 + 1 < ffp32.top := by decide +kernel

/-- A descriptor's 32 bytes. -/
def descBytes (base limit attr : Nat) : List Byte := leBytes 8 base ++ leBytes 8 limit ++ leBytes 16 attr
/-- An APP context whose team record lies in the page of the code: descriptor 2 gives 4 KiB at VA 0x40_0000 with every right at PKG scope, 4 gives no right, 5 lies in the
supervisor half, 6 in a page with no translation; 3 is zero. -/
def app (c : Ctx) : State :=
  let s := handled c
  let t := placedCode + 0x100
  { s with tcache := ⟨16, 0, 0, 0x40_0000, ⟨0x40_002F, 2 ^ 21⟩⟩ :: s.tcache
           mem := memWriteList (memWriteList (memWriteList (memWriteList s.mem (t + 64) (descBytes 0x40_0000 0x1000 0xEB)) (t + 128) (descBytes 0x40_0000 0x1000 0x80))
             (t + 160) (descBytes placedVa 0x1000 0xEB)) (t + 192) (descBytes 0x800_0000 0x1000 0xEB) }
/-- An APP context outside any handler with an offset in x2. -/
def ctxA (x2 : XReg) : Ctx := { ctx3 1 x2 3 with stat := 0, link := BitVec.ofNat 64 placedVa }
/-- What an access of the context comes to. -/
def acc (x2 : XReg) (d : Nat) (off : Dword) (n : Nat) (kind : AK) : AccRes := (app (ctxA x2)).access ((app (ctxA x2)).issOf (.nop g0) 1 placedSlot (rec1 (ctxA x2))) d off n kind
def de (d : Nat) : Desc := ((app (ctxA 0)).issOf (.nop g0) 1 placedSlot (rec1 (ctxA 0))).desc (app (ctxA 0)) d
def okAcc : AccRes → Bool | .ok .. => true | _ => false
theorem passes_of_ok {r : AccRes} (h : okAcc r = true) : ∃ a sc l, r = .ok a sc l := by
  cases r with
  | ok a sc l => exact ⟨a, sc, l, rfl⟩
  | trap t => simp [okAcc] at h
  | miss v => simp [okAcc] at h
  | migrate t => simp [okAcc] at h

/-- DataAccessChecks: each check failing at the edge of its range, and all passing. -/
theorem test_meets_access_checks : (ctxA 0).window = false ∧ (de 3).usable = false ∧ ((de 4).usable = true ∧ (de 4).permits .load = false) ∧
    ((de 2).usable = true ∧ (de 2).permits .load = true ∧ (de 2).permits .atomic = true ∧ (de 2).limit.toNat < (0xFFF : Dword).toNat + 2 ∧ (0xFFE : Dword).toNat + 2 ≤ (de 2).limit.toNat) ∧
    ¬ (((de 2).base + 4).toNat % 8 = 0) ∧ ((de 5).usable = true ∧ supHalf (de 5).base.toNat = true) := by decide +kernel
theorem test_meets_access_miss : (app (ctxA 0)).tcHit 16 0 0 0x800_0000 = none ∧ (app (ctxA 0)).tcHit 16 0 0 0x40_0FF8 = some ⟨0x40_002F, 2 ^ 21⟩ ∧ 0x40_0FF8 % 128 + 8 ≤ 128 ∧
    (⟨0x40_002F, 2 ^ 21⟩ : Leaf).ctx = false ∧ (⟨0x40_002F, 2 ^ 21⟩ : Leaf).permits .load = true ∧ (⟨0x40_002F, 2 ^ 21⟩ : Leaf).u = true ∧ (⟨0x40_002F, 2 ^ 21⟩ : Leaf).mig = false ∧
    (app (ctxA 0)).region 0x40_0FF8 = .hbm 0 ∧ (app (ctxA 0)).partOfTower 0 = some 0 ∧ (app (ctxA 0)).frozenAt 0 0 0x40_0FF8 = false ∧ (app (ctxA 0)).hitsTeam 0 0x40_0FF8 8 = false := by
  decide +kernel
/-- LoadsAndAtomicsStart, StoresPost, AtomicPerforms' issue, FutureResults, RLCQ and the line instructions: accesses of every kind pass, through descriptor 2, and one traps. -/
theorem test_meets_accesses_pass : ∀ k ∈ [AK.load, .store, .acq, .rel, .atomic], okAcc (acc 0 2 0xFF8 8 k) = true ∧ okAcc (acc 0 2 0 4 k) = true := by decide +kernel
theorem test_meets_access_traps : (match acc 0 4 0 8 .load with | .trap t => t.code == 4 && t.detail == 4 | _ => false) = true := by decide +kernel
theorem test_meets_no_stores : (∀ k, (app (ctxA 8)).nextId ≤ k → mapFind (app (ctxA 8)).stores k = none) ∧ (app (ctxA 8)).issuing g0 [2, 3] [1] placedSlot (rec1 (ctxA 8)) :=
  ⟨fun _ _ => rfl, issuing_fresh _ _ rfl (by decide) rfl rfl⟩

/-- A context that waits for register 1, its die owning the line of PA 0x40_0000, with one operation and one store outstanding. -/
def waiting (kind : OpKind) (p : List (Nat × Byte)) : State :=
  let c := ctxA 0
  let s := app { c with stat := 4, wait := 0x0100_0002 }
  { s with l2 := [(l2Key 0x8000 1, { l2None with present := true, owned := true, dirty := true })], dir := [(0x8000, { dirUnc with st := .own, owner := 1 })], nextId := 9,
           ops := [(7, { key := placedLine, launch := 0, pos := .iu 128, reg := 1, kind })],
           stores := [(8, ⟨placedLine, 0, 0, .iu 128, 0, 2, 0x40_0000, p, some 6, 0, false, none, 0, none, false⟩)] }
def acc8 : Access := ⟨0, 0, 2, 0x40_0000, [(0x40_0000, 8)], [⟨0x40_002F, 2 ^ 21⟩], false, false⟩
/-- LoadsAndStoresComplete: a load of 8 bytes, and a release store of two. -/
theorem test_meets_completion :
    let s := waiting (.load acc8 .d 0xFFF none []) [(0x40_0000, 1), (0x40_0001, 2)]
    ((mapFind s.ops 7).map (·.kind) = some (.load acc8 .d 0xFFF none []) ∧ (mapFind s.held placedLine).map (·.ctx.state) = some stWaiting ∧ s.isMoving placedLine = false ∧
      s.priorOverlap placedLine 7 acc8.segs = false ∧ (s.fenceOf placedLine).acq = none ∧ (acc8.segs.map (·.2)).sum = sizeBytes .d ∧ (∀ g ∈ acc8.segs, g.1 % 128 + g.2 ≤ 128)) ∧
    (s.region 0x40_0000 = .hbm 0 ∧ s.offline 0x40_0000 = false ∧ s.isPoison (lineOf 0x40_0000) = false ∧ s.claimed (lineOf 0x40_0000) = false ∧ s.l2Reads (lineOf 0x40_0000) 1 = true ∧
      mapFind s.held (0x40_0000 / 128 * 128) = none ∧ s.l2Owns (lineOf 0x40_0000) 1 = true ∧ (Pos.iu 128).die? = 1) := by decide +kernel
/-- LoadsAndStoresComplete: a load of 12 bytes of which 8 lie in one line and 4 in the next, with neither, the first and the second piece read. -/
theorem test_meets_crossing :
    let a : Access := { acc8 with va := 0x40_0078, segs := [(0x40_0078, 8), (0x40_0080, 4)], pages := [⟨0x40_002F, 2 ^ 21⟩, ⟨0x40_002F, 2 ^ 21⟩] }
    ∀ got ∈ [[], [(0, (leBytes 8 5, []))], [(1, (leBytes 4 5, []))]],
    let s := waiting (.load a .w3 0xFFF none got) []
    let s := { s with stores := [], l2 := [(l2Key 0x8000 1, { l2None with present := true }), (l2Key 0x8001 1, { l2None with present := true })] }
    (mapFind s.ops 7).map (·.kind) = some (.load a .w3 0xFFF none got) ∧ s.priorOverlap placedLine 7 a.segs = false ∧ (a.segs.map (·.2)).sum = sizeBytes .w3 ∧
    ∀ g ∈ a.segs, g.1 % 128 + g.2 ≤ 128 ∧ s.region g.1 = .hbm 0 ∧ s.offline g.1 = false ∧ s.isPoison (lineOf g.1) = false ∧ s.claimed (lineOf g.1) = false ∧ s.l2Reads (lineOf g.1) 1 = true ∧
      mapFind s.held (g.1 / 128 * 128) = none := by decide +kernel
theorem test_meets_store_performs :
    let s := { waiting (.load acc8 .d 0xFFF none []) [(0x40_0000, 1), (0x40_0001, 2)] with ops := [] }
    (mapFind s.stores 8).map (·.bytes) = some [(0x40_0000, 1), (0x40_0001, 2)] ∧ lineOf 0x40_0001 = lineOf 0x40_0000 ∧ [0x40_0000, 0x40_0001].Nodup ∧ memWf s.mem = true ∧
    s.l2Owns (lineOf 0x40_0000) 1 = true ∧ s.priorOverlap placedLine 8 [(0x40_0000, 1), (0x40_0001, 1)] = false ∧ s.accessBefore placedLine 0 = false := by decide +kernel
/-- AtomicPerforms: 8 and 4 bytes, a compare that holds and one that fails, a floating-point addition. -/
theorem test_meets_atomic : ∀ r ∈ [Rmw.op .minu, .cas 0, .cas 1, .fadd true 4], ∀ rel ∈ [none, some (6 : ScopeCode)],
    let s := { waiting (.rmw acc8 r 8 5 none rel 0) [] with stores := [] }
    (mapFind s.ops 7).map (·.kind) = some (.rmw acc8 r 8 5 none rel 0) ∧ (0x40_0000 % 8 = 0) ∧ memWf s.mem = true ∧ s.l2Owns (lineOf 0x40_0000) 1 = true ∧
    s.priorOverlap placedLine 7 acc8.segs = false ∧ s.accessBefore placedLine 0 = false ∧ s.isMoving placedLine = false ∧ (s.fenceOf placedLine).acq = none := by decide +kernel

/-- PoisonAndErrorResults: a poisoned line under a load, an offline home under one, a store outstanding, a load of a peer's line. -/
theorem test_meets_poison :
    let s := waiting (.load acc8 .d 0xFFF none []) [(0x40_0000, 1)]
    let o := (OpKind.load acc8 .d 0xFFF none [])
    o.segs.findSome? ({ s with poison := [(0x8000, ())] } : State).badPiece = some (0x8000, false) ∧
    o.segs.findSome? ({ s with dies := [(0, { dieReset with down := true })] } : State).badPiece = some (0x8000, true) ∧
    (OpKind.load { acc8 with segs := [(0xC_0000_0000_0000, 8)] } .d 0xFFF none []).segs = [(0xC_0000_0000_0000, 8)] ∧ s.region 0xC_0000_0000_0000 = .peer 0 := by decide +kernel
/-- PoisonAndErrorResults: an address of HBM; die 4, the bottom of tower 1, that owned a dirty line and shared another. -/
theorem test_meets_side_down :
    let s := { waiting (.load acc8 .d 0xFFF none []) [] with dir := [(0x8000, { dirUnc with st := .own, owner := 4 }), (0x8001, { dirUnc with st := .shd, sharers := 0x11 })], l2 := [(l2Key 0x8000 4, { l2None with present := true, owned := true, dirty := true })] }
    s.region 0x40_0000 = .hbm 0 ∧ 4 < 24 ∧ mapWf s.dir = true ∧ mapWf s.l2 = true ∧ (s.dirE 0x8000).st = .own ∧ (s.dirE 0x8000).owner = 4 ∧
    (s.l2Line 0x8000 4).map (·.dirty) = some true ∧ 4 % 4 = 0 ∧ Instr.puto 0x8000 4 ∉ s.agenda ∧ s.l2Reads 0x8000 4 = true ∧ (s.dirE 0x8001).st = .shd := by decide +kernel

/-- A store of the context of `waiting`, READY, to the second context's line, whose STATE is given. -/
def lineStore (st : Nat) : State :=
  let c := ctxA 0
  let s := app c
  { s with held := [(placedLine, rec1 c), (placedLine + 256, Held.fresh (.cl2 16) 0xFF00_0000_0000_0100 (c.setState st (if st = stParked then whyPark else 0)) 0 0)],
           stores := [(8, ⟨placedLine, 0, 0, .iu 128, 0, 2, 0x40_0000, [(placedLine + 256, 7)], none, 0, false, some (placedLine + 256), 0, none, false⟩)] }
/-- ContextLineStores: a PARKED, a DONE and a READY line. -/
theorem test_meets_line_store : ∀ st ∈ [stParked, stDone, stReady],
    let s := lineStore st
    (mapFind s.stores 8).bind (·.toCtx) = some (placedLine + 256) ∧ (mapFind s.held (placedLine + 256)).map (·.ctx.state) = some st ∧ (mapFind s.held placedLine).isSome = true ∧
    s.isMoving (placedLine + 256) = false ∧ s.isMoving placedLine = false ∧ s.accessBefore placedLine 0 = false ∧ s.priorOverlap placedLine 8 [(placedLine + 256, 1)] = false ∧
    s.offline (placedLine + 256) = false ∧ (placedLine + 256) % 128 = 0 ∧ ((mapFind s.stores 8).map fun p => (p.bytes.map (·.1), p.undo)) = some ([placedLine + 256], none) ∧ memWf s.mem = true ∧
    (s.ctxAt placedLine).state = stReady := by decide +kernel

/-- FenceAndPrefetch: nothing read since the last fence; a stamp that the fence does not include, without and with SCOPEMISSEN; checks of PREF that fail and pass. -/
def stale (en : Dword) : State :=
  let s := app (ctxA 0)
  { s with fences := [(placedLine, ⟨[(3, ⟨1, some (.ctx 0, .iu 7)⟩, 0x40_0000)], 0, none, 0, none, 0⟩)], nextId := 9, parts := [(0, { partReset with scopemissen := en })] }
theorem test_meets_fence : ((app (ctxA 0)).fenceOf placedLine).loads = [] ∧
    ((stale 0).fenceOf placedLine).loads.find? (fun x => !stampOk x.2.1 6 placedLine (.iu (placedSlot / 16))) = some (3, ⟨1, some (.ctx 0, .iu 7)⟩, 0x40_0000) ∧ (∀ l ∈ ((stale 0).fenceOf placedLine).loads, l.1 < 2 * (stale 0).nextId) ∧ (stale 0).loadsOut placedLine = false ∧
    ((stale 1).part ((stale 1).partOf placedLine)).map (·.scopemissen) = some 1 ∧ mapWf (app (ctxA 0)).l2 = true ∧ placedSlot / 2048 < 24 := by decide +kernel
/-- A Squall with urgent work past step 1, no KEEP range, and launch 0 urgent. -/
def urgentPart : Part :=
  { partReset with launches := [(0, { launch0 with urgent := true })],
                   freeze := some { thaw := false, cb := 0, num := 1, base := 0, step := 2, frozen := false, urgent := true, scrub := false, uwin := 0, upool := 0, keep := [], treq := 0, tfreeze := 0 } }
/-- FenceAndPrefetch: a prefetch of urgent work that meets memory which the freeze copies. -/
theorem test_meets_frozen_pref :
    let s := { app (ctxA 0) with parts := [(0, urgentPart)] }
    (match s.access (s.issOf (.pref g0 true 2 2 0) 1 placedSlot (rec1 (ctxA 0))) 2 0 1 .load false with | .trap t => t == ⟨28, 2, 0x40_0000⟩ | _ => false) = true ∧
    (s.tcHit 16 0 0 0x40_0000).map (fun l => (l.ctx, s.region (l.pa 0x40_0000))) = some (false, .hbm 0) := by decide +kernel
/-- FenceAndPrefetch: a load still out at a fence; an acquire fence that waits, and a full one behind which a store is outstanding. -/
theorem test_meets_fence_waits :
    (let s := waiting (.load acc8 .d 0xFFF none []) []
     (s.ops.any fun o => o.2.key = placedLine && o.2.kind.isLoad && decide ((s.fenceOf placedLine).since ≤ o.1 ∧ o.1 < s.nextId)) = true) ∧
    ({ app (ctxA 0) with fences := [(placedLine, ⟨[], 0, none, 0, some (0, 5, 6, .iu 128), 0⟩)] } : State).fenceOf placedLine = ⟨[], 0, none, 0, some (0, 5, 6, .iu 128), 0⟩ ∧
    (waiting (.fut 0) [(0x40_0000, 1)]).stores.any (fun o => o.2.key = placedLine && decide (o.1 < 9)) = true ∧ touchesMem (.ld g0 .d 2 1 2 0) = true ∧ guardOf (.ld g0 .d 2 1 2 0) (ctxA 0) = true := by decide +kernel
theorem test_meets_no_peer_copies : (app (ctxA 0)).noPeerCopies (placedSlot / 2048) := by intro e he; simp [app, handled, one, State.withCode, State.reset] at he

/-- MessageResults: a target that is a context line and one that is none; a message to a line that parks for one, to a full one, to a DONE one; a status that returns. -/
def sending (c d : Ctx) (st : Option SendSt) : State :=
  let s := handled c
  { s with tcache := s.tcache, held := [(placedLine, rec1 c), (placedLine + 256, Held.fresh (.cl2 16) 0xFF00_0000_0000_0100 d 0 0)],
           sends := [(3, ⟨placedLine, 0, 0, 0xFF00_0000_0000_0100, .iu 128, 6, 2, 0, placedLine + 256, 5, 77, st⟩)] }
theorem test_meets_send :
    let s := handled (ctx3 0 0 0)
    (∀ id ∈ [0xFF00_0000_0000_0100, placedVa, 0x800_0000], canonical id = true ∧ id % 256 = 0) ∧ ¬ 0x123 % 256 = 0 ∧
    s.tcHit 16 0 0 0xFF00_0000_0000_0100 = some ⟨0x2000_0000_0010_000F, 4096⟩ ∧ (⟨0x2000_0000_0010_000F, 4096⟩ : Leaf).ctx = true ∧
    (s.tcHit 16 0 0 placedVa).map (·.ctx) = some false ∧ s.tcHit 16 0 0 0x800_0000 = none := by decide +kernel
theorem test_meets_message :
    let park := (ctx3 0 0 0).setState stParked whyRecv
    let s := sending (ctx3 0 0 0) park none
    (mapFind s.sends 3).map (·.status) = some none ∧ (mapFind s.held (placedLine + 256)).map (·.ctx) = some park ∧ s.isMoving (placedLine + 256) = false ∧ s.offline (placedLine + 256) = false ∧
    (park.setFull 5 true).full 5 = true ∧ park.state = stParked ∧ park.why = whyRecv ∧ ((ctx3 0 0 0).setState stDone 0).state = stDone ∧
    (mapFind (sending (ctx3 0 0 0) park (some .full)).sends 3).map (·.status) = some (some .full) ∧ (2 : Pred) ≠ 0 := by decide +kernel
/-- MessageResults: RECV with no register full, and with register 7 full, its tag not restricting it. -/
theorem test_meets_recv : (one (ctx3 0 0 0)).issuing g0 [] [1] placedSlot (rec1 (ctx3 0 0 0)) ∧ (∀ i < 8, ¬ ((0x80#8).getLsbD i = true ∧ (ctx3 0 0 0).full i = true)) ∧
    (∃ s : State, s.issuing g0 [] [1] placedSlot (rec1 { ctx3 0 0 0 with wait := 0x8000 }) ∧ ({ ctx3 0 0 0 with wait := 0x8000 } : Ctx).full 7 = true ∧ (0x80#8).getLsbD 7 = true ∧
      stampOk (mapGet s.tags (s.cur * 8 + 7) stampNone) 6 s.cur (.iu (placedSlot / 16)) = true) :=
  ⟨issuing_fresh _ _ rfl rfl rfl rfl, by decide, one { ctx3 0 0 0 with wait := 0x8000 }, ⟨⟨_, rfl, rfl, rfl, rfl⟩, rfl, by simp [Held.fresh, Ctx.pend], by simp⟩, by decide, by decide, by decide⟩

/-! ### Tasks, futures, barriers -/

/-- Words written to memory. -/
def putWords (s : State) (l : List (Nat × Nat)) : State := { s with mem := l.foldl (fun m e => memWriteList m e.1 (leBytes 8 e.2)) s.mem }
/-- Page tables for what the caches of `app` hold: the line of the placed context in a context page, the page of its code, the page at VA 0x40_0000. -/
def tabled (s : State) : State :=
  putWords s [(0x60_0000, 0x60_5001), (0x60_0800, 0x60_1001), (0x60_1000, 0x60_2001), (0x60_2000, 0x60_3001), (0x60_3000, 0x60_4001), (0x60_3008, 0x20_001F), (0x60_4000, 0x2000_0000_0010_000F),
    (0x60_5000, 0x60_6001), (0x60_6000, 0x60_7001), (0x60_7010, 0x40_002F), (partReset.asTable, 0x60_0001)]

/-- A word in the first 8 bytes of descriptor 2's range, as its home has it. -/
def worded (w : Nat) : State := let s := app (ctxA 0); { s with mem := memWriteList s.mem 0x40_0000 (leBytes 8 w) }
def homeIs (r : HomeWord) (w : Nat) : Bool := match r with | .val v => v == w | _ => false
theorem val_of_homeIs {r : HomeWord} {w : Nat} (h : homeIs r w = true) : r = .val w := by
  cases r <;> simp [homeIs] at h; subst h; rfl
/-- A walk of those tables gives what the caches hold. -/
theorem test_walk : ∀ x ∈ [(0xFF00_0000_0000_0000, 0x10_0000), (placedVa, 0x20_0000), (0x40_0000, 0x40_0000)], (tabled (app (ctxA 0))).vaToPa 0 0 x.1 = some x.2 := by decide +kernel
def aTask : Task := ⟨BitVec.ofNat 64 placedVa, 1, 2, BitVec.ofNat 64 placedVa, 0, 0, 5, 0, 0⟩

/-- A pool header at VA 0x40_1000 whose overflow areas lie from VA 0x40_0000 on: those of IUs 128 to 143 at PA 0x80_0000 and after it. -/
def area (s : State) : State :=
  putWords { tabled s with parts := [(0, { partReset with ctxpool := 0x40_1001 })] } [(0x60_7050, 0x80_002F), (0x40_1070, 0x40_0000)]
/-- The deque of an IU, tasks of its overflow area as bytes in memory. -/
def dequed (s : State) (iu : Nat) (q old : List Task) (pops : Nat) : State :=
  (numberFrom 0 old).foldl (fun s e => { s with mem := memWriteList (memWriteList s.mem (0x80_0000 + 0x2_0000 * (iu - 128) + 32 * e.1) e.2.record) (0x81_0000 + 0x2_0000 * (iu - 128) + 16 * e.1) e.2.tag })
    { s with ius := mapPut s.ius iu { s.iu iu with deque := q, spilled := old.length, pops } }
/-- TaskResults: a bad entry and a good one; a deque with room; one with 16 tasks on chip, its area's next entry mapped, not mapped, or the area full. -/
theorem test_meets_spawn : ¬ (canonical (2 : Dword).toNat = true ∧ (2 : Dword).toNat % 4 = 0) ∧ (canonical (4 : Dword).toNat = true ∧ (4 : Dword).toNat % 4 = 0) ∧
    (let full := List.replicate 15 aTask ++ [aTask]
     let s := dequed (area (app (ctxA 4))) 128 full [] 0
     (s.tcHit (placedSlot / 128) 0 0 placedVa).map (·.pa placedVa) = some 0x20_0000 ∧ (s.iu 128).deque = full ∧ full.length = 16 ∧ (s.iu 128).spilled < 2048 ∧ s.dqEntry 0 128 0 = some (0x80_0000, 0x81_0000) ∧
     s.discards 0 0 = false ∧ memWf s.mem = true ∧ (tabled (app (ctxA 4))).dqEntry 0 128 0 = none ∧
     (({ s with ius := mapPut s.ius 128 { s.iu 128 with spilled := 2048 } } : State).iu 128).spilled = 2048) ∧
    ((app (ctxA 4)).iu (placedSlot / 16)).deque.length < 16 ∧ (app (ctxA 4)).discards 0 0 = false ∧
    ((app (ctxA 4)).tcHit (placedSlot / 128) 0 0 placedVa).map (·.pa placedVa) = some 0x20_0000 ∧ 0x40_0000 / 128 ≠ 0x20_0000 / 128 ∧ 0x20_0000 % 128 = 0 := by decide +kernel
theorem test_meets_spawnj : ∀ w ∈ [0, 1, 2 ^ 62, 2 ^ 63],
    homeIs ((worded w).homeWord ((worded w).issOf (.spawnj g0 2 1 2 3) 1 placedSlot (rec1 (ctxA 0))) 0x40_0000 8) w = true ∧ memWf (worded w).mem = true ∧
    okAcc ((worded w).access ((worded w).issOf (.spawnj g0 2 1 2 3) 1 placedSlot (rec1 (ctxA 0))) 2 0 8 .atomic) = true := by decide +kernel
theorem test_meets_join_words : (futBad 0 = false ∧ futSt 0 ≠ 1) ∧ (futBad 1 = true ∧ futSt 1 ≠ 1) ∧ (futBad (2 ^ 62) = false ∧ futSt (2 ^ 62) = 1) ∧ (futBad (2 ^ 63) = false ∧ 2 ≤ futSt (2 ^ 63)) := by decide

/-- An IU with free slots and a deque, its partition's pool enabled. -/
def idle (iu : Nat) (q : List Task) (pops : Nat) : State :=
  let s := handled (ctx3 1 2 3)
  { s with parts := [(0, { partReset with ctxpool := 1 })], ius := mapPut s.ius iu { s.iu iu with deque := q, pops } }
/-- TaskResults: a first pop of one task, a sixteenth of two, a pop that brings a task back from the overflow area. -/
theorem test_meets_pop :
    (∀ q ∈ [([aTask], 0), ([aTask, { aTask with launch := 1 }], 15)],
      let s := idle 129 q.1 q.2
      s.partOfTower (129 / 512) = some 0 ∧ (s.part 0).map (·.poolWait) = some [] ∧ s.poolOn 129 = true ∧ s.taskSlot 129 false = some 2064 ∧ (s.iu 129).deque = q.1 ∧ (s.iu 129).pops = q.2 ∧
      (s.iu 129).spilled = 0 ∧ s.resumes 0 0 = true ∧ s.resumes 0 1 = true) ∧
    (let s := dequed (area (handled (ctx3 1 2 3))) 129 [aTask] [{ aTask with domid := 6 }] 3
     (s.iu 129).spilled = 0 + 1 ∧ (s.iu 129).deque = [aTask] ∧ ((s.iu 129).pops + 1) % 16 ≠ 0 ∧ s.dqRead 0 129 0 = some { aTask with domid := 6 } ∧ s.poolOn 129 = true ∧ s.taskSlot 129 false = some 2064) := by
  decide +kernel
/-- TaskResults: an idle IU; a victim whose far task, on chip or in its overflow area, the thief may and may not take; a victim with none. -/
theorem test_meets_steal :
    (let s := idle 129 [] 0
     s.idle 129 = some 2064 ∧ (s.iu 129).askAt ≤ s.now ∧ (s.iu 129).asked = [] ∧ s.dqFar 0 129 = none) ∧
    (let s := idle 130 [aTask] 0
     (s.iu 130).spilled = 0 ∧ (s.iu 130).deque = [] ++ [aTask] ∧ s.mayTake 130 129 aTask = true ∧ s.mayTake 130 129 { aTask with dom := 1, domid := 130 } = false) ∧
    (let s := dequed (area (handled (ctx3 1 2 3))) 130 [] [aTask] 0
     (s.iu 130).spilled = 0 + 1 ∧ (s.partOfTower (130 / 512)).getD 0 = 0 ∧ s.dqRead 0 130 0 = some aTask ∧ s.mayTake 130 129 aTask = true) ∧
    (let s := idle 130 [{ aTask with dom := 1, domid := 130 }] 0
     s.dqFar 0 130 = some { aTask with dom := 1, domid := 130 }) ∧ (130 : Nat) ≠ 129 ∧
    (let s := idle 129 [aTask] 0
     s.poolOn 129 = true ∧ (s.idle 129).isNone = true) := by decide +kernel

/-- FutureResults: the words of `test_meets_join_words` as FUTW, FUTR and FUTF find them; the walk's end, and a waiter in register 1 of the second context. -/
theorem test_meets_futures : ∀ w ∈ [0, 1, 2 ^ 62, 2 ^ 63], ∀ i ∈ [Instr.futw g0 2 6 1 2, .futr g0 2 6 2 3, .futf g0 2 6 2 3],
    homeIs ((worded w).homeWord ((worded w).issOf i 1 placedSlot (rec1 (ctxA 0))) 0x40_0000 8) w = true ∧
    okAcc ((worded w).access ((worded w).issOf i 1 placedSlot (rec1 (ctxA 0))) 2 0 8 .atomic) = true ∧ (ctxA 0).pendAll = 0 ∧
    stampOk ((worded w).stamp (0x40_0000 / 128)) 6 placedLine (.iu (placedSlot / 16)) = true := by decide +kernel
def waiterWord : Dword := BitVec.ofNat 64 (2 ^ 62 + 1 * 2 ^ 59 + 0xFF00_0000_0000_0100 % 2 ^ 57)
/-- FutureResults: a live waiter that waits in register 1, one that is not live, one whose PEND is clear. -/
theorem test_meets_walk :
    let c := { ctx3 0 0 0 with wait := 2 }.setState stParked whyFut
    let s := tabled (two (ctx3 0 0 0) c (.cl2 16))
    let s := { s with futs := [(3, ⟨0, 0, 0x40_0000, 5, waiterWord⟩)] }
    waiterWord ≠ 0 ∧ futSt waiterWord.toNat = 1 ∧ futBad waiterWord.toNat = false ∧ s.ctxLine none 0 0 (futId waiterWord.toNat) = some (placedLine + 256) ∧
    s.isMoving (placedLine + 256) = false ∧ s.isLive (placedLine + 256) = true ∧ c.state = stParked ∧ c.why = whyFut ∧ c.pend (futReg waiterWord.toNat).toNat = true ∧
    ({ s with live := [] } : State).isLive (placedLine + 256) = false ∧ ((tabled (two (ctx3 0 0 0) (ctx3 0 0 0) (.cl2 16))).ctxAt (placedLine + 256)).pend (futReg waiterWord.toNat).toNat = false := by decide +kernel

/-- A barrier object in the team record. -/
def barred (b expect arrived phase : Nat) : State :=
  let s := app (ctxA 7)
  { s with mem := memWriteList s.mem (0x20_0000 + 0x40 + 16 * b) (leBytes 4 expect ++ leBytes 4 arrived ++ leBytes 4 phase) }
/-- BarrierParkAndMigrResults: the last arrival and one before it, at barrier objects 0 and 3; a wait at the phase and past it. -/
theorem test_meets_barrier : ∀ x ∈ [((0 : BitVec 2), 5), (3, 4)],
    let s := barred x.1.toNat 5 x.2 7
    let va := placedVa + 0x40 + 16 * x.1.toNat
    let pa := 0x20_0000 + 0x40 + 16 * x.1.toNat
    s.frozenAt 0 0 pa = false ∧ ({ s with parts := [(0, urgentPart)] } : State).frozenAt 0 0 pa = true ∧
    memWf s.mem = true ∧ (s.tcHit 16 0 0 va).map (·.pa va) = some pa ∧ (s.part 0).map (fun p => p.scopemissen.getLsbD 0) = some false ∧ s.readN pa 4 = 5 ∧ s.readN (pa + 4) 4 = x.2 ∧ s.readN (pa + 8) 4 = 7 ∧
    ∀ i ∈ [Instr.bara g0 1 x.1, .bar g0 x.1, .barw g0 2 x.1],
      (match s.homeWord (s.issOf i 1 placedSlot (rec1 (ctxA 7))) pa 16 with | .val _ => true | _ => false) = true := by decide +kernel
/-- A member of that team parked behind the word given, with the barrier's line as its stamp has it and a level of SCOPE PKG. -/
def gathered (w : Nat) (behind : Nat) (st : Stamp) (why : Nat) : State :=
  let s := tabled (barred 0 5 0 7)
  let c := { ctxA 0 with pc := BitVec.ofNat 64 (placedVa + 0x800 + behind) }.setState stParked why
  let m := memWriteList (memWriteList s.mem 0x20_0800 (leBytes 4 w)) 0x20_000F [0x60]
  { s with mem := m, stamps := [(0x20_0040 / 128, st)], held := s.held ++ [(placedLine + 256, Held.fresh (.cl2 16) 0xFF00_0000_0000_0100 c 0 0)],
           live := [(placedLine + 256, { id := 0xFF00_0000_0000_0100, part := 0, launch := 0, region := none, migr := none, readyAt := 0, needs := 0, first := none })] }
/-- BarrierParkAndMigrResults: a member parked past a BAR, or at a BARW, that a delivery wakes; one that waits for something else; an opener's release that a BAR's scope misses. -/
theorem test_meets_wake :
    (encode (.bar g0 0)).map (·.1) = some 0x0178_0000 ∧
    (∀ x ∈ [(0x0178_0000, 4), (((encode (.barw g0 2 0)).map (·.1)).getD 0, 0)], ∀ st ∈ [stampNone, ⟨1, some (.ctx 0, .iu 7)⟩],
      let s := gathered x.1 x.2 st whyBar
      let key := placedLine + 256
      s.isMoving key = false ∧ s.isLive key = true ∧ (s.ctxAt key).link.toNat = placedVa ∧ (s.ctxAt key).state = stParked ∧ (s.ctxAt key).why = whyBar ∧ s.parkedAt key 0 = true ∧
      s.partOf key = 0 ∧ (s.ctxAt key).launch = 0 ∧ (s.part 0).map (fun p => p.scopemissen.getLsbD 0) = some false ∧ s.vaToPa 0 0 (placedVa + 0x40) = some 0x20_0040 ∧
      stampOk (s.stamp (0x20_0040 / 128)) (s.levelScope 0 0 (s.ctxAt key).link) key (s.posOf key) = (st = stampNone)) ∧
    ((gathered 0x0178_0000 4 stampNone whyPark).ctxAt (placedLine + 256)).why ≠ whyBar ∧ (gathered 0x0178_0000 4 stampNone whyBar).parkedAt (placedLine + 256) 1 = false := by decide +kernel
/-- BarrierParkAndMigrResults: a parked member and its timer, before and after its deadline; a deadline of 0, of now and of later. -/
theorem test_meets_parked :
    let c := (ctx3 0 0 0).setState stParked whyTimer
    let s := { one c with timers := [(placedLine, 3)] }
    mapFind s.held placedLine = some (rec1 c) ∧ s.isMoving placedLine = false ∧ mapFind s.timers placedLine = some 3 ∧ s.resumes 0 0 = true ∧ s.reft < 3 ∧
    3 ≤ ({ s with now := 3 * Config.ticksPerNs } : State).reft ∧ (3 : Nat) ≠ 0 := by decide +kernel
/-- BarrierParkAndMigrResults: MIGR to an address of this tower, and to one of tower 1. -/
theorem test_meets_migr : ∀ x ∈ [(0x40_002F, 0), (0x20_0040_002F, 1)],
    let s := { app (ctxA 0) with tcache := [⟨16, 0, 0, 0x40_0000, ⟨BitVec.ofNat 64 x.1, 2 ^ 21⟩⟩, ⟨16, 0, 0, placedVa, ⟨0x20_001F, 2 ^ 21⟩⟩],
                                 live := [(placedLine, { id := 0xFF00_0000_0000_0000, part := 0, launch := 0, region := none, migr := none, readyAt := 0, needs := 0, first := none })] }
    (match s.access (s.issOf (.migr g0 2 2) 1 placedSlot (rec1 (ctxA 0))) 2 0 1 .load false with | .ok acc _ l => decide (l.hov = 0) && s.homeTower (l.pa acc.va) == some x.2 | _ => false) = true ∧
    s.towerHasC 0 x.2 = true ∧ placedSlot / 2048 / 4 = 0 ∧ (mapFind s.live placedLine).isSome = true := by decide +kernel

/-! ### Tiles -/

/-- A tile of 16 by 16 elements, allocated, at a quarter. -/
def tile (f : Fmt) (baseq : BitVec 12) : TileHandle := { handleFree with alloc := true, fmt := f, baseq }
/-- `app` with tiles in quad 32: handles 1 to 4 as given, and the operations of one engine. -/
def tiled (c : Ctx) (ts : List TileHandle) (te : Te) : State :=
  { app c with handles := (numberFrom (hKey 32 1) ts), tes := [(32, te)] }
/-- TileHandleResults: parameters of a tile of FP32, four that name no tile; TQUOTA 0 and 4 units. -/
theorem test_meets_talloc :
    (∀ v ∈ [0x4F, 0xF, 0x20, 0x30 + fmtCode .fp32], getF (BitVec.ofNat 64 v) 6 58 ≠ 0 ∨ getF (BitVec.ofNat 64 v) 0 4 = 15 ∨ ((BitVec.ofNat 64 v).getLsbD 5 = true ∧ ((BitVec.ofNat 64 v).getLsbD 4 = false ∨ decFmt (getF (BitVec.ofNat 64 v) 0 4) ∉ [Fmt.e4m3, Fmt.e5m2, Fmt.vb8]))) ∧
    (let v := (2#64); getF v 6 58 = 0 ∧ getF v 0 4 ≠ 15 ∧ v.getLsbD 5 = false) ∧ (ctxA 0).mode = 0 ∧ ((app (ctxA 0)).handle 32 1).alloc = false ∧
    ((tiled (ctxA 0) [tile .fp32 0] teReset).handle 32 1).alloc = true ∧
    ((app (ctxA 0)).tcHit 16 0 0 placedVa).map (·.pa placedVa) = some 0x20_0000 ∧ (app (ctxA 0)).readN (0x20_0000 + 0x1C) 2 = 0 ∧
    (putWords (app (ctxA 0)) [(0x20_0000 + 0x1C, 4)]).readN (0x20_0000 + 0x1C) 2 = 4 ∧ (app (ctxA 0)).chargedQuarters 32 0 placedVa = 0 := by decide +kernel
/-- A tile that takes 16 quarters. -/
def wideTile (baseq : BitVec 12) : TileHandle := { tile .aff32 baseq with shp := true }
theorem wide_tile (i : Nat) (h : i < 256) : (wideTile (BitVec.ofNat 12 (16 * i))).baseq.toNat = 16 * i ∧ (wideTile (BitVec.ofNat 12 (16 * i))).quarters = 16 :=
  ⟨by simp [wideTile, tile]; omega, by simp [wideTile, tile, TileHandle.quarters, TileHandle.bytes, TileHandle.count, fmtBits]⟩
/-- TileHandleResults: every quarter of a scratch taken, so that no tile fits. -/
theorem test_meets_scrfull : ∃ hs : SMap TileHandle, ∀ q, 0 < q → ∀ b, ¬ (b % q = 0 ∧ b + q ≤ 4096 ∧
    ∀ e ∈ hs, e.1 / 1024 = 32 → e.2.alloc = true → e.2.baseq.toNat + e.2.quarters ≤ b ∨ b + q ≤ e.2.baseq.toNat) := by
  refine ⟨(List.range 256).map fun i => (hKey 32 i, wideTile (BitVec.ofNat 12 (16 * i))), ?_⟩
  rintro q hq b ⟨-, hb, h⟩
  have hi : b / 16 < 256 := by omega
  have := h (hKey 32 (b / 16), wideTile (BitVec.ofNat 12 (16 * (b / 16)))) (List.mem_map.mpr ⟨_, List.mem_range.mpr hi, rfl⟩) (by simp [hKey]; omega) rfl
  simp only [wide_tile _ hi] at this
  omega
/-- TileHandleResults: a FREE handle, an IDLE one of the context's launch, one of another launch, a FAULT one; a TDESC under way. -/
theorem test_meets_handles :
    let other := { tile .fp32 4 with launch := 7 }
    let broken := { tile .fp32 8 with mark := true, fcode := 6 }
    let s := tiled (ctxA 0) [tile .fp32 0, other, broken] teReset
    s.handleState 32 9 = 0 ∧ s.handleState 32 1 = 1 ∧ s.handleState 32 2 ≠ 0 ∧ (s.handle 32 2).launch.toNat ≠ (ctxA 0).launch ∧ s.handleState 32 3 = 3 ∧
    (∀ m ∈ [1, 3], (s.handle 32 m).alloc = true ∧ (s.handle 32 m).launch.toNat = (ctxA 0).launch) ∧
    (mapFind (waiting (.tile 32 1 true) []).ops 7).map (·.kind) = some (.tile 32 1 true) ∧ (ctxA 0).mode = 0 := by decide +kernel
/-- TileOperationsEnter: operands that a form takes and ones it does not; dies with and without an M die below; strides of TLD and TST. -/
theorem test_meets_tile_forms :
    let s := tiled (ctxA 0) [tile .aff32 0, tile .fp32 4, tile .fp32 6, tile .int32 8] teReset
    (∀ m ∈ [1, 2, 3, 4], (s.handle 32 m).alloc = true ∧ (s.handle 32 m).launch.toNat = (ctxA 0).launch) ∧
    ((s.handle 32 2).fmt ∈ eltFmts ∧ (s.handle 32 3).fmt = (s.handle 32 2).fmt) ∧ (s.handle 32 4).fmt ∉ eltFmts ∧
    ((s.handle 32 1).fmt = .aff32 ∧ (s.handle 32 2).fmt = (s.handle 32 3).fmt ∧ (s.handle 32 2).fmt ∈ [Fmt.fp32, .bfx2, .fp16, .bf16]) ∧ (ctxA 0).rm < 5 ∧
    placedSlot / 2048 % 4 ≠ 0 ∧ (s.isM (placedSlot / 2048 - 1) = false ∨ s.isM (placedSlot / 2048 - 1) = true) ∧
    (s.handle 32 2).bytes / (s.handle 32 2).width = 64 ∧
    (match s.preCheck (s.issOf (.tld g0 2 (.imm 2) 2 3) 2 placedSlot (rec1 (ctxA 0))) 2 0 1024 .load with | .ok va => va == 0x40_0000 | .error _ => false) = true ∧
    (match s.preCheck (s.issOf (.tld g0 2 (.imm 2) 2 3) 2 placedSlot (rec1 (ctxA 0))) 3 0 1024 .load with | .ok _ => false | .error _ => true) = true := by decide +kernel

/-- An operation of the placed context on handles 2 and 3, at its head and prepared. -/
def elt (op : TOp) : TileOp := { tileOp op [2, 3] 2 2 3 with key := placedLine, prep := true, seq := 4 }
/-- TileEngineSteps: an unprepared head of two kinds; a load of 1 KiB at VA 0x40_0000 whose lines the die owns. -/
theorem test_meets_prepare :
    (let o := { elt (.elt 0) with prep := false }
     let s := tiled (ctxA 0) [tile .fp32 0, tile .fp32 4, tile .fp32 6] (teReset.setSub 0 [o])
     (s.te 32).sub 0 = [o] ∧ s.halted o.part o.launch = false) ∧
    (let o := { elt .ld with prep := false, va := 0x40_0000, len := 1024, reads := [] }
     let s := tiled (ctxA 0) [tile .fp32 0, tile .fp32 4, tile .fp32 6] (teReset.setSub 0 [o])
     let s := { s with l2 := (List.range 8).map fun i => (l2Key (0x8000 + i) 1, { l2None with present := true, owned := true, dirty := true }),
                       dir := (List.range 8).map fun i => (0x8000 + i, { dirUnc with st := .own, owner := 1 }) }
     (s.te 32).sub 0 = [o] ∧ o.prep = false ∧ o.ranges (s.handle 32 o.hd) = [(0x40_0000, 1024)] ∧ (s.tcHit 16 0 0 0x40_0000).map (·.pa 0x40_0000) = some 0x40_0000 ∧
     s.accessBefore o.key o.seq = false ∧ s.pieceFcode 1 o false ⟨0x40_002F, 2 ^ 21⟩ 0x40_0000 1024 = 0 ∧
     s.pieceFcode 1 { o with mode := 0 } false ⟨0x40_0023, 2 ^ 21⟩ 0x40_0000 1024 ≠ 0 ∧
     ∀ x ∈ segLines [(0x40_0000, 1024)], s.lineBusy [x] = false ∧ s.claimed x = false ∧ s.l2Reads x 1 = true ∧ s.offModule x = false) := by decide +kernel
/-- TileEngineSteps: a startable head after the pointer, without a fault, with a fault of its own, with a FAULT operand, with a poisoned one. -/
theorem test_meets_start : ∀ f ∈ [0, 5], ∀ mark ∈ [true, false], ∀ bad ∈ [true, false],
    let o := { elt (.elt 0) with fault := f }
    let s := tiled (ctxA 0) [tile .fp32 0, tile .fp32 4, { tile .fp32 6 with mark }] (teReset.setSub 1 [o])
    let s := { s with poison := if bad then [(((tile .fp32 4).addr 32) / 128, ())] else [] }
    (s.te 32).sub ((0 + 1 + 0) % 4) = [o] ∧ (s.te 32).ptr = 0 ∧ s.startable 32 o = true ∧ o.isRot = false ∧ s.runPoison 32 o = bad ∧ (s.handle 32 3).mark = mark := by decide +kernel
/-- TileEngineSteps: a run with a fault, and one with its result. -/
theorem test_meets_commit : ∀ f ∈ [0, 5],
    let w : TileOut := ⟨2, [(0x306_0000, 1)], Vector.replicate 4 0x7F, 0, 0⟩
    let r : TileRun := ⟨elt (.elt 0), f, if f = 0 then [w] else [], []⟩
    let s := tiled (ctxA 0) [tile .fp32 0, tile .fp32 4, tile .fp32 6] { teReset with run := [r] }
    (s.te 32).run.length = 1 ∧ r.op.op ≠ .st ∧ memWf s.mem = true ∧ w.handle = r.op.hd ∧ (w.bytes.map (·.1)).Nodup := by decide +kernel
/-- TileEngineSteps: a rotation that has waited 65,536 ns alone; and two 32-bit integer tiles. -/
theorem test_meets_rottime :
    let o := elt (.mma false true)
    let s := { tiled (ctxA 0) [tile .int32 0, tile .int32 4, tile .int32 6] (teReset.setSub 2 [o]) with now := 65536 * Config.ticksPerNs }
    (s.te 32).sub 2 = [o] ∧ (∀ j < 4, j ≠ 2 → (s.te 32).sub j = []) ∧ o.isRot = true ∧ o.prep = true ∧ s.halted o.part o.launch = false ∧ o.since + 65536 * Config.ticksPerNs ≤ s.now ∧
    (s.te 32).run = [] ∧ s.stores = [] ∧ (s.handle 32 o.hd).fmt = .int32 ∧ (s.handle 32 o.ha).like (s.handle 32 o.hd) ∧ (s.handle 32 o.hb).like (s.handle 32 o.hd) := by
  refine ⟨rfl, by decide, rfl, rfl, by decide, by decide, rfl, rfl, rfl, ⟨rfl, rfl⟩, rfl, rfl⟩

/-! ### Engines -/

/-- EngineInstructions: counts within and past the limit of each command, ranges that pass and that fail, a token at rest and PENDING, blocks aligned and not. -/
theorem test_meets_engine_issue :
    let s := app (ctxA 0)
    let e := s.issOf (.cpy g0 2 1 3 { t0 with ddesc := 2, sdesc := 2 }) 2 placedSlot (rec1 (ctxA 0))
    (s.rangeBad e ⟨2, 0, 8, .store, [], 1, 1⟩).isNone = true ∧ (s.rangeBad e ⟨2, 0, 256, .load, [.store], 1, 256⟩).isNone = true ∧ (s.rangeBad e ⟨3, 0, 8, .store, [], 1, 1⟩).isSome = true ∧
    (s.rangeBad e ⟨2, 0, 0, .store, [], 1, 1⟩).isNone = true ∧ (ctxA 0).tok 7 = false ∧ ({ ctxA 0 with wait := 0x80_0000 } : Ctx).tok 7 = true ∧ mapGet s.ces 16 [] = [] ∧ (ctxA 0).rm < 5 ∧
    (List.replicate 64 (0 : Nat)).length = 64 ∧ mapGet s.toks (s.cur * 8 + 7) 0 = 0 ∧ mapGet (mapPut s.toks (s.cur * 8 + 7) 7) (s.cur * 8 + 7) 0 = 7 ∧ placedSlot / 2048 < 24 ∧ mapWf s.l2 = true ∧
    (e.vaOf s 2 0) = 0x40_0000 ∧ s.region 0x40_0000 = .hbm 0 ∧ (2 ^ 36 : Nat) < 2 ^ 36 + 1 ∧ (0 : Nat) / 1024 * 1032 = 0 := by decide +kernel
theorem test_meets_rlcq : ∀ x ∈ [(0, true), (0x10, false)],
    let s := app (ctxA (BitVec.ofNat 96 x.1))
    let e := s.issOf (.rlcq g0 2 15 1 2) 1 placedSlot (rec1 (ctxA (BitVec.ofNat 96 x.1)))
    (match s.preCheck e 2 (BitVec.ofNat 64 (x.1 + 0x80 + 8 * 15)) 8 .acq with | .ok va => va == 0x40_0000 + x.1 + 0xF8 && ((BitVec.ofNat 96 x.1).extractLsb' 0 64).toNat % 256 == (if x.2 then 0 else x.1) | .error _ => false) = true ∧
    okAcc (s.access e 2 (BitVec.ofNat 64 (x.1 + 0x80 + 8 * 15)) 8 .acq) = true ∧ (match s.preCheck e 3 0 8 .acq with | .ok _ => false | .error _ => true) = true := by decide +kernel

/-- Memory from VA 0x40_0000 on, 128 lines that die 1 owns, with a refinement block in its first two lines, for a supervisor context that waits for a token. -/
def owning (c : Ctx) (bs : List Byte) (rlcs : SMap Rlc := []) (claims : List Claim := []) : State :=
  let s := app c
  { s with l2 := (List.range 128).map fun i => (l2Key (0x8000 + i) 1, { l2None with present := true, owned := true, dirty := true }),
           dir := (List.range 128).map fun i => (0x8000 + i, { dirUnc with st := .own, owner := 1 }), mem := memWriteList s.mem 0x40_0000 bs, rlcs, claims }
def ctxW : Ctx := { ctxA 0 with stat := 0x30C }
/-- A command of that context on cluster 16, bound to memory from VA 0x40_0000 on. -/
def cmd (ins : Instr) (b : XReg) : Cmd :=
  { num := 0, ins, key := placedLine, id := 0xFF00_0000_0000_0000, part := 0, launch := 0, asid := 0, rm := 0, pos := .iu 128, mode := 1, tail := { t0 with sdesc := 2 }, dst := 0x40_0000, src := 0x40_0010,
    b, b1 := 0, desc := ⟨0x40_0000, 0x4000, 0xEB⟩, win := false, futVa := 0 }
def leafA : Leaf := ⟨0x40_002F, 2 ^ 21⟩
def dataCopy : Cmd := cmd (.cpy g0 2 1 3 t0) 8
def stackSum : Cmd := cmd (.redb g0 .sum .int32 2 1 3 t0) 1
def oneGather : Cmd := cmd (.gath g0 2 1 3 2 3 t0) 1
/-- CopyAndBaseDieEngines: a copy of 8 bytes within a line, one reduced and one gathered element, at the head of their queues; commands of no elements. -/
theorem test_meets_copies :
    let s := { owning ctxW [] [] [⟨.ce 16, 1, 0, [0x8000]⟩] with ces := [(16, [dataCopy])] }
    let b := fun c : Cmd => { owning ctxW [] with bdes := [(0, { s.bde 0 with queue := [c] })] }
    ctxW.state ≠ stDone ∧ ctxW.state ≠ stFaulted ∧ (mapFind s.held placedLine).isSome = true ∧ s.isMoving placedLine = false ∧ dataCopy.tail.fe = false ∧ mapFind s.ces 16 = some [dataCopy] ∧ mapWf s.ces = true ∧
    dataCopy.pos.inst 3 = some 16 ∧ memWf s.mem = true ∧ leafA.pa 0x40_0000 = 0x40_0000 ∧ leafA.pa 0x40_0010 = 0x40_0010 ∧ 0x40_0010 % 128 + 8 ≤ 128 ∧
    s.region 0x40_0000 = .hbm (0 / 2) ∧ stackSum.b.extractLsb' 0 64 = 1 ∧ ((b stackSum).bde 0).queue = [stackSum] ∧ ((b oneGather).bde 0).queue = [oneGather] ∧ oneGather.win = false ∧
    s.readN 0x40_0010 8 * 2 ^ 3 + 2 ^ 3 ≤ oneGather.desc.limit.toNat ∧ leafA.pa oneGather.desc.base.toNat = 0x40_0000 ∧
    (b stackSum).claims = [] ∧ mapFind (b stackSum).runs (bdeRun 0) = none ∧ (cmd (.cpy g0 2 1 3 t0) 0).b.extractLsb' 0 64 = 0 ∧ (cmd (.cpys g0 2 1 3 t0) 8).b.extractLsb' 32 32 = 0 := by decide +kernel
/-- CopyAndBaseDieEngines: a command whose claims are placed, with lines left to write and with none; one that has read the line of its source. -/
theorem test_meets_placed :
    let s := { owning ctxW [] [] [⟨.ce 16, 1, 0, [0x8000]⟩] with ces := [(16, [dataCopy])] }
    s.placed dataCopy = true ∧ (∀ x ∈ s.claims, ∀ l ∈ x.lines, (s.dirE l).queue = []) ∧ mapFind s.runs (ceRun 16) = none ∧
    (∀ x ∈ ({ s with claims := [⟨.ce 16, 1, 0, []⟩] } : State).claims, x.lines = []) ∧ ({ s with claims := [⟨.ce 16, 1, 0, []⟩] } : State).placed dataCopy = true ∧
    (let u := { s with runs := [(ceRun 16, ⟨[⟨0x40_0000, 0x40_0010, 8, some 0x8000⟩], [(0x8000, (List.replicate 128 5, false))], 0, none⟩)] }
     (mapFind u.runs (ceRun 16)).map (fun r => (r.todo.length, r.bad, (mapFind r.snap (lineOf 0x40_0010)).map fun x => (x.1.length, x.2))) = some (1, none, some (128, false))) := by decide +kernel
/-- CopyAndBaseDieEngines: a first command with room at its home, and with 64 claims there. -/
theorem test_meets_claims :
    let s := { tabled (owning ctxW []) with ces := [(16, [dataCopy])] }
    s.placed dataCopy = false ∧ s.copyLines dataCopy = [0x8000] ∧ (s.byHome [0x8000]).all s.claimRoom = true ∧
    (({ s with claims := List.replicate 64 ⟨.ce 7, 0, 0, [0x8001]⟩ } : State).byHome [0x8000]).all ({ s with claims := List.replicate 64 ⟨.ce 7, 0, 0, [0x8001]⟩ } : State).claimRoom = false := by decide +kernel
/-- The engines of cluster 16 reach every byte of those lines, whatever memory holds. -/
theorem owning_reaches (wr : Nat → Prop) (bs : List Byte) (rlcs : SMap Rlc) (cl : List Claim) (c : Cmd) (st : Bool) (va n : Nat) (hm : c.mode = 1) (hp : c.part = 0) (ha : c.asid = 0)
    (h : 0x40_0000 ≤ va) (h' : va < 0x40_4000) (hcl : (cl.takeWhile fun x => x.num != c.num) = []) :
    (owning ctxW bs rlcs cl).engineReaches wr 16 c st va n leafA := by
  have hpa : leafA.pa va = va := by simp [leafA, Leaf.pa, Leaf.base, getF]; omega
  have ho : ∀ i < 128, (owning ctxW []).l2Owns (0x8000 + i) 1 = true ∧ ((owning ctxW []).dirE (0x8000 + i)).st = .own ∧ ((owning ctxW []).dirE (0x8000 + i)).owner = 1 ∧
      ((owning ctxW []).dirE (0x8000 + i)).host = false := by decide +kernel
  have hl : lineOf va = 0x8000 + (va / 128 - 0x8000) := by simp [lineOf]; omega
  have hr : ∀ (s : State) (a : Nat), 0x40_0000 ≤ a → a < 0x40_4000 → s.region a = .hbm 0 := by
    intro s a h1 h2
    have h3 : a < 0xC0_0000_0000 := by omega
    have h4 : a % 2 ^ 36 < stackBytes := by simp [stackBytes]; omega
    have h5 : a / 2 ^ 37 = 0 := by omega
    rw [State.region, if_pos h3, if_pos h4, h5]
  have hps : (owning ctxW bs rlcs cl).parts = [(0, { partReset with trapvec := 0xFF00_0000_0040_0000 })] := rfl
  have hn := ho (va / 128 - 0x8000) (by omega)
  have he : ∀ l, (owning ctxW bs rlcs cl).dirE l = (owning ctxW []).dirE l := fun l => by
    rw [State.dirE, State.dirE, show (owning ctxW bs rlcs cl).dir = (owning ctxW []).dir from rfl]
  refine ⟨Or.inl (by simp [hm]), ?_, fun m _ => ?_, ?_, ?_, ?_, rfl, ?_, ?_, ?_, rfl⟩
  · rw [hp, ha]
    have hc : TcEntry.covers ⟨16, 0, 0, 0x40_0000, leafA⟩ va = true := by simp only [TcEntry.covers, leafA]; exact decide_eq_true (by omega)
    have hcons : (owning ctxW bs rlcs cl).tcache = ⟨16, 0, 0, 0x40_0000, leafA⟩ :: (handled ctxW).tcache := rfl
    rw [State.tcHit, hcons, List.find?_cons_of_pos (by simp [hc])]; rfl
  · have hk : ({ owning ctxW bs rlcs cl with mem := m } : State).part 0 = some { partReset with trapvec := 0xFF00_0000_0040_0000 } := rfl
    have hok : ({ owning ctxW bs rlcs cl with mem := m } : State).paOk 0 va = true := by
      have : ((owning ctxW []).partOfTower 0 == some 0) = true := by decide +kernel
      simp only [State.paOk, hr _ va h h']; rw [State.partOfTower, show ({ owning ctxW bs rlcs cl with mem := m } : State).parts = (owning ctxW []).parts from rfl, ← State.partOfTower]; exact this
    have hx : leafA.ctx = false := by decide
    have hpm : leafA.permits (if st = true then .store else .load) = true := by cases st <;> decide
    have hf : ({ owning ctxW bs rlcs cl with mem := m } : State).frozenAt 0 c.launch va = false := by simp [State.frozenAt, hk, partReset]
    have ht : ({ owning ctxW bs rlcs cl with mem := m } : State).hitsTeam 0 va n = false := by simp [State.hitsTeam, hk, partReset]
    have hd : (({ owning ctxW bs rlcs cl with mem := m } : State).die 0).down = false := rfl
    have hg : pageBad 0 1 (if st = true then .store else .load) leafA = none := by cases st <;> decide
    rw [hp, hm, State.pageFcode, hpa]
    simp [hx, State.pieceBad, hg, State.regionBad, hok, hr _ va h h', hf, ht, State.offline, hd]
  · rw [hpa, State.heldFrom, show (owning ctxW bs rlcs cl).claims = cl from rfl, hcl, hl, State.homeHeld, State.homeTower, hr _ _ (by omega) (by omega), hps]; rfl
  · rw [hpa, hl, State.offModule, hr _ _ (by omega) (by omega)]
  · rw [hpa, hl, State.hostHas, List.any_cons, he, hn.2.2.2]; rfl
  · rw [hpa, hl, State.l2Owns, State.l2Line, show (owning ctxW bs rlcs cl).l2 = (owning ctxW []).l2 from rfl, ← State.l2Line, ← State.l2Owns]; exact hn.1
  · rw [hpa, hl, he]; exact hn.2.1
  · rw [hpa, hl, he]; exact hn.2.2.1

/-- A block of order 16 in one tile, one FP64 rung, its regions from VA 0x40_1000 on: STATE, PHASE and STEP as given. -/
def block (st phase step : Nat) : List Byte :=
  leBytes 4 16 ++ [16, 1, 0, 0] ++ leBytes 8 0 ++ leBytes 8 0x40_1000 ++ leBytes 8 0x40_2000 ++ leBytes 8 0x40_2080 ++ leBytes 8 0x40_3000 ++ leBytes 8 0x40_3F00 ++ leBytes 4 0 ++ leBytes 2 1 ++ [0, 0] ++
  leBytes 8 0 ++ leBytes 8 0x3FF0_0000_0000_0000 ++ leBytes 8 0x3FF0_0000_0000_0000 ++ List.replicate 40 0 ++
  [BitVec.ofNat 8 st, 0, 0, BitVec.ofNat 8 phase] ++ leBytes 8 0 ++ leBytes 4 step ++ List.replicate 112 0
def rlcCmd (ins : Instr) (b : XReg) : Cmd := { cmd ins b with src := 0x40_0000 }
/-- RefinementLoop: blocks of every STATE that its commands tell apart, a malformed one, and the block of an RLCX that waits for its policy. -/
theorem test_meets_blocks : ∀ st ∈ [0, 2, 3],
    let b := block st 0 0
    let c := rlcCmd (.rlcs g0 2 t0) 0
    let s := owning ctxW b [(16, { rlcReset with queue := [c] })]
    (s.rlc 16).run = none ∧ (s.rlc 16).queue = [c] ∧ s.rlcHeld 16 c = false ∧ c.src % 256 = 0 ∧ memWf s.mem = true ∧
    memReadList s.mem (leafA.pa c.src) 128 ++ memReadList s.mem (leafA.pa (c.src + 128)) 128 = b ∧ leafA.pa c.src % 128 = 0 ∧ leafA.pa (c.src + 128) % 128 = 0 ∧
    leafA.pa c.src ≠ leafA.pa (c.src + 128) ∧ leafA.pa (c.src + 0x3E) = leafA.pa c.src + 0x3E ∧
    bget b 0x80 1 = st ∧ blkBad b = false ∧ (blkRegions b).any c.outside = false ∧ bget b 0x82 1 < bget b 5 1 ∧ blkBad (List.replicate 256 0) = true ∧ s.isC (16 / 16) = true := by decide +kernel
/-- RefinementLoop: every byte of the block's regions is one that the engine reaches. -/
theorem test_meets_regions : ∀ r ∈ blkRegions (block 0 0 0), 0x40_0000 ≤ r.1 ∧ r.1 + r.2 < 0x40_4000 := by decide +kernel
theorem test_meets_reaches (va : Nat) (h : 0x40_0000 ≤ va) (h' : va < 0x40_4000) (st : Bool) (n : Nat) :
    leafA.pa va % 128 = va % 128 ∧ 
    ∀ wr, (owning ctxW (block 0 0 0) [(16, { rlcReset with queue := [rlcCmd (.rlcs g0 2 t0) 0] })]).engineReaches wr 16 (rlcCmd (.rlcs g0 2 t0) 0) st va n leafA :=
  ⟨by simp [leafA, Leaf.pa, Leaf.base, getF]; omega, fun _ => owning_reaches _ _ _ _ _ st va n rfl rfl rfl h h' rfl⟩
/-- RefinementLoop: the pivots that an RLCX reads. -/
theorem test_meets_pivots : ∀ i < 16, vaPiv (block 3 0 0) i = 0x40_3800 + 4 * i ∧ lineOf (leafA.pa (vaPiv (block 3 0 0) i)) ∉ [0x8000, 0x8001] ∧ vaPiv (block 3 0 0) i % 128 + 4 ≤ 128 ∧ (owning ctxW (block 3 0 0)).readN (leafA.pa (vaPiv (block 3 0 0) i)) 4 < 16 := by decide +kernel
/-- RefinementLoop: a run between two phases, at the end of its factorisation and of its correction; stopped or not. -/
theorem test_meets_checkpoint : ∀ x ∈ [(0, factorOps (block 2 0 0)), (2, 3)], ∀ stop ∈ [true, false],
    let b := block 2 x.1 x.2
    let c := rlcCmd (.rlcs g0 2 t0) 0
    let s := owning ctxW b [(16, { rlcReset with run := some c, blk := b, stop })]
    ((s.rlc 16).run.map (·.key)) = some placedLine ∧ (s.rlc 16).stop = stop ∧ (s.rlc 16).blk.length = 256 ∧ bget b 0x8C 4 = phaseOps b ∧ bget b 0x83 1 ≠ 1 ∧ bget b 0x83 1 < 3 ∧
    s.rlcHeld 16 c = false ∧ leafA.pa (c.src + 128) % 128 = 0 ∧ c.src % 256 = 0 ∧ b.drop 0x80 = memReadList s.mem (leafA.pa (c.src + 128)) 128 := by decide +kernel

/-! ### Translation, residency, coherence -/

/-- A directory entry of line 0x8000. -/
def homed (e : DirEntry) : State := { State.reset with dir := [(0x8000, e)], parts := [(0, partReset)] }
/-- A partition that changes the role map of tower 0. -/
def changing (step : Nat) (pinned : Bool) (held : SMap Held) : State :=
  { homed dirUnc with parts := [(0, { partReset with roleChange := some ⟨7, [(0, .mmcc)], step⟩ })], held, dir := [],
                      l2 := [(l2Key 0x8000 1, { l2None with present := true, pinned })] }
/-- A supervisor context that has a TLBI under way on a machine with page tables, and no other access. -/
def flushing (f : TlbiForm) (va : Nat) (m : Option Nat) : State :=
  let s := tabled (waiting (.tlbi f 0 0 va m) [])
  { s with stores := [] }
/-- InvalidationResults: every form, at a canonical address with a leaf, at one with none, and at one that is not canonical. -/
theorem test_meets_tlbi : ∀ f ∈ [TlbiForm.va, .as, .all, .u], ∀ x ∈ [(0x40_0000, true), (0x80_0000, true), (0x0100_0000_0000_0000, false)],
    let s := flushing f x.1 none
    (mapFind s.ops 7).map (·.kind) = some (.tlbi f 0 0 x.1 none) ∧ (mapFind s.held placedLine).map (·.ctx.state) = some stWaiting ∧ s.isMoving placedLine = false ∧
    s.stores.length = 0 ∧ s.tes.length = 0 ∧ canonical x.1 = x.2 ∧ memWf s.mem = true := by decide +kernel
theorem test_meets_tlbi_u :
    let s := flushing .u 0x40_0000 none
    (match s.walk 0 0 0x80_0000 with | .fault t => t.code == 8 && t.detail == 1 | .ok _ => false) = true ∧ (match s.walk 0 0 0x40_0000 with | .ok l => l.base == 0x40_0000 && !l.sal | .fault _ => false) = true ∧
    s.leafPa 0 0 0x40_0000 = 0x60_7010 ∧ s.lineBusy [lineOf 0x60_7010] = false ∧ s.claimed (lineOf 0x60_7010) = false ∧ s.hostHas [lineOf 0x60_7010] = false ∧ (∀ e ∈ s.l2, e.2.pinned = false) ∧
    ((s.traceWith (fun _ => none) 0 0 0x40_0000).reads.any fun pa => s.homeHeld pa || (s.coherent pa && !s.offline pa && !s.canShare (lineOf pa) 1)) = false ∧ s.pinning 0 ⟨0x40_002F, 2 ^ 21⟩ = false ∧
    ((changing 4 false []).traceWith (fun _ => none) 0 0 0x40_0000).reads.any (changing 4 false []).homeHeld = true ∧
    ({ s with ops := (9, { key := placedLine, launch := 0, pos := .iu 128, reg := 2, kind := .line 1 { acc8 with segs := [(0x40_0000, 1)] } 1 }) :: s.ops } : State).pinning 0 ⟨0x40_002F, 2 ^ 21⟩ = true ∧
    (let t := { s with l2 := [(l2Key 0x8000 1, { l2None with present := true, pinned := true })] }
     ∃ e ∈ t.l2, e.2.pinned = true ∧ t.partOfTower (e.1 % 32 / 4) = some 0 ∧ 0x40_0000 ≤ e.1 / 32 * 128 ∧ e.1 / 32 * 128 < 0x40_0000 + 2 ^ 21) := by decide +kernel
/-- InvalidationResults: after the removal, with a load of the page outstanding and with none. -/
theorem test_meets_tlbi_users :
    let s := flushing .va 0x40_0000 (some 8)
    s.tlbiUsers .va 0 0 0x40_0000 8 = false ∧
    ({ s with ops := [(6, { key := placedLine, launch := 0, pos := .iu 128, reg := 2, kind := .load acc8 .d 0xFFF none [] }), (7, { key := placedLine, launch := 0, pos := .iu 128, reg := 1, kind := .tlbi .va 0 0 0x40_0000 (some 8) })] } : State).tlbiUsers .va 0 0 0x40_0000 8 = true := by decide +kernel
/-- InvalidationResults: a line that is there, pinned or not, one that is not there, one whose home is offline, a set with 16 pins. -/
theorem test_meets_lines : ∀ op ∈ [0, 1, 2], ∀ pinned ∈ [true, false],
    let s := waiting (.line 1 { acc8 with segs := [(0x40_0000, 1)] } op) []
    let s := { s with l2 := [(l2Key 0x8000 1, { l2None with present := true, owned := true, dirty := true, pinned })] }
    (mapFind s.ops 7).map (·.kind) = some (.line 1 { acc8 with segs := [(0x40_0000, 1)] } op) ∧ mapWf s.l2 = true ∧ s.lineBusy [0x8000] = false ∧ s.claimed 0x8000 = false ∧
    (s.l2Line 0x8000 1).map (fun l => (l.pinned, l.asked)) = some (pinned, false) ∧ s.l2Line 0x8001 1 = none ∧ s.offline 0x40_0000 = false ∧ s.isPeer 0x8000 = false ∧
    ({ s with dies := [(0, { dieReset with down := true })] } : State).offline 0x40_0000 = true ∧ ((s.setOf 0x8000 1).filter fun e => e.2.pinned).length < 16 := by decide +kernel
theorem test_meets_full_set :
    let s := waiting (.line 1 { acc8 with segs := [(0x40_0000, 1)] } 1) []
    let s := { s with l2 := (rangeFrom 1 16).map fun m => (l2Key (m * 2 ^ 18 + m * 512 + (64 ^^^ m)) 1, { l2None with present := true, pinned := true }) }
    ((s.setOf 0x8000 1).filter fun e => e.2.pinned).length = 16 ∧ s.l2Line 0x8000 1 = none ∧ mapWf s.l2 = true := by decide +kernel
theorem test_meets_line_accesses : okAcc (acc 0 2 0xFF8 1 .load) = true ∧ leafA.pin = false ∧ (⟨0x1000_0000_0040_002F, 2 ^ 21⟩ : Leaf).pin = true ∧ placedCtx.mode ≠ 0 := by decide +kernel

/-- TranslationWalks: a walk to the leaf of VA 0x40_0000, level by level. -/
theorem test_meets_walk_reaches : ∃ s p, State.part s 0 = some p ∧ WalkReaches s 0 p 0 0x40_0000 1 0x60_7000 false ∧ s.tableOk 0 0x60_7000 = true ∧
    s.entryIs (entryAt 0x40_0000 1 0x60_7000 false) 0x40_002F ∧ (0x40_002F : Nat) % 4 = 3 ∧ leafBad ⟨0x40_002F, 2 ^ 21⟩ = false := by
  refine ⟨tabled (app (ctxA 0)), { partReset with trapvec := 0xFF00_0000_0040_0000 }, rfl, ?_, by decide +kernel, ?_, by decide, by decide⟩
  · refine .down 1 0x60_6000 false 0x60_7001 (.down 2 0x60_5000 false 0x60_6001 (.down 3 0x60_0000 false 0x60_5001
      (.root 0x60_0001 ?_ (by decide) (by decide) (by decide)) ?_ ?_ (by decide) (by decide) (by decide) (by decide) (by decide)) ?_ ?_ (by decide) (by decide) (by decide) (by decide) (by decide))
      ?_ ?_ (by decide) (by decide) (by decide) (by decide) (by decide)
    all_goals first
      | decide +kernel
      | (unfold State.entryIs; decide +kernel)
  · unfold State.entryIs; decide +kernel
/-- With an empty walk cache a die's walk reads every level. -/
theorem no_walk_cache {s : State} (h : s.wcache = []) (die k asid va : Nat) : s.traceOn die k asid va = s.traceWith (fun _ => none) k asid va := by
  have : s.wcUse die k asid va = fun _ => none := by funext lv; simp [State.wcUse, h]
  rw [State.traceOn, this]
/-- TranslationWalks: a walk whose lines are all in its die's L2, one that misses the first of them, one whose home is held. -/
theorem test_meets_walk_reads :
    let w : Walk := ⟨1, 0, 0, 0x40_0010, [], true, none, []⟩
    let s := { tabled (app (ctxA 0)) with walks := [(5, w)] }
    let r := [partReset.asTable, 0x60_0000, 0x60_5000, 0x60_6000, 0x60_7010]
    let t := { s with l2 := (r.drop 1 ++ r.take 1).map fun a => (l2Key (lineOf a) 1, { l2None with present := true }) }
    mapFind s.walks 5 = some w ∧ s.wcache = [] ∧ (s.traceWith (fun _ => none) 0 0 0x40_0010).reads = r ∧ r.any s.homeHeld = false ∧
    (∀ pa ∈ r, s.coherent pa = true ∧ s.offline pa = false ∧ s.l2Reads (lineOf pa) 1 = false ∧ t.l2Reads (lineOf pa) 1 = true) ∧
    ({ changing 4 false [] with walks := [(5, w)] } : State).homeHeld (((changing 4 false []).traceWith (fun _ => none) 0 0 0x40_0010).reads.headD 0) = true := by decide +kernel
/-- TranslationWalks: a walk that has ended with a leaf, or a fault, for a context that waits for it. -/
theorem test_meets_walk_completion : ∀ r ∈ [WalkRes.ok ⟨0x40_002F, 2 ^ 21⟩, .fault ⟨8, 1, 0x40_0000⟩],
    let c := { ctxA 0 with stat := 4, wait := 0x0100_0000 }
    let x : Waiter := ⟨placedLine, 16, 0x40_0020, 0x40_0020, false, false, c.pc, c.pc, none⟩
    let w : Walk := ⟨1, 0, 0, 0x40_0010, [x], true, some r, []⟩
    let s := { handled c with walks := [(5, w)] }
    (mapFind s.walks 5).map (·.va) = some 0x40_0010 ∧ (mapFind s.held placedLine).map (fun h => (h.ctx.state, h.ctx.why)) = some (stWaiting, whyReg) ∧ (∀ q : Reg, c.pend q.toNat = false) ∧ c.pc = x.pc ∧ s.isMoving placedLine = false ∧
    w.va / 2 ^ 21 = 0x40_0020 / 2 ^ 21 ∧ s.tcHit 16 0 0 0x40_0020 = none ∧ (s.tcache.filter fun t => t.cluster = 16).length < 4096 := by decide +kernel

/-- A launch whose one team runs in the slots of IU 128, and whose window has one slot of CL1 for it. -/
def pinnedLaunch : Launch := { launch0 with levels := [levelDecl (1 + 16)], teams := [⟨0, 0, 128, 0, placedVa, 0, 0, []⟩] }
/-- Two contexts of that launch: one in the slot, one in the CL2 of its cluster. -/
def crowded (c d : Ctx) (live : SMap Live) (now : Nat) : State :=
  let s := two c d (.cl2 16)
  { s with parts := [(0, { partReset with cl1lim := 1, launches := [(0, pinnedLaunch)] })], live := live ++ s.live, now }
def ready2 : Ctx := { ctxA 0 with stat := 0 }
def waits : Ctx := { ctxA 0 with stat := 4, wait := 0x0100_0000 }
/-- ResidencyResults: a free slot; a slot whose resident waits; one whose resident has run its time. -/
theorem test_meets_fill :
    let key := placedLine + 256
    (let s := two (ctx3 1 2 3) ready2 (.cl2 16)
     (s.readyLines 16).map (·.1) = [key] ∧ s.fillBad key = none ∧ (s.slotsOf 16 key (rec2 ready2 (.cl2 16))).find? (fun m => (s.inSlot m).isNone) = some 2049) ∧
    (let s := crowded waits ready2 [] 0
     (s.readyLines 16).map (·.1) = [key] ∧ s.slotsOf 16 key (rec2 ready2 (.cl2 16)) = [2048] ∧ (s.inSlot 2048).isSome = true ∧ (s.victimOf [2048]).map (fun x => (x.1, x.2.2)) = some (placedLine, 2048)) ∧
    (let s := crowded ready2 ready2 [] (16384 * Config.ticksPerNs)
     (s.readyLines 16).map (·.1) = [key] ∧ (s.rotated [2048] ready2.prio).map (fun x => (x.1, x.2.2)) = some (placedLine, 2048) ∧ 2048 / 128 = 16 ∧ s.isM (2048 / 2048) = false ∧ (s.cl2Set 16 placedLine).length < 8) := by decide +kernel
/-- ResidencyResults: a READY line in memory whose team runs in one cluster. -/
theorem test_meets_load :
    let key := placedLine + 512
    let s := crowded waits ready2 [(key, { id := 0xFF00_0000_0000_0200, part := 0, launch := 0, region := none, migr := none, readyAt := 0, needs := 0, first := none })] 0
    let s := { s with mem := memWriteList s.mem key (ctxBytes ready2), held := s.held.take 1 ++ [(placedLine + 256, rec2 waits (.cl2 16))] }
    (s.readyInMem 0).map (·.1) = [key] ∧ mapFind s.held key = none ∧ (s.ctxAt key).state = stReady ∧ s.fillBad key = none ∧
    ((s.clustersOf 0 key).filter fun c => (s.cl2Room c key).isSome) = [16] ∧ (s.cl2Set 16 key).length < 8 := by decide +kernel
/-- ResidencyResults: EVICT of no line, of one that is not live, of one in a slot of a C die and of an M die, of one in a CL2, of one on its way; an identifier whose page is not cached, and one whose page holds no contexts. -/
theorem test_meets_evict :
    let s := two (ctx3 0xFF00_0000_0000_0100 2 3) ready2 (.cl2 16)
    let leaf : Leaf := ⟨0x2000_0000_0010_000F, 4096⟩
    s.tcHit 16 0 0 0xFF00_0000_0000_0100 = some leaf ∧ leaf.ctx = true ∧ leaf.pa 0xFF00_0000_0000_0100 = placedLine + 256 ∧ leaf.pa 0xFF00_0000_0000_0800 = placedLine + 2048 ∧
    (∀ id ∈ [0xFF00_0000_0000_0100, 0xFF00_0000_0000_0800, placedVa, 0x800_0000], canonical id = true ∧ id % 256 = 0) ∧ ¬ (0x123 % 256 = 0) ∧ (s.tcHit 16 0 0 placedVa).map (·.ctx) = some false ∧
    s.tcHit 16 0 0 0x800_0000 = none ∧ mapFind s.live (placedLine + 2048) = none ∧ s.isMoving (placedLine + 2048) = false ∧ (mapFind s.live (placedLine + 256)).isSome = true ∧
    (mapFind s.held (placedLine + 256)).map (·.place) = some (.cl2 16) ∧ (mapFind (two (ctx3 1 2 3) ready2 (.slot 2050)).held (placedLine + 256)).map (fun h => (h.place, h.evictReq)) = some (.slot 2050, false) ∧
    s.isM (2050 / 2048) = false ∧ s.isM (2 / 2048) = true ∧ (mapFind (two (ctx3 1 2 3) ready2 (.slot 2)).held (placedLine + 256)).map (·.place) = some (.slot 2) ∧
    (two (ctx3 1 2 3) ready2 (.moving 16 none)).isMoving (placedLine + 256) = true ∧ memWf s.mem = true ∧ mapWf s.held = true ∧ placedLine + 256 ≠ s.cur ∧ (ctx3 1 2 3).mode ≠ 0 := by decide +kernel
/-- ResidencyResults: pre-emption of a running context, a replaying one, a TRAPPED one; a context that migrates, on its way, to a cluster and to memory. -/
theorem test_meets_migration :
    (let s := two (ctx3 1 2 3) ready2 (.cl2 16)
     (mapFind s.live placedLine).isSome = true ∧ (mapFind s.held placedLine).map (fun h => (h.place, h.replay.isNone, h.ctx.state)) = some (.slot 2048, true, stReady) ∧ s.isM (2048 / 2048) = false ∧ (s.cl2Set 16 placedLine).length < 8 ∧
     mapFind s.live 77 = none ∧ (ctxT 0x20D).state = stTrapped) ∧
    (let c := (ctx3 1 2 3).setState stParked whyMigr
     let s := two c ready2 (.moving 16 none)
     c.state = stParked ∧ c.why = whyMigr ∧ c.pendAll = 0 ∧ s.accessesOut placedLine = false ∧ s.heldOut placedLine = false ∧ (s.fenceOf placedLine).loads = [] ∧
     (mapFind s.held (placedLine + 256)).map (·.place) = some (.moving 16 none) ∧ s.isM (2048 / 2048) = false ∧ (s.cl2Set 16 placedLine).length < 8 ∧ memWf s.mem = true ∧ mapWf s.held = true) := by decide +kernel

/-- CoherenceResults: every state in which a home meets a request, an acknowledgement, a write-back or a snoop's answer; dies 0 and 23. -/
theorem test_meets_home : ∀ e ∈ [dirUnc, { dirUnc with st := .own, owner := 23 }, { dirUnc with st := .shd, sharers := 3 }, { dirUnc with host := true },
      { dirUnc with st := .wait, await := 2, serving := some (.geto 3) }, { dirUnc with st := .wait, await := 1, serving := some (.gets 3) }, { dirUnc with st := .wait, await := 1, serving := some (.upg 3), snoop := true }],
    ∀ die ∈ [0, 23],
      let s := homed e
      s.dirE 0x8000 = e ∧ (s.die die).down = false ∧ (s.flcAt 0x8000 die).isNone = true ∧ s.isPeer 0x8000 = false ∧ s.dirFull 0x8000 = false ∧ s.lost 0x8000 = false ∧ s.claimed 0x8000 = false ∧ mapWf s.dir = true ∧ mapWf s.l2 = true := by decide +kernel
/-- CoherenceResults: a line that a sister's cache tower holds, for die 5 of tower 1. -/
theorem test_meets_flc :
    let s := { homed dirUnc with parts := [(0, { partReset with towers := [0, 1], roles := [(0, .mccc), (1, .mccc)], flcGib := 1 })] }
    ∃ k, s.flcKey 0x8000 5 = some k ∧ (let f : FlcEntry := ⟨0x8000, true, 1 <<< 6⟩
      ({ s with flc := [(k, f)] } : State).flcAt 0x8000 5 = some (k, f)) ∧ (s.die 5).down = false ∧ s.claimed 0x8000 = false ∧ s.isPeer 0x8000 = false := by decide +kernel
/-- CoherenceResults: a non-temporal store of two bytes of a line; reads and writes of the host. -/
theorem test_meets_nt :
    let s := { waiting (.load acc8 .d 0xFFF none []) [(0x40_0080, 1), (0x40_0081, 2)] with ops := [] }
    (mapFind s.stores 8).map (·.bytes) = some [(0x40_0080, 1), (0x40_0081, 2)] ∧ lineOf 0x40_0081 = lineOf 0x40_0080 ∧ [0x40_0080, 0x40_0081].Nodup ∧ memWf s.mem = true ∧
    s.dirE (lineOf 0x40_0080) = dirUnc ∧ s.claimed (lineOf 0x40_0080) = false ∧ s.offline (lineOf 0x40_0080 * 128) = false ∧ s.offline 0x40_0080 = false ∧ s.offline 0x40_0081 = false := by decide +kernel
theorem test_meets_host :
    let s := homed dirUnc
    (0x40_0078 : Nat) / 128 = (0x40_0078 + 8 - 1) / 128 ∧ s.lineBusy [0x8000] = false ∧ s.claimed 0x8000 = false ∧ s.isPoison 0x8000 = false ∧ s.lost 0x8000 = false ∧ s.offline (0x8000 * 128) = false ∧ mapFind s.held 0x40_0000 = none ∧
    (∀ i < 8, s.offline (0x40_0078 + i) = false ∧ s.coherent (0x40_0078 + i) = true) ∧ memWf s.mem = true ∧ (s.part 0).map (·.freeze.isNone) = some true := by decide +kernel

/-! ### Management, freezes, clocks, links -/

/-- A request for tower 0 with one window. -/
def request : CreateReq := ⟨1, [0], [(0, some .mccc)], 0, [(0x80_0000, true)], List.replicate 16 none⟩
/-- PartitionsComeAndGo: a good request, one with a tower that another partition has, one without a role map; a window-table entry at rest, opened for this request, opened for another; a partition with a launch and without. -/
theorem test_meets_create :
    (∀ e ∈ request.roles, e.2 ≠ none) ∧ State.reset.createBad request = false ∧ (homed dirUnc).createBad request = true ∧ State.reset.createBad { request with towers := [6], roles := [(6, some .mccc)] } = true ∧
    (State.reset.part 0).isNone = true ∧ (∃ e ∈ ({ request with roles := [(0, none)] } : CreateReq).roles, e.2 = none) ∧ ((homed dirUnc).part 0).isSome = true ∧ partReset.launches = [] ∧
    partReset.freeze = none ∧ partReset.roleChange = none ∧ mapWf (homed dirUnc).parts = true ∧ (State.reset.wentry 0).odd = false ∧ (∀ j < 0, (State.reset.part j).isSome = true) ∧
    (let s := { State.reset with wtab := [(0, ⟨1, [], [], request.tag⟩)] }
     (s.wentry 0).odd = true ∧ (s.wentry 0).tag = request.tag ∧ (s.wentry 0).tag ≠ request.tag + 1) := by decide +kernel

/-- RoleChanges: a check while contexts drain, after it with a pin in the way and without; the end of a change; a request that names a tower twice, or one of another partition. -/
theorem test_meets_roles :
    ((changing 2 false []).changeAt 2 fun _ _ _ => true).map (·.1) = some 0 ∧ ((changing 2 false []).changeAt 4 fun _ _ _ => true) = none ∧ ((changing 4 false []).changeAt 4 fun _ _ _ => true).map (·.1) = some 0 ∧
    (changing 2 false [(placedLine, rec1 (ctx3 0 0 0))]).drainingStill 0 ⟨7, [(0, .mmcc)], 2⟩ = true ∧ (changing 2 false []).drainingStill 0 ⟨7, [(0, .mmcc)], 2⟩ = false ∧
    (changing 2 true []).roleBusy partReset ⟨7, [(0, .mmcc)], 2⟩ = true ∧ (changing 2 false []).roleBusy partReset ⟨7, [(0, .mmcc)], 2⟩ = false ∧ mapWf (changing 2 true []).l2 = true ∧
    ([(0, RoleMap.mmcc)].map (·.1)).Nodup ∧ ¬ ([(0, RoleMap.mmcc), (0, .mmcc)].map (·.1)).Nodup ∧ 0 ∈ partReset.towers ∧ 6 ∉ partReset.towers ∧ (partReset.roles.map (·.1)).Nodup ∧
    (let s := { homed dirUnc with held := [(placedLine, rec1 (ctx3 0 0 0))] }
     mapWf s.held = true ∧ s.isM (placedSlot / 2048) = false ∧ placedSlot / 8192 ∈ [(0, some RoleMap.mmcc)].map (·.1)) := by decide +kernel
/-- FirmwareRequests: no patch waiting, one within its time and one past it; a die with a ring and one past the last. -/
theorem test_meets_firmware :
    State.reset.fware.patch = none ∧
    (let s := { State.reset with fware := { State.reset.fware with patch := some (3, [1]), stopped := [4], patchAt := 5 } }
     s.fware.patch = some (3, [1]) ∧ s.fware.stopped ≠ [] ∧ State.reset.fware.stopped = [] ∧ ¬ s.fware.patchAt + 100_000_000 * Config.ticksPerNs < s.now ∧ (∀ e ∈ s.live, (s.ctxAt e.1).mode ≠ 2) ∧
     s.fware.patchAt + 100_000_000 * Config.ticksPerNs < ({ s with now := 100_000_006 * Config.ticksPerNs } : State).now) ∧ (24 : Nat) < 25 ∧ (24 : Nat) ≤ 24 := by decide +kernel

/-- Squall's control block at host address 0x8_0000_0000_0000: OP, FLAGS, the image's base and length. -/
def controlled (op flags len : Nat) (p : Part) : State :=
  { State.reset with parts := [(0, p)], mem := memWriteList [] 0x8_0000_0000_0000 (leBytes 4 op ++ leBytes 4 flags ++ leBytes 8 0x8_0000_0001_0000 ++ leBytes 8 len) }
/-- A freeze at a step. -/
def freezing (step : Nat) (thaw scrub : Bool) : Freeze :=
  { thaw, cb := 0x8_0000_0000_0000, num := 1, base := 0x8_0000_0001_0000, step, frozen := decide (step = 6), urgent := false, scrub, uwin := 0, upool := 0, keep := [], treq := 3, tfreeze := 2 }
/-- SquallSteps: requests that are malformed, come too early, or are accepted; every step, with and without what it waits for; a scrub. -/
theorem test_meets_squall :
    (controlled 1 0 4096 partReset).cbBad partReset 0x8_0000_0000_0000 1 = false ∧ (controlled 1 4 4096 partReset).cbBad partReset 0x8_0000_0000_0000 1 = true ∧
    (controlled 1 0 4096 partReset).cbBad partReset 0x8_0000_0000_0001 1 = true ∧ mapRow 0x8_0000_0000_0000 = 4 ∧ mapRow 0x8_0000_0000_00FF = 4 ∧ mapRow 0x40_0000 ≠ 4 ∧ memWf (controlled 1 0 4096 partReset).mem = true ∧
    (∀ step ∈ [1, 2, 3, 4, 5], ((controlled 1 0 4096 { partReset with freeze := some (freezing step false false) }).atStep step).map (fun x => (x.1, x.2.2)) = some (0, freezing step false false)) ∧
    ((controlled 1 0 4096 partReset).atStep 1).isNone = true ∧ (controlled 1 0 4096 partReset).inFlight 0 partReset = false ∧
    ({ controlled 1 0 4096 partReset with stores := [(8, ⟨0x10_0000, 0, 0, .iu 128, 0, 2, 0, [], none, 0, false, none, 0, none, false⟩)] } : State).inFlight 0 partReset = true ∧ (freezing 6 false true).frozen = true ∧ (controlled 1 0 4096 partReset).ius = [] := by decide +kernel
/-- SquallSteps, ThawResults: a role change past step 4, one before it, a number that no partition has. -/
theorem test_meets_freeze_waits :
    (∀ step ∈ [2, 4], let q := { partReset with roleChange := some ⟨7, [(0, .mmcc)], step⟩ }
      (controlled 1 0 4096 q).part 0 = some q ∧ q.roleChange ≠ none) ∧ (4 : Nat) ≤ 4 ∧ ¬ (4 : Nat) ≤ 2 ∧ ((controlled 1 0 4096 partReset).part 1).isNone = true := by decide +kernel
/-- SquallSteps: a context in a slot at step 1, one in a CL2 at step 2, one in a slot of a die in M role. -/
theorem test_meets_spill :
    let p := { partReset with freeze := some (freezing 2 false false) }
    let s := { two (ctx3 1 2 3) ready2 (.cl2 16) with parts := [(0, p)], held := [(placedLine + 256, rec2 ready2 (.cl2 16))] }
    s.inFlight 0 p = false ∧ s.partOf (placedLine + 256) = 0 ∧ s.isMoving (placedLine + 256) = false ∧ mapWf s.held = true ∧ memWf s.mem = true ∧ s.goesOn 0 ready2.launch = false ∧ s.fwStays (rec2 ready2 (.cl2 16)) = false ∧ s.ius = [] ∧
    ((two (ctx3 1 2 3) ready2 (.cl2 16)).held.any fun e => e.2.slot?.isSome && !s.fwStays e.2) = true ∧ s.fwStays (rec2 ready2 (.slot 2)) = true := by decide +kernel
/-- An image of a partition with one byte of memory. -/
def image : Image :=
  { bytes := [9], digest := 0, tfreeze := 4, traps := [], fences := [], toks := [], towers := partReset.towers, roles := partReset.roles, mem := [(0x40_0000, 7)], poison := [], timers := [], handles := [], tes := [], gregs := [], cycs := [],
    iuDeq := [], part := partReset, live := [], rlcs := [] }
/-- ThawResults: a good request, one that finds no image, one whose towers differ, one while a freeze goes on; a partition that has been put back. -/
theorem test_meets_thaw :
    let q := { partReset with freeze := some (freezing 6 false false) }
    let s := { controlled 2 0 4096 q with images := [(1, image)], mem := memWriteList (controlled 2 0 4096 q).mem 0x8_0000_0001_0000 [9] }
    s.cbBad q 0x8_0000_0000_0000 2 = false ∧ s.cbBad q 0x8_0000_0000_0001 2 = true ∧ (s.imageAt (s.cbN 0x8_0000_0000_0000 8 8)).map (·.1) = some 1 ∧
    (controlled 2 0 4096 q).imageAt 0x8_0000_0001_0000 = none ∧ q.towers = image.towers ∧ q.roles = image.roles ∧ (∀ c ∈ image.mem, q.owns c.1 = true) ∧ memWf image.mem = true ∧ memWf s.mem = true ∧
    q.launches = [] ∧ s.ius = [] ∧ (freezing 6 true false).thaw = true ∧ ({ image with towers := [] } : Image).towers ≠ q.towers := by decide +kernel

/-- ClocksAndTemperature: C and M dies, settings of each, a relock under way and over. -/
theorem test_meets_clocks :
    let s := homed dirUnc
    s.isC 1 = true ∧ s.isC 0 = false ∧ (s.die 1).sampled < ({ s with now := 2 ^ 60 } : State).sampleNow ∧ s.sampleNow ≤ (s.die 1).sampled ∧ 36 ∈ s.settings 1 ∧ (s.die 1).relock = none ∧
    (let t := { s with dies := [(1, { dieReset with relock := some 28, stepAt := 9, target := 20 })] }
     (t.die 1).relock = some 28 ∧ t.now < (t.die 1).stepAt ∧ (t.die 1).stepAt ≤ ({ t with now := 9 } : State).now) ∧
    (let t := { s with dies := [(1, { dieReset with target := 20 })] }
     (t.die 1).relock = none ∧ (t.die 1).cur ≠ (t.die 1).target) := by decide +kernel
/-- LinksAndResets: a watchdog that is off, one that runs, one that has run out, with a CREATE half done; an image that waits for a warm reset, and none. -/
theorem test_meets_watchdog :
    let p := { partReset with wdog := 0x1_0000_0001 }
    let s := { State.reset with parts := [(0, p)] }
    partReset.wdog.getLsbD 32 = false ∧ p.wdog.getLsbD 32 = true ∧ s.now < p.wdogAt + p.wdog.toNat % 2 ^ 32 * 1000 * Config.ticksPerNs ∧
    p.wdogAt + p.wdog.toNat % 2 ^ 32 * 1000 * Config.ticksPerNs ≤ ({ s with now := 1000 * Config.ticksPerNs } : State).now ∧ mapWf s.live = true ∧ mapWf s.held = true ∧ State.reset.fware.pending = none ∧
    (let t := { s with wtab := [(1, ⟨1, [], [], request.tag⟩)], agenda := [.create .host request] }
     Instr.create .host request ∈ t.agenda ∧ t.live = [] ∧ (∃ e ∈ t.wtab, e.2.odd = true ∧ e.2.tag = request.tag)) := by decide +kernel

/-- DecodeReadsEncodingsBack: well-formed instructions of one and of two words. -/
theorem test_meets_encoding : wellFormed (.add g0 .d false 1 2 3) = true ∧ wellFormed (.talloc g0 (.imm 4) 2) = true ∧ (encodeBytes (.talloc g0 (.imm 4) 2)).map List.length = some 8 ∧
    decodeWords 0x00A80000 0 = .ok (.nop g0) := by decide
/-- StepRunsTheDecodedInstruction: ADDI.D x2, x2, 1 stands at the PC of the one context. -/
theorem test_meets_step :
    let s := code addiWord (ctx3 1 2 3)
    let v := s.at (s.cycleAt 1 (max (max (rec1 (ctx3 1 2 3)).next (s.iu 128).free) (s.cyc 1)))
    s.soon = [] ∧ s.agenda = [] ∧ s.fetchDue.isNone = true ∧ (s.held.map (·.1)) = [placedLine] ∧ (rec1 (ctx3 1 2 3)).place = .slot 2048 ∧ (ctx3 1 2 3).state = stReady ∧
    (rec1 (ctx3 1 2 3)).evictReq = false ∧ s.trapDue placedLine = false ∧ (s.die 1).relock = none ∧
    (match v.fetchWord placedLine (rec1 (ctx3 1 2 3)) 2048 placedVa with | .word w => w == 0x000A_4001 && wordCount w == 1 | _ => false) = true ∧
    decodeWords 0x000A_4001 0 = .ok (.addi g0 .d 2 2 1) ∧ v.blocked placedLine 2048 (rec1 (ctx3 1 2 3)) (.addi g0 .d 2 2 1) = false ∧
    s.order.map (fun c => (c.key, c.next)) = [(placedLine, .instr (.addi g0 .d 2 2 1) 1)] := by decide +kernel
theorem test_meets_fetch :
    let s := code addiWord (ctx3 1 2 3)
    (ctx3 1 2 3).inTrap = true ∧ (ctx3 1 2 3).mode = 1 ∧ canonical placedVa = true ∧ s.tcHit 16 0 0 placedVa = some ⟨0x20_001F, 2 ^ 21⟩ ∧ (⟨0x20_001F, 2 ^ 21⟩ : Leaf).x = true ∧ s.paOk 0 0x20_0000 = true ∧
    s.region 0x20_0000 = .hbm 0 ∧ s.offline 0x20_0000 = false ∧ s.isPoison (lineOf 0x20_0000) = false ∧ s.l1Hit 128 (lineOf 0x20_0000) true = true ∧ mapFind s.held (0x20_0000 / 128 * 128) = none ∧
    ({ s with soon := [.fill 16] } : State).soon = [.fill 16] ∧ ({ s with agenda := [.fill 16] } : State).agenda ≠ [] := by decide +kernel
/-- StepRunsTheDecodedInstruction: a fetch that is due, of a line that the IU's instruction cache does not hold. -/
theorem test_meets_fetch_due : ({ code addiWord (ctx3 1 2 3) with l1 := [] } : State).fetchDue.isSome = true := by decide +kernel
/-- The whole path: the bytes of ADDI.D x2, x2, 1 behind the PC, one step, and x2 is 3. -/
theorem test_step_addi : (match step (code addiWord (ctx3 1 2 3)) with | .next t => (xget (t.ctxAt placedLine).x 2, (t.ctxAt placedLine).pc.toNat) | _ => (0, 0)) = (3, placedVa + 4) := by decide +kernel
/-- EveryStepKeepsTheInvariants, StepsGoForward: reset meets the invariants, and its step ends in a next state. -/
theorem test_meets_invariants : memWf State.reset.mem = true ∧ (∀ e ∈ State.reset.held, ∀ r, e.2.replay = some r → ∀ x ∈ r.block, captureBad x.1 = none) ∧ (∃ t, step State.reset = .next t) :=
  ⟨rfl, fun _ h => by simp [State.reset] at h, ⟨_, rfl⟩⟩

/-! ### Launches -/

/-- The IUs that `State.instances` counts, for a width of the firmware column. -/
def countedFor (w iu : Nat) : Bool :=
  (homed dirUnc).isC (dieOfIu iu) && (homed dirUnc).partOfTower (towerOfDie (dieOfIu iu)) == some 0 && true && !(iu % 128 / 8 = 15 && (([7, 3, 6, 2].take w).contains (iu % 8)))
def clustersFor (w : Nat) : List Nat := (((List.range 3072).filter (countedFor w)).filterMap fun iu => (Pos.iu iu).inst 3).eraseDups
theorem clusters_for : ∀ w ∈ [1, 2, 3, 4], (clustersFor w).headD 0 = 16 := by decide +kernel
theorem column_width : Config.columnWidth ∈ [1, 2, 3, 4] := by
  have : Config.columnCode % 4 = 0 ∨ Config.columnCode % 4 = 1 ∨ Config.columnCode % 4 = 2 ∨ Config.columnCode % 4 = 3 := by omega
  rcases this with h | h | h | h <;> simp [Config.columnWidth, h]

/-- A launch record with one level of one team and one context, whose domain is a cluster (R341). -/
def record (nlev compl : Nat) : List Byte :=
  leBytes 8 placedVa ++ leBytes 2 0 ++ [BitVec.ofNat 8 nlev, 0] ++ leBytes 4 0 ++ leBytes 8 0x40_2000 ++ leBytes 8 0x40_2800 ++ leBytes 8 compl ++ List.replicate 72 0 ++
  leBytes 16 (3 + 3 * 16 + 2 ^ 16 + 2 ^ 32) ++ List.replicate 127 0 ++ [1]
/-- A partition with a window at PA 0x80_0000, a pool header at VA 0x40_1000 with one free pair, a team-record area of two units, and a record in slot 1. -/
def launching (b : List Byte) (launches : SMap Launch) (poolWait : List PoolReq) (returns : List PoolRet) (hdr : List Byte) : State :=
  let s := tabled (handled (ctx3 1 2 3))
  let m := memWriteList (memWriteList s.mem 0x80_0000 hdr) 0x80_0100 b
  let s := putWords { s with mem := m } [(0x40_1000, 0x40_1400), (0x40_1008, 8), (0x40_1018, 1), (0x40_1028, 0x40_4000), (0x40_1058, 2), (0x40_1400, 0xFF00_0000_0000_0100)]
  { s with held := [], parts := [(0, { partReset with windows := [⟨0x80_0000, false⟩], ctxpool := 0x40_1001, launches, poolWait, returns })] }
abbrev launchWin : Window := ⟨0x80_0000, false⟩
def parsing (nlev compl : Nat) : State := launching (record nlev compl) [] [] [] [0, 0, 1]
abbrev theLaunch : Launch := recLaunch (record 1 0x40_3000) 0 1 false
/-- LaunchLife: the slot of a window that parses, and ones that do not; what the front end finds free. -/
theorem test_meets_parse :
    let s := parsing 1 0x40_3000
    s.window 0 0 = some launchWin ∧ memWf s.mem = true ∧ s.winByte launchWin 2 = 1 ∧ s.winByte launchWin 1 = 0 ∧ s.winByte launchWin (256 + 0xFF) = 1 ∧ s.frontDie 0 = some 1 ∧
    memReadList s.mem 0x80_0100 256 = record 1 0x40_3000 ∧ s.linesFree ([lineOf 0x80_0100, lineOf 0x80_0100 + 1, lineOf 0x80_0000] ++ s.vaLines 0 0 [0x40_3000]) = true ∧
    partReset.roleChange = none ∧ partReset.freeze = none ∧ (launching [] [] [] [] [0, 1, 1]).winByte launchWin 1 = 1 ∧ (launching [] [] [] [] [0, 0, 0]).winByte launchWin 2 = 0 := by decide +kernel
/-- LaunchLife: a malformed record with a completion address that holds, one whose completion address does not. -/
theorem test_meets_bad_records :
    (parsing 9 0x40_3000).recCode 0 false (record 9 0x40_3000) (recLaunch (record 9 0x40_3000) 0 1 false) false = some 16 ∧
    (parsing 9 0x40_3000).complOk 0 (recLaunch (record 9 0x40_3000) 0 1 false) = true ∧ ((parsing 9 0x40_3000).parsed launchWin 1).vaToPa 0 0 0x40_3000 = some 0x40_3000 ∧
    (parsing 1 0x80_0000).recCode 0 false (record 1 0x80_0000) (recLaunch (record 1 0x80_0000) 0 1 false) false = some 19 ∧
    (parsing 1 0x80_0000).complOk 0 (recLaunch (record 1 0x80_0000) 0 1 false) = false := by decide +kernel
/-- Towers and roles of a machine with one partition. -/
theorem one_part {s : State} {p : Part} (h : s.parts = [(0, p)]) (t : Nat) : s.partOfTower t = if p.towers.contains t then some 0 else none := by
  rw [State.partOfTower, h]; simp only [List.find?]; cases p.towers.contains t <;> rfl
theorem one_part_role {s : State} {p : Part} (h : s.parts = [(0, p)]) (t : Nat) : s.roleOf t = if p.towers.contains t then (p.roles.find? (·.1 = t)).map (·.2) else none := by
  have hk : s.part 0 = some p := by rw [State.part, h]; rfl
  rw [State.roleOf, one_part h]; cases p.towers.contains t
  · rfl
  · simp only [if_true, hk]; rfl
theorem counted (launches : SMap Launch) (poolWait : List PoolReq) (returns : List PoolRet) (b hdr : List Byte) (iu : Nat) :
    (launching b launches poolWait returns hdr).iuOf 0 none iu = countedFor Config.columnWidth iu := by
  have h1 : (launching b launches poolWait returns hdr).parts = [(0, { partReset with windows := [⟨0x80_0000, false⟩], ctxpool := 0x40_1001, launches, poolWait, returns })] := rfl
  have h2 : (homed dirUnc).parts = [(0, partReset)] := rfl
  simp only [State.iuOf, countedFor, State.isC, one_part h1, one_part h2, one_part_role h1, one_part_role h2, colIu]
/-- The first cluster of the partition, whatever the width of its firmware column. -/
theorem first_cluster (launches : SMap Launch) (poolWait : List PoolReq) (returns : List PoolRet) (b hdr : List Byte) :
    ((launching b launches poolWait returns hdr).instances 0 3 none).headD 0 = 16 := by
  rw [State.instances, funext (counted launches poolWait returns b hdr)]
  exact clusters_for _ column_width
/-- LaunchLife: a record that passes every check. -/
theorem test_meets_good_record : (parsing 1 0x40_3000).recCode 0 false (record 1 0x40_3000) theLaunch false = none := by
  have hn : (parsing 1 0x40_3000).needs 0 theLaunch.levels none [] = [(0, 2)] := by
    have hl : theLaunch.levels = [levelDecl (3 + 3 * 16 + 2 ^ 16 + 2 ^ 32)] := by decide +kernel
    have hd : (levelDecl (3 + 3 * 16 + 2 ^ 16 + 2 ^ 32)).dom.toNat = 3 ∧ (levelDecl (3 + 3 * 16 + 2 ^ 16 + 2 ^ 32)).units = 2 := by decide
    have ht : (parsing 1 0x40_3000).instTower 0 3 16 = 0 := by decide +kernel
    rw [hl]
    simp only [State.needs, State.levelCounts, hd.1, hd.2, parsing, first_cluster, List.foldl]
    rw [← parsing, ht]
    rfl
  have h1 : (recBad (record 1 0x40_3000) false || (theLaunch.urgent && theLaunch.prio != 3) || false) = false := by decide +kernel
  have h2 : (parsing 1 0x40_3000).asidBad 0 theLaunch.asid = false := by decide +kernel
  have h3 : levelsBad ((List.range theLaunch.levels.length).map fun i => recN (record 1 0x40_3000) (0x70 + 16 * i) 16) none = false := by decide +kernel
  have h4 : (!((parsing 1 0x40_3000).rangeMaps 0 theLaunch.asid theLaunch.dtab.toNat 512 false) || !((parsing 1 0x40_3000).rangeMaps 0 theLaunch.asid theLaunch.args.toNat (128 * theLaunch.levels.length) false)
    || (theLaunch.deps.any fun d => d.toNat % 64 != 0 || !(parsing 1 0x40_3000).rangeMaps 0 theLaunch.asid d.toNat 64 false) || !(parsing 1 0x40_3000).complOk 0 theLaunch) = false := by decide +kernel
  have h5 : ((parsing 1 0x40_3000).poolHdr 0 theLaunch.urgent = 0 && theLaunch.levels.any (fun d => d.ctx != 0)) = false := by decide +kernel
  have h6 : ([(0, 2)].any fun e => decide (e.2 > ((parsing 1 0x40_3000).trArea 0 theLaunch.asid theLaunch.urgent e.1).2)) = false := by decide +kernel
  rw [State.recCode, h1, h2, h3, h4, h5, hn, h6]
  rfl
/-- LaunchLife: a launch that waits for a dependence that has not completed, has, or has failed; one whose contexts have all ended. -/
theorem test_meets_dependences : ∀ v ∈ [0, 1, 5],
    let l := { theLaunch with deps := [0x40_3040] }
    let s := putWords (launching [] [(2, l)] [] [] [0, 0, 1]) [(0x40_3040, v)]
    s.vaN 0 0 0x40_3040 4 = v ∧ l.st = .waiting ∧ l.deppol = false ∧ s.resumes 0 2 = true ∧ s.vaFree 0 0 [l.compl.toNat] = true ∧ s.vaToPa 0 0 l.compl.toNat = some 0x40_3000 ∧
    s.winByte launchWin 1 = 0 ∧ mapWf [(2, l)] = true ∧ memWf s.mem = true := by decide +kernel
theorem test_meets_completion_of_launch :
    let l := { theLaunch with st := .placing, teams := [⟨0, 0, 16, 0, 0x40_4000, 1, 1, []⟩] }
    let s := launching [] [(2, l)] [] [] [0, 0, 1]
    (∀ t ∈ l.teams, t.placed = l.ctxOf t) ∧ s.launchBusy 0 2 = false ∧ s.handlesOf 0 2 = [] ∧ s.complHeld 0 2 = false ∧ s.vaToPa 0 0 l.compl.toNat = some 0x40_3000 := by decide +kernel
/-- LaunchLife: a dispatch that finds the two units that its team needs, in either order, and one that finds none. -/
theorem test_meets_dispatch :
    let l := { theLaunch with st := .ready }
    let s := launching [] [(2, l)] [] [] [0, 0, 1]
    s.unitsUsed 0 false = [] ∧ s.trArea 0 0 false 0 = (0x40_4000, 2) ∧ (∀ x ∈ [0x40_4000, 0x40_4400], s.vaToPa 0 0 x = some x) ∧ s.vaFree 0 0 [0x40_4000, 0x40_4400] = true ∧
    (∀ n ∈ [0, 1], freeUnit [] (0x40_4000, 2) n = some (0x40_4000 + 1024 * n) ∧ freeUnit [0x40_4000 + 1024 * (1 - n)] (0x40_4000, 2) n = some (0x40_4000 + 1024 * n)) ∧
    freeUnit [0x40_4000, 0x40_4400] (0x40_4000, 2) 0 = none := by decide +kernel

/-- A launch being placed whose team runs in IU 128. -/
def placingLaunch : Launch := { theLaunch with st := .placing, levels := [levelDecl (1 + 16 + 2 ^ 16 + 2 * 2 ^ 32)], teams := [⟨0, 0, 128, 0, 0x40_4000, 0, 0, [0x40_4400]⟩] }
/-- PlacementAndPool: the next member before its line is asked for, while it is awaited, and once it is granted. -/
theorem test_meets_place :
    let r : PoolReq := ⟨2, 0, none, 0, false, none, none, false⟩
    let s := fun q : List PoolReq => launching [] [(2, placingLaunch)] q [] [0, 0, 1]
    ((s []).nextMembers 0).map (fun x => (x.1, x.2.2.1, x.2.2.2.2)) = [(2, 0, 16)] ∧
    (match (s []).placeAct 0 2 placingLaunch 0 16 with | some .request => true | _ => false) = true ∧ (s [r]).hostHas ((s [r]).grantedLines 0 2 placingLaunch) = false ∧ ((s [r]).placeAct 0 2 placingLaunch 0 16).isNone = true ∧
    (match (s [{ r with id := some 0xFF00_0000_0000_0100 }]).placeAct 0 2 placingLaunch 0 16 with | some (.place j key) => j == 0 && key == placedLine + 256 | _ => false) = true ∧
    (placingLaunch.teams.map fun t => (t.blocks[t.roster / 127]?).isSome) = [true] ∧ ((s []).cl2Set 16 (placedLine + 256)).length < 8 := by decide +kernel
/-- PlacementAndPool: a pool with a pair in it and an empty one; a pair on its way back, before and after its entry is claimed. -/
theorem test_meets_pool :
    let r : PoolReq := ⟨2, 0, none, 0, false, none, none, false⟩
    let s := launching [] [(2, placingLaunch)] [r] [⟨0xFF00_0000_0000_0200, 0, false, none⟩] [0, 0, 1]
    s.poolHdr 0 false = 0x40_1000 ∧ s.vaN 0 0 0x40_1010 8 = 0 ∧ s.vaN 0 0 0x40_1018 8 = 1 ∧ s.ringEntry 0 0 0x40_1000 0 = 0x40_1400 ∧ s.vaN 0 0 0x40_1400 8 ≠ 0 ∧ s.vaFree 0 0 [0x40_1000, 0x40_1400] = true ∧
    s.vaToPa 0 0 0x40_1020 = some 0x40_1020 ∧ s.vaToPa 0 0 0x40_1400 = some 0x40_1400 ∧ (s.hwRmwVa 0 0 0x40_1400 (leBytes 8 0)).vaToPa 0 0 0x40_1010 = some 0x40_1010 ∧
    (putWords s [(0x40_1018, 0)]).vaN 0 0 0x40_1018 8 = (putWords s [(0x40_1018, 0)]).vaN 0 0 0x40_1010 8 ∧ s.resumes 0 2 = true ∧ memWf s.mem = true ∧ s.ops.length = 0 ∧ s.sends.length = 0 := by decide +kernel
/-- WindowCommands: every command in every STATE, with a launch of the window and without. -/
theorem test_meets_commands : ∀ cmd ∈ [0, 1, 2, 3, 4], ∀ st ∈ [0, 1, 3],
    let s := launching [] [(2, theLaunch)] [] [] [BitVec.ofNat 8 cmd, BitVec.ofNat 8 st, 1]
    s.takesCmd 0 launchWin = true ∧ memWf s.mem = true ∧ s.winByte launchWin 0 = cmd ∧ s.winByte launchWin 1 = st ∧ s.windowLaunches 0 0 = [2] ∧ (parsing 1 0x40_3000).windowLaunches 0 0 = [] ∧
    s.ces.length + s.bdes.length + s.rlcs.length + s.tes.length + s.ius.length = 0 := by decide +kernel

/-- FenceAndPrefetch: what holds a later access: an acquire fence that waits, a store before a full fence, a read-modify-write before one, an acquire outstanding, a store that waits on a BUSY handle; and what holds a later write. -/
theorem test_meets_held_accesses :
    let s := waiting (.rmw acc8 (.cas 0) 8 5 (some 6) none 0) [(0x40_0000, 1)]
    touchesMem (.ld g0 .d 2 1 2 0) = true ∧ writesMem (.st g0 .d 2 1 2 0) = true ∧ guardOf (.st g0 .d 2 1 2 0) (ctxA 0) = true ∧
    (∃ p ∈ s.ops, p.2.key = placedLine ∧ p.1 < 9 ∧ p.2.kind.isRmw = true ∧ p.2.kind.isAcq = true) ∧ (∃ p ∈ s.stores, p.2.key = placedLine ∧ p.1 < 9) ∧
    (∃ p ∈ ({ s with stores := s.stores.map fun e => (e.1, { e.2 with busy := true }) } : State).stores, p.2.key = placedLine ∧ p.2.busy = true) ∧
    (∃ p ∈ (waiting (.load acc8 .d 0xFFF none []) []).ops, p.2.key = placedLine ∧ p.1 < 9 ∧ p.2.kind.isLoad = true) := by decide +kernel

/-! ### Further forms and states of the statements above -/

/-- FloatingTileResults: handles 1 to 3 of the formats of each clause, with no store under way. -/
theorem test_meets_float_tiles : ∀ x ∈ [(Fmt.fp32, Fmt.fp32, Fmt.fp32), (.int16, .fp16, .fp16), (.fp64, .fp64, .fp64), (.aff32, .fp16, .fp16), (.fp32, .aff32, .fp32), (.aff32, .aff32, .aff32)],
    let s := { State.reset with handles := numberFrom (hKey 32 1) [tile x.1 0, tile x.2.1 64, tile x.2.2 128] }
    let o := { tileOp (.elt 0) [2, 3] 1 2 3 with key := placedLine }
    s.stores = [] ∧ o.rm < 5 ∧ (s.handle 32 o.hd).fmt = x.1 ∧ (s.handle 32 o.ha).fmt = x.2.1 ∧ (s.handle 32 o.hb).fmt = x.2.2 ∧ (s.handle 32 o.ha).shp = (s.handle 32 o.hd).shp ∧
    (s.handle 32 o.hb).shp = (s.handle 32 o.hd).shp ∧ (fmtF (s.handle 32 o.ha).fmt).isSome = !(x.2.1 == .aff32) ∧ o.hb ≠ o.ha ∧ o.hb ≠ o.hd ∧
    (fDecode ffp16 (s.codeAt 32 (s.handle 32 o.ha) 255)).isNan = false ∧ (fDecode ffp16 (s.codeAt 32 (s.handle 32 o.hb) 255)).isInf = false := by decide +kernel
/-- RoundingResults: values of each kind; sums that cancel and that do not; a magnitude past the largest finite one of E4M3 and one between its subnormals; a product and a conversion out of range. -/
theorem test_meets_exact : ((unitsOf (3, -2) (-4) : Nat) : Int) + (unitsOf (1, -4) (-4) : Nat) ≠ 0 ∧ ((unitsOf (1, 1) 0 : Nat) : Int) - (unitsOf (2, 0) 0 : Nat) = 0 ∧ (FVal.nan true).isNan = true ∧
    (FVal.fin true 3 2).isNan = false ∧ (FVal.fin true 3 2).isZero = false ∧ (FVal.fin true 3 2).isInf = false ∧ (FVal.zero true).isNan = false ∧
    fe4m3.top ≤ (fRound fe4m3 1 false 1 9 false).1 + 1 ∧ (fRound fe4m3 1 false 3 (-11) false).1 + 1 < 2 ^ fe4m3.mbits ∧
    fmtF .fp16 = some ffp16 ∧ fmtI .int8 = some (true, 8) ∧ (0x5C00 : Nat) < 2 ^ ffp16.width ∧ fDecode ffp16 0x5C00 = .fin false 1024 (-2) ∧ (127 : Int) < 256 := by decide +kernel
/-- `app` with one page of 4 KiB at VA 0x40_0000, given by its entry, descriptor 2 of 8 KiB, and a partition. -/
def paged (bits : Nat) (p : Part) (c : Ctx) : State :=
  let s := tabled (app c)
  { s with tcache := [⟨16, 0, 0, 0x40_0000, ⟨BitVec.ofNat 64 bits, 4096⟩⟩, ⟨16, 0, 0, placedVa, ⟨0x20_001F, 2 ^ 21⟩⟩],
           mem := memWriteList s.mem (placedCode + 0x100 + 64) (descBytes 0x40_0000 0x2000 0xEB), parts := [(0, p)], handles := [(hKey 32 1, tile .fp32 0)] }
/-- What an access comes to, as a number: a trap's code and detail, a miss, an access that passes with its pieces, a tower to migrate to. -/
def became : AccRes → Nat
  | .trap t => 1000 * t.code + t.detail
  | .miss .. => 1
  | .ok a .. => 2 + a.segs.length
  | .migrate t => 10 + t
/-- DataAccessChecks: in turn a page that does not permit the access, an address of no memory, the address-space table, a base-die engine's registers, a tile's scratch, an element of a tile and of a FREE handle, the firewall, a freeze, a team record, a migration, and accesses that cross a line, pass, and miss their second page. -/
theorem test_meets_access_regions : ∀ x ∈ [(0x40_0027, partReset, 0, AK.store, 0, 8, 4002), (0x40_000F, partReset, 0, .load, 0, 8, 4002), (0x2000_0000_0040_002F, partReset, 1, .atomic, 0, 8, 4002),
      (0x102_0000_002F, partReset, 0, .load, 0, 8, 7002), (partReset.asTable + 0x2F, partReset, 0, .store, 0, 8, 4002), (partReset.asTable + 0x2F, partReset, 0, .load, 0, 8, 3),
      (0x200_0000_002F, partReset, 0, .load, 0, 8, 4002), (0x200_0000_002F, partReset, 1, .load, 0, 4, 6002), (0x200_0000_002F, partReset, 1, .load, 0, 8, 3),
      (0x300_4000_002F, partReset, 0, .atomic, 0, 8, 10002), (0x300_4000_002F, partReset, 0, .store, 0, 8, 3), (0x300_4080_202F, partReset, 0, .load, 0, 4, 3), (0x300_4080_402F, partReset, 0, .load, 0, 4, 10002),
      (0x40_002F, partReset, 2, .load, 0, 8, 4017), (0x40_002F, urgentPart, 0, .load, 0, 8, 28002),
      (0x20_002F, { partReset with launches := [(0, { launch0 with teams := [⟨0, 0, 128, 0, placedVa, 0, 0, []⟩] })] }, 0, .store, 0x10, 8, 4002),
      (0x0A00_0000_0040_002F, partReset, 0, .load, 0, 8, 11), (0x40_002F, partReset, 0, .load, 0x7C, 8, 4), (0x40_002F, partReset, 0, .load, 0xFFC, 8, 1)],
    let c := { ctxA 0 with stat := BitVec.ofNat 32 x.2.2.1 }
    let s := paged x.1 x.2.1 c
    let e := s.issOf (.nop g0) 1 placedSlot (rec1 c)
    c.window = false ∧ (e.desc s 2).usable = true ∧ (e.desc s 2).permits x.2.2.2.1 = true ∧ x.2.2.2.2.1 + x.2.2.2.2.2.1 ≤ (e.desc s 2).limit.toNat ∧ (s.tcHit 16 0 0 0x40_0000).isSome = true ∧
    became (s.access e 2 (BitVec.ofNat 64 x.2.2.2.2.1) x.2.2.2.2.2.1 x.2.2.2.1) = x.2.2.2.2.2.2 := by decide +kernel
/-- InvalidationResults: PINL on a die in M role, and of a host line in a non-temporal page. -/
theorem test_meets_no_pin :
    let s := waiting (.line 0 { acc8 with segs := [(0x40_0000, 1)] } 1) []
    let a : Access := { acc8 with segs := [(0x8_0000_0000_0000, 1)], nt := true }
    (mapFind s.ops 7).map (·.kind) = some (.line 0 { acc8 with segs := [(0x40_0000, 1)] } 1) ∧ s.isM 0 = true ∧ s.l2Line 0x8000 0 = none ∧ s.offline 0x40_0000 = false ∧
    a.ntAt 0x8_0000_0000_0000 = true ∧ s.offModule (lineOf 0x8_0000_0000_0000) = true ∧ s.offline 0x8_0000_0000_0000 = false ∧ s.isM 1 = false ∧ acc8.ntAt 0x40_0000 = false := by decide +kernel
/-- TranslationWalks: a walk that a prefetch waits for, ended by a leaf and by a fault. -/
theorem test_meets_walk_of_prefetch : ∀ r ∈ [WalkRes.ok ⟨0x40_002F, 2 ^ 21⟩, .fault ⟨8, 1, 0x40_0000⟩],
    let x : Waiter := ⟨placedLine, 16, 0x40_0020, 0x40_0020, false, false, 0, 0, some 7⟩
    let w : Walk := ⟨1, 0, 0, 0x40_0010, [x], true, some r, []⟩
    let s := { handled (ctxA 0) with walks := [(5, w)] }
    s.walks = [(5, w)] ∧ w.waiters = [x] ∧ x.op = some 7 ∧ w.va / 2 ^ 21 = x.va / 2 ^ 21 ∧ s.tcHit 16 0 0 x.va = none ∧ (s.tcache.filter fun t => t.cluster = 16).length < 4096 := by decide +kernel
/-- ResidencyResults: EVICT of a line in memory whose context has ended and of one that has not; of an ended one in a CL2; of one asked for already. -/
theorem test_meets_evict_ended :
    let s := two (ctx3 0xFF00_0000_0000_0800 2 3) ((ctx3 0 0 0).setState stDone 0) (.cl2 16)
    (∀ st ∈ [stDone, stReady], let u := { s with mem := memWriteList s.mem (placedLine + 2048) (ctxBytes ((ctx3 0 0 0).setState st 0)) }
      mapFind u.held (placedLine + 2048) = none ∧ u.isMoving (placedLine + 2048) = false ∧ (u.ctxAt (placedLine + 2048)).state = st) ∧
    (mapFind s.held (placedLine + 256)).map (fun h => (h.place, h.ctx.state)) = some (.cl2 16, stDone) ∧
    (let u := { s with held := [(placedLine, rec1 (ctx3 1 2 3)), (placedLine + 256, { rec2 ready2 (.slot 2050) with evictReq := true })] }
     (mapFind u.held (placedLine + 256)).map (fun h => (h.place, h.evictReq)) = some (.slot 2050, true)) := by decide +kernel
/-- A READY firmware context in memory. -/
def fwInMem : State :=
  let s := crowded waits ready2 [] 0
  { s with mem := memWriteList s.mem (placedLine + 512) (ctxBytes { ready2 with stat := 2 }), held := [],
           live := [(placedLine + 512, { id := 0xFF00_0000_0000_0200, part := 0, launch := 0, region := none, migr := none, readyAt := 0, needs := 0, first := none })] }
theorem col_iu : colIu 127 = true := by
  have h : ∀ w ∈ [1, 2, 3, 4], ([7, 3, 6, 2].take w).contains 7 = true := by decide
  simpa [colIu] using h _ column_width
/-- ResidencyResults: a firmware context in memory, for which a slot on an M die is free. -/
theorem test_meets_fw_load : (fwInMem.readyInMem 0).map (·.1) = [placedLine + 512] ∧ (fwInMem.ctxAt (placedLine + 512)).mode = 2 ∧ fwInMem.fillBad (placedLine + 512) = none ∧
    fwInMem.lineFree (placedLine + 512) = true ∧ fwInMem.held = [] ∧ 2032 ∈ fwInMem.mSlots 0 (placedLine + 512) := by
  refine ⟨by decide +kernel, by decide +kernel, by decide +kernel, by decide +kernel, rfl, ?_⟩
  rw [State.mSlots, if_pos (by decide +kernel)]
  refine List.mem_flatMap.mpr ⟨0, by decide +kernel, List.mem_filter.mpr ⟨List.mem_flatMap.mpr ⟨127, by decide, ?_⟩, by decide +kernel⟩⟩
  rw [if_pos col_iu]; decide
/-- ResidencyResults: a READY line in a CL2 outside the region of its context. -/
theorem test_meets_push :
    let key := placedLine + 256
    let s := crowded waits ready2 [] 0
    let s := { s with held := [(key, rec2 ready2 (.cl2 17))], live := s.live.drop 1 }
    s.readyInMem 0 = [] ∧ s.partOf key = 0 ∧ s.resumes 0 ready2.launch = true ∧ ready2.state = stReady ∧ s.clustersOf 0 key = [16] ∧ 17 ∉ s.clustersOf 0 key ∧
    ((s.clustersOf 0 key).findSome? (fun d => (s.freeWay d key).map (d, ·))).isSome = true := by decide +kernel
/-- ResidencyResults: a loadable line beside a CL2 line in its region; an END due in this cycle, and none. -/
theorem test_meets_end_due :
    (let s := crowded waits ready2 [] 0
     s.lineFree (placedLine + 512) = true ∧ s.mSlots 0 (placedLine + 512) = [] ∧ (s.held.all fun e => match e.2.place with | .cl2 d => (s.clustersOf 0 e.1).contains d | _ => true) = true) ∧
    (code [0x02, 0x00, 0xA8, 0x00] (ctx3 1 2 3)).endDue placedLine (rec1 (ctx3 1 2 3)) placedSlot = true ∧ (code addiWord (ctx3 1 2 3)).endDue placedLine (rec1 (ctx3 1 2 3)) placedSlot = false ∧
    mapGet ({ one (ctx3 1 2 3) with asks := [(placedLine, [.evict 7, .rotation 16])] } : State).asks placedLine [] = [.evict 7, .rotation 16] := by decide +kernel
/-- CoherenceResults: a non-temporal store that meets an owner, sharers, the host, or a transaction; its own transaction at its last answer. -/
theorem test_meets_nt_states : ∀ e ∈ [{ dirUnc with st := .own, owner := 23 }, { dirUnc with st := .shd, sharers := 3 }, { dirUnc with host := true }, { dirUnc with st := .wait, await := 1, serving := some (.gets 3) },
      { dirUnc with st := .wait, await := 1, serving := some (.wrnt 8) }],
    let s := { waiting (.load acc8 .d 0xFFF none []) [(0x40_0080, 1), (0x40_0081, 2)] with ops := [], dir := [(lineOf 0x40_0080, e)] }
    (mapFind s.stores 8).map (·.bytes) = some [(0x40_0080, 1), (0x40_0081, 2)] ∧ s.dirE (lineOf 0x40_0080) = e ∧ s.claimed (lineOf 0x40_0080) = false ∧ s.offline (lineOf 0x40_0080 * 128) = false ∧
    s.isPeer (lineOf 0x40_0080) = false ∧ s.flc = [] ∧ e.queue = [] ∧ s.offline 0x40_0081 = false ∧ memWf s.mem = true := by decide +kernel
/-- CoherenceResults: host writes that are refused: to a die that is down, to a base-die engine, to a frozen partition; a line in a context's slot that the host reads. -/
theorem test_meets_host_refused :
    ({ homed dirUnc with dies := [(0, { dieReset with down := true })] } : State).offline 0x40_0000 = true ∧ (homed dirUnc).coherent 0x200_0000_0000 = false ∧
    (homed dirUnc).homeTower 0x40_0000 = some 0 ∧ (homed dirUnc).partOfTower 0 = some 0 ∧
    ({ partReset with freeze := some { thaw := false, cb := 0, num := 1, base := 0, step := 6, frozen := true, urgent := false, scrub := false, uwin := 0, upool := 0, keep := [], treq := 0, tfreeze := 0 } } : Part).refusesHost 0x40_0000 = true ∧
    (mapFind (one (ctx3 1 2 3)).held (placedLine / 128 * 128)).isSome = true ∧ (one (ctx3 1 2 3)).lineBusy [placedLine / 128] = false := by decide +kernel
/-- PartitionsComeAndGo: no other entry of the window table is open with the request's tag. -/
theorem test_meets_create_alone : ∀ j, j ≠ 0 → State.reset.part j = none → (State.reset.wentry j).odd = true → (State.reset.wentry j).tag ≠ request.tag := by
  intro j _ _ h; exact absurd h (by simp [State.wentry, State.reset, mapGet, mapFind, SeqBlock.odd, seqEmpty])
/-- RoleChanges: a request while a freeze is there; contexts of an affected tower in a slot and in a CL2; a change whose die in C role has yet to slow down, and one whose dies have; another change beside it. -/
theorem test_meets_role_steps :
    (let s := { homed dirUnc with held := [(placedLine, rec1 (ctx3 0 0 0)), (placedLine + 256, rec2 (ctx3 0 0 0) (.cl2 16))] }
     (s.part 0).map (fun p => (p.freeze.isNone, p.roleChange.isNone)) = some (true, true) ∧ s.partOf placedLine = 0 ∧ s.isM (placedSlot / 2048) = false ∧ (16 : Nat) / 64 = 0 ∧ mapWf s.held = true) ∧
    (let s := { changing 4 false [] with parts := [(0, { partReset with roleChange := some ⟨7, [(0, .cccc)], 4⟩ })] }
     let slow := { dieReset with cur := 26, target := 26 }
     partReset.staying [(0, .cccc)] = [1, 2, 3] ∧ s.slowed 1 = false ∧ (∀ d ∈ [1, 2, 3], ({ s with dies := [(1, slow), (2, slow), (3, slow)] } : State).slowed d = true) ∧
     s.dir = [] ∧ ∀ e ∈ s.parts, e.2.launches = []) ∧
    (∀ e ∈ (changing 4 false []).parts, ∀ rc, e.2.roleChange = some rc → rc.step ≠ 2) := by decide +kernel
/-- WindowCommands: ABORT with a context of the launch in a slot, and one in a CL2. -/
theorem test_meets_abort :
    let s := { two (ctx3 1 2 3) ready2 (.cl2 16) with parts := [(0, { partReset with windows := [⟨0x80_0000, false⟩], launches := [(0, launch0)] })] }
    (∀ e ∈ s.parts, e.2.roleChange = none) ∧ (∀ e ∈ s.dir, e.2.host = false) ∧ s.claims = [] ∧ mapWf s.held = true ∧ mapWf s.live = true ∧ (s.launch 0 0).map (·.win) = some 0 ∧
    (mapFind s.live placedLine).map (fun v => (v.part, v.launch)) = some (0, 0) ∧ s.isMoving placedLine = false ∧ (mapFind s.held placedLine).map (fun h => (h.place, h.evictReq)) = some (.slot placedSlot, false) ∧
    s.isM (placedSlot / 2048) = false ∧ (mapFind s.held (placedLine + 256)).map (·.slot?) = some none ∧ s.ces = [] ∧ s.bdes = [] ∧ s.rlcs = [] ∧ s.tes = [] := by decide +kernel
/-- SquallSteps: live contexts of the partition in a slot and in a CL2. -/
theorem test_meets_squall_contexts :
    let s := two (ctx3 1 2 3) ready2 (.cl2 16)
    (mapFind s.live placedLine).map (·.part) = some 0 ∧ (mapFind s.held placedLine).map (fun h => (h.slot?.isSome, h.evictReq, s.fwStays h)) = some (true, false, false) ∧
    (mapFind s.held (placedLine + 256)).map (fun h => h.slot?.isSome) = some false ∧ mapWf s.held = true := by decide +kernel
/-- ClocksAndTemperature: dies in C and in M role with a sample due; a die that is neither; settings on both sides of 1.3 GHz. -/
theorem test_meets_samples :
    let s := { homed dirUnc with now := 2 ^ 60 }
    (s.isC 1 = true ∧ s.isM 0 = true ∧ s.isC 0 = false ∧ State.reset.isC 1 = false ∧ State.reset.isM 1 = false) ∧ (s.die 0).sampled < s.sampleNow ∧ (s.die 1).sampled < s.sampleNow ∧
    (∀ v ∈ [26, 28, 36], v ∈ (homed dirUnc).settings 1) := by decide +kernel
/-- LinksAndResets: a load and a store under way to a peer whose port goes down; a CREATE, a DESTROY and a ROLES request that a watchdog cuts off; an image that waits, whether or not its signatures hold. -/
theorem test_meets_port_down :
    let q := { partReset with routes := some 3 :: List.replicate 15 none }
    let s := { waiting (.load { acc8 with segs := [(0xC_0000_0000_0000, 8)] } .d 0xFFF none []) [(0xC_0000_0000_0000, 1)] with parts := [(0, q)] }
    s.partOf placedLine = 0 ∧ s.peerPort 0 0xC_0000_0000_0000 = some 3 ∧ (mapFind s.ops 7).map (·.kind.segs) = some [(0xC_0000_0000_0000, 8)] ∧ (mapFind s.stores 8).map (fun v => (v.part, v.bytes.map (·.1))) = some (0, [0xC_0000_0000_0000]) ∧
    mapFind s.sent 7 = none ∧ mapFind ({ s with sent := [(7, 0)] } : State).sent 7 = some 0 ∧ ({ s with sent := [(7, 0)], now := 2_000_000 * Config.ticksPerNs } : State).now ≥ 2_000_000 * Config.ticksPerNs := by decide +kernel
theorem test_meets_watchdog_requests : ∀ i ∈ [Instr.destroy .host 7 0, .squall ⟨.host, 7, 0⟩ 0, .thaw ⟨.host, 7, 0⟩ 0, .roles .host 7 0 [], .create .host request],
    let s := { State.reset with parts := [(0, { partReset with wdog := 0x1_0000_0001, roleChange := some ⟨7, [(0, .mmcc)], 2⟩ })], agenda := [i], wtab := [(1, ⟨1, [], [], request.tag⟩)], now := 1000 * Config.ticksPerNs,
                                     fware := { State.reset.fware with patch := some (3, [1]) } }
    i ∈ s.agenda ∧ s.live = [] ∧ s.held = [] ∧ s.fware.patch = some (3, [1]) ∧ (∃ e ∈ s.wtab, e.2.odd = true ∧ e.2.tag = request.tag) := by decide +kernel
theorem test_meets_warm_reset (img : List Byte) : ∃ s : State, s.fware.pending = some img ∧ (Config.signatureOk img = true ∨ Config.signatureOk img = false) :=
  ⟨{ State.reset with fware := { State.reset.fware with pending := some img } }, rfl, by cases Config.signatureOk img <;> simp⟩
/-- StepRunsTheDecodedInstruction: a delivery that waited for a moving line; a step at which the first of the candidates issues; a happening with its moment. -/
theorem test_meets_came : ({ State.reset with soon := [.fill 16] } : State).soon = .fill 16 :: [] ∧ State.reset.soon = [] ∧ drains (.fill 16) = true ∧ drains .flush = false ∧
    ({ State.reset with dies := [(1, { dieReset with relock := some 28, stepAt := 9 })], agenda := [.relockEnd 1] } : State).dueAt (.relockEnd 1) = some 9 ∧ (code addiWord (ctx3 1 2 3)).fetchDue = none := by decide +kernel
/-- SHA-512 of "abc", as its standard gives it: the first 8 bytes. -/
theorem test_sha512 : (sha512 [0x61, 0x62, 0x63]).take 8 = [0xDD, 0xAF, 0x35, 0xA1, 0x93, 0x61, 0x7A, 0xBA] := by decide +kernel
/-- R230: REPF of three replays of one instruction, the destination moving on by one: REPS-1 = 2, RSTEP = 1. -/
theorem test_word_repf : decodeWords 0x00A0_4010 0 = .ok (.repf g0 2 0 1 0) := by rfl

end Sys2Proof.Tests
end

section
/-! PROOFS. Guards (R187): when a guard holds, what an instruction whose guard does not hold leaves, and that the guard field 0b1000 is refused whichever decoder its MAJOR selects. -/

namespace Sys2Proof

/-! ### The guard field 0b1000 is refused -/

/-- The words are refused as a pattern that names no instruction, with some detail (R189). -/
def RefusedPattern (x : Except DecodeError Instr) : Prop := ∃ d, x = .error (.illegal d)

theorem refusedPattern_illegal (d : Nat) : RefusedPattern (.error (.illegal d)) := ⟨d, rfl⟩

/-- A check that fails leaves a smallest failing detail, whatever the checks after it say. -/
theorem firstFailing_cons_true (d : Nat) (cs : List (Nat × Bool)) : ∃ e, firstFailing ((d, true) :: cs) = some e := by
  rw [firstFailing]
  cases firstFailing cs with
  | none => exact ⟨d, rfl⟩
  | some e => by_cases h : d ≤ e <;> simp [h]

section
variable {w : Nat} (hg : guardBad w = true)
include hg

/-- Every arm that would give an instruction checks the guard field (check 5 of R189). -/
theorem decFinish_refused (cs : List (Nat × Bool)) (i : Instr) : RefusedPattern (decFinish w cs i) := by
  obtain ⟨e, he⟩ := firstFailing_cons_true 5 cs
  exact ⟨e, by rw [decFinish, hg, he]⟩

theorem dec00_refused : RefusedPattern (dec00 w) := by
  simp only [dec00]
  split <;> simp only [decFinish_refused hg, refusedPattern_illegal]

theorem decRI_refused : RefusedPattern (decRI w) := by
  fun_cases decRI w <;> exact decFinish_refused hg _ _

theorem dec0A_refused : RefusedPattern (dec0A w) := by
  fun_cases dec0A w <;> simp only [decFinish_refused hg, refusedPattern_illegal]

theorem decBfSel_refused : RefusedPattern (decBfSel w) := by
  fun_cases decBfSel w <;> exact decFinish_refused hg _ _

theorem decCtl_refused : RefusedPattern (decCtl w) := by
  fun_cases decCtl w <;> simp only [decFinish_refused hg, refusedPattern_illegal]

theorem dec18_refused : RefusedPattern (dec18 w) := by
  simp only [dec18]
  split <;> simp only [decFinish_refused hg, refusedPattern_illegal]

theorem decFp_refused : RefusedPattern (decFp w) := by
  fun_cases decFp w <;> simp only [decFinish_refused hg, refusedPattern_illegal]

theorem decMem_refused : RefusedPattern (decMem w) := by
  fun_cases decMem w <;> exact decFinish_refused hg _ _

theorem decAtom_refused : RefusedPattern (decAtom w) := by
  fun_cases decAtom w <;> simp only [decFinish_refused hg, refusedPattern_illegal]

theorem decTask_refused : RefusedPattern (decTask w) := by
  fun_cases decTask w <;> simp only [decFinish_refused hg, refusedPattern_illegal]

theorem decTile_refused (v : Nat) : RefusedPattern (decTile w v) := by
  simp only [decTile]
  split <;> simp only [decFinish_refused hg, refusedPattern_illegal]

theorem decTldTst_refused (v : Nat) : RefusedPattern (decTldTst w v) := by
  fun_cases decTldTst w v <;> simp only [decFinish_refused hg, refusedPattern_illegal]

theorem decEng_refused (v : Nat) : RefusedPattern (decEng w v) := by
  fun_cases decEng w v <;> simp only [decFinish_refused hg, refusedPattern_illegal]

theorem decSys_refused : RefusedPattern (decSys w) := by
  fun_cases decSys w <;> simp only [decFinish_refused hg, refusedPattern_illegal]

/-- Whatever the MAJOR, and whatever the second word. -/
theorem decodeWords_refused (v : Nat) : RefusedPattern (decodeWords w v) := by
  fun_cases decodeWords w v <;> simp only [dec00_refused hg, decRI_refused hg, dec0A_refused hg, decBfSel_refused hg, decCtl_refused hg,
    dec18_refused hg, decFp_refused hg, decMem_refused hg, decAtom_refused hg, decTask_refused hg, decTile_refused hg,
    decTldTst_refused hg, decEng_refused hg, decSys_refused hg, decFinish_refused hg, refusedPattern_illegal]

end

end Sys2Proof

namespace Sys2Proof.Machine

/-! ### When a guard holds, and what an instruction that is guarded out leaves -/

/-- GN:GP = 0 is no guard. -/
theorem guardHolds_unguarded (st : BitVec 3) (c : Ctx) : guardHolds ⟨st, false, 0⟩ c = true := rfl

/-- Any other predicate than p0 guards by its bit of PRED, XOR GN. -/
theorem guardHolds_pred {gp : BitVec 3} (h : gp ≠ 0) (st : BitVec 3) (gn : Bool) (c : Ctx) :
    guardHolds ⟨st, gn, gp⟩ c = (c.pred.getLsbD gp.toNat ^^ gn) := by
  have hp : c.p gp = c.pred.getLsbD gp.toNat := by rw [Ctx.p, beq_eq_false_iff_ne.2 h, Bool.false_or]
  simp only [guardHolds, hp, h, decide_false, Bool.and_false, Bool.false_or, Bool.bne_eq_xor]

/-- Every instruction goes through the one issue attempt, which looks at the guard before it looks at registers or the rounding mode. -/
theorem exec_guardedOut {s : State} {i : Instr} {hd : Hdr} {n : Nat} {h : Held} (hi : instrHdr i = some hd)
    (hr : s.readyAt n h) (hg : guardHolds hd h.ctx = false) : exec i s = .next (s.issued hd (wordsOf i) n h) := by
  obtain ⟨sh, act, hrun, rfl, hwords, -⟩ := runsAs i hd hi
  rw [hrun, run_guarded act hr hg, hwords]

/-- Settles O10: the issue attempt ends at a guard that does not hold, and every arm of the decoder checks the guard field. -/
theorem guardedOutInstructions : Obligations.GuardedOutInstructions :=
  ⟨fun _ _ _ _ _ => exec_guardedOut,
   fun c => ⟨guardHolds_unguarded 0 c, fun st _ gn h => guardHolds_pred h st gn c⟩,
   fun w v hw => decodeWords_refused (w := w) (by simp only [guardBad, fld, hw, beq_self_eq_true]) v⟩

end Sys2Proof.Machine
end

section
/-! PROOFS. Fields of an encoded first word; NOP, and the words of NOP, YIELD and END (R235); moves to and from the g registers (R154, R217). -/

namespace Sys2Proof

/-! ### The fields of a word that carries a guard (R185) -/

/-- Two fields that lie side by side read as one number. -/
theorem fld_add_len (w lo m n : Nat) : fld w lo (m + n) = fld w lo m + 2 ^ m * fld w (lo + m) n := by
  simp only [fld, Nat.pow_add, Nat.mod_mul, Nat.div_div_eq_div_mul]

/-- S, GN and GP stand above bit 24: no field below it depends on them. -/
theorem fld_encHdr_add (hd : Hdr) (r : Nat) {lo len : Nat} (h : lo + len ≤ 25) : fld (encHdr hd + r) lo len = fld r lo len := by
  have hpow : (2 : Nat) ^ 25 = 2 ^ lo * 2 ^ len * 2 ^ (25 - (lo + len)) := by rw [← Nat.pow_add, ← Nat.pow_add, Nat.add_sub_cancel' h]
  have hq : encHdr hd = 2 ^ 25 * (hd.s.toNat * 16 + hd.gn.toNat * 8 + hd.gp.toNat) := by rw [encHdr]; omega
  rw [fld, hq, hpow, Nat.mul_assoc, Nat.mul_assoc, Nat.mul_add_div (Nat.two_pow_pos lo), Nat.mul_add_mod, fld]

/-- The fields of `encHdr` read back, whatever stands in the 25 bits below them. -/
theorem fld_s_encHdr_add (hd : Hdr) {r : Nat} (hr : r < 2 ^ 25) : fld (encHdr hd + r) 29 3 = hd.s.toNat := by
  have hgn := Bool.toNat_le hd.gn
  simp only [fld, encHdr]
  omega

theorem fld_gn_encHdr_add (hd : Hdr) {r : Nat} (hr : r < 2 ^ 25) : fld (encHdr hd + r) 28 1 = hd.gn.toNat := by
  have hgn := Bool.toNat_le hd.gn
  simp only [fld, encHdr]
  omega

theorem fld_gp_encHdr_add (hd : Hdr) {r : Nat} (hr : r < 2 ^ 25) : fld (encHdr hd + r) 25 3 = hd.gp.toNat := by
  simp only [fld, encHdr]
  omega

/-- The decoder reads the stall count and the guard back. -/
theorem decHdr_encHdr_add (hd : Hdr) {r : Nat} (hr : r < 2 ^ 25) : decHdr (encHdr hd + r) = hd := by
  obtain ⟨s, gn, gp⟩ := hd
  simp only [decHdr, fbit, fld_s_encHdr_add _ hr, fld_gn_encHdr_add _ hr, fld_gp_encHdr_add _ hr, BitVec.ofNat_toNat, BitVec.setWidth_eq]
  cases gn <;> rfl

/-- Check 5 of R189 passes for a guard that R187 allows. -/
theorem guardBad_encHdr_add {hd : Hdr} (hw : hdrWf hd = true) {r : Nat} (hr : r < 2 ^ 25) : guardBad (encHdr hd + r) = false := by
  obtain ⟨s, gn, gp⟩ := hd
  rw [guardBad, fld_add_len _ 25 3 1, fld_gp_encHdr_add _ hr, fld_gn_encHdr_add _ hr]
  cases gn with
  | false => simp; omega
  | true =>
    have hgp : gp ≠ 0 := by simpa [hdrWf] using hw
    simpa using fun h0 : gp.toNat = 0 => hgp (BitVec.eq_of_toNat_eq h0)

/-! ### An arm of the decoder whose checks pass -/

theorem firstFailing_eq_none {cs : List (Nat × Bool)} (h : ∀ c ∈ cs, c.2 = false) : firstFailing cs = none := by
  induction cs with
  | nil => rfl
  | cons c cs ih =>
    obtain ⟨hc, hcs⟩ := List.forall_mem_cons.1 h
    rw [firstFailing, ih hcs]
    simp only [hc, Bool.false_eq_true, if_false]

theorem decFinish_ok {w : Nat} {cs : List (Nat × Bool)} (hg : guardBad w = false) (h : ∀ c ∈ cs, c.2 = false) (i : Instr) :
    decFinish w cs i = .ok i := by
  rw [decFinish, firstFailing_eq_none (List.forall_mem_cons.2 ⟨hg, h⟩)]

/-! ### MAJOR 0x15: NOP, YIELD and END (R235) -/

/-- The instructions of MAJOR 0x15 by their bits [9:0]. -/
def major15Instr (hd : Hdr) : Fin 3 → Instr
  | 0 => .nop hd
  | 1 => .yield hd
  | 2 => .endCtx hd

/-- MAJOR 0x15, zeros in bits [18:10] and one of the three codes, under any guard, are the instruction of that code. -/
theorem decodeWords_major15 {hd : Hdr} (hw : hdrWf hd = true) {r : Nat} (hr : r < 2 ^ 25) (hmajor : fld r 19 6 = 0x15) (hzero : fld r 10 9 = 0)
    {k : Fin 3} (hcode : fld r 0 10 = k) (v : Nat) : decodeWords (encHdr hd + r) v = .ok (major15Instr hd k) := by
  have hfields : ∀ c ∈ [(3, fld r 16 3 != 0), (3, fld r 13 3 != 0), (3, fld r 10 3 != 0)], c.2 = false := by
    rw [fld_add_len r 10 3 6, fld_add_len r 13 3 3] at hzero
    simp only [Nat.reduceAdd] at hzero
    simp only [List.forall_mem_cons, bne_eq_false_iff_eq]
    exact ⟨by omega, by omega, by omega, List.forall_mem_nil _⟩
  have hok := decFinish_ok (guardBad_encHdr_add hw hr) hfields
  have below : ∀ {lo len : Nat}, lo + len ≤ 25 → fld (encHdr hd + r) lo len = fld r lo len := fld_encHdr_add hd r
  simp only [decodeWords, decCtl, below, hmajor, hcode, decHdr_encHdr_add hd hr, Nat.reduceAdd, Nat.reduceLeDiff]
  match k with
  | 0 => exact hok _
  | 1 => exact hok _
  | 2 => exact hok _

end Sys2Proof

namespace Sys2Proof.Machine

/-- An instruction of one word that neither rounds nor asks for a privilege has its effect wherever it issues. -/
theorem run_shape_issuing {s : State} {i : Instr} {hd : Hdr} {reads writes : List Reg} {n : Nat} {h : Held} (act : Iss → State → State)
    (hi : s.issuing hd reads writes n h) : s.run i (shape hd reads writes) act = .next (act (s.issOf i 1 n h) s) :=
  run_issuing act hi nofun nofun

/-- NOP issues, and that is all (R235). -/
theorem exec_nop {s : State} {hd : Hdr} {n : Nat} {h : Held} (hi : s.issuing hd [] [] n h) : exec (.nop hd) s = .next (s.issued hd 1 n h) :=
  run_shape_issuing _ hi

/-- Settles O8: the guard and the stall count stand above the MAJOR, so the word of each of the three instructions decodes back under every guard. -/
theorem nopYieldEndWords : Obligations.NopYieldEndWords := by
  have fields : ∀ k : Fin 3, fld (0x15 * 2 ^ 19 + k) 19 6 = 0x15 ∧ fld (0x15 * 2 ^ 19 + k) 10 9 = 0 ∧ fld (0x15 * 2 ^ 19 + k) 0 10 = k := by decide
  have words : ∀ hd : Hdr, hdrWf hd = true → ∀ (k : Fin 3) (v : Nat), decodeWords (encHdr hd + 0x15 * 2 ^ 19 + k) v = .ok (major15Instr hd k) := by
    intro hd hw k v
    obtain ⟨hmajor, hzero, hcode⟩ := fields k
    rw [Nat.add_assoc]
    exact decodeWords_major15 hw (by omega) hmajor hzero hcode v
  have plain := words ⟨0, false, 0⟩ rfl
  exact ⟨fun hd hw v => ⟨words hd hw 0 v, words hd hw 1 v, words hd hw 2 v⟩, fun v => ⟨plain 0 v, plain 1 v, plain 2 v⟩,
    fun _ _ _ _ => exec_nop⟩

/-! ### The g registers (R154, R217) -/

/-- The values that a g register holds at a cycle beside the last one written: those replaced in the last 7 cycles. -/
theorem GReg.mem_olds {r : GReg} {t : Nat} {e : Nat × Dword} : e ∈ r.olds t ↔ e ∈ r.old ∧ t < e.1 + 8 := by
  simp only [GReg.olds, List.mem_filter, decide_eq_true_eq]

theorem GReg.mem_readable {r : GReg} {t : Nat} {v : Dword} :
    v ∈ r.readable t ↔ v = r.val ∨ ∃ e ∈ r.old, t < e.1 + 8 ∧ v = e.2 := by
  simp only [GReg.readable, List.mem_cons, List.mem_map, mem_olds, and_assoc, eq_comm (b := v)]

/-- A write replaces the value that the register held, at its own cycle. -/
theorem GReg.mem_write_old {r : GReg} {t : Nat} {v : Dword} {e : Nat × Dword} :
    e ∈ (r.write t v).old ↔ e = (t, r.val) ∨ (e ∈ r.old ∧ t < e.1 + 8) := by
  simp only [GReg.write, List.mem_append, List.mem_singleton, mem_olds, or_comm]

/-- Whatever choice `Config.staleG` makes, a read returns a value that R154 allows. -/
theorem readG_mem_readable (s : State) (iu : Nat) (g : BitVec 3) (t : Nat) : s.readG iu g t ∈ (s.g iu g).readable t := by
  have hlt : Config.staleG s.tick % ((s.g iu g).readable t).length < ((s.g iu g).readable t).length :=
    Nat.mod_lt _ (by simp [GReg.readable])
  rw [State.readG, List.getD_eq_getElem _ _ hlt]
  exact List.getElem_mem hlt

/-- A read at 8 or more cycles after every write returns the value last written. -/
theorem readG_settled {s : State} {iu : Nat} {g : BitVec 3} {t : Nat} (h : ∀ e ∈ (s.g iu g).old, e.1 + 8 ≤ t) :
    s.readG iu g t = (s.g iu g).val := by
  obtain hv | ⟨e, he, hlt, -⟩ := GReg.mem_readable.1 (readG_mem_readable s iu g t)
  · exact hv
  · exact absurd (h e he) (Nat.not_le.2 hlt)

/-- A `.D` value merged into a register takes bytes 0 to 7 and leaves the others (R209). -/
theorem mergeBytes_xOfD (v : Dword) (x : XReg) : mergeBytes 0x0FF (xOfD v) x = x.extractLsb' 64 32 ++ v := by
  have hmask : ∀ q < 12, (0x0FF : BitVec 12).getLsbD q = decide (q < 8) := by decide
  apply BitVec.eq_of_getLsbD_eq
  intro i hi
  rw [getLsbD_mergeBytes _ _ _ _ hi, hmask _ (by omega), xOfD, BitVec.getLsbD_append, BitVec.getLsbD_append]
  by_cases hlow : i < 64
  · simp [hlow, show i / 8 < 8 by omega]
  · simp [hlow, show ¬ i / 8 < 8 by omega, show i - 64 < 32 by omega, show 64 + (i - 64) = i by omega]

/-- A `.D` result leaves the state that `issued` names, its register with bytes 8 to 11 as they were. -/
theorem resultD_issOf (s : State) (i : Instr) (hd : Hdr) (w n L : Nat) (h : Held) (d : Reg) (v : Dword) :
    s.resultD (s.issOf i w n h) hd.s L d v = s.issued hd w n (h.write (s.cycOf n) L d ((xget h.ctx.x d).extractLsb' 64 32 ++ v)) := by
  rw [State.resultD, result_issOf, flagAt_zero, mergeBytes_xOfD]

theorem exec_movGnXa {s : State} {hd : Hdr} {g : BitVec 3} {r : Reg} {n : Nat} {h : Held} (hi : s.issuing hd [r] [] n h) :
    exec (.movGnXa hd g r) s = .next { s.issued hd 1 n h with
      gregs := mapPut s.gregs (gKey (n / 16) g) ((s.g (n / 16) g).write (s.cycOf n) (xD (xget h.ctx.x r))) } :=
  run_shape_issuing _ hi

theorem exec_movXdGn {s : State} {hd : Hdr} {g : BitVec 3} {r : Reg} {n : Nat} {h : Held} (hi : s.issuing hd [] [r] n h) :
    exec (.movXdGn hd r g) s = .next { s.issued hd 1 n
      (h.write (s.cycOf n) 8 r ((xget h.ctx.x r).extractLsb' 64 32 ++ s.readG (n / 16) g (s.cycOf n))) with tick := s.tick + 1 } := by
  rw [← resultD_issOf s (.movXdGn hd r g)]
  exact run_shape_issuing _ hi

/-- The word of MOV x2, g5 (R217); it is of one word, so no second word matters. -/
theorem decodeWords_mov_x2_g5 (v : Nat) : decodeWords 0x0002_1421 v = .ok (.movXdGn ⟨0, false, 0⟩ 2 5) := by rfl

/-- Settles O4: a write keeps the value it replaces with its cycle, and a read returns the last value or one so kept in the last 7 cycles. -/
theorem sharedRegisterMoves : Obligations.SharedRegisterMoves :=
  ⟨decodeWords_mov_x2_g5, fun s _ r g n h =>
    ⟨fun hi => ⟨((s.g (n / 16) g).write (s.cycOf n) (xD (xget h.ctx.x r))).old, exec_movGnXa hi, fun _ => GReg.mem_write_old⟩,
     fun hi => ⟨_, exec_movXdGn hi, GReg.mem_readable.1 (readG_mem_readable _ _ _ _), readG_settled⟩⟩⟩

end Sys2Proof.Machine
end

section
/-! PROOFS. SELF (R281): its word (R200), and the identifier and the IU number that it writes. -/

namespace Sys2Proof

/-- MAJOR 0x2F is one of the task majors (R190), and no second word matters. -/
theorem decodeWords_major2F {w : Nat} (hmajor : fld w 19 6 = 0x2F) (v : Nat) : decodeWords w v = decTask w := by
  simp only [decodeWords, hmajor]

/-- The fields of SELF without a guard: MAJOR 0x2F, xd in bits [18:16], FN = 5, all others zero (R200, R278). -/
theorem decTask_self : ∀ d : Reg, fld (0x2F * 2 ^ 19 + d.toNat * 2 ^ 16 + 5 * 2 ^ 7) 19 6 = 0x2F ∧
    decTask (0x2F * 2 ^ 19 + d.toNat * 2 ^ 16 + 5 * 2 ^ 7) = .ok (.self ⟨0, false, 0⟩ d) := by decide

end Sys2Proof

namespace Sys2Proof.Machine

/-- A mask of all twelve bytes takes the whole new value. -/
theorem mergeBytes_all (new old : XReg) : mergeBytes 0xFFF new old = new := by
  have hmask : ∀ q < 12, (0xFFF : BitVec 12).getLsbD q = true := by decide
  apply BitVec.eq_of_getLsbD_eq
  intro i hi
  rw [getLsbD_mergeBytes _ _ _ _ hi, hmask _ (by omega), if_pos rfl]

/-- A fixed-latency result of all twelve bytes, without flags, leaves the state that `issued` names. -/
theorem resultAll_issOf (s : State) (i : Instr) (hd : Hdr) (w n L : Nat) (h : Held) (d : Reg) (v : XReg) :
    s.result (s.issOf i w n h) hd.s L d 0xFFF v = s.issued hd w n (h.write (s.cycOf n) L d v) := by
  rw [result_issOf, flagAt_zero, mergeBytes_all]

/-- A register given a `.D` value holds it in bytes 0 to 7. -/
theorem extractLsb'_low_xSetD (x : XReg) (v : Dword) : (xSetD x v).extractLsb' 0 64 = v := by
  rw [xSetD, BitVec.extractLsb'_append_eq_of_add_le (by decide), BitVec.extractLsb'_eq_self]

/-- And what it held in bytes 8 to 11. -/
theorem extractLsb'_high_xSetD (x : XReg) (v : Dword) : (xSetD x v).extractLsb' 64 32 = x.extractLsb' 64 32 := by
  rw [xSetD, BitVec.extractLsb'_append_eq_of_le (by decide), Nat.sub_self, BitVec.extractLsb'_eq_self]

/-- A number placed at bit `p` stands in the field that begins there. -/
theorem extractLsb'_ofNat_mul_two_pow {w p m : Nat} (h : p + m ≤ w) (k : Nat) :
    (BitVec.ofNat w (k * 2 ^ p)).extractLsb' p m = BitVec.ofNat m k := by
  apply BitVec.eq_of_getLsbD_eq
  intro i hi
  have hw : p + i < w := by omega
  simp only [BitVec.getLsbD_extractLsb', BitVec.getLsbD_ofNat, Nat.testBit_mul_two_pow, hi, hw, decide_true, Bool.true_and, Nat.le_add_right,
    Nat.add_sub_cancel_left]

/-- The whole register is the result: the identifier in bytes 0 to 7, the IU's number above it. -/
theorem exec_self {s : State} {hd : Hdr} {d : Reg} {n : Nat} {h : Held} (hi : s.issuing hd [] [d] n h) :
    exec (.self hd d) s = .next (s.issued hd 1 n
      (h.write (s.cycOf n) 8 d (xSetD (BitVec.ofNat 96 (n / 16 * 2 ^ 64)) (BitVec.ofNat 64 h.id)))) := by
  rw [← resultAll_issOf s (.self hd d)]
  exact run_shape_issuing _ hi

/-- Settles O33: the word decodes through its MAJOR, and both parts of the register that SELF writes read back. -/
theorem selfResult : Obligations.SelfResult := by
  refine ⟨fun d v => ?word, fun s hd d n h hi => ⟨_, exec_self hi, ?identifier, ?iuNumber⟩⟩
  case word =>
    obtain ⟨hmajor, hdec⟩ := decTask_self d
    rw [decodeWords_major2F hmajor, hdec]
  case identifier => exact extractLsb'_low_xSetD _ _
  case iuNumber => rw [extractLsb'_high_xSetD, extractLsb'_ofNat_mul_two_pow (by decide)]

end Sys2Proof.Machine
end
